-- ==== Sys2Proof/Word.lean ====
section
/-!
DEFINITION. Word.lean: the widths of the machine's values (00_scope R3, R6; 07 R152; 08 R179).
-/
namespace Sys2Proof

/-- One byte of memory. -/
abbrev Byte := BitVec 8
/-- A scalar instruction word, a lane register's element (R6, R179). -/
abbrev Word := BitVec 32
/-- A scalar register, a generic pointer, a doubleword (R179, R221). -/
abbrev DWord := BitVec 64
/-- A lane instruction: three little-endian words, bits 31..0 at the lowest address (R6, R381). -/
abbrev LaneWord := BitVec 96
/-- An active mask, a predicate: bit `i` is lane `i`, 1,024 lanes at most (R152). -/
abbrev Mask := BitVec 1024

end Sys2Proof
end

