-- ==== Sys2Proof/Machine/Bits.lean ====
section
/-!
DEFINITION. Machine/Bits.lean: bit fields, extensions, byte order and the sparse cells that hold memory,
arrays, code and registers.
-/
namespace Sys2Proof.Machine

/-- Bits `hi..lo` of a number, both ends included (R3). -/
def fld (x hi lo : Nat) : Nat := (x >>> lo) % 2 ^ (hi + 1 - lo)

/-- Bit `i` of a number. -/
def bit (x i : Nat) : Bool := x.testBit i

/-- 1 or 0. -/
def b2n (b : Bool) : Nat := if b then 1 else 0

/-- Sign extension of a `w`-bit number to an integer (R7 `sext`, R412 `s`). -/
def sextN (w x : Nat) : Int := if x % 2 ^ w ≥ 2 ^ (w - 1) then (x % 2 ^ w : Nat) - (2 ^ w : Nat) else (x % 2 ^ w : Nat)

/-- The residue of an integer modulo `2^w`, as a number. -/
def wrapN (w : Nat) (x : Int) : Nat := (x % (2 ^ w : Nat)).toNat

/-- Bytes of a number, least significant first (R3). -/
def leBytes : Nat → Nat → List Byte
  | 0, _ => []
  | n + 1, x => BitVec.ofNat 8 x :: leBytes n (x >>> 8)

/-- The number that a byte string holds, least significant byte first (R3). -/
def ofBytes : List Byte → Nat
  | [] => 0
  | b :: bs => b.toNat + 256 * ofBytes bs

/-- Round up to a multiple of `k`. -/
def alignUp (x k : Nat) : Nat := (x + (k - 1)) / k * k

/-- Number of set bits among the low `n` bits. -/
def popcount : Nat → Nat → Nat
  | 0, _ => 0
  | n + 1, x => x % 2 + popcount n (x / 2)

/-- Zero bits above the highest set bit of an `n`-bit number; `n` when it is zero. -/
def clzN : Nat → Nat → Nat
  | 0, _ => 0
  | n + 1, x => if x.testBit n then 0 else 1 + clzN n x

/-- The indices below `n` at which `p` holds, rising. -/
def indices (n : Nat) (p : Nat → Bool) : List Nat := (List.range n).filter p

/-! Sparse cells: keys strictly rising, no entry holding zero. What an unlisted key reads is zero: the
wipe clears every memory, register file, code memory and array (R113). -/

/-- Sparse storage of `w`-bit values by key. -/
abbrev Cells (w : Nat) := List (Nat × BitVec w)

/-- The value at a key; zero when unlisted. -/
def Cells.get {w} : Cells w → Nat → BitVec w
  | [], _ => 0#w
  | (k, v) :: t, a => if a = k then v else Cells.get t a

/-- Remove a key. -/
def Cells.del {w} (m : Cells w) (a : Nat) : Cells w := m.filter fun e => e.1 ≠ a

/-- Add a value at a key that is not listed, in the order of the keys. -/
def Cells.ins {w} : Cells w → Nat → BitVec w → Cells w
  | [], a, v => [(a, v)]
  | (k, u) :: t, a, v => if a < k then (a, v) :: (k, u) :: t else (k, u) :: Cells.ins t a v

/-- Write a value, keeping the canonical form: writing zero removes the entry. -/
def Cells.put {w} (m : Cells w) (a : Nat) (v : BitVec w) : Cells w :=
  if v = 0#w then m.del a else (m.del a).ins a v

/-- Every key of the list is above `lo` and rising, and no value is zero. -/
def Cells.above {w} : Nat → Cells w → Bool
  | _, [] => true
  | lo, (k, v) :: t => decide (lo < k) && decide (v ≠ 0#w) && Cells.above k t

/-- The canonical form. -/
def Cells.wf {w} : Cells w → Bool
  | [] => true
  | (k, v) :: t => decide (v ≠ 0#w) && Cells.above k t

/-- Drop every entry whose key satisfies `p` (those keys read zero). -/
def Cells.drop {w} (m : Cells w) (p : Nat → Bool) : Cells w := m.filter fun c => !p c.1

/-- Write consecutive bytes from an address. -/
def Cells.putBytes (m : Cells 8) (a : Nat) : List Byte → Cells 8
  | [] => m
  | b :: bs => Cells.putBytes (m.put a b) (a + 1) bs

/-- Read `n` consecutive bytes. -/
def Cells.getBytes (m : Cells 8) (a : Nat) : Nat → List Byte
  | 0 => []
  | n + 1 => m.get a :: Cells.getBytes m (a + 1) n

/-! Keyed structures: keys strictly rising; a key that is not listed reads the default given. -/

/-- Structures by key. -/
abbrev KMap (α : Type) := List (Nat × α)

/-- The structure at a key, or the default. -/
def KMap.get {α} (d : α) : KMap α → Nat → α
  | [], _ => d
  | (k, v) :: t, a => if a = k then v else KMap.get d t a

/-- Remove a key. -/
def KMap.erase {α} (m : KMap α) (a : Nat) : KMap α := m.filter fun e => e.1 ≠ a

/-- Add a structure at a key that is not listed, in the order of the keys. -/
def KMap.ins {α} : KMap α → Nat → α → KMap α
  | [], a, v => [(a, v)]
  | (k, u) :: t, a, v => if a < k then (a, v) :: (k, u) :: t else (k, u) :: KMap.ins t a v

/-- Replace or add the structure at a key. -/
def KMap.set {α} (m : KMap α) (a : Nat) (v : α) : KMap α := (m.erase a).ins a v

/-- Replace the structure at a key that is listed, where it stands. -/
def KMap.replace {α} : KMap α → Nat → α → KMap α
  | [], _, _ => []
  | (k, u) :: t, a, v => if a = k then (k, v) :: t else (k, u) :: KMap.replace t a v

/-- Replace the structure at a key where it stands, or add it. -/
def KMap.put {α} (m : KMap α) (a : Nat) (v : α) : KMap α :=
  if m.any fun e => decide (e.1 = a) then m.replace a v else m.ins a v

/-- Replace the element at an index of a list. A list that is too short is filled up with the default, which is what its
missing elements read as. -/
def setAt {α} (d : α) : List α → Nat → α → List α
  | [], 0, v => [v]
  | [], n + 1, v => d :: setAt d [] n v
  | _ :: t, 0, v => v :: t
  | h :: t, n + 1, v => h :: setAt d t n v

/-! Masks (R152). -/

/-- Lane `l` of a mask. -/
def Mask.has (m : Mask) (l : Nat) : Bool := m.getLsbD l

/-- The mask of a list of lanes. -/
def Mask.ofLanes (ls : List Nat) : Mask := ls.foldl (fun m l => m ||| (1#1024 <<< l)) 0#1024

/-- The mask of lanes `0 .. n-1`. -/
def Mask.first (n : Nat) : Mask := BitVec.ofNat 1024 (2 ^ n - 1)

/-- The lanes of a mask in ascending order (R7). -/
def Mask.lanes (m : Mask) (n : Nat) : List Nat := (List.range n).filter fun l => m.getLsbD l

/-- Lane `l` set to `b`. -/
def Mask.put (m : Mask) (l : Nat) (b : Bool) : Mask :=
  if b then m ||| (1#1024 <<< l) else m &&& ~~~(1#1024 <<< l)

end Sys2Proof.Machine
end

