-- ==== Sys2Proof/Syntax.lean ====
section
/-!
DEFINITION. Syntax.lean: one constructor per row of spec/opcode_table.json. The first part are the
device's and the outside world's indivisible events (95_what_each_step_holds.md), whose operands say
what happened; the second the scalar words of 19 R376-R380, whose operands are the fields of their
strips; the third the 72 lane instructions of 19 R384, which share the strip of R381.
-/
namespace Sys2Proof

/-- The fields of a lane instruction (R381), the opcode apart, which is the constructor. -/
structure LaneF where
  vd  : BitVec 7 := 0
  va  : BitVec 7 := 0
  vb  : BitVec 7 := 0
  vc  : BitVec 7 := 0
  kp  : BitVec 3 := 0
  kn  : BitVec 1 := 0
  ty  : BitVec 4 := 0
  la  : BitVec 4 := 0
  lr  : BitVec 3 := 0
  xs  : BitVec 3 := 0
  mode : BitVec 8 := 0
  imm : BitVec 32 := 0
deriving DecidableEq, Repr

/-- A unit that can be retired (R32, R33). -/
inductive UnitRef where
  | core (die cluster core : Nat)
  | cluster (die cluster : Nat)
deriving DecidableEq, Repr

/-- Whose key a signature verifies under (R103, R104, R106). `none`: under no key the device knows. -/
inductive Signer where
  | neroskeno | owner | none
deriving DecidableEq, Repr

/-- A signed request of R103, as the security processor reads it. `arg` is ARG, `zerosOk` says that the
zero bytes are zero, `sigZero` that SIG is 96 zero bytes, `signer` under whose key SIG verifies. -/
structure SignedRequest where
  arg     : Nat
  serial  : Nat
  nonce   : BitVec 128
  ctx     : Nat
  zerosOk : Bool
  sigZero : Bool
  signer  : Signer
deriving DecidableEq, Repr

/-- A host or debugger access to memory: `size` bytes at `addr`; `data` are the bytes of a write. -/
structure HostAccess where
  write : Bool
  addr  : Nat
  size  : Nat
  data  : List Byte
deriving DecidableEq, Repr

/-- A received flit (R58, R59): the fields of its 256 bytes, whether its errors can be corrected, and the key
under which its tag was made (keys are named by the counter of their agreement). -/
structure Flit where
  epoch : Bool
  seqNo : BitVec 12
  ackNo : BitVec 12
  correctable : Bool
  key   : Nat
  kind  : BitVec 4 := 0
  credits : BitVec 15 := 0
  reserved : BitVec 20 := 0
  payload : List Byte := List.replicate 216 0
  tag   : List Byte := List.replicate 16 0
  fec   : List Byte := List.replicate 16 0
deriving DecidableEq, Repr

/-- A firmware image as the boot ROM finds it (R98): its version, whether the key of its signature is the one whose digest
is fused, and whether the signature fits its digest. -/
structure BootImage where
  version  : Nat := 0
  fusedKey : Bool := true
  verifies : Bool := true
deriving DecidableEq, Repr

/-- What a power-on finds beside the supplies: the fused anti-rollback counter and the images of the security processor and of
the hub die (R98), and the straps `MI_SEL` (R27). -/
structure BootInputs where
  rollback : Nat := 0
  sec      : BootImage := {}
  hub      : BootImage := {}
  straps   : BitVec 2 := 0
deriving DecidableEq, Repr

/-- A low pulse on RST_N (R27): its length, and the straps that a reset samples at its end. -/
structure RstPulse where
  nanoseconds : Nat
  straps      : BitVec 2 := 0
deriving DecidableEq, Repr

/-- What a message names on the SMBus (R27): an address, and the offset of a register or the code of a command. -/
structure SmbusRef where
  addr : BitVec 7 := 0x58
  num  : Nat
deriving DecidableEq, Repr

/-- What a peer request asks for (R70: PERM bits 0, 1, 2). An atomic carries the FN of R385, its operand
and its comparand; a store the poison of each byte (R370). -/
inductive PeerKind where
  | load
  | store (data : List (Byte × Bool))
  | atomic (fn : Nat) (operand comparand : DWord)
deriving DecidableEq, Repr

/-- An inbound peer request (R65, R70) and the port that carries it. -/
structure PeerReq where
  port   : Nat
  source : Nat
  kind   : PeerKind
  impidx : Nat
  offset : Nat
  size   : Nat
deriving DecidableEq, Repr

/-- A barrier: of a gang (R172), of a die tag (R169), or the package's tag 7. -/
inductive BarrierRef where
  | gang (cluster gang : Nat)
  | die (die tag : Nat)
  | package
deriving DecidableEq, Repr

/-- Where an uncorrectable data error is found (R524): a word of device memory, or of a core's array. -/
inductive PoisonPlace where
  | memory (pa : Nat)
  | array (core offset : Nat)
  | pending (core pa : Nat)
  | mergeBuffer (die pa : Nat)
deriving DecidableEq, Repr

/-- One constructor per row of the opcode table. -/
inductive Instr where
  -- package, power, reset (01, 05)
  | powerOn (aonFirst rstHeld : Bool) (boot : BootInputs)
  | rstNPulse (pulse : RstPulse)
  | pcieFundamentalReset (link : Nat)
  | wipeComplete (ms : Nat) (verified : Bool)
  | supplyOutOfBand (domain : Nat)
  | sensorAt95c (die sensor : Nat)
  | sensorAt110c (die sensor : Nat)
  | powerWindowEnd (meanWatts hottest : Nat)
  | p2Entry
  | p2Exit
  | d3hotEntry
  | d3hotExit
  -- management and host registers (01 R27, 04 R79, 05 R117)
  | mctpControl (command : SmbusRef)
  | mgmtRead (reg : SmbusRef)
  | mgmtWrite (reg : SmbusRef) (value : DWord)
  | hostRegisterWrite (offset : Nat) (value : DWord)
  | rstctlReset (value : DWord)
  | salvctlOpen (value : DWord)
  | pwrcapWrite (value : DWord)
  | mgtevtClear (value : DWord)
  | impctlSync (value : DWord)
  | lqsyncSync (value : DWord)
  | biasreqGo (value : DWord)
  | biasFlipComplete
  -- security (05)
  | debugUnlock (r : SignedRequest)
  | lifecycleChange (r : SignedRequest)
  | lifecycleBurnDone
  | getVersion
  | getCapabilities
  | negotiateAlgorithms
  | getDigests
  | getCertificate
  | challenge
  | getMeasurements (index : Nat) (signed : Bool)
  | spdmUnsupportedRequest (code : Nat)
  -- host accesses (04 R76-R84, 05 R116-R121)
  | hostCxlAccess (a : HostAccess)
  | hostDma (a : HostAccess)
  | hostAccessBlocked (a : HostAccess)
  | salvageRead (addr size : Nat)
  | fatalError (die kind unit addr : Nat)
  -- retirement and repair (01 R32-R35)
  | retireUnit (u : UnitRef)
  | hbmChannelRepair (stack channel : Nat)
  | linkLaneRetire (port : Nat)
  -- Cassen link (03)
  | flitReceive (port : Nat) (f : Flit)
  | replayRequest (port : Nat) (seqNo : BitVec 12)
  | portRetrainDone (port : Nat) (within2ms : Bool)
  | rolloverCountReached (port : Nat)
  | rolloverTimerExpired (port : Nat)
  | keyAgreementComplete (port : Nat) (outgoing testKey : Bool)
  | keyReady (port : Nat)
  | oldEpochDrained (port : Nat)
  | keyRetire (port : Nat)
  | keyDone (port : Nat)
  | keyReadyTimeout (port : Nat)
  | keyDoneTimeout (port : Nat)
  | peerRequest (r : PeerReq)
  | peerResponse (id code : Nat) (data : List Byte)
  | peerTimeout (id : Nat)
  -- launch engine and placement (04, 06)
  | lqService (queue : Nat)
  | counterTrigger (launch : Nat)
  | placementTurn
  | childPlacement (die : Nat)
  | waveSave (wave : Nat)
  | waveResume (wave : Nat)
  | waveRetire (wave : Nat)
  | trackerDrain (core entry : Nat)
  | gridEnd (launch : Nat)
  | contextEndByHost (ctx : Nat)
  | parityError (wave frag : Nat)
  | claimDeadlockBreak (core : Nat)
  | blockGrant (core : Nat)
  | drowsyTimeout (wave : Nat)
  | gLineExpiry (core line : Nat)
  | messageArrival (cluster : Nat)
  -- tun, monitors, barriers, engines (13, 16, 07, 15)
  | tunEnter (desc mode wave frag : Nat)
  | tunLeave (desc wave : Nat)
  | tunKill (desc : Nat)
  | tunWithdraw (desc wave : Nat)
  | tunClear (desc wave frag : Nat)
  | monitorTrigger (wave : Nat)
  | mwaitTimeout (wave frag : Nat)
  | barrierPhaseComplete (b : BarrierRef)
  | copyComplete (id : Nat)
  | gatherComplete (cluster : Nat)
  | peerTransferComplete (id : Nat)
  | cfetchComplete (core segment : Nat)
  | mmaStep (cluster : Nat)
  | matrixExecute (cluster : Nat)
  | debugHaltRequest (wave : Nat)
  | debugRegisterRead (wave reg tangent lane : Nat)
  | powerRemoval (aonLast : Bool)
  | uncorrectableDataError (p : PoisonPlace)
  | debugResume (wave : Nat)
  | debugMemoryAccess (ctx : Nat) (a : HostAccess)
  | memoryAccessPerformed (die line : Nat)
  -- scalar words (19 R379, R380)
  | trapz (x : BitVec 26)
  | salu (d a b : BitVec 6) (w : BitVec 1) (op : BitVec 6)
  | addi (d a : BitVec 6) (imm : BitVec 14)
  | andi (d a : BitVec 6) (imm : BitVec 14)
  | ori (d a : BitVec 6) (imm : BitVec 14)
  | xori (d a : BitVec 6) (imm : BitVec 14)
  | shli (d a sh : BitVec 6)
  | shri (d a sh : BitVec 6)
  | sari (d a sh : BitVec 6)
  | movh (d : BitVec 6) (imm : BitVec 20)
  | cmp (c : BitVec 3) (a b : BitVec 6) (cond : BitVec 3)
  | cmpi (cond c : BitVec 3) (a : BitVec 6) (imm : BitVec 14)
  | sel (d a b : BitVec 6) (c : BitVec 3)
  | sld (d a : BitVec 6) (sz : BitVec 2) (off : BitVec 12)
  | sst (d a : BitVec 6) (sz : BitVec 2) (off : BitVec 12)
  | samo (d a b : BitVec 6) (ar : BitVec 1) (scope : BitVec 3) (op : BitVec 3)
  | br (off : BitVec 22)
  | bc (c : BitVec 3) (n : BitVec 1) (off : BitVec 22)
  | call (ws : BitVec 4) (off : BitVec 22)
  | callr (a : BitVec 6) (ws : BitVec 4)
  | ret (a : BitVec 6)
  | jr (a : BitVec 6)
  | jseg (seg : BitVec 4) (blk : BitVec 8)
  | jsegReg (a : BitVec 6)
  | cfetch (seg : BitVec 4) (ln : BitVec 1) (a : BitVec 6)
  | lpc (seg : BitVec 4) (blk : BitVec 8)
  | lpcReg (a : BitVec 6)
  | lissue (n : BitVec 4)
  | dual (k : BitVec 2) (n : BitVec 4)
  | fmt (sel : BitVec 4) (a : BitVec 6) (imm : BitVec 14)
  | xlat (x : BitVec 3) (a : BitVec 6)
  | split (k : BitVec 3) (n : BitVec 1) (t r : BitVec 11)
  | gjoin (d a : BitVec 6)
  | rolesw (r : BitVec 4)
  | claim (d a : BitVec 6)
  | yield (d a : BitVec 6)
  | spawn (a : BitVec 6)
  | exitK (k : BitVec 6)
  | bar (t : BitVec 3)
  | renter (a : BitVec 6) (mode : BitVec 3)
  | rleave (a : BitVec 6)
  | rclr (a : BitVec 6)
  | cpy (a : BitVec 6)
  | cbatch (d : BitVec 6)
  | cwait (a : BitVec 6)
  | mon (a : BitVec 6)
  | mwait (a b : BitVec 6) (cond : BitVec 2)
  | fence (scope : BitVec 3) (kind : BitVec 2)
  | fenceX (scope : BitVec 3) (kind : BitVec 2) (cla clb : BitVec 6)
  | gath (a : BitVec 6)
  | scadd (a : BitVec 6)
  | peerPut (a : BitVec 6)
  | peerGet (a : BitVec 6)
  | msend (a b : BitVec 6)
  | mrecv (a b : BitVec 6)
  | qput (a b : BitVec 6)
  | qtake (d a : BitVec 6)
  | qinit (d a : BitVec 6)
  | mma (mop a b : BitVec 6) (acc : BitVec 3) (bs as : BitVec 1)
  | mld (plate : BitVec 4) (a b : BitVec 6) (opnd : BitVec 1)
  | mdrain (a b : BitVec 6) (acc : BitVec 3) (rz : BitVec 1)
  | mzero (acc : BitVec 3)
  | msave (acc : BitVec 3)
  | mrest (acc : BitVec 3)
  | mcfg (a : BitVec 6)
  | trap (imm : BitVec 20)
  | mfsr (d : BitVec 6) (reg : BitVec 12)
  | mtsr (d : BitVec 6) (reg : BitVec 12)
  | tlbinv (a : BitVec 6)
  | spec (d : BitVec 6) (sel : BitVec 12)
  -- lane instructions (19 R384)
  | iadd (f : LaneF) | isub (f : LaneF) | imul (f : LaneF) | imulh (f : LaneF) | imad (f : LaneF)
  | iabs (f : LaneF) | ineg (f : LaneF) | imin (f : LaneF) | imax (f : LaneF)
  | and (f : LaneF) | or (f : LaneF) | xor (f : LaneF) | not (f : LaneF)
  | shl (f : LaneF) | shr (f : LaneF) | sar (f : LaneF) | rot (f : LaneF)
  | bfx (f : LaneF) | bfi (f : LaneF) | popc (f : LaneF) | clz (f : LaneF) | brev (f : LaneF)
  | icmp (f : LaneF) | isel (f : LaneF)
  | fadd (f : LaneF) | fsub (f : LaneF) | fmul (f : LaneF) | ffma (f : LaneF)
  | fmin (f : LaneF) | fmax (f : LaneF) | fmaxm (f : LaneF) | fabs (f : LaneF) | fneg (f : LaneF)
  | fcmp (f : LaneF) | frcp (f : LaneF) | frsq (f : LaneF) | fsqrt (f : LaneF) | fdiv (f : LaneF)
  | fexp2 (f : LaneF) | flog2 (f : LaneF) | fsin (f : LaneF) | fcos (f : LaneF) | fclass (f : LaneF)
  | cvt (f : LaneF) | pack (f : LaneF) | unpack (f : LaneF) | lmul (f : LaneF) | lsum (f : LaneF)
  | mov (f : LaneF) | movi (f : LaneF) | laneSel (f : LaneF) | shfl (f : LaneF) | bcast (f : LaneF)
  | vote (f : LaneF) | reduce (f : LaneF) | reduceV (f : LaneF) | scan (f : LaneF)
  | laneSpec (f : LaneF) | slc (f : LaneF)
  | ld (f : LaneF) | st (f : LaneF) | atom (f : LaneF) | pref (f : LaneF) | plw (f : LaneF)
  | rpush (f : LaneF) | rpop (f : LaneF)
  | kand (f : LaneF) | kor (f : LaneF) | kxor (f : LaneF) | knot (f : LaneF) | kmov (f : LaneF)
  | kget (f : LaneF)
  -- scalar words without operands (19 R379, R380)
  | fuse | gleave | barG | tail | exit | region | mwaitm | brk | rte | l1flush | halt | nop
deriving DecidableEq, Repr

end Sys2Proof
end

