-- ==== Sys2Proof/Machine/Fields.lean ====
section
/-!
DEFINITION. Machine/Fields.lean: which opcode a lane instruction has (19 R384) and which field values
each opcode accepts (19 R375, R382, R383; 22 R437-R459; 23 R460-R479; 13 R286).
-/
namespace Sys2Proof.Machine

/-- The opcode and the fields of a lane instruction; none for a scalar instruction or an event. -/
def laneOf : Instr → Option (Nat × LaneF)
  | .iadd f => some (0x001, f) | .isub f => some (0x002, f) | .imul f => some (0x003, f)
  | .imulh f => some (0x004, f) | .imad f => some (0x005, f) | .iabs f => some (0x006, f)
  | .ineg f => some (0x007, f) | .imin f => some (0x008, f) | .imax f => some (0x009, f)
  | .and f => some (0x00A, f) | .or f => some (0x00B, f) | .xor f => some (0x00C, f)
  | .not f => some (0x00D, f) | .shl f => some (0x00E, f) | .shr f => some (0x00F, f)
  | .sar f => some (0x010, f) | .rot f => some (0x011, f) | .bfx f => some (0x012, f)
  | .bfi f => some (0x013, f) | .popc f => some (0x014, f) | .clz f => some (0x015, f)
  | .brev f => some (0x016, f) | .icmp f => some (0x017, f) | .isel f => some (0x018, f)
  | .fadd f => some (0x040, f) | .fsub f => some (0x041, f) | .fmul f => some (0x042, f)
  | .ffma f => some (0x043, f) | .fmin f => some (0x044, f) | .fmax f => some (0x045, f)
  | .fmaxm f => some (0x046, f) | .fabs f => some (0x047, f) | .fneg f => some (0x048, f)
  | .fcmp f => some (0x049, f) | .frcp f => some (0x04A, f) | .frsq f => some (0x04B, f)
  | .fsqrt f => some (0x04C, f) | .fdiv f => some (0x04D, f) | .fexp2 f => some (0x04E, f)
  | .flog2 f => some (0x04F, f) | .fsin f => some (0x050, f) | .fcos f => some (0x051, f)
  | .fclass f => some (0x052, f) | .cvt f => some (0x080, f) | .pack f => some (0x081, f)
  | .unpack f => some (0x082, f) | .lmul f => some (0x083, f) | .lsum f => some (0x084, f)
  | .mov f => some (0x0A0, f) | .movi f => some (0x0A1, f) | .laneSel f => some (0x0A2, f)
  | .shfl f => some (0x0A3, f) | .bcast f => some (0x0A4, f) | .vote f => some (0x0A5, f)
  | .reduce f => some (0x0A6, f) | .reduceV f => some (0x0A7, f) | .scan f => some (0x0A8, f)
  | .laneSpec f => some (0x0A9, f) | .slc f => some (0x0AA, f) | .ld f => some (0x0C0, f)
  | .st f => some (0x0C1, f) | .atom f => some (0x0C2, f) | .pref f => some (0x0C3, f)
  | .plw f => some (0x0C4, f) | .rpush f => some (0x0C5, f) | .rpop f => some (0x0C6, f)
  | .kand f => some (0x100, f) | .kor f => some (0x101, f) | .kxor f => some (0x102, f)
  | .knot f => some (0x103, f) | .kmov f => some (0x104, f) | .kget f => some (0x105, f)
  | _ => none

/-- What a 7-bit operand field names (R384). -/
inductive Use where
  | none | lane | laneOrScalar | laneScalarImm | scalar | pred | cond
deriving DecidableEq, Repr

/-- How an opcode reads its fields: the four operand fields, whether LA and XS may be used. -/
structure Row where
  vd : Use := .lane
  va : Use := .lane
  vb : Use := .none
  vc : Use := .none
  la : Bool := false
  xs : Bool := false
deriving DecidableEq, Repr

/-- Bit 7 of MOD: the B operand is scalar (R383). -/
def sBit (f : LaneF) : Bool := f.mode.getLsbD 7
/-- Bit 2 of MOD in the Integer class: the B operand is sext(IMM) (R383). -/
def iBit (f : LaneF) : Bool := f.mode.getLsbD 2
/-- MOD[1]: 64-bit pair (R383, R476). -/
def pBit (f : LaneF) : Bool := f.mode.getLsbD 1
/-- MOD[0]: signed (R383, R476). -/
def gBit (f : LaneF) : Bool := f.mode.getLsbD 0
/-- SUB, MOD[6:0] (R383). -/
def sub (f : LaneF) : Nat := f.mode.toNat % 128
/-- SIZE, MOD[1:0]: the access size is `2 ^ size` bytes (R383, R461). -/
def sizeCode (f : LaneF) : Nat := f.mode.toNat % 4
/-- STR, MOD[3:2] (R253). -/
def strCode (f : LaneF) : Nat := f.mode.toNat / 4 % 4
/-- SCOPE, MOD[6:4] (R252). -/
def scopeCode (f : LaneF) : Nat := f.mode.toNat / 16 % 8
/-- SAT, MOD[2] (R383). -/
def satBit (f : LaneF) : Bool := f.mode.getLsbD 2
/-- RM, MOD[1:0] (R302). -/
def rmCode (f : LaneF) : Nat := f.mode.toNat % 4
/-- LR of A, B and C from bit 45 (R194). -/
def lrA (f : LaneF) : Bool := f.lr.getLsbD 2
def lrB (f : LaneF) : Bool := f.lr.getLsbD 1
def lrC (f : LaneF) : Bool := f.lr.getLsbD 0

/-- The operand columns of R384 (and R191 for LA, R384 for XS). `f` matters where S moves an operand. -/
def laneRow (opc : Nat) (f : LaneF) : Row :=
  match opc with
  | 0x001 | 0x002 | 0x003 | 0x004 | 0x008 | 0x009 | 0x00A | 0x00B | 0x00C
  | 0x00E | 0x00F | 0x010 | 0x011 => { vb := .laneScalarImm }
  | 0x005 => { vb := .laneScalarImm, vc := .lane }
  | 0x013 => { vb := .laneOrScalar }
  | 0x017 => { vd := .pred, vb := .laneScalarImm, vc := .cond }
  | 0x018 => { vb := .laneScalarImm, vc := .pred }
  | 0x040 | 0x041 | 0x042 | 0x044 | 0x045 | 0x046 => { vb := .laneOrScalar }
  | 0x043 => { vb := .laneOrScalar, vc := .lane }
  | 0x049 => { vd := .pred, vb := .laneOrScalar, vc := .cond }
  | 0x04A | 0x04B | 0x04C | 0x04E | 0x04F | 0x050 | 0x051 => { la := true }
  | 0x04D => { vb := .laneOrScalar, la := true }
  | 0x081 | 0x083 | 0x084 => { vb := .laneOrScalar }
  | 0x0A0 => if sBit f then { va := .none, vb := .scalar } else {}
  | 0x0A1 => { va := .none }
  | 0x0A2 => { vb := .laneOrScalar, vc := .pred }
  | 0x0A3 => { vb := .laneOrScalar, la := true }
  | 0x0A5 => { vd := .pred, va := .pred }
  | 0x0A6 => { vd := .scalar, la := true }
  | 0x0A7 | 0x0A8 => { la := true }
  | 0x0A9 => { va := .none }
  | 0x0AA => { la := true, xs := true }
  | 0x0C0 => { la := true, xs := true }
  | 0x0C1 => { vd := .none, vb := .laneOrScalar, xs := true }
  | 0x0C2 => { vb := .laneOrScalar, vc := if f.imm.toNat % 16 = 11 then .lane else .none,
               la := true, xs := true }
  | 0x0C3 => { vd := .none, xs := true }
  | 0x0C4 => { vd := .none, vb := .laneOrScalar }
  | 0x0C5 => { vd := .none, vb := .scalar }
  | 0x0C6 => { va := .none, vb := .scalar, la := true }
  | 0x100 | 0x101 | 0x102 => { vd := .pred, va := .pred, vb := .pred }
  | 0x103 => { vd := .pred, va := .pred }
  | 0x104 => { vd := .pred, va := .none, vb := .scalar }
  | 0x105 => { vd := .scalar, va := .pred }
  | _ => {}

/-- Is a 64-bit lane operand named (R180, R437, R472, R476, R460, R286)? -/
def isPair (opc : Nat) (f : LaneF) : Bool :=
  if opc < 0x012 || opc = 0x017 || opc = 0x018 then pBit f
  else if opc = 0x0A0 || opc = 0x0A2 then gBit f
  else if opc = 0x0A6 || opc = 0x0A7 || opc = 0x0A8 then pBit f
  else if opc = 0x0C0 || opc = 0x0C1 || opc = 0x0C2 || opc = 0x0C5 || opc = 0x0C6 then sizeCode f = 3
  else false

/-- Is the A operand of a pair instruction a pair too? The A of `LD`, `ST` and `ATOM` is an address (R460). -/
def pairA (opc : Nat) (f : LaneF) : Bool := isPair opc f && !(0x0C0 ≤ opc && opc ≤ 0x0C2)

/-- Does a 7-bit field hold a value its use allows (R375)? `pair` asks even lane registers. -/
def useOk (u : Use) (x : BitVec 7) (pair s i : Bool) : Bool :=
  let lane := !pair || x.toNat % 2 = 0
  match u with
  | .none => x.toNat = 0
  | .lane => lane
  | .laneOrScalar => if s then x.toNat < 64 else lane
  | .laneScalarImm => if i then x.toNat = 0 && !s else if s then x.toNat < 64 else lane
  | .scalar => x.toNat < 64
  | .pred | .cond => x.toNat < 8

/-- Does the B field name a lane register that is read? -/
def bIsLane (opc : Nat) (f : LaneF) : Bool :=
  match (laneRow opc f).vb with
  | .lane => true
  | .laneOrScalar => !sBit f
  | .laneScalarImm => !sBit f && !iBit f
  | _ => false

/-- The bit count of a format code (R290). -/
def fmtBits (c : Nat) : Nat :=
  match c with
  | 0 => 32 | 1 | 2 | 13 | 14 => 16 | 3 | 4 | 5 | 6 | 10 => 8 | 7 | 8 | 11 => 4 | 9 => 6 | 12 => 2
  | _ => 24

/-- The width of a format in a lane (R450): A24 counts as 32. -/
def laneWidth (c : Nat) : Nat := if c = 15 then 32 else fmtBits c

/-- The granule of a position (R450). -/
def granule (c : Nat) : Nat := if c = 9 then 2 else laneWidth c

/-- A position is a multiple of the format's granule and the element fits the lane (R450). -/
def posOk (c pos : Nat) : Bool := pos % granule c = 0 && pos + laneWidth c ≤ 32

/-- The integer formats of R450 (I8, U8, I4, U4, T2, I16, U16). -/
def fmtInteger (c : Nat) : Bool := c = 5 || c = 6 || c = 7 || c = 8 || c = 12 || c = 13 || c = 14

/-- TY of the Integer class: 0, 13 or 5, and a pair only with 0 (R299, R383). -/
def tyInt (f : LaneF) : Bool := f.ty = 0 || f.ty = 13 || f.ty = 5

/-- The sizes an `ATOM` function accepts (R466). -/
def atomSizeOk (fn size : Nat) : Bool :=
  if fn = 1 then size = 1 || size = 2 else if fn = 6 then size = 2 else size = 2 || size = 3

/-- Checks of TY, MOD and IMM by opcode (R383, R437-R459, R460, R466, R472-R479, R286). -/
def modeOk (opc : Nat) (f : LaneF) : Bool :=
  let m := f.mode.toNat
  let hi := m / 8 % 16          -- MOD[6:3]
  let im := f.imm.toNat
  if opc ≤ 0x011 || opc = 0x017 || opc = 0x018 then
    hi = 0 && tyInt f && (!pBit f || f.ty = 0) && (iBit f || im = 0) &&
    (if opc = 0x006 then m / 4 = 0 && gBit f           -- IABS: SGN must be 1
     else if opc = 0x007 then m / 4 = 0
     else if opc = 0x00D then m / 4 = 0 && !gBit f
     else if 0x00A ≤ opc && opc ≤ 0x011 || opc = 0x018 then !gBit f
     else true) && (opc ≠ 0x017 || f.vc.toNat < 6)
  else if opc = 0x012 || opc = 0x013 then
    f.ty = 0 && hi = 0 && !iBit f && !pBit f && (if opc = 0x012 then !sBit f else !gBit f) &&
    im / 2048 = 0 && 1 ≤ im / 32 && im / 32 ≤ 32 && im % 32 + im / 32 ≤ 32
  else if opc ≤ 0x016 then f.ty = 0 && m = 0 && im = 0
  else if opc ≤ 0x052 then
    hi = 0 && im = 0 &&
    (if opc ≤ 0x043 then f.ty.toNat ≤ 2
     else if opc ≤ 0x046 then f.ty.toNat ≤ 2 && rmCode f = 0
     else if opc ≤ 0x048 then f.ty.toNat ≤ 2 && rmCode f = 0 && !sBit f
     else if opc = 0x049 then f.ty.toNat ≤ 2 && rmCode f = 0 && !satBit f
     else if opc = 0x052 then f.ty.toNat ≤ 2 && m = 0
     else f.ty = 0 && (opc = 0x04D || !sBit f))
  else if opc = 0x080 then
    let dint := im.testBit 15
    let sint := im.testBit 14
    let sfc := im / 1024 % 16
    let dfc := f.ty.toNat
    hi = 0 && !sBit f && im / 131072 = 0 && !(dint && sint) && (!dint || dfc = 0) &&
    (!sint || sfc = 0) && (!im.testBit 16 || dint || sint) && posOk sfc (im % 32) &&
    posOk dfc (im / 32 % 32) && (!satBit f || !(dint || fmtInteger dfc))
  else if opc = 0x081 then
    hi = 0 && im / 32 = 0 && 1 ≤ f.ty.toNat && f.ty.toNat ≤ 14 && posOk f.ty.toNat im &&
    (!satBit f || !fmtInteger f.ty.toNat)
  else if opc = 0x082 then m = 0 && im / 32 = 0 && 1 ≤ f.ty.toNat && posOk f.ty.toNat im
  else if opc = 0x083 then m % 128 = 0 && im = 0 && 9 ≤ f.ty.toNat && f.ty.toNat ≤ 11
  else if opc = 0x084 then hi = 0 && im = 0 && 9 ≤ f.ty.toNat && f.ty.toNat ≤ 11
  else if opc = 0x0A0 || opc = 0x0A2 then f.ty = 0 && im = 0
  else if opc = 0x0A1 then f.ty = 0 && !sBit f
  else if opc = 0x0A3 then f.ty = 0 && im ≤ 10
  else if opc = 0x0A4 then f.ty = 0 && !sBit f && im < 1024
  else if opc = 0x0A5 then f.ty = 0 && !sBit f && im = 0
  else if opc ≤ 0x0A8 then
    let op := m / 16 % 8
    let int := m.testBit 3
    !sBit f && im = 0 && (int || op < 3) && (!m.testBit 2 || opc = 0x0A8) &&
    (int || (!pBit f && !gBit f)) && (if int then tyInt f else f.ty.toNat ≤ 2) && (!pBit f || f.ty = 0)
  else if opc = 0x0A9 then f.ty = 0 && !sBit f && im ≤ 14
  else if opc = 0x0AA then f.ty = 0 && !sBit f
  else if opc = 0x0C0 then
    f.ty = 0 && !sBit f && strCode f ≠ 3 && scopeCode f ≤ 4 && (strCode f ≠ 0 || scopeCode f = 0)
  else if opc = 0x0C1 then
    f.ty = 0 && strCode f ≠ 2 && scopeCode f ≤ 4 && (strCode f ≠ 0 || scopeCode f = 0)
  else if opc = 0x0C2 then f.ty = 0 && scopeCode f ≤ 4 && im < 16 && atomSizeOk im (sizeCode f)
  else if opc = 0x0C3 then f.ty = 0 && m < 4
  else if opc = 0x0C4 then f.ty = 0 && m % 128 = 2 && im < 16
  else if opc = 0x0C5 || opc = 0x0C6 then
    f.ty = 0 && sBit f && m / 4 % 32 = 0 && 2 ≤ m % 4 && 1 ≤ im && im < 8
  else if opc = 0x104 then f.ty = 0 && m = 128 && im < 32
  else if opc = 0x105 then f.ty = 0 && m = 0 && im < 32
  else f.ty = 0 && m = 0 && im = 0

/-- Check 4 of R374 for a lane instruction: every field holds a value its opcode accepts. -/
def laneOk (opc : Nat) (f : LaneF) : Bool :=
  let r := laneRow opc f
  let p := isPair opc f
  let i := iBit f && (opc ≤ 0x018)
  useOk r.vd f.vd p false false && useOk r.va f.va (pairA opc f) false false && useOk r.vb f.vb p (sBit f) i &&
  useOk r.vc f.vc p false false && (r.la || f.la = 0) && (r.xs || f.xs = 0) &&
  (r.vb ≠ .none || !sBit f) &&
  (!lrA f || r.va = .lane) && (!lrB f || bIsLane opc f) && (!lrC f || r.vc = .lane) &&
  modeOk opc f

/-- Check 3 of R374 for a lane instruction: the selectors (SUB, the FN of `ATOM`) that the entries list
(R385, R471-R476). -/
def laneSelectorOk (opc : Nat) (f : LaneF) : Bool :=
  if opc = 0x0A0 || opc = 0x0A2 then sub f ≤ 1
  else if opc = 0x0A1 || opc = 0x0A4 || opc = 0x0A9 || opc = 0x0AA then sub f = 0
  else if opc = 0x0A3 then sub f ≤ 3
  else if opc = 0x0A5 then sub f ≤ 2
  else if opc = 0x0A6 || opc = 0x0A7 || opc = 0x0A8 then sub f / 16 ≤ 5
  else if opc = 0x0C2 then f.imm.toNat % 16 ≤ 11
  else true

end Sys2Proof.Machine
end

