-- ==== Sys2Proof/Machine/Num.lean ====
section
/-!
DEFINITION. Machine/Num.lean: number formats and arithmetic (14 R290-R306): exact values as dyadic numbers,
one rounding, encodings, logarithmic codes, and the correctly rounded functions of R301.
-/
namespace Sys2Proof.Machine

/-- An exact value: `(-1)^neg * m * 2^e`, with signed zeros, infinities and NaN (R291). -/
inductive Num where
  | nan
  | inf (neg : Bool)
  | fin (neg : Bool) (m : Nat) (e : Int)
deriving DecidableEq, Repr

def Num.zero : Num := .fin false 0 0

/-- The sign of a value; NaN has none. -/
def Num.isNeg : Num → Bool
  | .nan => false
  | .inf n => n
  | .fin n _ _ => n

def Num.isNan : Num → Bool
  | .nan => true
  | _ => false

def Num.isZero : Num → Bool
  | .fin _ 0 _ => true
  | _ => false

def Num.neg : Num → Num
  | .nan => .nan
  | .inf n => .inf !n
  | .fin n m e => .fin (!n) m e

def Num.abs : Num → Num
  | .nan => .nan
  | .inf _ => .inf false
  | .fin _ m e => .fin false m e

/-- Multiply by a power of two. -/
def Num.scale (x : Num) (k : Int) : Num :=
  match x with
  | .fin n m e => .fin n m (e + k)
  | y => y

/-- `m` moved to exponent `lo ≤ e`. -/
def scaled (m : Nat) (e lo : Int) : Nat := m <<< (e - lo).toNat

/-- The signed integer of a finite value at exponent `lo`. -/
def signedAt (n : Bool) (m : Nat) (e lo : Int) : Int := if n then -(scaled m e lo : Int) else (scaled m e lo : Int)

/-- Exact sum. A zero sum of operands of opposite sign takes the sign `zneg` (R445). -/
def Num.addS (zneg : Bool) : Num → Num → Num
  | .nan, _ => .nan
  | _, .nan => .nan
  | .inf a, .inf b => if a = b then .inf a else .nan
  | .inf a, _ => .inf a
  | _, .inf b => .inf b
  | .fin a m e, .fin b k f =>
    let lo := min e f
    let s := signedAt a m e lo + signedAt b k f lo
    if s = 0 then .fin (if a = b then a else zneg) 0 0 else .fin (decide (s < 0)) s.natAbs lo

/-- Exact product. -/
def Num.mul : Num → Num → Num
  | .nan, _ => .nan
  | _, .nan => .nan
  | .inf a, .inf b => .inf (a != b)
  | .inf a, .fin b k _ => if k = 0 then .nan else .inf (a != b)
  | .fin a m _, .inf b => if m = 0 then .nan else .inf (a != b)
  | .fin a m e, .fin b k f => .fin (a != b) (m * k) (e + f)

/-- Compare values that are not NaN: is `x < y`? The zeros are equal. -/
def Num.lt : Num → Num → Bool
  | .nan, _ => false
  | _, .nan => false
  | .inf a, .inf b => a && !b
  | .inf a, _ => a
  | _, .inf b => !b
  | .fin a m e, .fin b k f =>
    let lo := min e f
    signedAt a m e lo < signedAt b k f lo

/-- Equal as numbers (NaN equals nothing). -/
def Num.eqv (x y : Num) : Bool := !x.isNan && !y.isNan && !x.lt y && !y.lt x

/-! ## Rounding -/

/-- The integer part of `m * 2^e` at quantum `2^q`, rounded by `rm` (R302); `sticky`: the value lies strictly
above `m * 2^e`, by less than one unit of `2^e`. -/
def roundAt (rm : Nat) (neg : Bool) (m : Nat) (e q : Int) (sticky : Bool := false) : Nat :=
  if e ≥ q then m <<< (e - q).toNat
  else
    let sh := (q - e).toNat
    let n := m >>> sh
    let rem := m % 2 ^ sh
    let half := 2 ^ (sh - 1)
    let inexact := rem ≠ 0 || sticky
    let up := match rm with
      | 0 => rem > half || (rem = half && (sticky || n % 2 = 1))
      | 1 => false
      | 2 => inexact && !neg
      | _ => inexact && neg
    if up then n + 1 else n

/-- A binary floating-point format: exponent bits, mantissa bits, bias; `e4`: F8E4, without infinities. -/
structure FFmt where
  eb   : Nat
  mb   : Nat
  bias : Int
  e4   : Bool := false
deriving DecidableEq, Repr

def f32 : FFmt := ⟨8, 23, 127, false⟩
def f16 : FFmt := ⟨5, 10, 15, false⟩
def b16 : FFmt := ⟨8, 7, 127, false⟩
def f8e4 : FFmt := ⟨4, 3, 7, true⟩
def f8e5 : FFmt := ⟨5, 2, 15, false⟩
def a24 : FFmt := ⟨8, 15, 127, false⟩

/-- The float format of a code (R290), if it is one. -/
def ffmtOf (c : Nat) : Option FFmt :=
  match c with
  | 0 => some f32 | 1 => some f16 | 2 => some b16 | 3 => some f8e4 | 4 => some f8e5 | 15 => some a24
  | _ => none

/-- Largest finite magnitude, as mantissa and exponent. -/
def FFmt.largest (f : FFmt) : Nat × Int :=
  if f.e4 then (14, (15 : Int) - f.bias - f.mb)
  else (2 ^ (f.mb + 1) - 1, (2 ^ f.eb - 2 : Nat) - f.bias - f.mb)

/-- The encoding of an exactly representable finite value. -/
def FFmt.encodeFin (f : FFmt) (neg : Bool) (n : Nat) (q : Int) : Nat :=
  let sign := b2n neg <<< (f.eb + f.mb)
  if n = 0 then sign else
  let ex := (n.log2 : Int) + q
  let emin := 1 - f.bias
  if ex < emin then sign + (n <<< (q - (emin - f.mb)).toNat)
  else
    let sh := (f.mb : Int) - n.log2
    let mant := if sh ≥ 0 then n <<< sh.toNat else n >>> (-sh).toNat
    sign + ((ex + f.bias).toNat <<< f.mb) + (mant - 2 ^ f.mb)

/-- The canonical NaN of a format code (R292). -/
def canonicalNan (c : Nat) : Nat :=
  match c with
  | 0 => 0x7FC00000 | 1 => 0x7E00 | 2 => 0x7FC0 | 3 => 0x7F | 4 => 0x7E | 15 => 0x7FC000
  | 9 => 0x30 | 10 => 0xC0 | 11 => 0xC | _ => 0

/-- Infinity of a format. -/
def FFmt.infBits (f : FFmt) (neg : Bool) : Nat := (b2n neg <<< (f.eb + f.mb)) + ((2 ^ f.eb - 1) <<< f.mb)

/-- Round a finite magnitude to the format's precision with unbounded exponent: mantissa and quantum. -/
def FFmt.roundFin (f : FFmt) (rm : Nat) (neg : Bool) (m : Nat) (e : Int) (sticky : Bool) : Nat × Int :=
  if m = 0 && !sticky then (0, 0) else
  let ex := (m.log2 : Int) + e
  let q := max ex (1 - f.bias) - f.mb
  (roundAt rm neg m e q sticky, q)

/-- Is `n * 2^q` above the largest finite? -/
def FFmt.beyond (f : FFmt) (n : Nat) (q : Int) : Bool :=
  let (lm, le) := f.largest
  let lo := min q le
  scaled n q lo > scaled lm le lo

/-- Round a value to a float format under a mode (R300): overflow gives infinity, or the largest finite where
the mode rounds toward zero from that side. F8E4 is used here for tangents only, where overflow saturates. -/
def FFmt.round (f : FFmt) (rm : Nat) (x : Num) (sticky : Bool := false) : Nat :=
  match x with
  | .nan => if f.e4 then 0x7F else (((2 ^ f.eb - 1) * 2 + 1) <<< (f.mb - 1))
  | .inf n => f.infBits n
  | .fin n m e =>
    let (k, q) := f.roundFin rm n m e sticky
    if f.beyond k q then
      if rm = 1 || (rm = 2 && n) || (rm = 3 && !n) then f.encodeFin n f.largest.1 f.largest.2
      else f.infBits n
    else f.encodeFin n k q

/-- Decode a float encoding (R291). -/
def FFmt.decode (f : FFmt) (bits : Nat) : Num :=
  let m := bits % 2 ^ f.mb
  let e := (bits >>> f.mb) % 2 ^ f.eb
  let n := (bits >>> (f.eb + f.mb)) % 2 = 1
  if f.e4 then
    if e = 15 && m = 7 then .nan
    else if e = 0 then .fin n m (1 - f.bias - f.mb) else .fin n (2 ^ f.mb + m) (e - f.bias - f.mb)
  else if e = 2 ^ f.eb - 1 then (if m = 0 then .inf n else .nan)
  else if e = 0 then .fin n m (1 - f.bias - f.mb)
  else .fin n (2 ^ f.mb + m) (e - f.bias - f.mb)

/-! ## Logarithmic formats (R290, R295-R298, R303) -/

/-- Bits of λ and steps of an octave. -/
def logShape (c : Nat) : Nat × Nat := if c = 10 then (7, 8) else if c = 9 then (5, 4) else (3, 2)

/-- T by eighths of an octave (R295). -/
def logTable (f : Nat) : Nat :=
  match f with
  | 0 => 4096 | 1 => 4467 | 2 => 4871 | 3 => 5312 | 4 => 5793 | 5 => 6317 | 6 => 6889 | _ => 7512

/-- λ in steps of a code's magnitude bits. -/
def logSteps (c bits : Nat) : Int := sextN (logShape c).1 bits

/-- The magnitude at `l` steps (R295). -/
def logValue (c : Nat) (neg : Bool) (l : Int) : Num :=
  let per := (logShape c).2
  let i := l / (per : Int)
  let f := (l % (per : Int)).toNat
  .fin neg (logTable (f * (8 / per))) (i - 12)

/-- The step of the zero code. -/
def logZero (c : Nat) : Int := -(2 ^ ((logShape c).1 - 1) : Nat)

/-- Decode a logarithmic code. -/
def logDecode (c bits : Nat) : Num :=
  let w := (logShape c).1
  let s := (bits >>> w) % 2 = 1
  let l := logSteps c bits
  if l = logZero c then (if s then .nan else .zero) else logValue c s l

/-- The code of sign and steps. -/
def logEncode (c : Nat) (neg : Bool) (l : Int) : Nat :=
  let w := (logShape c).1
  wrapN w l + (b2n neg <<< w)

/-- Largest step not above a magnitude, from a step that is not above it, in at most `n` moves. -/
def logClimb (c : Nat) (x : Num) : Nat → Int → Int
  | 0, l => l
  | n + 1, l => if x.lt (logValue c false (l + 1)) then l else logClimb c x n (l + 1)

/-- Round a finite value to a code with unbounded λ (R303): none is the zero code, otherwise the step. -/
def logRound (c rm : Nat) (neg : Bool) (m : Nat) (e : Int) : Option Int :=
  if m = 0 then none else
  let x := Num.fin false m e
  let per := ((logShape c).2 : Int)
  let small := logZero c + 1
  let l := logClimb c x 8 (((m.log2 : Int) + e) * per)
  let (lo, hi, loV) := if l < small then (none, small, Num.zero) else (some l, l + 1, logValue c false l)
  let hiV := logValue c false hi
  let twice := x.scale 1
  let sum := loV.addS false hiV
  let exact := loV.eqv x
  let loEven := match lo with
    | none => true
    | some v => v % 2 = 0
  let up := match rm with
    | 0 => sum.lt twice || (sum.eqv twice && !loEven)
    | 1 => false
    | 2 => !exact && !neg
    | _ => !exact && neg
  if up then some hi else lo

/-! ## Any format -/

/-- Exact value of an element of format `c` (R291, R293, R295). T2 0b10 reads 0. -/
def decodeFmt (c bits : Nat) : Num :=
  match ffmtOf c with
  | some f => f.decode bits
  | none =>
    if c = 9 || c = 10 || c = 11 then logDecode c bits
    else if c = 12 then
      match bits % 4 with
      | 1 => .fin false 1 0
      | 3 => .fin true 1 0
      | _ => .zero
    else
      let w := fmtBits c
      let v : Int := if c = 6 || c = 8 || c = 14 then (bits % 2 ^ w : Nat) else sextN w bits
      .fin (decide (v < 0)) v.natAbs 0

/-- Least and greatest value of an integer format. -/
def intRange (c : Nat) : Int × Int :=
  if c = 12 then (-1, 1)
  else
    let w := fmtBits c
    if c = 6 || c = 8 || c = 14 then (0, (2 ^ w - 1 : Nat)) else (-(2 ^ (w - 1) : Nat), (2 ^ (w - 1) - 1 : Nat))

/-- A finite value rounded to an integer. -/
def roundInt (rm : Nat) (neg : Bool) (m : Nat) (e : Int) : Int :=
  let n := roundAt rm neg m e 0
  if neg then -(n : Int) else (n : Int)

/-- A wide integer destination (R306): rounded, clamped; NaN gives 0. -/
def toIntClamped (rm : Nat) (lo hi : Int) : Num → Int
  | .nan => 0
  | .inf n => if n then lo else hi
  | .fin n m e => max lo (min hi (roundInt rm n m e))

/-- What a narrow conversion makes of a value (R305): an element, or overflow. -/
inductive Narrow where
  | elem (bits : Nat)
  | beyond (v : Num)
deriving DecidableEq, Repr

/-- The narrow conversion of R305 of an exact value `v` (the scale already applied). The magnitude is compared with the largest
finite value, so that -128 is beyond I8. `sat`: clamp to [+0, 1] after rounding, before the range check (R451), for float and
logarithmic destinations. -/
def narrowTo (c rm : Nat) (sat : Bool) (v : Num) : Narrow :=
  let one : Num := .fin false 1 0
  match ffmtOf c with
  | some f =>
    match v with
    | .nan => .elem (if sat then 0 else canonicalNan c)
    | .inf n =>
      if sat then .elem (if n then 0 else f.encodeFin false 1 0)
      else if f.e4 then .beyond v else .elem (f.infBits n)
    | .fin n m e =>
      let (k, q) := f.roundFin rm n m e false
      if sat then .elem (if n then 0 else if one.lt (.fin false k q) then f.encodeFin false 1 0 else f.encodeFin false k q)
      else if f.beyond k q then .beyond v else .elem (f.encodeFin n k q)
  | none =>
    if c = 9 || c = 10 || c = 11 then
      let zr := logEncode c false (logZero c)
      match v with
      | .nan => .elem (if sat then zr else canonicalNan c)
      | .inf n => if sat then .elem (if n then zr else 0) else .beyond v
      | .fin n m e =>
        match logRound c rm n m e with
        | none => .elem zr
        | some l =>
          if sat then .elem (if n then zr else if l > 0 then 0 else logEncode c false l)
          else if l ≥ -(logZero c) then .beyond v else .elem (logEncode c n l)
    else
      match v with
      | .fin n m e =>
        let i := roundInt rm n m e
        if (i.natAbs : Int) > (intRange c).2 || i < (intRange c).1 then .beyond v else .elem (wrapN (fmtBits c) i)
      | _ => .beyond v

/-- The element that SAT writes for an overflow (R305). -/
def satElem (c : Nat) (v : Num) : Nat :=
  match ffmtOf c with
  | some f => match v with
    | .nan => 0
    | v => f.encodeFin v.isNeg f.largest.1 f.largest.2
  | none =>
    if c = 9 || c = 10 || c = 11 then
      match v with
      | .nan => logEncode c false (logZero c)
      | v => logEncode c v.isNeg (-(logZero c) - 1)
    else
      match v with
      | .nan => 0
      | v => wrapN (fmtBits c) (if v.isNeg then (intRange c).1 else (intRange c).2)

/-- Zero of a format (R305, OUTLIER). -/
def zeroElem (c : Nat) : Nat := if c = 9 || c = 10 || c = 11 then logEncode c false (logZero c) else 0

/-- A wide conversion to a format (R306); 32-bit integers are handled by the caller. -/
def wideTo (c rm : Nat) (v : Num) : Nat :=
  match ffmtOf c with
  | some f => f.round rm v
  | none => wrapN (fmtBits c) (toIntClamped rm (intRange c).1 (intRange c).2 v)

/-! ## Float-class elements -/

/-- SAT of a float result (R383): NaN and negatives give +0, above one gives one. -/
def satFloat (f : FFmt) (bits : Nat) : Nat :=
  match f.decode bits with
  | .nan => 0
  | v => if v.isNeg then 0 else if (Num.fin false 1 0).lt v then f.encodeFin false 1 0 else bits

/-- Sum of two encodings under a mode (R445). -/
def fAdd (f : FFmt) (rm a b : Nat) : Nat := f.round rm ((f.decode a).addS (rm = 3) (f.decode b))
/-- Difference (R445). -/
def fSub (f : FFmt) (rm a b : Nat) : Nat := f.round rm ((f.decode a).addS (rm = 3) (f.decode b).neg)
/-- Product (R445). -/
def fMul (f : FFmt) (rm a b : Nat) : Nat := f.round rm ((f.decode a).mul (f.decode b))
/-- Fused product-sum with one rounding (R445). -/
def fFma (f : FFmt) (rm a b c : Nat) : Nat :=
  f.round rm (((f.decode a).mul (f.decode b)).addS (rm = 3) (f.decode c))

/-- Order of R300: −0 below +0; neither is NaN. -/
def Num.below (x y : Num) : Bool := x.lt y || (x.isZero && y.isZero && x.isNeg && !y.isNeg)

/-- Which operand `FMIN` (or `FMAX`) returns (R446): 0 the first, 1 the second, 2 neither (both NaN). Operands
of the same encoding give the first. -/
def pickMinMax (max : Bool) (x y : Num) : Nat :=
  if x.isNan && y.isNan then 2 else if x.isNan then 1 else if y.isNan then 0
  else if max then (if x.below y then 1 else 0) else (if y.below x then 1 else 0)

/-- The encoding with sign bit cleared. -/
def clearSign (f : FFmt) (a : Nat) : Nat := a % 2 ^ (f.eb + f.mb)
/-- The encoding with sign bit inverted. -/
def flipSign (f : FFmt) (a : Nat) : Nat := a ^^^ (1 <<< (f.eb + f.mb))

def fMinMax (f : FFmt) (max : Bool) (a b : Nat) : Nat :=
  match pickMinMax max (f.decode a) (f.decode b) with
  | 0 => a
  | 1 => b
  | _ => f.round 0 .nan

def fAbs (f : FFmt) (a : Nat) : Nat := if (f.decode a).isNan then f.round 0 .nan else clearSign f a
def fNeg (f : FFmt) (a : Nat) : Nat := if (f.decode a).isNan then f.round 0 .nan else flipSign f a
/-- Greatest magnitude (R446). -/
def fMaxM (f : FFmt) (a b : Nat) : Nat := fMinMax f true (clearSign f a) (clearSign f b)

/-- The class mask of R449. -/
def fClass (f : FFmt) (a : Nat) : Nat :=
  let sub (m : Nat) (e : Int) := (m.log2 : Int) + e < 1 - f.bias
  match f.decode a with
  | .nan => if a.testBit (f.mb - 1) then 0x200 else 0x100
  | .inf n => if n then 0x001 else 0x080
  | .fin n m e =>
    if m = 0 then (if n then 0x008 else 0x010)
    else if sub m e then (if n then 0x004 else 0x020)
    else (if n then 0x002 else 0x040)

/-- `FCMP` conditions (R385, R447). -/
def fCond (cond : Nat) (x y : Num) : Bool :=
  let nan := x.isNan || y.isNan
  match cond with
  | 0 => x.eqv y
  | 1 => nan || !x.eqv y
  | 2 => x.lt y
  | 3 => !nan && !y.lt x
  | 4 => y.lt x
  | 5 => !nan && !x.lt y
  | 6 => nan
  | _ => !nan

/-! ## Correctly rounded functions of F32 (R301, R448) -/

/-- Bits of the integer square root below bit `n`, from a root so far. -/
def isqrtBits (x : Nat) : Nat → Nat → Nat
  | 0, r => r
  | n + 1, r => let t := r + 2 ^ n; if t * t ≤ x then isqrtBits x n t else isqrtBits x n r

/-- Integer square root, rounded down. -/
def isqrt (x : Nat) : Nat := isqrtBits x (x.log2 / 2 + 1) 0

/-- Quotient of two finite magnitudes, with the bit that says it is not exact. -/
def divMag (m : Nat) (e : Int) (k : Nat) (g : Int) : Nat × Int × Bool :=
  let s := 64 + k.log2
  ((m <<< s) / k, e - g - s, (m <<< s) % k ≠ 0)

/-- x / y rounded to F32. -/
def f32Div (rm : Nat) (x y : Num) : Nat :=
  match x, y with
  | .nan, _ => f32.round rm .nan
  | _, .nan => f32.round rm .nan
  | .inf _, .inf _ => f32.round rm .nan
  | .inf a, .fin b _ _ => f32.infBits (a != b)
  | .fin a _ _, .inf b => f32.encodeFin (a != b) 0 0
  | .fin a m e, .fin b k g =>
    if k = 0 then (if m = 0 then f32.round rm .nan else f32.infBits (a != b))
    else if m = 0 then f32.encodeFin (a != b) 0 0
    else let (q, e', st) := divMag m e k g; f32.round rm (.fin (a != b) q e') st

/-- Square root of x rounded to F32. -/
def f32Sqrt (rm : Nat) (x : Num) : Nat :=
  match x with
  | .nan => f32.round rm .nan
  | .inf n => if n then f32.round rm .nan else f32.infBits false
  | .fin n m e =>
    if m = 0 then f32.encodeFin n 0 0 else if n then f32.round rm .nan else
    let s : Nat := if e % 2 = 0 then 128 else 129
    let r := isqrt (m <<< s)
    f32.round rm (.fin false r ((e - s) / 2)) (r * r ≠ m <<< s)

/-- 1 / √x rounded to F32. -/
def f32Rsqrt (rm : Nat) (x : Num) : Nat :=
  match x with
  | .nan => f32.round rm .nan
  | .inf n => if n then f32.round rm .nan else f32.encodeFin false 0 0
  | .fin n m e =>
    if m = 0 then f32.infBits n else if n then f32.round rm .nan else
    let (m, e) := if e % 2 = 0 then (m, e) else (m <<< 1, e - 1)
    let s := 128 + m.log2
    let r := isqrt (2 ^ (2 * s) / m)
    f32.round rm (.fin false r (-(e / 2) - s)) (r * r * m ≠ 2 ^ (2 * s))

/-- Fraction bits of the fixed-point numbers that the transcendental functions use (log 11). -/
def fixBits : Nat := 768

/-- `Σ z^(2k+1) / (2k+1)` with sign `alt`: terms from index `k`, `t` the power. -/
def oddSeries (z2 : Nat) (alt : Bool) : Nat → Nat → Nat → Int
  | 0, _, _ => 0
  | n + 1, k, t =>
    let term : Int := (t / (2 * k + 1) : Nat)
    (if alt && k % 2 = 1 then -term else term) + oddSeries z2 alt n (k + 1) ((t * z2) >>> fixBits)

/-- atanh z, and arctan z, of a fixed-point z below 1/3. -/
def atanhFix (z : Nat) : Int := oddSeries ((z * z) >>> fixBits) false 260 0 z
def atanFix (z : Nat) : Int := oddSeries ((z * z) >>> fixBits) true 200 0 z

/-- ln 2 = 2 atanh(1/3), and π = 16 arctan(1/5) − 4 arctan(1/239), in fixed point. -/
def ln2Fix : Nat := (2 * atanhFix (2 ^ fixBits / 3)).toNat
def piFix : Nat := (16 * atanFix (2 ^ fixBits / 5) - 4 * atanFix (2 ^ fixBits / 239)).toNat

/-- `Σ t^k / k!` with step `s` (1 for exp, 2 for sine and cosine) and alternating signs when `alt`. -/
def factorialSeries (x : Nat) (s : Nat) (alt : Bool) : Nat → Nat → Nat → Bool → Int
  | 0, _, _, _ => 0
  | n + 1, k, t, sg =>
    let t' := if s = 1 then ((t * x) >>> fixBits) / (k + 1) else ((t * x) >>> fixBits) / ((k + 1) * (k + 2))
    (if sg then -(t : Int) else (t : Int)) + factorialSeries x s alt n (k + s) t' (if alt then !sg else sg)

/-- e^t of a fixed-point t in [0, 1). -/
def expFix (t : Nat) : Int := factorialSeries t 1 false 180 0 (2 ^ fixBits) false
/-- sin and cos of a fixed-point r in [0, 1). -/
def sinFix (r : Nat) : Int := factorialSeries ((r * r) >>> fixBits) 2 true 80 1 r false
def cosFix (r : Nat) : Int := factorialSeries ((r * r) >>> fixBits) 2 true 80 0 (2 ^ fixBits) false

/-- 2^x rounded to F32. -/
def f32Exp2 (rm : Nat) (x : Num) : Nat :=
  match x with
  | .nan => f32.round rm .nan
  | .inf n => if n then 0 else f32.infBits false
  | .fin n m e =>
    if m = 0 then f32.round rm (.fin false 1 0)
    else if (m.log2 : Int) + e ≥ 9 then f32.round rm (.fin false 1 (if n then -600 else 600)) n
    else
      let fx : Int := signedAt n m (e + fixBits) 0
      let i := fx / (2 ^ fixBits : Nat)
      let f := (fx % (2 ^ fixBits : Nat)).toNat
      if f = 0 then f32.round rm (.fin false 1 i)
      else f32.round rm (.fin false (expFix ((f * ln2Fix) >>> fixBits)).toNat (i - fixBits)) true

/-- log₂ x rounded to F32. -/
def f32Log2 (rm : Nat) (x : Num) : Nat :=
  match x with
  | .nan => f32.round rm .nan
  | .inf n => if n then f32.round rm .nan else f32.infBits false
  | .fin n m e =>
    if m = 0 then f32.infBits true else if n then f32.round rm .nan else
    let ex := (m.log2 : Int) + e
    if m = 2 ^ m.log2 then f32.round rm (.fin (decide (ex < 0)) ex.natAbs 0)
    else
      let z := (m <<< fixBits) / 2 ^ m.log2
      let ratio := ((z - 2 ^ fixBits) <<< fixBits) / (z + 2 ^ fixBits)
      let l := ((2 * atanhFix ratio).toNat <<< fixBits) / ln2Fix
      let v : Int := ex * (2 ^ fixBits : Nat) + l
      f32.round rm (.fin (decide (v < 0)) v.natAbs (-fixBits)) true

/-- sin x (or cos x) rounded to F32; the argument is reduced by π/2 exactly enough (log 11). -/
def f32SinCos (cos : Bool) (rm : Nat) (x : Num) : Nat :=
  match x with
  | .nan => f32.round rm .nan
  | .inf _ => f32.round rm .nan
  | .fin n m e =>
    if m = 0 then (if cos then f32.round rm (.fin false 1 0) else f32.encodeFin n 0 0)
    else
      let xx := scaled m (e + fixBits) 0
      let half := piFix / 2
      let k := (xx + half / 2) / half
      let r : Int := (xx : Int) - (k * piFix / 2 : Nat)
      let s := sinFix r.natAbs
      let s := if r < 0 then -s else s
      let c := cosFix r.natAbs
      let v : Int := match (k + if cos then 1 else 0) % 4 with
        | 0 => s
        | 1 => c
        | 2 => -s
        | _ => -c
      let v := if n && !cos then -v else v
      f32.round rm (.fin (decide (v < 0)) v.natAbs (-fixBits)) true

end Sys2Proof.Machine
end

