-- ==== Sys2Proof/Machine/Flags.lean ====
section
/-!
DEFINITION. Machine/Flags.lean: the conditions that instructions compute: of scalar comparisons (21 R416), of
`MWAIT` (16 R333), of lane comparisons (19 R385, 22 R442, R447) and of votes (23 R475).
-/
namespace Sys2Proof.Machine

/-- The condition of `CMP` and `CMPI` (R416). -/
def scalarCond (cond : BitVec 3) (a b : BitVec 64) : Bool :=
  match cond.toNat with
  | 0 => a = b
  | 1 => a ≠ b
  | 2 => a.slt b
  | 3 => !a.slt b
  | 4 => a.ult b
  | 5 => !a.ult b
  | 6 => a &&& b ≠ 0
  | _ => a &&& b = 0

/-- The condition of `MWAIT` (R333): word against comparand. -/
def mwaitCond (cond : BitVec 2) (w b : BitVec 64) : Bool :=
  match cond.toNat with
  | 0 => w = b
  | 1 => w ≠ b
  | _ => !w.slt b

/-- The value that a comparison orders by: signed or unsigned, of `n` bits. -/
def ordValue (signed : Bool) (n x : Nat) : Int := if signed then sextN n x else (x % 2 ^ n : Nat)

/-- The condition of `ICMP` on one element (R385, R442). -/
def intCond (cond : Nat) (signed : Bool) (n a b : Nat) : Bool :=
  let x := ordValue signed n a
  let y := ordValue signed n b
  match cond with
  | 0 => x = y
  | 1 => x ≠ y
  | 2 => x < y
  | 3 => x ≥ y
  | 4 => x ≤ y
  | _ => x > y

/-- The result of `VOTE` over the predicate bits of the effective lanes (R475): ANY, ALL, UNI. -/
def voteOf (op : Nat) (bits : List Bool) : Bool :=
  match op with
  | 0 => bits.any id
  | 1 => bits.all id
  | _ => bits.all id || !(bits.any id)

end Sys2Proof.Machine
end

