-- ==== Sys2Proof/WellFormed.lean ====
section
/-!
DEFINITION. WellFormed.lean: check 4 of 19 R374 as far as an instruction's own fields decide it: every
field holds a value inside the range that its map or entry gives. Fields that a form does not use are not
part of its constructor; the decoder refuses them. What depends on the machine (TANG, a system register's
mode, a register's value) is checked by the meanings.
-/
namespace Sys2Proof

/-- Are the selectors and the field values those that the maps list? A step whose instruction is not
well-formed takes the trap of R374. -/
def Instr.wellFormed (i : Instr) : Bool :=
  match Machine.laneOf i with
  | some (opc, f) => Machine.laneSelectorOk opc f && Machine.laneOk opc f
  | none =>
    match i with
    | .salu _ _ b _ op => decide (op.toNat ≤ 22) && (decide (op ≠ 19) && decide (op ≠ 20) || decide (b = 0))
    | .samo _ _ _ _ scope _ => decide (scope.toNat ≤ 4)
    | .lissue n => decide (n ≠ 0)
    | .dual _ n => decide (n ≠ 0)
    | .fmt fld _ _ => decide (fld.toNat ≤ 8)
    | .rolesw r => decide (r.toNat ≤ 3)
    | .exitK k => decide (k.toNat ≤ 7)
    | .renter _ mode => decide (mode.toNat ≤ 4)
    | .mwait _ _ cond => decide (cond ≠ 3)
    | .fence scope kind => decide (scope.toNat ≤ 4) && decide (kind ≠ 3)
    | .fenceX scope kind cla clb =>
      decide (scope.toNat ≤ 4) && decide (kind ≠ 3) && decide (cla ≠ 0) && decide (clb ≠ 0)
    | .mma _ a b _ bs as =>
      (if as = 0 then decide (a.toNat < 16) else decide (a.toNat % 2 = 0)) &&
      (if bs = 0 then decide (b.toNat < 16) else decide (b.toNat % 2 = 0))
    | .trap imm => decide (imm ≠ 0xFFFFF)
    | .spec _ q => decide (q.toNat ≤ 14) && decide (q ≠ 5) && decide (q ≠ 12) && decide (q ≠ 13)
    | _ => true

end Sys2Proof
end

