-- ==== Sys2Proof/Decode.lean ====
section
/-!
DEFINITION. Decode.lean: decoding of scalar words and lane instructions (19 R374-R387), total on any bits,
and the encoder written from the same strips. Checks 1, 2 and 3 of R374 and the zero fields of check 4 are
made here; the value ranges of check 4 are `Instr.wellFormed`. Where check 3 and check 4 both fail, check 3
decides, so the selector tests stand first.
-/
namespace Sys2Proof

/-- Why an encoding is no instruction: the cause of R374. -/
inductive DecodeError where
  | poolExec | illegalOpcode | reservedField
deriving DecidableEq, Repr

/-- What the decoder answers: an instruction, or the fate of the encoding. -/
inductive Decoded where
  | ok (i : Instr)
  | error (e : DecodeError)
deriving DecidableEq, Repr

/-- The instruction if its zero fields are zero, RESERVED-FIELD otherwise (R375). -/
def zeroFields (z : Bool) (i : Instr) : Decoded :=
  if z then .ok i else .error .reservedField

/-- Decode a scalar word whose major opcode is `op` (R379, R380; R210 for OP 0). -/
def scalarByOp (op : Nat) (w : Word) : Decoded :=
  let d := w.extractLsb' 20 6
  let a := w.extractLsb' 14 6
  let b := w.extractLsb' 8 6
  let fn := w.extractLsb' 0 8
  let imm := w.extractLsb' 0 14
  let hi3 := w.extractLsb' 23 3
  let c3 := w.extractLsb' 20 3
  let top4 := w.extractLsb' 22 4
  let off22 := w.extractLsb' 0 22
  let low20 := w.extractLsb' 0 20
  match op with
  | 0x00 => .error .poolExec
  | 0x01 => if (w.extractLsb' 0 6).toNat > 22 then .error .illegalOpcode
            else zeroFields (w.extractLsb' 7 1 = 0) (.salu d a b (w.extractLsb' 6 1) (w.extractLsb' 0 6))
  | 0x02 => .ok (.addi d a imm)
  | 0x03 => .ok (.andi d a imm)
  | 0x04 => .ok (.ori d a imm)
  | 0x05 => .ok (.xori d a imm)
  | 0x06 => zeroFields (w.extractLsb' 6 8 = 0) (.shli d a (w.extractLsb' 0 6))
  | 0x07 => zeroFields (w.extractLsb' 6 8 = 0) (.shri d a (w.extractLsb' 0 6))
  | 0x08 => zeroFields (w.extractLsb' 6 8 = 0) (.sari d a (w.extractLsb' 0 6))
  | 0x09 => .ok (.movh d low20)
  | 0x0A => if fn.toNat > 7 then .error .illegalOpcode
            else zeroFields (hi3 = 0) (.cmp c3 a b (w.extractLsb' 0 3))
  | 0x0B => .ok (.cmpi hi3 c3 a imm)
  | 0x0C => zeroFields (w.extractLsb' 3 5 = 0) (.sel d a b (w.extractLsb' 0 3))
  | 0x0D => .ok (.sld d a (w.extractLsb' 12 2) (w.extractLsb' 0 12))
  | 0x0E => .ok (.sst d a (w.extractLsb' 12 2) (w.extractLsb' 0 12))
  | 0x0F => if (w.extractLsb' 0 4).toNat > 7 then .error .illegalOpcode
            else .ok (.samo d a b (w.extractLsb' 7 1) (w.extractLsb' 4 3) (w.extractLsb' 0 3))
  | 0x10 => zeroFields (top4 = 0) (.br off22)
  | 0x11 => .ok (.bc hi3 (w.extractLsb' 22 1) off22)
  | 0x12 => .ok (.call top4 off22)
  | 0x13 => zeroFields (d = 0 ∧ b = 0 ∧ w.extractLsb' 4 4 = 0) (.callr a (w.extractLsb' 0 4))
  | 0x14 => zeroFields (d = 0 ∧ imm = 0) (.ret a)
  | 0x15 => zeroFields (d = 0 ∧ imm = 0) (.jr a)
  | 0x16 =>
    if w.extractLsb' 20 1 = 0
    then zeroFields (w.extractLsb' 21 1 = 0 ∧ w.extractLsb' 0 12 = 0) (.jseg top4 (w.extractLsb' 12 8))
    else zeroFields (w.extractLsb' 21 1 = 0 ∧ top4 = 0 ∧ w.extractLsb' 12 8 = 0 ∧ w.extractLsb' 0 6 = 0)
      (.jsegReg (w.extractLsb' 6 6))
  | 0x17 => zeroFields (w.extractLsb' 20 1 = 0 ∧ w.extractLsb' 12 8 = 0 ∧ w.extractLsb' 0 6 = 0)
      (.cfetch top4 (w.extractLsb' 21 1) (w.extractLsb' 6 6))
  | 0x18 =>
    if w.extractLsb' 20 1 = 0
    then zeroFields (w.extractLsb' 21 1 = 1 ∧ w.extractLsb' 0 12 = 0) (.lpc top4 (w.extractLsb' 12 8))
    else zeroFields (w.extractLsb' 21 1 = 1 ∧ top4 = 0 ∧ w.extractLsb' 12 8 = 0 ∧ w.extractLsb' 0 6 = 0)
      (.lpcReg (w.extractLsb' 6 6))
  | 0x19 => zeroFields (off22 = 0) (.lissue top4)
  | 0x1A => zeroFields (low20 = 0) (.dual (w.extractLsb' 24 2) (w.extractLsb' 20 4))
  | 0x1B => zeroFields (w.extractLsb' 20 2 = 0) (.fmt top4 a imm)
  | 0x1C => zeroFields (c3 = 0 ∧ imm = 0) (.xlat hi3 a)
  | 0x1D => .ok (.split hi3 (w.extractLsb' 22 1) (w.extractLsb' 11 11) (w.extractLsb' 0 11))
  | 0x1E => zeroFields (w.extractLsb' 0 26 = 0) .fuse
  | 0x1F => match fn.toNat with
    | 0 => zeroFields (b = 0) (.gjoin d a)
    | 1 => zeroFields (d = 0 ∧ a = 0 ∧ b = 0) .gleave
    | 2 => zeroFields (d = 0 ∧ a = 0 ∧ b = 0) .barG
    | _ => .error .illegalOpcode
  | 0x20 => zeroFields (off22 = 0) (.rolesw top4)
  | 0x21 => match fn.toNat with
    | 0 => zeroFields (b = 0) (.claim d a)
    | 1 => zeroFields (b = 0) (.yield d a)
    | _ => .error .illegalOpcode
  | 0x22 => if fn ≠ 0 then .error .illegalOpcode else zeroFields (d = 0 ∧ b = 0) (.spawn a)
  | 0x23 => match fn.toNat with
    | 0 => zeroFields (d = 0 ∧ a = 0 ∧ b = 0) .tail
    | 1 => zeroFields (d = 0 ∧ a = 0 ∧ b = 0) .exit
    | 2 => zeroFields (d = 0 ∧ b = 0) (.exitK a)
    | _ => .error .illegalOpcode
  | 0x24 => zeroFields (w.extractLsb' 0 23 = 0) (.bar hi3)
  | 0x25 =>
    let z := d = 0 ∧ b = 0 ∧ w.extractLsb' 7 1 = 0 ∧ w.extractLsb' 3 1 = 0
    match (w.extractLsb' 0 3).toNat with
    | 0 => zeroFields z (.renter a (w.extractLsb' 4 3))
    | 1 => zeroFields (z ∧ w.extractLsb' 4 3 = 0) (.rleave a)
    | 2 => zeroFields (z ∧ w.extractLsb' 4 3 = 0) (.rclr a)
    | _ => .error .illegalOpcode
  | 0x26 => if fn ≠ 0 then .error .illegalOpcode else zeroFields (d = 0 ∧ b = 0) (.cpy a)
  | 0x27 => match fn.toNat with
    | 0 => zeroFields (a = 0 ∧ b = 0) (.cbatch d)
    | 1 => zeroFields (d = 0 ∧ b = 0) (.cwait a)
    | _ => .error .illegalOpcode
  | 0x28 => match (w.extractLsb' 0 2).toNat with
    | 0 => zeroFields (d = 0 ∧ b = 0 ∧ w.extractLsb' 2 6 = 0) (.mon a)
    | 1 => zeroFields (d = 0 ∧ w.extractLsb' 4 4 = 0) (.mwait a b (w.extractLsb' 2 2))
    | _ => .error .illegalOpcode
  | 0x29 =>
    if w.extractLsb' 8 1 = 0
    then zeroFields (w.extractLsb' 0 21 = 0) (.fence hi3 (w.extractLsb' 21 2))
    else zeroFields (fn = 0)
      (.fenceX hi3 (w.extractLsb' 21 2) (w.extractLsb' 15 6) (w.extractLsb' 9 6))
  | 0x2A => if fn ≠ 0 then .error .illegalOpcode else zeroFields (d = 0 ∧ b = 0) (.gath a)
  | 0x2B => if fn ≠ 0 then .error .illegalOpcode else zeroFields (d = 0 ∧ b = 0) (.scadd a)
  | 0x2C => match fn.toNat with
    | 0 => zeroFields (d = 0 ∧ b = 0) (.peerPut a)
    | 1 => zeroFields (d = 0 ∧ b = 0) (.peerGet a)
    | _ => .error .illegalOpcode
  | 0x2D => match fn.toNat with
    | 0 => zeroFields (d = 0) (.msend a b)
    | 1 => zeroFields (d = 0) (.mrecv a b)
    | _ => .error .illegalOpcode
  | 0x2E => match fn.toNat with
    | 0 => zeroFields (d = 0) (.qput a b)
    | 1 => zeroFields (b = 0) (.qtake d a)
    | 2 => zeroFields (b = 0) (.qinit d a)
    | _ => .error .illegalOpcode
  | 0x2F => zeroFields (w.extractLsb' 0 26 = 0) .region
  | 0x30 => zeroFields (w.extractLsb' 2 3 = 0)
      (.mma d a b (w.extractLsb' 5 3) (w.extractLsb' 1 1) (w.extractLsb' 0 1))
  | 0x31 => zeroFields (w.extractLsb' 24 2 = 0 ∧ w.extractLsb' 1 7 = 0)
      (.mld (w.extractLsb' 20 4) a b (w.extractLsb' 0 1))
  | 0x32 => zeroFields (d = 0 ∧ w.extractLsb' 1 4 = 0) (.mdrain a b (w.extractLsb' 5 3) (w.extractLsb' 0 1))
  | 0x33 => zeroFields (w.extractLsb' 8 18 = 0 ∧ w.extractLsb' 0 5 = 0) (.mzero (w.extractLsb' 5 3))
  | 0x34 => zeroFields (w.extractLsb' 8 18 = 0 ∧ w.extractLsb' 0 5 = 0) (.msave (w.extractLsb' 5 3))
  | 0x35 => zeroFields (w.extractLsb' 8 18 = 0 ∧ w.extractLsb' 0 5 = 0) (.mrest (w.extractLsb' 5 3))
  | 0x36 => zeroFields (d = 0 ∧ imm = 0) (.mcfg a)
  | 0x37 => zeroFields (w.extractLsb' 0 26 = 0) .mwaitm
  | 0x3E => zeroFields (d = 0) (if low20 = 0xFFFFF then .brk else .trap low20)
  | 0x3F => match fn.toNat with
    | 0 => .ok (.mfsr d (w.extractLsb' 8 12))
    | 1 => .ok (.mtsr d (w.extractLsb' 8 12))
    | 2 => zeroFields (d = 0 ∧ a = 0 ∧ b = 0) .rte
    | 3 => zeroFields (d = 0 ∧ b = 0) (.tlbinv a)
    | 4 => zeroFields (d = 0 ∧ a = 0 ∧ b = 0) .l1flush
    | 5 => .ok (.spec d (w.extractLsb' 8 12))
    | 6 => zeroFields (d = 0 ∧ a = 0 ∧ b = 0) .halt
    | 7 => zeroFields (d = 0 ∧ a = 0 ∧ b = 0) .nop
    | _ => .error .illegalOpcode
  | _ => .error .illegalOpcode

/-- Decode a scalar word (R374, R376). -/
def decodeScalar (w : Word) : Decoded := scalarByOp (w.extractLsb' 26 6).toNat w

/-- The fields of the lane strip (R381). -/
def laneFields (w : LaneWord) : LaneF :=
  { vd := w.extractLsb' 79 7, va := w.extractLsb' 72 7, vb := w.extractLsb' 65 7,
    vc := w.extractLsb' 58 7, kp := w.extractLsb' 55 3, kn := w.extractLsb' 54 1,
    ty := w.extractLsb' 50 4, la := w.extractLsb' 46 4, lr := w.extractLsb' 43 3,
    xs := w.extractLsb' 40 3, mode := w.extractLsb' 32 8, imm := w.extractLsb' 0 32 }

/-- The instruction of a lane opcode (R384). -/
def ofOpcode (opc : Nat) (f : LaneF) : Option Instr :=
  match opc with
  | 0x001 => some (.iadd f) | 0x002 => some (.isub f) | 0x003 => some (.imul f)
  | 0x004 => some (.imulh f) | 0x005 => some (.imad f) | 0x006 => some (.iabs f)
  | 0x007 => some (.ineg f) | 0x008 => some (.imin f) | 0x009 => some (.imax f)
  | 0x00A => some (.and f) | 0x00B => some (.or f) | 0x00C => some (.xor f)
  | 0x00D => some (.not f) | 0x00E => some (.shl f) | 0x00F => some (.shr f)
  | 0x010 => some (.sar f) | 0x011 => some (.rot f) | 0x012 => some (.bfx f)
  | 0x013 => some (.bfi f) | 0x014 => some (.popc f) | 0x015 => some (.clz f)
  | 0x016 => some (.brev f) | 0x017 => some (.icmp f) | 0x018 => some (.isel f)
  | 0x040 => some (.fadd f) | 0x041 => some (.fsub f) | 0x042 => some (.fmul f)
  | 0x043 => some (.ffma f) | 0x044 => some (.fmin f) | 0x045 => some (.fmax f)
  | 0x046 => some (.fmaxm f) | 0x047 => some (.fabs f) | 0x048 => some (.fneg f)
  | 0x049 => some (.fcmp f) | 0x04A => some (.frcp f) | 0x04B => some (.frsq f)
  | 0x04C => some (.fsqrt f) | 0x04D => some (.fdiv f) | 0x04E => some (.fexp2 f)
  | 0x04F => some (.flog2 f) | 0x050 => some (.fsin f) | 0x051 => some (.fcos f)
  | 0x052 => some (.fclass f) | 0x080 => some (.cvt f) | 0x081 => some (.pack f)
  | 0x082 => some (.unpack f) | 0x083 => some (.lmul f) | 0x084 => some (.lsum f)
  | 0x0A0 => some (.mov f) | 0x0A1 => some (.movi f) | 0x0A2 => some (.laneSel f)
  | 0x0A3 => some (.shfl f) | 0x0A4 => some (.bcast f) | 0x0A5 => some (.vote f)
  | 0x0A6 => some (.reduce f) | 0x0A7 => some (.reduceV f) | 0x0A8 => some (.scan f)
  | 0x0A9 => some (.laneSpec f) | 0x0AA => some (.slc f) | 0x0C0 => some (.ld f)
  | 0x0C1 => some (.st f) | 0x0C2 => some (.atom f) | 0x0C3 => some (.pref f)
  | 0x0C4 => some (.plw f) | 0x0C5 => some (.rpush f) | 0x0C6 => some (.rpop f)
  | 0x100 => some (.kand f) | 0x101 => some (.kor f) | 0x102 => some (.kxor f)
  | 0x103 => some (.knot f) | 0x104 => some (.kmov f) | 0x105 => some (.kget f)
  | _ => none

/-- Decode a lane instruction (R384, R385, R387): the opcode, then the selectors. The field values of
check 4 are `Instr.wellFormed`. -/
def decodeLane (w : LaneWord) : Decoded :=
  let f := laneFields w
  let opc := (w.extractLsb' 86 10).toNat
  match ofOpcode opc f with
  | some i => if Machine.laneSelectorOk opc f then .ok i else .error .illegalOpcode
  | none => .error .illegalOpcode

/-! The encoder, from the same strips (R376, R379-R381). -/

/-- The sum of fields, each at its lowest bit. -/
def placed : List (Nat × Nat) → Nat
  | [] => 0
  | (lo, v) :: t => v * 2 ^ lo + placed t

/-- A scalar word: the major opcode in [31:26] and the named fields, each at its lowest bit; every bit not
named is zero (R376, R379). -/
def word (op : Nat) (fs : List (Nat × Nat)) : Word := BitVec.ofNat 32 (op * 2 ^ 26 + placed fs)

/-- The scalar word of an instruction; none for a lane instruction or an event. -/
def encodeScalar : Instr → Option Word
  | .salu d a b w op => some (word 0x01 [(20, d.toNat), (14, a.toNat), (8, b.toNat), (6, w.toNat), (0, op.toNat)])
  | .addi d a imm => some (word 0x02 [(20, d.toNat), (14, a.toNat), (0, imm.toNat)])
  | .andi d a imm => some (word 0x03 [(20, d.toNat), (14, a.toNat), (0, imm.toNat)])
  | .ori d a imm => some (word 0x04 [(20, d.toNat), (14, a.toNat), (0, imm.toNat)])
  | .xori d a imm => some (word 0x05 [(20, d.toNat), (14, a.toNat), (0, imm.toNat)])
  | .shli d a sh => some (word 0x06 [(20, d.toNat), (14, a.toNat), (0, sh.toNat)])
  | .shri d a sh => some (word 0x07 [(20, d.toNat), (14, a.toNat), (0, sh.toNat)])
  | .sari d a sh => some (word 0x08 [(20, d.toNat), (14, a.toNat), (0, sh.toNat)])
  | .movh d imm => some (word 0x09 [(20, d.toNat), (0, imm.toNat)])
  | .cmp c a b cond => some (word 0x0A [(20, c.toNat), (14, a.toNat), (8, b.toNat), (0, cond.toNat)])
  | .cmpi cond c a imm => some (word 0x0B [(23, cond.toNat), (20, c.toNat), (14, a.toNat), (0, imm.toNat)])
  | .sel d a b c => some (word 0x0C [(20, d.toNat), (14, a.toNat), (8, b.toNat), (0, c.toNat)])
  | .sld d a sz off => some (word 0x0D [(20, d.toNat), (14, a.toNat), (12, sz.toNat), (0, off.toNat)])
  | .sst d a sz off => some (word 0x0E [(20, d.toNat), (14, a.toNat), (12, sz.toNat), (0, off.toNat)])
  | .samo d a b ar scope op => some (word 0x0F [(20, d.toNat), (14, a.toNat), (8, b.toNat), (7, ar.toNat), (4, scope.toNat), (0, op.toNat)])
  | .br off => some (word 0x10 [(0, off.toNat)])
  | .bc c n off => some (word 0x11 [(23, c.toNat), (22, n.toNat), (0, off.toNat)])
  | .call ws off => some (word 0x12 [(22, ws.toNat), (0, off.toNat)])
  | .callr a ws => some (word 0x13 [(14, a.toNat), (0, ws.toNat)])
  | .ret a => some (word 0x14 [(14, a.toNat)])
  | .jr a => some (word 0x15 [(14, a.toNat)])
  | .jseg seg blk => some (word 0x16 [(22, seg.toNat), (12, blk.toNat)])
  | .jsegReg a => some (word 0x16 [(20, 1), (6, a.toNat)])
  | .cfetch seg ln a => some (word 0x17 [(22, seg.toNat), (21, ln.toNat), (6, a.toNat)])
  | .lpc seg blk => some (word 0x18 [(22, seg.toNat), (21, 1), (12, blk.toNat)])
  | .lpcReg a => some (word 0x18 [(21, 1), (20, 1), (6, a.toNat)])
  | .lissue n => some (word 0x19 [(22, n.toNat)])
  | .dual k n => some (word 0x1A [(24, k.toNat), (20, n.toNat)])
  | .fmt s a imm => some (word 0x1B [(22, s.toNat), (14, a.toNat), (0, imm.toNat)])
  | .xlat x a => some (word 0x1C [(23, x.toNat), (14, a.toNat)])
  | .split k n t r => some (word 0x1D [(23, k.toNat), (22, n.toNat), (11, t.toNat), (0, r.toNat)])
  | .fuse => some 0x78000000
  | .gjoin d a => some (word 0x1F [(20, d.toNat), (14, a.toNat)])
  | .gleave => some 0x7C000001
  | .barG => some 0x7C000002
  | .rolesw r => some (word 0x20 [(22, r.toNat)])
  | .claim d a => some (word 0x21 [(20, d.toNat), (14, a.toNat)])
  | .yield d a => some (word 0x21 [(20, d.toNat), (14, a.toNat), (0, 1)])
  | .spawn a => some (word 0x22 [(14, a.toNat)])
  | .tail => some 0x8C000000
  | .exit => some 0x8C000001
  | .exitK k => some (word 0x23 [(14, k.toNat), (0, 2)])
  | .bar t => some (word 0x24 [(23, t.toNat)])
  | .renter a mode => some (word 0x25 [(14, a.toNat), (4, mode.toNat)])
  | .rleave a => some (word 0x25 [(14, a.toNat), (0, 1)])
  | .rclr a => some (word 0x25 [(14, a.toNat), (0, 2)])
  | .cpy a => some (word 0x26 [(14, a.toNat)])
  | .cbatch d => some (word 0x27 [(20, d.toNat)])
  | .cwait a => some (word 0x27 [(14, a.toNat), (0, 1)])
  | .mon a => some (word 0x28 [(14, a.toNat)])
  | .mwait a b cond => some (word 0x28 [(14, a.toNat), (8, b.toNat), (2, cond.toNat), (0, 1)])
  | .fence scope kind => some (word 0x29 [(23, scope.toNat), (21, kind.toNat)])
  | .fenceX scope kind cla clb => some (word 0x29 [(23, scope.toNat), (21, kind.toNat), (15, cla.toNat), (9, clb.toNat), (8, 1)])
  | .gath a => some (word 0x2A [(14, a.toNat)])
  | .scadd a => some (word 0x2B [(14, a.toNat)])
  | .peerPut a => some (word 0x2C [(14, a.toNat)])
  | .peerGet a => some (word 0x2C [(14, a.toNat), (0, 1)])
  | .msend a b => some (word 0x2D [(14, a.toNat), (8, b.toNat)])
  | .mrecv a b => some (word 0x2D [(14, a.toNat), (8, b.toNat), (0, 1)])
  | .qput a b => some (word 0x2E [(14, a.toNat), (8, b.toNat)])
  | .qtake d a => some (word 0x2E [(20, d.toNat), (14, a.toNat), (0, 1)])
  | .qinit d a => some (word 0x2E [(20, d.toNat), (14, a.toNat), (0, 2)])
  | .region => some 0xBC000000
  | .mma mop a b acc bs as => some (word 0x30 [(20, mop.toNat), (14, a.toNat), (8, b.toNat), (5, acc.toNat), (1, bs.toNat), (0, as.toNat)])
  | .mld plate a b opnd => some (word 0x31 [(20, plate.toNat), (14, a.toNat), (8, b.toNat), (0, opnd.toNat)])
  | .mdrain a b acc rz => some (word 0x32 [(14, a.toNat), (8, b.toNat), (5, acc.toNat), (0, rz.toNat)])
  | .mzero acc => some (word 0x33 [(5, acc.toNat)])
  | .msave acc => some (word 0x34 [(5, acc.toNat)])
  | .mrest acc => some (word 0x35 [(5, acc.toNat)])
  | .mcfg a => some (word 0x36 [(14, a.toNat)])
  | .mwaitm => some 0xDC000000
  | .trap imm => some (word 0x3E [(0, imm.toNat)])
  | .brk => some 0xF80FFFFF
  | .mfsr d reg => some (word 0x3F [(20, d.toNat), (8, reg.toNat)])
  | .mtsr d reg => some (word 0x3F [(20, d.toNat), (8, reg.toNat), (0, 1)])
  | .rte => some 0xFC000002
  | .tlbinv a => some (word 0x3F [(14, a.toNat), (0, 3)])
  | .l1flush => some 0xFC000004
  | .spec d s => some (word 0x3F [(20, d.toNat), (8, s.toNat), (0, 5)])
  | .halt => some 0xFC000006
  | .nop => some 0xFC000007
  | .trapz x => some (word 0x00 [(0, x.toNat)])
  | _ => none

/-- The 96 bits of a lane strip (R381). -/
def laneWordOf (opc : Nat) (f : LaneF) : LaneWord :=
  BitVec.ofNat 96 (placed [(86, opc), (79, f.vd.toNat), (72, f.va.toNat), (65, f.vb.toNat),
    (58, f.vc.toNat), (55, f.kp.toNat), (54, f.kn.toNat), (50, f.ty.toNat), (46, f.la.toNat),
    (43, f.lr.toNat), (40, f.xs.toNat), (32, f.mode.toNat), (0, f.imm.toNat)])

/-- The 96 bits of a lane instruction; none for a scalar instruction or an event. -/
def encodeLane (i : Instr) : Option LaneWord :=
  (Machine.laneOf i).map fun p => laneWordOf p.1 p.2

/-- The 32-bit words of an instruction, the first at the lowest address (R6); empty for an event, which has
no encoding. -/
def encode (i : Instr) : List Word :=
  match encodeScalar i with
  | some w => [w]
  | none =>
    match encodeLane i with
    | some l => [l.extractLsb' 0 32, l.extractLsb' 32 32, l.extractLsb' 64 32]
    | none => []

/-- The instruction that a word of `TRAPZ` stands for: it is refused by `decodeScalar`, and its fate is the
trap POOL-EXEC (R210). -/
def trapzOf (w : Word) : Instr := .trapz (w.extractLsb' 0 26)

/-- Decode the bytes of one instruction: four bytes are a scalar word, twelve a lane instruction, least
significant byte first (R3, R6). Any other length is refused. -/
def decodeBytes (bs : List Byte) : Decoded :=
  match bs.length with
  | 4 => decodeScalar (BitVec.ofNat 32 (Machine.ofBytes bs))
  | 12 => decodeLane (BitVec.ofNat 96 (Machine.ofBytes bs))
  | _ => .error .illegalOpcode

/-- The host's probe: the instruction of at most 96 bits numbered as spec/opcode_table.json numbers them. A
word of OP 0 is `TRAPZ`. -/
def decodeTableWord (nbits w : Nat) : Option Instr :=
  let bytes := if nbits ≤ 32 then Machine.leBytes 4 w else Machine.leBytes 12 w
  match decodeBytes bytes with
  | .ok i => some i
  | .error .poolExec => some (trapzOf (BitVec.ofNat 32 w))
  | .error _ => none

end Sys2Proof
end

