-- ==== Sys2Proof/Config.lean ====
section
/-!
DEFINITION. Config.lean: what the package is built with, and the free values: constants without a body, so
that nothing can be proved of their value. Each is named in a row of notes/assumptions.
-/
namespace Sys2Proof.Config

/-- Compute dies, clusters of a die, lane cores of a cluster, memory stacks (R16, R24). -/
def dies : Nat := 8
def clustersPerDie : Nat := 16
def coresPerCluster : Nat := 12
def memoryStacks : Nat := 16
/-- Cassen ports (R24, R57). -/
def portCount : Nat := 24
/-- Bytes of device memory: 1 TiB (R24). -/
def memoryBytes : Nat := 2 ^ 40
/-- Register blocks of a core (R184). -/
def coreBlocks : Nat := 512
/-- Launch table entries (R123). -/
def launchEntries : Nat := 1024
/-- The design limit of package power in W (R28). -/
def powerLimit : Nat := 3600

/-- FREE VALUE (log 1): cycles that pass at the issue slot with this number, beyond one. -/
opaque extraCycles : Nat → Nat
/-- FREE VALUE (log 2): the byte that host memory holds at a host physical address before any write. -/
opaque hostByte : Nat → Byte
/-- FREE VALUE (log 3): what a read of a physical address that no device has returns. -/
opaque absentByte : Nat → Byte
/-- FREE VALUE (log 4): the value that `NONCE` takes the n-th time it is renewed (R103). -/
opaque nonceValue : Nat → BitVec 128
/-- FREE VALUE (log 5): the digests of the hub and the security processor firmware (R86). -/
opaque hubDigest : BitVec 384
opaque secDigest : BitVec 384
/-- FREE VALUE (log 6): the device serial number (R103). -/
opaque serial : Nat
/-- FREE VALUE (log 7): does an RST_N pulse of 1 to 10 us, the n-th event of its kind, reset the package
(R27: not defined)? -/
opaque shortPulseResets : Nat → Bool
/-- FREE VALUE (log 9): a byte of a management or SPDM answer that DSP0236, DSP0237 and the SPDM standards, not this
spec, define. -/
opaque replyByte : Nat → Byte
/-- FREE VALUE (log 13): the hash of R68 of a node number and address bits [55:7], which the spec does not give. -/
opaque portHash : Nat → Nat → Nat
/-- FREE VALUES (log 38): the type and the credits of a flit, by what it carries and by its nonce; a byte of its payload, of
its tag and of its parity, by key and nonce, which together name the flit (R58, R61). -/
opaque flitType : Nat → BitVec 4
opaque flitCredits : Nat → BitVec 15
opaque flitCipher : Nat → Nat → Nat → Byte
opaque flitTag : Nat → Nat → Nat → Byte
opaque flitFec : Nat → Nat → Nat → Byte
/-- FREE VALUE (log 14): KIND of the syndrome when a retirement leaves a compute die without a cluster (R32, R118). -/
opaque lostDieKind : Nat

end Sys2Proof.Config
end

