-- ==== Sys2Proof/Machine/State.lean ====
section
/-!
DEFINITION. Machine/State.lean: the state of the package as plain data, what can stop a step, and the state
after reset. A wave instruction reads and writes `dev` only; power, security and package status are kept apart.
-/
namespace Sys2Proof.Machine

/-- The trap causes of R11. -/
inductive Cause where
  | illegalOpcode | reservedField | alignBranch | poolExec | segMiss | controlOnly | noLanes | windowState
  | pageFault | protection | windowSpan | misaligned | peerFault | peerTimeout | poison
  | roomOrder | roomMode | roomLimit | regionPoisoned | roomNotHeld
  | mxOverflow | accForeign | outlierFull | formatInvalid
  | msgOverflow | gangFull | spawnDepth | spawnNofit | queueMisuse
  | parityFatal | deadRead | breakpoint | software | divideByZero
deriving DecidableEq, Repr

/-! ## Power, security, package (01, 05) -/

/-- Power states (R108). -/
inductive PowerState where
  | p0 | p1 | p2 | d3hot | off
deriving DecidableEq, Repr

/-- Power, clocks and pins. -/
structure Power where
  state    : PowerState := .p0
  /-- the power limit and FREQ of `PWRCAP` (R117) -/
  limit    : Nat := 3600
  freq     : Nat := 16
  /-- the throttle step THR (R109) -/
  thr      : Nat := 16
  /-- consecutive windows at THR 8, at most 100, and the mean power of the last window (R109) -/
  floorWin : Nat := 0
  mean     : Nat := 0
  /-- a sensor stood at 95 C or above in this window (R109) -/
  hot      : Bool := false
  /-- level of RST_N, and PWROFF_REQ_N driven low (R27) -/
  rstHigh  : Bool := true
  pwroff   : Bool := false
  /-- MI_SEL straps (R27) -/
  miSel    : BitVec 2 := 0
  /-- MODEL: RST_N pulses of 1 to 10 us so far; selects the free value of log 7 -/
  pulses   : Nat := 0
deriving DecidableEq, Repr

/-- Life-cycle states (R102). -/
inductive LifeCycle where
  | manufacture | provisioned | deployed | returned | decommissioned
deriving DecidableEq, Repr

/-- Debug levels (R102, R106). -/
inductive DebugLevel where
  | none | app | full
deriving DecidableEq, Repr

/-- The security processor (R98-R107). -/
structure Security where
  life     : LifeCycle := .provisioned
  level    : DebugLevel := .none
  /-- the context of an APP level -/
  appCtx   : Nat := 0
  /-- MODEL: how often `NONCE` was renewed; its value is `Config.nonceValue` of this count -/
  nonces   : Nat := 0
  /-- a life-cycle change that waits for its burn (R105) -/
  burning  : Option LifeCycle := none
  /-- the first request of DEPLOYED to RETURNED was accepted (R104) -/
  returnAsked : Bool := false
  identityKey : Bool := true
  testKey  : Bool := false
  ownerKey : Bool := false
  /-- the fused anti-rollback counter, and the images of the security processor and the hub (R98) -/
  rollback : Nat := 0
  secImage : BootImage := {}
  hubImage : BootImage := {}
deriving DecidableEq, Repr

/-- `PKGSTAT.STATE` (R117). -/
inductive PkgState where
  | resetHold | wiping | running | fatal | salvage
deriving DecidableEq, Repr

/-- What the device last answered to a party outside: a mailbox or management read, a host read, SPDM. -/
inductive Reply where
  | none
  /-- a register or memory read: its bytes and whether it carries the poison indication -/
  | data (bytes : List Byte) (poison : Bool)
  /-- the management interface refused (R27) -/
  | error
  /-- an SPDM response: the request code and the fixed part of its contents (R85, R86) -/
  | spdm (code : Nat) (contents : List Byte) (signed : Bool)
  | spdmUnsupported
  /-- a peer request was performed, or NACKed with a code (R70) -/
  | peerDone (bytes : List Byte)
  | peerNack (code : Nat)
  /-- a debugger read: value and status (R107, R195) -/
  | debugValue (value : DWord) (status : Nat)
  /-- a replay request on a port from a sequence number, and the flits resent on one with their bytes (R59) -/
  | replay (port : Nat) (seqNo : BitVec 12)
  | resent (port : Nat) (flits : List (List Byte))
deriving DecidableEq, Repr

/-- The package: reset, wipe, syndromes, events (R112-R122). -/
structure Pkg where
  stat     : PkgState := .running
  /-- cause of the reset under way (R115 CAUSE) -/
  cause    : Nat := 0
  /-- `WIPESTAT` of the last wipe: DONE, ERR, CAUSE, RESETS, WIPEMS (R115) -/
  wipestat : DWord := 0x8000000000010000
  /-- package resets since manufacture (R114, R115) -/
  resets   : Nat := 1
  /-- a failed wipe holds every context off until power is cycled (R115) -/
  wipeErr  : Bool := false
  /-- `SYN0`-`SYN24` (R117, R118) -/
  syn      : List DWord := List.replicate 25 0
  /-- `MGTEVT` (R117) -/
  mgtevt   : DWord := 0
  /-- `PEERERR` (R72) -/
  peererr  : DWord := 0
  /-- dies that have failed since the last reset, numbered as the syndrome registers (R118, R121) -/
  failed   : BitVec 25 := 0
  /-- the hub die failed: only power-on brings the package back (R119) -/
  hubFailed : Bool := false
  /-- link 0 trained in CXL mode (R77) -/
  cxlUp    : Bool := true
  reply    : Reply := .none
deriving DecidableEq, Repr

/-! ## Cassen ports (03) -/

/-- What a flit carries: a request of this package, the answer to one, or a message of a rollover (R58, R62, R65, R70). -/
inductive FlitLoad where
  | request (id : Nat)
  | answer (code : Nat) (bytes : List Byte)
  | keyReady | keyRetire | keyDone
deriving DecidableEq, Repr

/-- A flit as it was sent (R58, R59): its header, and the key and counter that its nonce and ciphertext come from (R61). -/
structure SentFlit where
  seqNo   : BitVec 12
  epoch   : Bool
  ackNo   : BitVec 12
  key     : Nat
  counter : Nat
  load    : FlitLoad
deriving DecidableEq, Repr

/-- Where the rollover of a direction stands at its sender (R62, R64). -/
inductive Rollover where
  | idle | agreeing | awaitReady | draining | awaitDone
deriving DecidableEq, Repr

/-- The sender's side of one direction. Keys are named by the number of their agreement. -/
structure SendDir where
  slot0    : Option Nat := none
  slot1    : Option Nat := none
  epoch    : Bool := false
  /-- the transmit counter: flits sent under the current key; and the hold of new flits at 2^40 (R61) -/
  counter  : Nat := 0
  hold     : Bool := false
  roll     : Rollover := .idle
  failures : Nat := 0
  /-- replay buffer: the flits that have not been acknowledged, 512 at most (R59) -/
  buffer   : List SentFlit := []
  nextSeq  : BitVec 12 := 0
  /-- what is still to be sent, oldest first -/
  waiting  : List FlitLoad := []
deriving DecidableEq, Repr

/-- The receiver's side of one direction. -/
structure RecvDir where
  slot0    : Option Nat := none
  slot1    : Option Nat := none
  /-- a rollover of this direction is in progress at the receiver (R62 steps 1 to 5) -/
  rolling  : Bool := false
  expected : BitVec 12 := 0
  /-- epoch of the last flit that was accepted -/
  epoch    : Bool := false
  /-- the sequence numbers for which a replay was requested (R59, R60) -/
  asked    : List (BitVec 12) := []
deriving DecidableEq, Repr

/-- One Cassen port. -/
structure Port where
  /-- carries traffic -/
  up       : Bool := false
  /-- stopped and retraining (R60, R64) -/
  training : Bool := false
  send     : SendDir := {}
  recv     : RecvDir := {}
  /-- MODEL: key agreements completed so far, which names the next key -/
  agreed   : Nat := 0
deriving DecidableEq, Repr

/-! ## Host registers and units in service (01, 04) -/

/-- The registers of R79 (and `CTXBASE`, R359). -/
structure HostRegs where
  nodeid   : Nat := 0
  impbase  : Nat := 0
  impsync  : Bool := false
  biasbase : Nat := 0
  biasreq  : DWord := 0
  biasack  : Nat := 0
  biasseq  : DWord := 0
  lqtbase  : Nat := 0
  lqsync   : Bool := false
  ctxbase  : Nat := 0
deriving DecidableEq, Repr

/-- The retirement record (R32-R36). Kept over a reset. -/
structure Capability where
  /-- core masks of the 128 clusters -/
  cores    : List (BitVec 12) := List.replicate 128 0xFFF
  /-- ports in service, and ports on two lanes -/
  ports    : BitVec 24 := 0xFFFFFF
  half     : BitVec 24 := 0
  /-- stacks whose spare channel is in use -/
  spares   : BitVec 16 := 0
  replace  : Bool := false
deriving DecidableEq, Repr

/-! ## Places of bytes -/

/-- Where a byte stands: device memory (its number by address and home, `homeKey`), host memory, or a core's array (core
number `208 * die + 13 * cluster + core`). -/
inductive Loc where
  | dev (pa : Nat)
  | host (pa : Nat)
  | arr (core off : Nat)
deriving DecidableEq, Repr

/-- Consecutive bytes from a place. -/
structure Span where
  loc : Loc
  len : Nat
deriving DecidableEq, Repr

/-- Memory with its poison, which is held for each aligned word (R524). -/
structure Store where
  bytes  : Cells 8 := []
  poison : Cells 1 := []
deriving DecidableEq, Repr

/-! ## Fragments and waves (07, 08, 09, 13, 14, 17, 18) -/

/-- `FMT` (R307). -/
structure FmtReg where
  oscale  : Word := 0x3F800000
  ascale  : BitVec 8 := 0
  bscale  : BitVec 8 := 0
  afmt    : BitVec 4 := 0
  bfmt    : BitVec 4 := 0
  cfmt    : BitVec 4 := 0
  dfmt    : BitVec 4 := 0
  accrange : BitVec 8 := 0xFF
  rows    : BitVec 2 := 3
  ovfmode : BitVec 2 := 0
deriving DecidableEq, Repr

/-- A poison mark of one register word (R73): its lane register (numbered inside its window), tangent and
lane, the error it belongs to, its cause and the address to report. -/
structure Mark where
  reg   : Nat
  tang  : Nat
  lane  : Nat
  err   : Nat
  cause : Cause
  addr  : DWord
deriving DecidableEq, Repr

/-- A window of lane registers (R181-R187). Cells are keyed `(4 * register + tangent) * 1024 + lane`. -/
structure Win where
  units : Nat := 0
  cells : Cells 32 := []
  /-- dead registers (R194) -/
  dead  : BitVec 128 := 0
  marks : List Mark := []
  /-- spilt to the wave's area at this offset (R185, R186) -/
  spilt : Option Nat := none
  /-- MODEL: names the window of a call among those of its wave; the base window is 0 -/
  id    : Nat := 0
  /-- MODEL: the core's issue slot at which the window was pushed (R185) -/
  born  : Nat := 0
deriving DecidableEq, Repr

/-- A result that a lookahead window holds (R192): destination register by its name (`Wave.peerReg`; a scalar register by its
number), lanes still to be written, values keyed `4 * lane + tangent`. -/
structure Held where
  left   : Nat
  scalar : Bool := false
  reg    : Nat
  /-- MODEL: names the window among those of its wave -/
  hold   : Nat := 0
  /-- the shadows of the destination stay as they are (R357) -/
  keep   : Bool := false
  lanes  : Mask := 0
  vals   : Cells 32 := []
  sval   : DWord := 0
  marks  : List Mark := []
deriving DecidableEq, Repr

/-- What a fragment waits for (R177). -/
inductive Wait where
  /-- ready -/
  | none
  /-- until an event ends the wait -/
  | event
  /-- FUSE: until the sibling arrives -/
  | sibling
  /-- blocks to be granted (R189): how many, and whether the wait is a pre-emption point; phase 20: granted,
  21: failed by R190 -/
  | blocks (n : Nat) (point : Bool)
  /-- the role queue of the cluster to take or hold a value -/
  | queueFull (q : Nat)
  | queueEmpty (q : Nat)
  /-- the die merge buffers to be home -/
  | drain
  /-- engine commands and peer responses of the wave; peer responses alone; those of some registers (`Wave.peerReg`) -/
  | commands
  | peers
  | peerRegs (names : List Nat)
  /-- closed batches up to a number; an incomplete batch fewer than 64 -/
  | batches (b : Word)
  | batchRoom
  /-- a monitor trigger, or the core's cycle reaching a deadline -/
  | monitor (deadline : Option Nat)
  /-- the copies that the wave supplied slices to -/
  | copies
  /-- matrix instructions of the wave; room in the matrix queue -/
  | matrix
  | matrixRoom
  /-- an entry of the die's spawn queue -/
  | spawnRoom
  /-- the RENTER of another fragment of the wave to be answered (R493) -/
  | room
  /-- after a rollback: blocks for the current window, which is spilt (R185) -/
  | fill (n : Nat)
  /-- a segment to land (R218) -/
  | segment (seg : Nat)
  /-- commands that hold a translation of pages of a region: its start and size (R370) -/
  | pageUsers (start size : Nat)
  /-- the responses of peer requests, after which the rest of the last lane instruction, or what follows its acquire, comes
  (R264, R356, R462) -/
  | ordered (ids : List Nat) (acquire : Bool)
deriving DecidableEq, Repr

/-- An entry of the room table (R279). -/
structure Room where
  desc  : Nat
  /-- MODEL: where the descriptor lies (`descLoc`) -/
  place : Nat := 0
  mode  : Nat
  base  : Nat
  len   : Nat
  slot  : Nat := 0
  nslot : Nat := 0
  atype : Nat := 0
deriving DecidableEq, Repr

/-- How R284 treats an access: as memory, in a shadow of a held ACCUM room, dropped, or ROOM-MODE. -/
inductive RoomUse where
  | memory
  | shadow (r : Room)
  | dropped
  | bad
deriving DecidableEq, Repr

/-- A checked access: its address, the place of its bytes (none in the peer window), its treatment. -/
structure Access where
  addr : Nat
  loc  : Option Loc
  use  : RoomUse
deriving DecidableEq, Repr

/-- What one access of a lane instruction does. An atomic names the places of all accesses of its lane (R463). -/
inductive PartOp where
  | load (strong : Bool)
  | store (strong : Bool) (scope : Nat) (bytes : List Byte)
  | atomic (scope fn b c : Nat) (mates : List Loc)
deriving DecidableEq, Repr

/-- Where a word goes that comes later: a lane register by its name (`Wave.peerReg`), through a lookahead window while that is
open (0: none). -/
structure Late where
  name : Nat
  hold : Nat := 0
deriving DecidableEq, Repr

/-- One access of a lane instruction (R461, R356): of a lane, to its primal (0) or a tangent; `waits`: it is performed after
the responses of the accesses before it; the result goes to the words `lo` and `hi` (`plain`: it zeroes their tangents). -/
structure Part where
  lane  : Nat
  tang  : Nat
  acc   : Access
  size  : Nat
  op    : PartOp
  waits : Bool := false
  /-- it is an acquire, or a load that belongs to one (R264) -/
  acq   : Bool := false
  lo    : Option Late := none
  hi    : Option Late := none
  plain : Bool := false
deriving DecidableEq, Repr

/-- A fragment (R149, R165, R214, R215). -/
structure Frag where
  fid    : Nat := 0
  /-- scalar PC: byte offset in code memory; `fell`: it fell off its segment's last block (R212) -/
  spc    : Nat := 0
  fell   : Bool := false
  /-- lane PC in the layout of R215; `lfell` as `fell` -/
  lpc    : Nat := 0
  lfell  : Bool := false
  /-- lane instructions of the current LISSUE not yet issued (R215) -/
  lrem   : Nat := 0
  mask   : Mask := 0
  fmt    : FmtReg := {}
  /-- `DUALST` (R351) -/
  dualK  : BitVec 2 := 0
  dualRem : BitVec 4 := 0
  held   : List Held := []
  wait   : Wait := .none
  /-- how far an instruction with several phases has come -/
  phase  : Nat := 0
  /-- the instruction that has issued and waits to complete (R219); the child descriptor that its SPAWN read (R145) -/
  instr  : Option Instr := none
  desc   : List Byte := []
  /-- after RTE: the word at the scalar PC and the lane PC are checked anew (R518) -/
  resumed : Bool := false
  /-- LEPC was no lane PC at the RTE (R215) -/
  lepcBad : Bool := false
  /-- lanes in which the next instruction reissues after RTE (R235) -/
  reissue : Option Mask := none
  /-- the room that a waiting RENTER asked for, or the one that a waiting RLEAVE or RCLR names (R279-R281) -/
  asked  : Option Room := none
  /-- cycle at which a waiting MWAIT times out (R343) -/
  deadline : Option Nat := none
  /-- what an instruction that waits has taken from its register: the target of a CALLR or RET (R423, R424), the units of a CLAIM
  (R188), the address of a CFETCH with the range that it has translated (R218) -/
  taken  : Nat := 0
  range  : List Span := []
  /-- accesses of the last lane instruction that are still to be performed, in order -/
  todo   : List Part := []
  /-- ring slots that the reissued lanes keep (R286), by lane -/
  slots  : KMap Nat := []
  /-- open splits of this fragment, innermost first: split number and whether it is the taken side -/
  path   : List (Nat × Bool) := []
  /-- MODEL: the issue slot of the core at which it last issued, and the core's cycle then (R177) -/
  last   : Nat := 0
  lastCycle : DWord := 0
  /-- it is in the trap handler, as are both sides of a split there (R361, R166) -/
  inHandler : Bool := false
deriving DecidableEq, Repr

/-- An open split (R165-R167). -/
structure Split where
  id      : Nat
  rejoin  : Nat
  fmt     : FmtReg
  /-- in the spill area, its sides run one after the other (R166) -/
  serial  : Bool := false
  /-- a side that has arrived: its lanes -/
  takenIn : Option Mask := none
  fallIn  : Option Mask := none
  /-- the fall-through side of a serialised split that has not run: its start -/
  fallAt  : Option (Nat × Bool × Nat × Bool × Mask) := none
deriving DecidableEq, Repr

/-- A translation register (R230). FRAME of a scratchpad base is `core * 2^20 + array offset`. -/
structure XReg where
  base  : DWord := 0
  frame : BitVec 52 := 0
  limit : Word := 0
  attr  : BitVec 12 := 0
deriving DecidableEq, Repr

/-- The region record (R198, R200): the PCs at which a rollback continues. -/
structure Region where
  spc   : Nat := 0
  fell  : Bool := false
  lpc   : Nat := 0
  lfell : Bool := false
  mask  : Mask := 0
  fmt   : FmtReg := {}
  depth : Nat := 0
  rollbacks : Nat := 0
deriving DecidableEq, Repr

/-- The trap registers (R360). `LFADDR` by lane. -/
structure TrapRegs where
  scause : DWord := 0
  sepc   : DWord := 0
  lepc   : DWord := 0
  lrem   : DWord := 0
  stval  : DWord := 0
  kf     : Mask := 0
  lfaddr : Cells 64 := []
deriving DecidableEq, Repr

/-- A closed batch: its number and its commands (R340). -/
structure Batch where
  num  : Word
  cmds : List Nat
deriving DecidableEq, Repr

/-- A wave (R149, R161). `uid` names it in the model; the spec's own number is `waveid`. -/
structure Wave where
  uid     : Nat := 0
  /-- the launch it belongs to (its number in the launch table) and its context -/
  launch  : Nat := 0
  ctx     : Nat := 0
  waveid  : Nat := 0
  die     : Nat := 0
  cluster : Nat := 0
  core    : Nat := 0
  slot    : Nat := 0
  wlanes  : Nat := 32
  tang    : Nat := 0
  role    : Nat := 0
  gang    : Option Nat := none
  dieidx  : Nat := 0
  depth   : Nat := 0
  child   : Bool := false
  futva   : Nat := 0
  trec    : List Word := [0, 0, 0, 0]
  scratch : Nat := 0
  scrbase : Nat := 0
  /-- s0-s63 (R179), c0-c7, k1-k7 (index 0 unused), x0-x7 -/
  sregs   : Cells 64 := []
  cregs   : BitVec 8 := 0
  kregs   : List Mask := List.replicate 8 0
  xregs   : List XReg := List.replicate 8 {}
  globals : Win := { units := 1 }
  base    : Win := {}
  /-- call windows, innermost first (R183) -/
  stack   : List Win := []
  frags   : List Frag := []
  /-- MODEL: numbers for the next fragment, split, error, call window and lookahead window -/
  nextFid : Nat := 2
  nextSplit : Nat := 0
  nextErr : Nat := 0
  nextWin : Nat := 1
  nextHold : Nat := 1
  splits  : List Split := []
  rooms   : List Room := []
  region  : Region := {}
  /-- the word of an armed monitor and its place (R342) -/
  monitor : Option (DWord × Loc) := none
  batchNum : Word := 0
  openBatch : List Nat := []
  closed  : List Batch := []
  /-- `WAVECTL` (R197), `ASYNCERR` (R75) and the address it reports (R74) -/
  wavectl : DWord := 0
  asyncerr : DWord := 0
  asyncAddr : DWord := 0
  cpybase : BitVec 20 := 0
  olbase  : DWord := 0
  olcap   : DWord := 0
  oltag   : DWord := 0
  tstride : DWord := 0
  spillbase : DWord := 0
  /-- `SSTAT`: MODE = 1, PMODE = 1, EVERIRR, REPLAY (R358) -/
  super   : Bool := false
  psuper  : Bool := false
  everirr : Bool := false
  replay  : Bool := false
  trap    : TrapRegs := {}
  /-- the fragment in the handler, its saved mask, and the wave's own s48-s63 (R360, R361) -/
  handler : Option Nat := none
  saved   : Mask := 0
  bank    : Cells 64 := []
  /-- the trap came from a lane instruction; its lane PC; `DUALST` before it (R215, R350) -/
  trapLane : Bool := false
  trapLpc : Nat := 0
  trapSpc : Nat := 0
  savedK  : BitVec 2 := 0
  savedRem : BitVec 4 := 0
  /-- `MXCFG` of a control wave (R504) -/
  mxcfg   : DWord := 0xFFFFFF
  /-- `MSTEP` (R325): steps of the oldest held instruction, and how many were held at the save -/
  mdone   : Nat := 0
  mheld   : Nat := 0
  /-- chosen as a victim: it stops at its next pre-emption point (R134) -/
  victim  : Bool := false
  /-- halted by the debugger (R111) -/
  halted  : Bool := false
  /-- drowsy blocks (R202) -/
  drowsy  : Bool := false
  /-- no lanes left: draining before it retires (R174) -/
  leaving : Bool := false
deriving DecidableEq, Repr

/-! ## Cores, clusters, dies (06, 08, 09, 11) -/

/-- Who holds a code segment (R137, R359). -/
inductive Owner where
  | free
  | launch (n : Nat)
  | handler (ctx : Nat)
deriving DecidableEq, Repr

/-- `ST` of a segment (R217). -/
inductive SegState where
  | free | inflight | landed | error
deriving DecidableEq, Repr

/-- One of the twelve code segments of a core (R204, R217). -/
structure Seg where
  st    : SegState := .free
  lane  : Bool := false
  owner : Owner := .free
  code  : Cells 8 := []
deriving DecidableEq, Repr

/-- States of an L1 line (R241); `shadow` is an ACCUM shadow of a wave (R285). -/
inductive LineState where
  | m | o | e | s | p | g | shadow
deriving DecidableEq, Repr

/-- An L1 line: line number (that of its home, PA / 128 for PIN 0). `mask` and `data`: the bytes that P holds, the dirty
bytes of M and O (their other bytes, and those of E and S, are the home's), and all bytes of G and shadow lines. -/
structure Line where
  num    : Nat
  st     : LineState
  mask   : BitVec 128 := 0
  data   : Cells 8 := []
  poison : Word := 0
  /-- the words that a store has written whole (R241, R524) -/
  valid  : Word := 0
  /-- MODEL: of the bytes of P, those that a release at cluster scope has covered or a load of another core has taken (R258,
  R261), and those that stand no more, since a fill has taken them or a later store stands over them (R243, R260) -/
  rel    : BitVec 128 := 0
  stale  : BitVec 128 := 0
  wave   : Nat := 0
  room   : Nat := 0
  atype  : Nat := 0
  filled : Nat := 0
deriving DecidableEq, Repr

/-- A cached translation (R229): the leaf of a page of a context. -/
structure TlbEntry where
  ctx  : Nat
  page : Nat
  size : Nat
  leaf : DWord
deriving DecidableEq, Repr

/-- An entry of the retirement tracker (R175): the launch and number of the wave that retired, its commands, and the
future word that it writes once they are complete (R148). `killed`: no entry of the tracker, but what a `HALT`ed wave has left
running (R522). -/
structure Tracked where
  launch : Nat
  wave   : Nat
  killed : Bool := false
  cmds   : List Nat := []
  ctx    : Nat := 0
  futva  : Nat := 0
  result : Nat := 0
deriving DecidableEq, Repr

/-- A core, or a cluster's control core (core 12). -/
structure Core where
  segs   : List Seg := List.replicate 12 {}
  arr    : Store := {}
  /-- the context, plus one, whose wave last held each KiB of the array; 65: a context that has ended (R161) -/
  arrCtx : KMap Nat := []
  /-- L1 lines, most recently used first (R239) -/
  l1     : List Line := []
  tlb    : List TlbEntry := []
  /-- `CYCLE` (R516) -/
  cycle  : DWord := 0
  /-- MODEL: issue slots so far (R177, log 1) -/
  issued : Nat := 0
  /-- waves waiting for blocks in the order they began (R189): wave and fragment -/
  queue  : List (Nat × Nat) := []
  /-- retirement tracker (R175): the entries in use -/
  tracker : List Tracked := []
deriving DecidableEq, Repr

/-- A gang (R156-R159). -/
structure Gang where
  launch  : Nat
  members : List Nat
  /-- waves arrived at the open phase of BAR.G (R172) -/
  arrived : List Nat := []
deriving DecidableEq, Repr

/-- A role queue (R163, R164). -/
structure RoleQueue where
  gang  : Option Nat := none
  depth : Nat := 0
  vals  : List DWord := []
deriving DecidableEq, Repr

/-- A posted receive (R52, R55). -/
structure Receive where
  wave   : Nat
  ctx    : Nat
  /-- source die and cluster, or any -/
  source : Option (Nat × Nat)
  tag    : BitVec 16
  mask   : BitVec 16
  core   : Nat
  off    : Nat
  stamp  : Word
  suspended : Bool := false
deriving DecidableEq, Repr

/-- A message on its way or in an overflow queue (R50, R53). -/
structure Message where
  wave    : Nat
  fid     : Nat
  ctx     : Nat
  die     : Nat
  cluster : Nat
  tag     : BitVec 16
  /-- the payload with its poison (R524) -/
  bytes   : List (Byte × Bool)
deriving DecidableEq, Repr

/-- An accumulator (R326, R329): elements are the records of R330, keyed `128 * row + column`. -/
structure Acc where
  owned : Bool := false
  tag   : Nat := 0
  elems : Cells 256 := []
deriving DecidableEq, Repr

/-- A plate (R329). -/
structure Plate where
  owned : Bool := false
  tag   : Nat := 0
  bytes : Cells 8 := []
deriving DecidableEq, Repr

/-- A matrix operand: a plate, or a scratchpad block (R319, R320) at a cluster-window pointer. -/
inductive MOperand where
  | plate (p : Nat)
  | spad (base tpitch rpitch rot : Nat)
deriving DecidableEq, Repr

/-- A queued matrix instruction. `MDRAIN` and `MREST` are taken by their waiting fragment when they are the
oldest. -/
inductive MOp where
  | mma (acc : Nat) (a b : MOperand) (count : Nat)
  | mld (plate : Nat) (bSide : Bool) (a : MOperand)
  | mdrain (acc : Nat) (dst : MOperand) (rz : Bool)
  | mzero (acc : Nat)
  | msave (acc : Nat)
  | mrest (acc : Nat)
  | mcfg
deriving DecidableEq, Repr

/-- An entry of the matrix queue with what it captured at issue (R310, R315, R325). -/
structure MEntry where
  wave    : Nat
  fid     : Nat := 0
  ctx     : Nat
  tang    : Nat
  tstride : DWord
  fmt     : FmtReg
  op      : MOp
  /-- steps completed, of an MMA -/
  done    : Nat := 0
deriving DecidableEq, Repr

/-- A cluster: gangs, role queues, message unit, matrix engine. -/
structure Cluster where
  gangs    : KMap Gang := []
  queues   : List RoleQueue := List.replicate 4 {}
  receives : List Receive := []
  overflow : List Message := []
  arriving : List Message := []
  refused  : Nat := 0
  ovf      : Bool := false
  accs     : List Acc := List.replicate 8 {}
  plates   : List Plate := List.replicate 16 {}
  mqueue   : List MEntry := []
deriving DecidableEq, Repr

/-- A line of the die merge buffer (R247), or one that the die atomic unit holds in M (R265). `valid`: the words that a
store has written whole. `draining`: on its way home for a device-scope release. -/
structure MLine where
  num    : Nat
  mask   : BitVec 128
  data   : Cells 8
  poison : Word := 0
  valid  : Word := 0
  draining : Bool := false
deriving DecidableEq, Repr

/-- A child in a spawn queue (R145-R148). -/
structure Child where
  launch  : Nat
  parent  : Nat
  ctx     : Nat
  cluster : Nat
  depth   : Nat
  waveid  : Nat
  eseg    : Nat
  eblk    : Nat
  scratch : Nat
  basewin : Nat
  lanes   : Nat
  arg     : DWord
  futva   : Nat
  trec    : List Word
deriving DecidableEq, Repr

/-- A barrier tag (R169, R171). -/
structure Tag where
  launch  : Option Nat := none
  arrived : List Nat := []
deriving DecidableEq, Repr

/-- A compute die: merge buffer, lines of the atomic unit, barrier tags 0-6, spawn queue, and the COSCHED launches that
reserve it (R132). -/
structure Die where
  merge    : List MLine := []
  /-- the lines that the die atomic unit holds in M (R265) -/
  atomics  : List MLine := []
  tags     : List Tag := List.replicate 7 {}
  spawns   : List Child := []
  reserved : List Nat := []
deriving DecidableEq, Repr

/-! ## Launches (04, 06) -/

/-- States of a launch (R124). -/
inductive LaunchState where
  | waiting | ready | running | ending
deriving DecidableEq, Repr

/-- A launch of the launch table (R93, R123-R128). -/
structure Launch where
  num     : Nat
  st      : LaunchState := .waiting
  queue   : Nat := 0
  /-- record count c -/
  count   : Nat := 0
  ctx     : Nat := 0
  /-- the eight doublewords of the record, and of the parameter block (R93, R95) -/
  record  : List DWord := List.replicate 8 0
  params  : List DWord := List.replicate 8 0
  /-- physical places of the wait and signal counters (R125) -/
  wait0   : Option Loc := none
  wait1   : Option Loc := none
  signal  : Option Loc := none
  /-- die set (R136, R151), by die -/
  dieset  : BitVec 8 := 0
  /-- galley records of rows that are not skipped (R142, R143) -/
  galley  : List (List Word) := []
  /-- waves to place, waves placed for the first time, children spawned -/
  waves   : Nat := 0
  placed  : Nat := 0
  children : Nat := 0
  /-- units to be placed afresh (R372): do they form a gang; wave number, role, dieidx of each wave -/
  replays : List (Bool × List (Nat × Nat × Nat)) := []
  /-- no signal at its end (R373) -/
  noSignal : Bool := false
  dietag  : Option Nat := none
deriving DecidableEq, Repr

/-- A saved wave (R366-R368): the wave as it is restored, its held matrix queue, its save slot, and the record
that the memory must still hold. -/
structure SavedWave where
  wave   : Wave
  queue  : List MEntry := []
  slotNo : Nat
  record : List Byte
deriving DecidableEq, Repr

/-- What a victim holds, which is kept for the unit that it makes room for once the victim has gone (R134). -/
structure Place where
  wave    : Nat
  core    : Nat
  blocks  : Nat
  scrbase : Nat
  scratch : Nat
  /-- the victim has left the place -/
  gone    : Bool := false
deriving DecidableEq, Repr

/-- Resources held for the next unit of a level-3 launch (R134). -/
structure Hold where
  launch : Nat
  places : List Place
deriving DecidableEq, Repr

/-! ## Engines, peers, tun (03, 13, 16) -/

/-- What an engine command does (R333-R348, R218). -/
inductive CmdBody where
  /-- a slice of a copy: gang key, source, destination or landing offset and receivers with the
  `CPYBASE` that each has at the start (R337); `copy`: the number of the started copy, 0 before the start -/
  | copy (cluster : Nat) (gang : Option Nat) (cid : Nat) (src dst : List Span) (landing : Nat)
      (rcv : List (Nat × Option Nat)) (se : Bool) (stamp : Word) (len : Nat) (copy : Nat)
  | gather (scatter : Bool) (cluster : Nat) (idx tab : List Span) (nidx nrows rowb dpitch dstoff : Nat)
      (core scrbase : Nat) (record : List Span) (ety : Nat) (stamp : Word)
  /-- a peer transfer; `failed`: a request was NACKed or timed out; `answered`: the stamp of a PUT is under way; `err`: a source
  byte was poisoned, or a byte of it was not written (R339, R348) -/
  | peer (put : Bool) (loc : List Span) (remote : Nat) (len : Nat) (se : Bool) (stamp : Word)
      (stampAt : List Span) (failed : Bool) (answered : Bool) (err : Bool)
  | cfetch (core seg : Nat) (src : List Span)
deriving DecidableEq, Repr

/-- An engine command under way. -/
structure Cmd where
  id   : Nat
  wave : Nat
  ctx  : Nat
  /-- the cluster whose engine performs it -/
  cluster : Nat := 0
  /-- global pages whose translation it holds (R370) -/
  pages : List Nat := []
  body : CmdBody
deriving DecidableEq, Repr

/-- The parties of a copy that has not started (R336). -/
structure CopyParty where
  cluster : Nat
  gang    : Option Nat
  cid     : Nat
  parties : List Nat
deriving DecidableEq, Repr

/-- What an outstanding peer request was made for (R67, R73, R74): a load or an atomic, whose result goes to the
words of `lo` and `hi` that have not been written since (`plain`: it zeroes their tangents, R350). -/
inductive PeerFor where
  | load (lo hi : Option Late) (tang lane : Nat) (plain : Bool)
  | store
  | cmd (id : Nat)
deriving DecidableEq, Repr

/-- A peer request that has not been answered. -/
structure PeerOut where
  id   : Nat
  wave : Nat
  /-- the error that all words of one request belong to -/
  err  : Nat
  addr : DWord
  size : Nat
  what : PeerFor
  /-- what the request carries: the bytes of a store with their poison; FN, operand and comparand of an atomic -/
  data : List Byte := []
  bad  : List Bool := []
  /-- the port that carries it (R68), and whether it has left that port (R74) -/
  port : Option Nat := none
  left : Bool := false
deriving DecidableEq, Repr

/-- What the tun of a region holds beside the state words in the descriptor (R277, R282): the waiting waves
with their fragments and modes, held CLEARs, and LEAVEs and KILLs that have not been handled. `place` names the
descriptor's place (`descLoc`). -/
structure Tun where
  place   : Nat
  waiting : List (Nat × Nat × Nat) := []
  /-- requests that found the slice's waiting list full: they wait in the routers (R283) -/
  routed  : List (Nat × Nat × Nat) := []
  clears  : List (Nat × Nat) := []
  /-- waves that have sent a LEAVE which has not been handled -/
  leaves  : List Nat := []
  kills   : Nat := 0
deriving DecidableEq, Repr

/-- MODEL: whose turn the next step is. -/
inductive Turn where
  | event (i : Instr)
  | core (k : Nat)
deriving DecidableEq, Repr

/-- Everything that programs, the launch engine and the engines act on. -/
structure Dev where
  host    : HostRegs := {}
  cap     : Capability := {}
  /-- device memory by physical address (R24), host memory where it was written (R227 SYS) -/
  mem     : Store := {}
  hostmem : KMap Byte := []
  /-- lines that the home agents record the host as holding under host bias (R81, R248) -/
  hostHeld : List Nat := []
  /-- MSI-X vectors signalled (R78) -/
  msix    : BitVec 65 := 0
  /-- management events that a wave or engine raised; the package status takes them over (R117) -/
  events  : DWord := 0
  launches : List Launch := []
  nextLaunch : Nat := 1
  /-- the launch whose turn a resumed unit has interrupted, and the waves that it may still place (R131) -/
  turnLeft : Option (Nat × Nat) := none
  /-- queue served last, per priority level (R130) -/
  served  : List Nat := [63, 63, 63, 63]
  /-- armed words: place, bytes, and the event that a write reaching its home triggers (R90, R126, R343) -/
  watch   : List (Loc × Nat × Instr) := []
  /-- entries lost per context (R97), `GDROP` per context (R346) -/
  dropped : KMap Nat := []
  gdrop   : KMap Nat := []
  /-- MODEL: contexts that have ended since a debug level was last granted (R107) -/
  ended   : BitVec 64 := 0
  /-- save slots are a bitmap in memory; the waves they hold -/
  savedWaves : List SavedWave := []
  /-- resources held for level-3 units (R134) -/
  holds   : List Hold := []
  cores   : KMap Core := []
  clusters : KMap Cluster := []
  dies    : List Die := List.replicate 8 {}
  /-- tag 7 (R169) -/
  tag7    : Tag := {}
  tuns    : List Tun := []
  cmds    : List Cmd := []
  nextCmd : Nat := 1
  nextCopy : Nat := 1
  copyParties : List CopyParty := []
  peers   : List PeerOut := []
  nextPeer : Nat := 1
  /-- the Cassen ports (R57) -/
  ports   : List Port := List.replicate 24 {}
  /-- resident waves other than the loaded one; the loaded wave and its loaded fragment -/
  waves   : List Wave := []
  wave    : Wave := {}
  frag    : Frag := {}
  nextUid : Nat := 1
  /-- MODEL: the schedule as data (log 10): events due, turns given from outside, core that issued last,
  choices the spec leaves to the device -/
  agenda  : List Instr := []
  turns   : List Turn := []
  lastCore : Nat := 0
  choices : List Bool := []
deriving DecidableEq, Repr

/-- The machine. -/
structure State where
  pwr   : Power := {}
  sec   : Security := {}
  pkg   : Pkg := {}
  dev   : Dev := {}
deriving DecidableEq, Repr

/-- What stops the machine with a fault. -/
inductive Fault where
  /-- Raised by `POWER_ON` and `POWER_REMOVAL` when the board breaks R26 (VDD_AON not first, RST_N not held,
  VDD_AON not last): the spec gives the package no behaviour then. Safe. -/
  | supplySequence
deriving DecidableEq, Repr

/-- What the model refuses. -/
inductive Refusal where
  /-- Raised by the arm of an instruction without a meaning. Safe. -/
  | notModelled (mnemonic : String)
deriving DecidableEq, Repr

/-- The package just after a reset and its wipe (R4, R112-R114): RUNNING, PROVISIONED (R104), memory and
registers zero (R113), the host registers at their reset values (R79, R359). -/
def State.reset : State := {}

end Sys2Proof.Machine
end

