-- ==== Sys2Proof/Machine/Mem.lean ====
section
/-!
DEFINITION. Machine/Mem.lean: places of bytes, poison, triggers, the L1 with its pending and glimpse lines,
the die merge buffer, loads, stores, atomics and releases (11 R239-R251, R524; 12 R264).
-/
namespace Sys2Proof.Machine

/-! ## Parts of the device -/

/-- The number of a core: 13 places per cluster, the control core last. -/
def coreNo (die cluster core : Nat) : Nat := 208 * die + 13 * cluster + core
/-- The number of a cluster. -/
def clusterNo (die cluster : Nat) : Nat := 16 * die + cluster

def Dev.core (m : Dev) (k : Nat) : Core := m.cores.get {} k
def Dev.setCore (m : Dev) (k : Nat) (c : Core) : Dev := { m with cores := m.cores.put k c }
def Dev.cluster (m : Dev) (k : Nat) : Cluster := m.clusters.get {} k
def Dev.setCluster (m : Dev) (k : Nat) (c : Cluster) : Dev := { m with clusters := m.clusters.set k c }
def Dev.die (m : Dev) (d : Nat) : Die := m.dies.getD d {}
def Dev.setDie (m : Dev) (d : Nat) (x : Die) : Dev := { m with dies := setAt {} m.dies d x }

/-- The core, cluster number and control-core property of the loaded wave. -/
def Wave.coreNo (w : Wave) : Nat := Machine.coreNo w.die w.cluster w.core
def Wave.clusterNo (w : Wave) : Nat := Machine.clusterNo w.die w.cluster
def Wave.control (w : Wave) : Bool := w.core = 12

/-- Resident waves, the loaded one first; number 0 is no wave. -/
def Dev.allWaves (m : Dev) : List Wave := (m.wave :: m.waves).filter fun w => w.uid ≠ 0

/-- Add an event at the end of the agenda, once. -/
def Dev.push (m : Dev) (i : Instr) : Dev := if m.agenda.contains i then m else { m with agenda := m.agenda ++ [i] }

/-- Make an event the next one of the agenda. -/
def Dev.pushNext (m : Dev) (i : Instr) : Dev := { m with agenda := i :: m.agenda.erase i }

/-- Take a choice that the spec leaves to the device; false when none is given. -/
def Dev.choose (m : Dev) : Bool × Dev := (m.choices.headD false, { m with choices := m.choices.tail })

/-- Add an event at the end of the agenda, even when an equal one is there: each held access is served (R84). -/
def Dev.enqueue (m : Dev) (i : Instr) : Dev := { m with agenda := m.agenda ++ [i] }

/-! ## Home slices (R47-R49) -/

/-- The slice hash of a physical address. -/
def sliceHash (pa : Nat) : Nat :=
  [10, 14, 18, 22, 26, 30, 34, 38, 42].foldl (fun s hi => s ^^^ fld pa hi (hi - 3)) 0

/-- The home slice of a physical address under a PIN. -/
def homeSlice (pin pa : Nat) : Nat := if pin = 0 then sliceHash pa else 2 * (pin % 8) + sliceHash pa % 2

/-- Device memory is kept by physical address and home (R49): the home of PIN 0 at the address itself, that of another
slice `s` (R43: another stack) `1 + s` times 1 TiB above it. -/
def homeKey (pin pa : Nat) : Nat :=
  let s := homeSlice pin pa
  if s = homeSlice 0 pa then pa else pa + (1 + s) * Config.memoryBytes

/-- The end of these numbers; what lies above is no memory. -/
def devBytes : Nat := 17 * Config.memoryBytes

/-- A range of physical addresses at its homes under one PIN: whole, or line by line. -/
def keySpans (pin pa n : Nat) : List Span :=
  if pin = 0 then [{ loc := .dev pa, len := n }]
  else (List.range ((pa + n - 1) / 128 + 1 - pa / 128)).map fun i =>
    let a := max pa (128 * (pa / 128 + i))
    { loc := .dev (homeKey pin a), len := min (pa + n) (128 * (pa / 128 + i + 1)) - a }

/-! ## Bytes at a place -/

/-- Bytes that carry no poison. -/
def clean (bs : List Byte) : List (Byte × Bool) := bs.map fun b => (b, false)

/-- The place `i` bytes further. -/
def Loc.add : Loc → Nat → Loc
  | .dev pa, i => .dev (pa + i)
  | .host pa, i => .host (pa + i)
  | .arr k o, i => .arr k (o + i)

/-- Do `n` bytes at `a` and `k` bytes at `b` overlap? -/
def Loc.overlaps : Loc → Nat → Loc → Nat → Bool
  | .dev a, n, .dev b, k => a < b + k && b < a + n
  | .host a, n, .host b, k => a < b + k && b < a + n
  | .arr c a, n, .arr d b, k => c = d && a < b + k && b < a + n
  | _, _, _, _ => false

/-- Bytes of a line that one holder has: their mask, the words written whole, data and poison by word. -/
structure Layer where
  mask   : BitVec 128 := 0
  valid  : Word := 0
  data   : Cells 8 := []
  poison : Word := 0
deriving DecidableEq, Repr

/-- Bit `i` of a byte mask. -/
def bmHas (b : BitVec 128) (i : Nat) : Bool := b.getLsbD i
/-- A mask with bits `a .. a+n-1` set. -/
def bmRange (a n : Nat) : BitVec 128 := BitVec.ofNat 128 ((2 ^ n - 1) <<< a)
/-- The words of a line that meet a condition. -/
def lineWords (p : Nat → Bool) : Word := BitVec.ofNat 32 ((List.range 32).foldl (fun n w => n + b2n (p w) * 2 ^ w) 0)
/-- The words of which a mask holds all four bytes, and those of which it holds a byte. -/
def bmWhole (b : BitVec 128) : Word := lineWords fun w => b.extractLsb' (4 * w) 4 = 15
def bmTouched (b : BitVec 128) : Word := lineWords fun w => b.extractLsb' (4 * w) 4 ≠ 0

/-- What of a layer lies in the bytes of a mask. -/
def Layer.within (y : Layer) (b : BitVec 128) : Layer :=
  let t := bmTouched (y.mask &&& b)
  { y with mask := y.mask &&& b, valid := y.valid &&& t, poison := y.poison &&& t }

/-- The bytes of a line that stand. -/
def Line.layer (l : Line) : Layer := { mask := l.mask &&& ~~~l.stale, valid := l.valid, data := l.data, poison := l.poison }
def MLine.layer (l : MLine) : Layer := { mask := l.mask, valid := l.valid, data := l.data, poison := l.poison }

/-- A byte of a line under layers, the uppermost first. -/
def layerByte (i : Nat) (below : Byte) : List Layer → Byte
  | [] => below
  | y :: t => if bmHas y.mask i then y.data.get i else layerByte i below t

/-- The poison of a word under layers (R524): a store that did not write the word whole leaves the poison of what lies below. -/
def layerPoison (w : Nat) (below : Bool) : List Layer → Bool
  | [] => below
  | y :: t => if y.valid.getLsbD w then y.poison.getLsbD w else y.poison.getLsbD w || layerPoison w below t

/-- Bytes of a line that a mask names, in rising order, as (offset, byte). -/
def maskedBytes (mask : BitVec 128) (data : Cells 8) : List (Nat × Byte) :=
  (indices 128 (bmHas mask)).map fun i => (i, data.get i)

/-- One layer laid over another: a word that it has written whole takes its poison. -/
def Layer.over (y under : Layer) : Layer :=
  { mask := under.mask ||| y.mask, valid := under.valid ||| y.valid,
    data := (maskedBytes y.mask y.data).foldl (fun c x => c.put x.1 x.2) under.data,
    poison := y.poison ||| (under.poison &&& ~~~y.valid) }

/-- Layers laid over each other, the uppermost first. -/
def stacked (ys : List Layer) : Layer := ys.foldr Layer.over {}

/-- Lines that hold dirty data (R241). -/
def LineState.dirty : LineState → Bool
  | .m | .o => true
  | _ => false

/-- The place of a die's atomic unit among the cores of its die: that of a control core, which holds no lines. -/
def unitPlace (d : Nat) : Nat := 208 * d + 207

/-- The dirty bytes of a line in the L1s and the atomic units of the places of `p`, which the directory tracks (R248, R265). -/
def Dev.dirtyIn (m : Dev) (num : Nat) (p : Nat → Bool) : List Layer :=
  (m.cores.flatMap fun (x : Nat × Core) =>
    if (p x.1) then (x.2.l1.filter fun (y : Line) => y.num = num && y.st.dirty).map Line.layer else []) ++
  m.dies.zipIdx.flatMap fun (x : Die × Nat) =>
    if (p (unitPlace x.2)) then (x.1.atomics.filter fun (y : MLine) => y.num = num).map MLine.layer else []

/-- All dirty bytes of a line. -/
def Dev.dirty (m : Dev) (num : Nat) : List Layer := m.dirtyIn num fun _ => true

/-- The coherent byte at a place: of memory, that of the tracked copy which is dirty, else the home's (R248). -/
def Dev.byteAt (m : Dev) : Loc → Byte
  | .dev pa => layerByte (pa % 128) (if pa < devBytes then m.mem.bytes.get pa else Config.absentByte pa) (m.dirty (pa / 128))
  | .host pa => KMap.get (Config.hostByte pa) m.hostmem pa
  | .arr k o => (m.core k).arr.bytes.get o

/-- `n` bytes from a place. -/
def Dev.bytesAt (m : Dev) (l : Loc) : Nat → List Byte
  | 0 => []
  | n + 1 => m.byteAt l :: m.bytesAt (l.add 1) n

/-- Is the word that holds the byte poisoned (R524)? -/
def Dev.poisonAt (m : Dev) : Loc → Bool
  | .dev pa => layerPoison (pa % 128 / 4) (m.mem.poison.get (pa / 4) ≠ 0) (m.dirty (pa / 128))
  | .host _ => false
  | .arr k o => (m.core k).arr.poison.get (o / 4) ≠ 0

/-- Is one of `n` bytes poisoned? -/
def Dev.anyPoison (m : Dev) (l : Loc) (n : Nat) : Bool := (List.range n).any fun i => m.poisonAt (l.add i)

/-- The words that `n` bytes from `a` cover whole (R524). -/
def wholeWords (a n : Nat) : List Nat :=
  let lo := (a + 3) / 4
  (List.range ((a + n) / 4 - lo)).map (lo + ·)

/-- Write bytes to a store; a word written whole loses its poison, or takes it when `p` says that the byte
written carries poison (R339, R524). -/
def Store.write (s : Store) (a : Nat) (bs : List Byte) (p : Nat → Bool := fun _ => false) : Store :=
  let cleared := (wholeWords a bs.length).foldl (fun c w => c.put w 0) s.poison
  let marked := (List.range bs.length).foldl (fun c i => if p i then c.put ((a + i) / 4) 1 else c) cleared
  { bytes := s.bytes.putBytes a bs, poison := marked }

/-- The events that a write of `n` bytes at a place triggers (R90, R126, R343). -/
def Dev.trigger (m : Dev) (l : Loc) (n : Nat) : Dev :=
  m.watch.foldl (fun m x => if l.overlaps n x.1 x.2.1 then m.push x.2.2 else m) m

/-- Write a byte of host memory, keeping the canonical form: the byte that stood there before any write (log 2) is not
listed. -/
def hostPut (h : KMap Byte) (pa : Nat) (v : Byte) : KMap Byte :=
  if v = Config.hostByte pa then h.erase pa else h.set pa v

/-- Write consecutive bytes of host memory. -/
def hostPutBytes (h : KMap Byte) (pa : Nat) : List Byte → KMap Byte
  | [] => h
  | b :: bs => hostPutBytes (hostPut h pa b) (pa + 1) bs

/-- Every key is above `lo` and rising, and no byte is the one that an unlisted address reads as. -/
def hostAbove : Nat → KMap Byte → Bool
  | _, [] => true
  | lo, (k, v) :: t => decide (lo < k) && decide (v ≠ Config.hostByte k) && hostAbove k t

/-- The canonical form of host memory. -/
def hostWf : KMap Byte → Bool
  | [] => true
  | (k, v) :: t => decide (v ≠ Config.hostByte k) && hostAbove k t

/-- The canonical form of memory: device memory, its poison, host memory, and every core's array. An unlisted byte of
device memory or of an array reads zero, which is what the wipe leaves (R113). -/
def Memory.wf (m : Dev) : Bool :=
  m.mem.bytes.wf && m.mem.poison.wf && hostWf m.hostmem &&
    m.cores.all fun (c : Nat × Core) => c.2.arr.bytes.wf && c.2.arr.poison.wf

/-- Write bytes at the home of a physical address. Triggers armed words. -/
def Dev.homePut (m : Dev) (pa : Nat) (bs : List Byte) (p : Nat → Bool) : Dev :=
  (if pa < devBytes then { m with mem := m.mem.write pa bs p } else m).trigger (.dev pa) bs.length

/-- Mark a word of device memory as poisoned or clean. -/
def Store.markWord (s : Store) (w : Nat) (p : Bool) : Store := { s with poison := s.poison.put w (if p then 1 else 0) }

/-- Write the bytes of a layer to the home of its line (R247). A word that it has written whole takes its poison, another one
keeps its own beside it (R524). -/
def Dev.homeLayer (m : Dev) (num : Nat) (y : Layer) : Dev :=
  let m := (maskedBytes y.mask y.data).foldl (fun m (x : Nat × Byte) => m.homePut (128 * num + x.1) [x.2] fun _ => false) m
  if 128 * num ≥ devBytes then m else
  let words := indices 32 fun w => y.valid.getLsbD w || y.poison.getLsbD w
  { m with mem := words.foldl (fun (s : Store) w => s.markWord (32 * num + w) (y.poison.getLsbD w)) m.mem }

/-- Tracked states (R241). -/
def LineState.tracked : LineState → Bool
  | .m | .o | .e | .s => true
  | _ => false

/-- Drop the tracked copies of a line in the places of `p`. -/
def Dev.dropTracked (m : Dev) (num : Nat) (p : Nat → Bool) : Dev :=
  { m with
    cores := m.cores.map fun (x : Nat × Core) =>
      if (p x.1) then (x.1, { x.2 with l1 := x.2.l1.filter fun (y : Line) => !(y.num = num && y.st.tracked) }) else x
    dies := m.dies.zipIdx.map fun (x : Die × Nat) =>
      if (p (unitPlace x.2)) then { x.1 with atomics := x.1.atomics.filter fun (y : MLine) => y.num ≠ num } else x.1 }

/-- A grant with ownership snoops the host, whose copy is gone (R81). -/
def Dev.snoopHost (m : Dev) (num : Nat) : Dev := { m with hostHeld := m.hostHeld.filter fun n => n ≠ num }

/-- The home recalls a line: dirty data is written back, every tracked copy is dropped, and the host's record too (R81,
R247, R248). -/
def Dev.recall (m : Dev) (num : Nat) : Dev :=
  let ys := m.dirty num
  ((if ys = [] then m else m.homeLayer num (stacked ys)).dropTracked num fun _ => true).snoopHost num

/-- Write bytes at a place: at the home for memory, whose lines are recalled first; at the array for a scratchpad.
Triggers armed words. Host memory is reached also while link 0 is down, of which R77 does not speak (MODEL's choice, log 116). -/
def Dev.write (m : Dev) (l : Loc) (bs : List Byte) (p : Nat → Bool := fun _ => false) : Dev :=
  match l with
  | .dev pa =>
    ((List.range ((pa + bs.length - 1) / 128 + 1 - pa / 128)).foldl (fun m i => m.recall (pa / 128 + i)) m).homePut pa bs p
  | .host pa => { m with hostmem := hostPutBytes m.hostmem pa bs }.trigger l bs.length
  | .arr k o => (let c := m.core k; m.setCore k { c with arr := c.arr.write o bs p }).trigger l bs.length

/-- The spans of a range cut after `n` bytes. -/
def Span.take : List Span → Nat → List Span
  | [], _ => []
  | s :: t, n => if n = 0 then [] else if n ≤ s.len then [{ s with len := n }] else s :: Span.take t (n - s.len)

/-- The spans of a range from byte `n` on. -/
def Span.drop : List Span → Nat → List Span
  | [], _ => []
  | s :: t, n => if s.len ≤ n then Span.drop t (n - s.len) else { loc := s.loc.add n, len := s.len - n } :: t

/-- Read a range at its homes and arrays. -/
def Dev.readSpans (m : Dev) (ss : List Span) : List Byte := ss.flatMap fun s => m.bytesAt s.loc s.len

/-- The poison of each byte of a range. -/
def Dev.poisonSpans (m : Dev) (ss : List Span) : List Bool :=
  ss.flatMap fun s => (List.range s.len).map fun i => m.poisonAt (s.loc.add i)

/-- Write bytes with their poison over consecutive spans. -/
def Dev.writeSpans (m : Dev) : List Span → List (Byte × Bool) → Dev
  | [], _ => m
  | s :: t, bs =>
    let now := bs.take s.len
    (m.write s.loc (now.map (·.1)) fun i => (now.getD i (0, false)).2).writeSpans t (bs.drop s.len)

/-! ## L1 lines -/

/-- KiB of a core's array that its resident waves' allocations reach, rounded up to 64 (R137). -/
def Dev.scratchPart (m : Dev) (k : Nat) : Nat :=
  (m.allWaves.filter fun w => w.coreNo = k).foldl
    (fun n w => if w.scratch = 0 then n else max n (alignUp (w.scrbase / 1024 + w.scratch) 64)) 0

/-- Sets of a core's L1: 64 for each 64 KiB that the scratchpad does not take (R239); none on a control core. -/
def Dev.l1Sets (m : Dev) (k : Nat) : Nat := if k % 13 = 12 then 0 else 64 * ((1024 - m.scratchPart k) / 64)

/-- The line of a core that is not a shadow. -/
def Dev.line (m : Dev) (k num : Nat) : Option Line :=
  (m.core k).l1.find? fun x => x.num = num && x.st ≠ .shadow

/-- Has a G line stood for 65,536 cycles (R249)? -/
def Line.expired (l : Line) (now : Nat) : Bool := now ≥ l.filled + 65536

/-- Remove lines of a core. -/
def Dev.dropLines (m : Dev) (k : Nat) (p : Line → Bool) : Dev :=
  let c := m.core k
  m.setCore k { c with l1 := c.l1.filter fun x => !p x }

/-- Bytes reach their home (R247): the line is recalled, and they are written over it. -/
def Dev.mergeHome (m : Dev) (num : Nat) (y : Layer) : Dev := (m.recall num).homeLayer num y

/-- A line of the merge buffer or of an atomic unit with bytes laid over it. -/
def MLine.under (l : MLine) (y : Layer) : MLine :=
  let z := y.over l.layer
  { l with mask := z.mask, valid := z.valid, data := z.data, poison := z.poison }

/-- Put bytes over those that a list of lines holds of a line. -/
def putMLine (ls : List MLine) (num : Nat) (y : Layer) : List MLine :=
  if ls.any (fun x => x.num = num) then ls.map fun x => if x.num = num then x.under y else x
  else ls ++ [({ num, mask := 0, data := [] } : MLine).under y]

/-- Put bytes into the die merge buffer, over those that it holds of the line. -/
def Dev.bufferPut (m : Dev) (d num : Nat) (y : Layer) : Dev :=
  if y.mask = 0 then m else
  let die := m.die d
  m.setDie d { die with merge := putMLine die.merge num y }

/-- Lines of the die merge buffer: 8 MiB (R247). -/
def mergeLines : Nat := 65536

/-- Send a line of the die merge buffer to its home (R247). -/
def Dev.homeLine (m : Dev) (d num : Nat) : Dev :=
  let die := m.die d
  match die.merge.find? fun x => x.num = num with
  | none => m
  | some l =>
    (m.setDie d { die with merge := die.merge.filter fun x => x.num ≠ num }).mergeHome num l.layer

/-- A full merge buffer evicts the line that has been there longest, unless the one to come merges (R247). -/
def Dev.bufferRoom (m : Dev) (d num : Nat) : Dev :=
  let merge := (m.die d).merge
  if merge.length < mergeLines || merge.any (fun x => x.num = num) then m
  else match merge with
    | [] => m
    | x :: _ => m.homeLine d x.num

/-- Merge bytes into the die merge buffer (R247): the die's tracked copies of the line are invalidated, and their dirty data is
merged under the bytes. A line with such data goes home at once, so that what every die could read stays so (log 119). -/
def Dev.mergeDie (m : Dev) (d num : Nat) (y : Layer) : Dev :=
  let own := m.dirtyIn num fun k => k / 208 = d
  if y.mask = 0 && own = [] then m else
  let m := ((m.bufferRoom d num).dropTracked num fun k => k / 208 = d).bufferPut d num (stacked (y :: own))
  if own = [] then m else m.homeLine d num

/-! ## What a load sees (R243, R245, R248) -/

/-- The P lines of a cluster with a number, but for those of core `skip`; `covered`: only their covered bytes. -/
def Dev.pendingIn (m : Dev) (cl : Nat) (skip : Option Nat) (num : Nat) (covered : Bool) : List Layer :=
  m.cores.flatMap fun (x : Nat × Core) =>
    if x.1 / 13 = cl && some x.1 ≠ skip then
      (x.2.l1.filter fun (y : Line) => y.num = num && y.st = .p).map fun y => if covered then y.layer.within y.rel else y.layer
    else []

/-- The line of the merge buffer of a die. -/
def Dev.buffered (m : Dev) (d num : Nat) : List Layer := ((m.die d).merge.filter fun x => x.num = num).map MLine.layer

/-- What lies over the coherent copy on the miss path of core `k`: the cluster probe, then the die merge buffer. `pick`:
which of two probed lines is taken (R245). -/
def Dev.missLayers (m : Dev) (k num : Nat) (pick : Bool) : List Layer :=
  let hit := m.pendingIn (k / 13) (some k) num false
  (if pick then hit.reverse else hit) ++ m.buffered (k / 208) num

/-- What lies over the coherent copy for a strong load of core `k`: its own pending bytes, then the miss path; over a tracked
copy, the covered bytes of the cluster, which may happen before the load (R260). -/
def Dev.viewLayers (m : Dev) (k num : Nat) (pick : Bool) : List Layer :=
  match m.line k num with
  | some l =>
    if l.st = .p then l.layer :: m.missLayers k num pick
    else if l.st.tracked then m.pendingIn (k / 13) (some k) num true
    else m.missLayers k num pick
  | none => m.missLayers k num pick

/-- Byte `i` of a line under layers over the coherent copy, with the poison of its word. -/
def Dev.under (m : Dev) (ys : List Layer) (num i : Nat) : Byte × Bool :=
  (layerByte i (m.byteAt (.dev (128 * num + i))) ys, layerPoison (i / 4) (m.poisonAt (.dev (128 * num + i))) ys)

/-- `n` bytes of a line from `off` as a strong load of core `k` sees them. -/
def Dev.viewBytes (m : Dev) (k num off n : Nat) (pick : Bool) : List (Byte × Bool) :=
  let ys := m.viewLayers k num pick
  (List.range n).map fun i => m.under ys num (off + i)

/-- Byte of a physical address as a strong load of core `k` sees it, without a change of state. The walker and the checks of
the core read so (R229). -/
def Dev.strongByte (m : Dev) (k pa : Nat) : Byte := (m.under (m.viewLayers k (pa / 128) false) (pa / 128) (pa % 128)).1

/-- A doubleword as `strongByte` sees it. -/
def Dev.strongDword (m : Dev) (k pa : Nat) : Nat :=
  ofBytes ((List.range 8).map fun i => m.strongByte k (pa + i))

/-- A byte of memory as the engines of a cluster see it for a wave of the cluster: its pending bytes, the die merge
buffer, the coherent copy (R245, R247, R269). -/
def Dev.engineByte (m : Dev) (cl : Nat) : Loc → Byte × Bool
  | .dev pa => m.under (m.pendingIn cl none (pa / 128) false ++ m.buffered (cl / 16) (pa / 128)) (pa / 128) (pa % 128)
  | l => (m.byteAt l, m.poisonAt l)

/-- May an engine command of a context touch a byte: of an array only what a wave of that context held last, or what no
wave has held (R13, R161)? -/
def Dev.ownsArray (m : Dev) (ctx : Nat) : Loc → Bool
  | .arr k o =>
    let x := KMap.get 0 (m.core k).arrCtx (o / 1024)
    x = 0 || x = ctx + 1
  | _ => true

/-- Can an engine command of a context write every byte of a range (R13)? -/
def Dev.ownsSpans (m : Dev) (ctx : Nat) (ss : List Span) : Bool :=
  ss.all fun s => (List.range s.len).all fun i => m.ownsArray ctx (s.loc.add i)

/-- A range as the engines of a cluster see it for a context; array bytes of another context read zero (R13). -/
def Dev.engineBytes (m : Dev) (cl ctx : Nat) (ss : List Span) : List (Byte × Bool) :=
  ss.flatMap fun s => (List.range s.len).map fun i =>
    let l := s.loc.add i
    if m.ownsArray ctx l then m.engineByte cl l else (0, false)

/-- Cells and poison word of a whole line built from its bytes. -/
def lineOf (bs : List (Byte × Bool)) : Cells 8 × Word :=
  ((Cells.putBytes [] 0 (bs.map (·.1))),
   BitVec.ofNat 32 ((List.range 32).foldl (fun n w => n + b2n ((bs.getD (4 * w) (0, false)).2) * 2 ^ w) 0))

/-! ## Bytes that stand no more (R243, R259-R262) -/

/-- The bytes of a mask that stand in a line. -/
def Line.standing (l : Line) (mask : BitVec 128) : BitVec 128 := l.mask &&& ~~~l.stale &&& mask

/-- Bytes of a pending line stand no more. -/
def Line.shed (l : Line) (mask : BitVec 128) : Line :=
  let b := l.standing mask
  { l with stale := l.stale ||| b, valid := l.valid &&& ~~~bmTouched b, poison := l.poison &&& ~~~bmTouched b }

/-- What the words of such bytes leave to the store that stands over them: that they were written whole, and their poison. -/
def Line.heritage (l : Line) (mask : BitVec 128) : Layer :=
  let t := bmTouched (l.standing mask)
  { valid := l.valid &&& t, poison := l.poison &&& t }

/-- Change the P lines with a number of the cores of `p`. -/
def Dev.mapPending (m : Dev) (num : Nat) (p : Nat → Bool) (g : Line → Line) : Dev :=
  { m with cores := m.cores.map fun (x : Nat × Core) =>
      if (p x.1) then (x.1, { x.2 with l1 := x.2.l1.map fun (y : Line) => if y.num = num && y.st = .p then g y else y }) else x }

/-- The P lines with a number of the cores of `p`. -/
def Dev.pendingOf (m : Dev) (num : Nat) (p : Nat → Bool) : List Line :=
  m.cores.flatMap fun (x : Nat × Core) => if (p x.1) then x.2.l1.filter fun (y : Line) => y.num = num && y.st = .p else []

/-- Bytes of the P lines of the cores of `p` stand no more, all of them or the covered ones; with what their words leave. -/
def Dev.shedPending (m : Dev) (num : Nat) (mask : BitVec 128) (covered : Bool) (p : Nat → Bool) : Layer × Dev :=
  let b (l : Line) := if covered then mask &&& l.rel else mask
  (stacked ((m.pendingOf num p).map fun l => l.heritage (b l)), m.mapPending num p fun l => l.shed (b l))

/-- A store of core `k` with the bytes of a layer stands over the cluster's older pending bytes at its place: a strong one over
all of them, a weak one over those that a release has covered, which happen before it. -/
def Dev.supersede (m : Dev) (k num : Nat) (y : Layer) (strong : Bool) : Layer × Dev :=
  let (z, m) := m.shedPending num y.mask (!strong) fun j => j / 13 = k / 13 && j ≠ k
  (y.over z, m)

/-- Take bytes of a line out of the merge buffer of a die. -/
def Dev.dropBuffered (m : Dev) (d num : Nat) (mask : BitVec 128) : Dev :=
  let die := m.die d
  let cut := fun (x : MLine) =>
    let t := bmTouched (x.mask &&& mask)
    let left := x.mask &&& ~~~mask
    if x.num ≠ num then some x
    else if left = 0 then none
    else some { x with mask := left, valid := x.valid &&& ~~~t, poison := x.poison &&& ~~~t }
  m.setDie d { die with merge := die.merge.filterMap cut }

/-- The part of a range of device memory that lies in line `num`. -/
def rangeMask (pa n num : Nat) : BitVec 128 :=
  let lo := max pa (128 * num)
  bmRange (lo - 128 * num) (min (pa + n) (128 * (num + 1)) - lo)

/-- A write of `n` bytes from the cluster's engines stands over the older bytes that the cluster and its die hold. -/
def Dev.overwrite (m : Dev) (cl pa n : Nat) : Dev :=
  (List.range ((pa + n - 1) / 128 + 1 - pa / 128)).foldl (fun m i =>
    let num := pa / 128 + i
    let mask := rangeMask pa n num
    let (z, m) := m.shedPending num mask false fun j => j / 13 = cl
    let old := stacked ((m.buffered (cl / 16) num).map fun y => { y.within mask with mask := 0 })
    (m.dropBuffered (cl / 16) num mask).mergeHome num (z.over old)) m

/-- One span written by the engines of a cluster for a context; array bytes of another context stay (R13). -/
def Dev.storeSpan (m : Dev) (cl ctx : Nat) (l : Loc) (bs : List (Byte × Bool)) : Dev :=
  match l with
  | .dev pa => (m.overwrite cl pa bs.length).write l (bs.map (·.1)) fun i => (bs.getD i (0, false)).2
  | _ =>
    if (List.range bs.length).all fun i => m.ownsArray ctx (l.add i) then
      m.write l (bs.map (·.1)) fun i => (bs.getD i (0, false)).2
    else ((List.range bs.length).zip bs).foldl (fun m (x : Nat × Byte × Bool) =>
      if m.ownsArray ctx (l.add x.1) then m.write (l.add x.1) [x.2.1] (fun _ => x.2.2) else m) m

/-- Bytes written over a range by the engines of a cluster for a context (R247, R260). -/
def Dev.storeEngine (m : Dev) (cl ctx : Nat) : List Span → List (Byte × Bool) → Dev
  | [], _ => m
  | s :: t, bs => (m.storeSpan cl ctx s.loc (bs.take s.len)).storeEngine cl ctx t (bs.drop s.len)

/-- The cores of the cluster of core `k` but it. -/
def Dev.neighbours (m : Dev) (k : Nat) : List Nat :=
  (m.cores.map fun (x : Nat × Core) => x.1).filter fun j => j / 13 = k / 13 && j ≠ k

/-- A load has taken the bytes of a mask from the P lines of the cores of a list, the first that holds each (R245): they are
covered from now on, and a later store of another core stands over them. When a strong load took them, those of the other
holders stand no more: it has put them in order (R261). `covered`: it took covered bytes only. -/
def Dev.observe (m : Dev) (num : Nat) (mask : BitVec 128) (covered strong : Bool) : List Nat → Dev
  | [] => m
  | k :: t =>
    let own := (m.pendingOf num fun j => j = k).foldl (fun b l => b ||| l.standing (if covered then mask &&& l.rel else mask)) 0
    let (z, m) := if strong then m.shedPending num own covered fun j => t.contains j else ({}, m)
    (m.mapPending num (fun j => j = k) fun l =>
      { l with rel := l.rel ||| own, valid := l.valid ||| z.valid, poison := l.poison ||| (z.poison &&& ~~~l.valid) }).observe
        num (mask &&& ~~~own) covered strong t

/-! ## Atomics (R250, R265) -/

/-- The line of core `k`, when it is P, goes to the die merge buffer; a G line is dropped (R242, R249, R250). -/
def Dev.flushLine (m : Dev) (k num : Nat) : Dev :=
  match m.line k num with
  | some l =>
    if l.st = .p then (m.dropLines k fun x => x.num = num && x.st = .p).mergeDie (k / 208) num l.layer
    else if l.st = .g then m.dropLines k fun x => x.num = num && x.st = .g
    else m
  | none => m

/-- The atomic unit of die `d` takes a line in M, with the bytes of the die merge buffer over the coherent ones (R265). -/
def Dev.unitLine (m : Dev) (d num : Nat) : Dev :=
  let y := stacked (m.buffered d num ++ m.dirty num)
  let m := ((m.dropBuffered d num (BitVec.allOnes 128)).dropTracked num fun _ => true).snoopHost num
  let die := m.die d
  m.setDie d { die with atomics := putMLine die.atomics num y }

/-- Bring the line to where an atomic at scope `sc` is performed, for core `k` (R250, R265): its pending words go to the merge
buffer; then the die's atomic unit takes the line, or the buffer's bytes reach the home, which recalls it. -/
def Dev.atomicLine (m : Dev) (k num sc : Nat) : Dev :=
  let m := m.flushLine k num
  if sc < 3 then m.unitLine (k / 208) num else (m.homeLine (k / 208) num).recall num

/-- The same for the line of a place; a scratchpad and host memory need no step. -/
def Dev.atomicPlace (m : Dev) (k sc : Nat) (l : Loc) : Dev :=
  match l with
  | .dev pa => m.atomicLine k (pa / 128) sc
  | _ => m

/-- The bytes that an atomic of core `k` reads once its line is there: the covered bytes of the cluster, which may happen before
it (R260), lie over them. The engines of a cluster, as its control core, see all its pending bytes (R269). -/
def Dev.atomicBytes (m : Dev) (k : Nat) (l : Loc) (n : Nat) : List (Byte × Bool) :=
  match l with
  | .dev pa =>
    let ys := m.pendingIn (k / 13) (some k) (pa / 128) (k % 13 ≠ 12)
    (List.range n).map fun i => m.under ys (pa / 128) (pa % 128 + i)
  | _ => (List.range n).map fun i => (m.byteAt (l.add i), m.poisonAt (l.add i))

/-- Bytes with their poison that lie in one line, as a layer of it. -/
def layerOf (off : Nat) (bs : List (Byte × Bool)) : Layer :=
  let mask := bmRange off bs.length
  { mask, valid := bmWhole mask, data := Cells.putBytes [] off (bs.map (·.1)),
    poison := lineWords fun w => ((List.range bs.length).zip bs).any fun (x : Nat × Byte × Bool) => x.2.2 && (off + x.1) / 4 = w }

/-- What an atomic of core `k` at scope `sc` writes: at the die's atomic unit or at the home, over the bytes of the cluster that
it has read. -/
def Dev.atomicPut (m : Dev) (k sc : Nat) (l : Loc) (bs : List (Byte × Bool)) : Dev :=
  match l with
  | .dev pa =>
    let num := pa / 128
    let y := layerOf (pa % 128) bs
    let (z, m) := m.shedPending num y.mask (k % 13 ≠ 12) fun j => j / 13 = k / 13
    if sc < 3 then
      let die := m.die (k / 208)
      m.setDie (k / 208) { die with atomics := putMLine die.atomics num (y.over z) }
    else m.mergeHome num (y.over z)
  | _ => m.write l (bs.map (·.1)) fun i => (bs.getD i (0, false)).2

/-- The size of an ACCUM element (R285). -/
def atypeSize (t : Nat) : Nat := if t = 2 then 8 else if t = 3 then 2 else 4

/-- The addition of an ACCUM merge (R285). -/
def atypeAdd (t old x : Nat) : Nat :=
  match t with
  | 0 => (old + x) % 2 ^ 32
  | 1 => fAdd f32 0 old x
  | 2 => (old + x) % 2 ^ 64
  | _ => fAdd f16 0 old x

/-- Shadow lines of host memory (R285: pages with SYS = 1) are numbered from here on. -/
def hostLine : Nat := 2 ^ 45

/-- The place of a byte of a line. -/
def lineLoc (num i : Nat) : Loc := if num ≥ hostLine then .host (128 * (num - hostLine) + i) else .dev (128 * num + i)

/-- The number of the line that a place lies in, for a shadow. -/
def Loc.shadowNum : Loc → Nat
  | .dev pa => pa / 128
  | .host pa => hostLine + pa / 128
  | .arr _ o => o / 128

/-- Add every element of a shadow line of core `k` to memory, as an atomic of the core at the home atomic unit, or to host memory
(R250, R285); a poisoned word carries its poison (R524). -/
def Dev.mergeShadow (m : Dev) (k : Nat) (l : Line) : Dev :=
  let sz := atypeSize l.atype
  let m := if l.num ≥ hostLine then m else m.atomicLine k l.num 3
  (List.range (128 / sz)).foldl (fun m i =>
    let a := lineLoc l.num (sz * i)
    let was := m.atomicBytes k a sz
    let old := ofBytes (was.map (·.1))
    let new := atypeAdd l.atype old (ofBytes (l.data.getBytes (sz * i) sz))
    let bad := (List.range sz).any fun j => l.poison.getLsbD ((sz * i + j) / 4)
    if new = old && !bad then m
    else m.atomicPut k 3 a ((leBytes sz new).map fun b => (b, bad || was.any (·.2)))) m

/-! ## L1 replacement (R239) -/

/-- What leaves the L1 does this (R239): P, M and O are written back to the die merge buffer, the dirty data of which goes home
at once (log 119); a shadow is merged; E, S and G are dropped. -/
def Dev.evict (m : Dev) (k : Nat) (l : Line) : Dev :=
  match l.st with
  | .p => m.mergeDie (k / 208) l.num l.layer
  | .m | .o => (m.mergeDie (k / 208) l.num l.layer).homeLine (k / 208) l.num
  | .shadow => m.mergeShadow k l
  | _ => m

/-- The number that decides the set of a line: PA / 128 (R239), of device or host memory. -/
def lineIndex (num : Nat) : Nat := if num ≥ hostLine then num - hostLine else num % (Config.memoryBytes / 128)

/-- Put a line at the most recently used place of core `k`; the eighth-oldest of its set leaves. -/
def Dev.insertLine (m : Dev) (k : Nat) (l : Line) : Dev :=
  let sets := m.l1Sets k
  if sets = 0 then m.evict k l else
  let c := m.core k
  let same := c.l1.filter fun x => lineIndex x.num % sets = lineIndex l.num % sets
  if same.length < 8 then m.setCore k { c with l1 := l :: c.l1 } else
  match same.getLast? with
  | none => m
  | some old => (m.setCore k { c with l1 := l :: c.l1.erase old }).evict k old

/-- Make a line the most recently used, in its new form. -/
def Dev.touchLine (m : Dev) (k : Nat) (old new : Line) : Dev :=
  let c := m.core k
  m.setCore k { c with l1 := new :: c.l1.erase old }

/-- The lines of a list, most recently used first, that find one of the 8 ways of their set. -/
def placedLines (sets : Nat) (ls : List Line) : List Line :=
  if sets = 0 then [] else
  ls.foldl (fun kept l =>
    if (kept.filter fun x => lineIndex x.num % sets = lineIndex l.num % sets).length < 8 then kept ++ [l] else kept) []

/-- Place every line of core `k` again after a change of the L1's size, most recently used first; those that find no way leave
(R239). -/
def Dev.resizeL1 (m : Dev) (k : Nat) : Dev :=
  let ls := (m.core k).l1
  let kept := placedLines (m.l1Sets k) ls
  (ls.filter fun l => !kept.contains l).foldl (fun m l =>
    if (m.core k).l1.contains l then (m.dropLines k fun x => x = l).evict k l else m) m

/-- Drop the G lines of core `k` (R249). -/
def Dev.dropG (m : Dev) (k : Nat) : Dev := m.dropLines k fun l => l.st = .g

/-! ## Fills and loads (R240, R243, R245, R249) -/

/-- The merging fill of a P line with ownership (R243): the core's own bytes over those of the cluster probe over the
merge buffer over a dirty copy become the dirty bytes of a line in state M. The probed bytes stay in their own lines, but the
M line is where they stand now. -/
def Dev.mergingFill (m : Dev) (k : Nat) (l : Line) : Dev :=
  let (pick, m) := m.choose
  let y := stacked (l.layer :: m.missLayers k l.num pick ++ m.dirty l.num)
  let (_, m) := m.shedPending l.num (BitVec.allOnes 128) false fun j => j / 13 = k / 13 && j ≠ k
  let m := ((m.dropBuffered (k / 208) l.num (BitVec.allOnes 128)).dropTracked l.num fun j => j ≠ k).snoopHost l.num
  m.touchLine k l { num := l.num, st := .m, mask := y.mask, valid := y.valid, data := y.data, poison := y.poison }

/-- Are the words that `n` bytes from `off` touch valid in a P line (R241)? -/
def holdsWords (l : Line) (off n : Nat) : Bool :=
  (List.range ((off + n + 3) / 4 - off / 4)).all fun i =>
    l.valid.getLsbD (off / 4 + i) && (bmWhole l.layer.mask).getLsbD (off / 4 + i)

/-- A load of `n` bytes on the miss path of core `k` (R245, R248, R249): a weak one may fill a G line. -/
def Dev.missLoad (m : Dev) (k pa n : Nat) (strong : Bool) : List (Byte × Bool) × Dev :=
  let num := pa / 128
  let off := pa % 128
  let (pick, m) := m.choose
  let ks := m.neighbours k
  let seen (m : Dev) (mask : BitVec 128) := m.observe num mask false strong (if pick then ks.reverse else ks)
  let r := m.viewBytes k num off n pick
  if strong || m.l1Sets k = 0 then (r, seen m (bmRange off n)) else
  let (fill, m) := m.choose
  if fill then
    let (data, poison) := lineOf (m.viewBytes k num 0 128 pick)
    (r, (seen m (BitVec.allOnes 128)).insertLine k
      { num, st := .g, mask := BitVec.allOnes 128, data, poison, filled := (m.core k).cycle.toNat })
  else (r, seen m (bmRange off n))

/-- A load of `n` bytes of one line through the L1 of core `k` (R240, R243, R245, R249): its bytes with
their poison. `strong`: strong, acquire or the read of an engine descriptor. -/
def Dev.loadLine (m : Dev) (k pa n : Nat) (strong : Bool) : List (Byte × Bool) × Dev :=
  let num := pa / 128
  let off := pa % 128
  let own (l : Line) := (List.range n).map fun i => (l.data.get (off + i), l.poison.getLsbD ((off + i) / 4))
  match m.line k num with
  | none => m.missLoad k pa n strong
  | some l =>
    match l.st with
    | .p =>
      if holdsWords l off n then
        let m := m.touchLine k l l
        (own l, if strong then m.observe num (bmRange off n) false true (k :: m.neighbours k) else m)
      else
        let m := m.mergingFill k l
        (m.viewBytes k num off n false, m)
    | .g =>
      if strong || l.expired (m.core k).cycle.toNat then (m.dropLines k fun x => x.num = num && x.st = .g).missLoad k pa n strong
      else (own l, m.touchLine k l l)
    | _ =>
      let bad (i : Nat) := l.poison.getLsbD ((off + i) / 4)
      (((m.viewBytes k num off n false).zipIdx.map fun (x : (Byte × Bool) × Nat) => (x.1.1, x.1.2 || bad x.2)),
       (m.touchLine k l l).observe num (bmRange off n) true strong (m.neighbours k))

/-! ## Stores (R242, R247, R264) -/

/-- A store of core `k` to a line that it holds tracked (R242): the core takes ownership, with the dirty bytes of another
copy, and the line is M. -/
def Dev.storeOwned (m : Dev) (k : Nat) (l : Line) (y : Layer) : Dev :=
  let z := stacked (y :: l.layer :: m.dirty l.num)
  let m := (m.dropTracked l.num fun j => j ≠ k).snoopHost l.num
  m.touchLine k l { l with st := .m, mask := z.mask, valid := z.valid, data := z.data, poison := z.poison }

/-- A P line with a store over its bytes. -/
def Line.store (l : Line) (y : Layer) : Line :=
  let z := y.over l.layer
  { l with mask := l.mask ||| y.mask, valid := z.valid, data := z.data, poison := z.poison, rel := l.rel &&& ~~~y.mask,
           stale := l.stale &&& ~~~y.mask }

/-- A store performed at the L1 or the P line of core `k` (R242), or at once at the die merge buffer when the
core has no L1 (R240). -/
def Dev.storeLocal (m : Dev) (k pa : Nat) (bs : List Byte) (strong : Bool := false) : Dev :=
  let num := pa / 128
  let (y, m) := m.supersede k num (layerOf (pa % 128) (clean bs)) strong
  if m.l1Sets k = 0 then m.mergeDie (k / 208) num y else
  match m.line k num with
  | none => m.insertLine k (({ num, st := .p } : Line).store y)
  | some l =>
    match l.st with
    | .p => m.touchLine k l (l.store y)
    | .g => (m.dropLines k fun x => x.num = num && x.st = .g).insertLine k (({ num, st := .p } : Line).store y)
    | _ => m.storeOwned k l y

/-- A strong store at scope `sc` (R264): at the L1 for `.WV` and `.CL`; written through to the die merge buffer
for `.DIE`, and for `.DEV` and `.SYS` to the home, over what the buffer holds of the line. It is performed when it issues, so that two strong stores of one
wave to different stacks are performed in program order (log 106). -/
def Dev.storeStrong (m : Dev) (k pa sc : Nat) (bs : List Byte) : Dev :=
  if sc < 2 then m.storeLocal k pa bs true else
  let num := pa / 128
  let (y, m) := m.supersede k num (layerOf (pa % 128) (clean bs)) true
  let m := m.flushLine k num
  if sc = 2 then m.mergeDie (k / 208) num y else (m.homeLine (k / 208) num).mergeHome num y

/-! ## Releases and acquires (R246, R264) -/

/-- A release at cluster scope covers every pending byte of the cluster (R246, R257, R258). -/
def Dev.coverPending (m : Dev) (k : Nat) : Dev :=
  { m with cores := m.cores.map fun (x : Nat × Core) =>
      if x.1 / 13 = k / 13 then
        (x.1, { x.2 with l1 := x.2.l1.map fun (y : Line) => if y.st = .p then { y with rel := y.mask } else y })
      else x }

/-- Every P line of the cluster of core `k` goes to the die merge buffer. -/
def Dev.releaseDie (m : Dev) (k : Nat) : Dev :=
  m.cores.foldl (fun m (x : Nat × Core) =>
    if x.1 / 13 = k / 13 then
      (x.2.l1.filter fun (l : Line) => l.st = .p).foldl (fun m (l : Line) => m.flushLine x.1 l.num) m
    else m) m

/-- Every line of the merge buffer of die `d` goes to its home. -/
def Dev.drainDie (m : Dev) (d : Nat) : Dev := (m.die d).merge.foldl (fun m l => m.homeLine d l.num) m

/-- A release performed whole: at `.CL` the stores are in the cluster's L1s and P lines; for `.DIE` its pending lines are
written to the merge buffer, and for `.DEV` and `.SYS` the buffer to the homes. -/
def Dev.release (m : Dev) (k sc : Nat) : Dev :=
  if sc = 0 then m else if sc = 1 then m.coverPending k else
  let m := m.releaseDie k
  if sc = 2 then m else m.drainDie (k / 208)

/-- The same as a wait: the merge buffer's lines are marked, and each goes home as an event of its own. -/
def Dev.releaseStart (m : Dev) (k sc : Nat) : Dev :=
  if sc = 0 then m else if sc = 1 then m.coverPending k else
  let m := m.releaseDie k
  if sc = 2 then m else
  let d := m.die (k / 208)
  let m := m.setDie (k / 208) { d with merge := d.merge.map fun l => { l with draining := true } }
  d.merge.foldl (fun m l => m.push (.memoryAccessPerformed (k / 208) l.num)) m

/-- Does the merge buffer of die `d` hold a line on its way home? -/
def Dev.draining (m : Dev) (d : Nat) : Bool := (m.die d).merge.any fun l => l.draining

/-- A prefetch fill (R468): the merge buffer's bytes reach the home, then a tracked copy is taken: S when another core, an atomic
unit or the host holds the line (R81, R248), E otherwise. A line in P gets its merging fill (R243); a G copy is dropped. -/
def Dev.prefetchLine (m : Dev) (k num : Nat) : Dev :=
  let m := m.dropLines k fun x => x.num = num && x.st = .g
  match m.line k num with
  | some l => if l.st = .p then m.mergingFill k l else m
  | none =>
    if m.l1Sets k = 0 then m else
    let m := m.homeLine (k / 208) num
    let others := m.hostHeld.contains num || (m.dies.any fun d => d.atomics.any fun l => l.num = num) ||
      m.cores.any fun (x : Nat × Core) => x.2.l1.any fun (l : Line) => l.num = num && l.st.tracked
    let m := { m with cores := m.cores.map fun (x : Nat × Core) =>
      (x.1, { x.2 with l1 := x.2.l1.map fun (l : Line) =>
        if l.num = num && l.st = LineState.m then { l with st := LineState.o }
        else if l.num = num && l.st = LineState.e then { l with st := LineState.s } else l }) }
    m.insertLine k { num, st := if others then .s else .e }

/-! ## ACCUM shadows (R285) -/

/-- The shadow line of wave `uid` that holds a place, on core `k`. -/
def Dev.shadowLine (m : Dev) (k uid num : Nat) : Option Line :=
  (m.core k).l1.find? fun x => x.num = num && x.st = .shadow && x.wave = uid

/-- Make sure that the shadow line exists; it starts at zero. -/
def Dev.shadowTouch (m : Dev) (k uid num atype room : Nat) : Dev :=
  match m.shadowLine k uid num with
  | some l => m.touchLine k l l
  | none => m.insertLine k { num, st := .shadow, mask := BitVec.allOnes 128, wave := uid, atype, room }

/-- Read an element of a shadow, with its poison. -/
def Dev.shadowLoad (m : Dev) (k uid num off n atype room : Nat) : List (Byte × Bool) × Dev :=
  let m := m.shadowTouch k uid num atype room
  match m.shadowLine k uid num with
  | some l => ((List.range n).map fun i => (l.data.get (off + i), l.poison.getLsbD ((off + i) / 4)), m)
  | none => ((leBytes n 0).map fun b => (b, false), m)

/-- Write an element of a shadow; a word written whole loses its poison (R524). -/
def Dev.shadowStore (m : Dev) (k uid num off atype room : Nat) (bs : List Byte) : Dev :=
  let m := m.shadowTouch k uid num atype room
  match m.shadowLine k uid num with
  | some l =>
    let z := (layerOf off (clean bs)).over l.layer
    m.touchLine k l { l with data := z.data, poison := z.poison }
  | none => m

/-- The shadow lines of wave `uid` on core `k` made in the rooms of `p` leave the L1; merged or discarded
(R280, R285, R287). -/
def Dev.endShadows (m : Dev) (k uid : Nat) (merge : Bool) (p : Nat → Bool) : Dev :=
  let c := m.core k
  let mine := fun (x : Line) => x.st = LineState.shadow && x.wave = uid && p x.room
  let m' := m.setCore k { c with l1 := c.l1.filter fun x => !mine x }
  if merge then (c.l1.filter mine).foldl (fun m l => m.mergeShadow k l) m' else m'

end Sys2Proof.Machine
end

