-- ==== Sys2Proof/Machine/Walk.lean ====
section
/-!
DEFINITION. Machine/Walk.lean: generic pointers, page tables, the TLB and the checks of an access
(10 R221-R229, R232; 02 R47, R48; 18 R359).
-/
namespace Sys2Proof.Machine

/-! ## Physical addresses of the host and the hub (R49, R80, R81) -/

/-- The bias table entry of a page (R80). The hub reads the table under PIN 0. -/
def Dev.biasEntry (m : Dev) (page : Nat) : Nat := (m.byteAt (.dev (m.host.biasbase + page))).toNat

/-- Does a page hold bytes of the bias table (R80)? -/
def Dev.inBiasTable (m : Dev) (page : Nat) : Bool :=
  m.host.biasbase < 65536 * (page + 1) && 65536 * page < m.host.biasbase + 2 ^ 24

/-- The PIN of a page: that of its entry; the hub keeps the table itself at PIN 0, where a read returns the entries (R80). -/
def Dev.entryPin (m : Dev) (page : Nat) : Nat := if m.inBiasTable page then 0 else m.biasEntry page % 16

/-- The place of a physical address that the host, the hub or a walker uses: the home that the entry's PIN gives (R81). -/
def Dev.phys (m : Dev) (pa : Nat) : Loc :=
  if pa < Config.memoryBytes then .dev (homeKey (m.entryPin (pa / 65536)) pa) else .dev (pa + 16 * Config.memoryBytes)

/-- The places of a physical range, page by page. -/
def Dev.physSpans (m : Dev) (pa n : Nat) : List Span :=
  (List.range ((pa + n - 1) / 65536 + 1 - pa / 65536)).flatMap fun i =>
    let a := max pa (65536 * (pa / 65536 + i))
    let stop := min (pa + n) (65536 * (pa / 65536 + i + 1))
    if a < Config.memoryBytes then keySpans (m.entryPin (a / 65536)) a (stop - a)
    else [{ loc := .dev (a + 16 * Config.memoryBytes), len := stop - a }]

/-! ## The context table (R359) -/

/-- Doubleword at offset `o` of the entry of context `c`, as memory holds it. -/
def Dev.ctxDword (m : Dev) (c o : Nat) : Nat :=
  ofBytes (m.bytesAt (m.phys (m.host.ctxbase + 128 * c + o)) 8)

/-- V, PEER and PTROOT of a context. -/
def Dev.ctxValid (m : Dev) (c : Nat) : Bool := (m.ctxDword c 0).testBit 63
def Dev.ctxPeer (m : Dev) (c : Nat) : Bool := (m.ctxDword c 0).testBit 62
def Dev.ctxRoot (m : Dev) (c : Nat) : Nat := fld (m.ctxDword c 0) 51 12 * 4096

/-! ## Page tables (R226-R228) -/

/-- What a walk finds: an entry with V = 0 (and where it lies), an entry that breaks R228, or a leaf with the
size of its page. -/
inductive Walk where
  | absent (entry : Nat)
  | bad
  | leaf (pte size : Nat)
deriving DecidableEq, Repr

/-- The PIN values of R48. -/
def pinOk (p : Nat) : Bool := p = 0 || p ≥ 8

/-- Does a leaf keep R228: reserved bits, frame, SYS and PIN? -/
def leafOk (e size : Nat) : Bool :=
  let frame := fld e 51 12 * 4096
  fld e 63 52 = 0 && fld e 11 10 = 0 && frame % size = 0 && pinOk (fld e 9 6) &&
  (if bit e 5 then fld e 9 6 = 0 else frame < Config.memoryBytes)

/-- Does a non-leaf entry keep R228? -/
def tableOk (e : Nat) : Bool := fld e 63 52 = 0 && fld e 11 10 = 0 && fld e 9 2 = 0

/-- The levels of R226: shift of the index, its bits, may the entry be a leaf, may it name a table. -/
def walkLevels : List (Nat × Nat × Bool × Bool) :=
  [(39, 10, false, true), (30, 9, true, true), (21, 9, true, true), (16, 5, true, false)]

/-- Walk from the table at `tab`; `rd` reads a doubleword of physical memory. -/
def walkFrom (rd : Nat → Nat) (va : Nat) : List (Nat × Nat × Bool × Bool) → Nat → Walk
  | [], _ => .bad
  | (sh, w, leafHere, tableHere) :: t, tab =>
    let at_ := tab + 8 * (va / 2 ^ sh % 2 ^ w)
    let e := rd at_
    if !bit e 0 then .absent at_
    else if bit e 1 then (if leafHere && leafOk e (2 ^ sh) then .leaf e (2 ^ sh) else .bad)
    else if tableHere && tableOk e then walkFrom rd va t (fld e 51 12 * 4096) else .bad

/-- The place of a physical address under the SYS and PIN bits of a leaf (R49, R227). -/
def frameLoc (pte pa : Nat) : Loc := if bit pte 5 then .host pa else .dev (homeKey (fld pte 9 6) pa)

/-- The physical place that a leaf gives a virtual address. -/
def leafLoc (pte size va : Nat) : Loc := frameLoc pte (fld pte 51 12 * 4096 + va % size)

/-- The places that a leaf gives `n` bytes of its page from a virtual address. -/
def leafSpans (pte size va n : Nat) : List Span :=
  let pa := fld pte 51 12 * 4096 + va % size
  if bit pte 5 then [{ loc := .host pa, len := n }] else keySpans (fld pte 9 6) pa n

/-- Has a leaf the rights that an access needs (R227, R228)? -/
def rightsOk (pte : Nat) (rd wr user : Bool) : Bool :=
  (!rd || bit pte 2) && (!wr || bit pte 3) && (!user || bit pte 4)

/-- The cause of a walk for an access, or the leaf that allows it with the size of its page (R228). -/
def walkLeaf (w : Walk) (rd wr user : Bool) : Except Cause (Nat × Nat) :=
  match w with
  | .absent _ => .error .pageFault
  | .bad => .error .protection
  | .leaf pte size => if rightsOk pte rd wr user then .ok (pte, size) else .error .protection

/-- The cause of a walk for an access, or its place (R228). -/
def walkVerdict (w : Walk) (va : Nat) (rd wr user : Bool) : Except Cause Loc :=
  (walkLeaf w rd wr user).map fun (x : Nat × Nat) => leafLoc x.1 x.2 va

/-- A walk of the launch engine, the hub and the tun: memory as it is at its home. -/
def Dev.homeWalk (m : Dev) (ctx va : Nat) : Walk :=
  walkFrom (fun pa => ofBytes (m.bytesAt (m.phys pa) 8)) va walkLevels (m.ctxRoot ctx)

/-- The number of device memory that a place has. -/
def Loc.key : Loc → Nat
  | .dev pa | .host pa | .arr _ pa => pa

/-- A translation by core `k` for a context: a cached leaf, else a walk with strong loads, whose valid leaf is
cached (R229). -/
def Dev.coreWalk (m : Dev) (k ctx va : Nat) : Walk × Dev :=
  let c := m.core k
  match c.tlb.find? fun t => t.ctx = ctx && t.page = va / t.size with
  | some t => (.leaf t.leaf.toNat t.size, m)
  | none =>
    let w := walkFrom (fun pa => m.strongDword k (m.phys pa).key) va walkLevels (m.ctxRoot ctx)
    match w with
    | .leaf pte size =>
      (w, m.setCore k { c with tlb := { ctx, page := va / size, size, leaf := BitVec.ofNat 64 pte } :: c.tlb })
    | _ => (w, m)

/-! ## Windows (R221) -/

/-- The windows of R221. -/
inductive Window where
  | global | peer | dieShared | cluster | own
deriving DecidableEq, Repr

/-- The window of a generic pointer. -/
def windowOf (a : Nat) : Option Window :=
  match a / 2 ^ 56 % 256 with
  | 0x00 => some .global
  | 0xFA => some .peer
  | 0xFC => some .dieShared
  | 0xFD => some .cluster
  | 0xFE => some .own
  | _ => none

/-- Offset of a generic pointer in its window. -/
def windowOff (a : Nat) : Nat := a % 2 ^ 56

/-- The size of a window for a wave (R221). -/
def windowSize (w : Wave) : Window → Nat
  | .global => 2 ^ 49
  | .peer => 2 ^ 56
  | .dieShared => 0xC000000
  | .cluster => 0xC00000
  | .own => 1024 * w.scratch

/-- What an access is, for R224 and R225. -/
structure AccessKind where
  /-- the windows it accepts -/
  windows : List Window
  rd    : Bool := false
  wr    : Bool := false
  /-- the alignment of step 4 -/
  align : Nat := 1
deriving DecidableEq, Repr

def laneWindows : List Window := [.global, .peer, .dieShared, .cluster, .own]
def scalarWindows : List Window := [.global, .dieShared, .cluster, .own]

/-- The outcome of R225: the places of the range in order, a peer range, or the rank of the failing check in
the order of R364 (1: steps 1 and 2, 2: step 3, 3: step 4, 4: step 5, and R66, whose place in the order is the model's
choice, log 110), the cause and the failing byte. -/
inductive Verdict where
  | ok (spans : List Span)
  | peer
  | bad (rank : Nat) (c : Cause) (addr : Nat)
deriving DecidableEq, Repr

/-- Allocations on core `k` held by waves of a context, as (start, end) in the array (R222). -/
def Dev.allocations (m : Dev) (k ctx : Nat) : List (Nat × Nat) :=
  (m.allWaves.filter fun w => w.coreNo = k && w.ctx = ctx && w.scratch ≠ 0).map
    fun w => (w.scrbase, w.scrbase + 1024 * w.scratch)

/-- Is a core in service, and no control core (R34, R222)? -/
def Dev.coreInService (m : Dev) (k : Nat) : Bool :=
  k % 13 < 12 && ((m.cap.cores.getD (k / 13) 0).getLsbD (k % 13))

/-- The end of the reachable bytes from an offset of an array (R222); at most `n` allocations are crossed. -/
def reachEnd (as : List (Nat × Nat)) : Nat → Nat → Nat
  | 0, off => off
  | n + 1, off =>
    match as.find? fun a => a.1 ≤ off && off < a.2 with
    | some a => reachEnd as n a.2
    | none => off

/-- The virtual addresses at which the pages of a range begin, its first byte included. -/
def pageStarts (va n : Nat) : List Nat :=
  va :: ((List.range ((va + n - 1) / 65536 - va / 65536)).map fun i => 65536 * (va / 65536 + 1 + i))

/-- Step 5 of R225 for a global range, page by page; the lowest failing byte decides. -/
def Dev.checkPages (m : Dev) (k : Nat) (w : Wave) (rd wr : Bool) (last : Nat) : List Nat → List Span → Verdict × Dev
  | [], acc => (.ok acc.reverse, m)
  | va :: t, acc =>
    let (r, m) := m.coreWalk k w.ctx va
    match walkLeaf r rd wr (!w.super) with
    | .error c => (.bad 4 c va, m)
    | .ok (pte, size) =>
      let stop := min last (65536 * (va / 65536 + 1))
      m.checkPages k w rd wr last t ((leafSpans pte size va (stop - va)).reverse ++ acc)

/-- Step 5 for a scratchpad range on core `k` from array offset `off`; `a` is its generic pointer. -/
def Dev.checkArray (m : Dev) (k ctx off n a : Nat) : Verdict :=
  let as := m.allocations k ctx
  let stop := if m.coreInService k then reachEnd as (as.length + 1) off else off
  if stop ≥ off + n then .ok [{ loc := .arr k off, len := n }] else .bad 4 .protection (a + (stop - off))

/-- The core and array offset that a scratchpad pointer names. -/
def arrayPlace (w : Wave) (win : Window) (off : Nat) : Nat × Nat :=
  match win with
  | .dieShared => (coreNo w.die (off / 0xC00000) (off % 0xC00000 / 0x100000), off % 0x100000)
  | .cluster => (coreNo w.die w.cluster (off / 0x100000), off % 0x100000)
  | _ => (w.coreNo, w.scrbase + off)

/-- R225 for the loaded wave: an access of `n` bytes at generic pointer `a`. -/
def Dev.check (m : Dev) (a n : Nat) (ak : AccessKind) : Verdict × Dev :=
  let w := m.wave
  match windowOf a with
  | none => (.bad 1 .protection a, m)
  | some win =>
    let off := windowOff a
    let size := windowSize w win
    let coreEnd := 0x100000 * (off / 0x100000 + 1)
    let stop := if win = .dieShared || win = .cluster then min size coreEnd else size
    if !ak.windows.contains win then (.bad 1 .protection a, m)
    else if off ≥ size then (.bad 1 .protection a, m)
    else if off + n > stop then (.bad 2 .windowSpan (a - off + stop), m)
    else if a % ak.align ≠ 0 then (.bad 3 .misaligned a, m)
    else match win with
      | .peer =>
        if fld a 55 42 = m.host.nodeid || !m.ctxPeer w.ctx then (.bad 4 .protection a, m)
        else (.peer, m)
      | .global => m.checkPages w.coreNo w ak.rd ak.wr (off + n) (pageStarts off n) []
      | _ => let (k, o) := arrayPlace w win off; (m.checkArray k w.ctx o n a, m)

/-- R232: offset `off` of translation register `x`, on the fast path when it applies. The address is
`BASE + off`; a peer base has LIMIT 0 and takes the full path. -/
def Dev.checkX (m : Dev) (x : XReg) (off : Int) (n : Nat) (ak : AccessKind) : Verdict × Dev :=
  let a := wrapN 64 (x.base.toNat + off)
  if 0 ≤ off && off + n ≤ x.limit.toNat then
    if a % ak.align ≠ 0 then (.bad 3 .misaligned a, m) else
    if windowOf x.base.toNat = some .global then
      let pte := x.attr.toNat
      if rightsOk pte ak.rd ak.wr (!m.wave.super) then
        let pa := x.frame.toNat + off.toNat
        (.ok [{ loc := frameLoc pte pa, len := n }], m)
      else (.bad 4 .protection a, m)
    else
      let f := x.frame.toNat + off.toNat
      (m.checkArray (f / 2 ^ 20) m.wave.ctx (f % 2 ^ 20) n a, m)
  else m.check a n ak

/-- The translation register that `XLAT` writes for a pointer (R231). -/
def Dev.xlat (m : Dev) (a : DWord) : XReg × Dev :=
  let w := m.wave
  let (v, m) := m.check a.toNat 1 { windows := [.global, .dieShared, .cluster, .own], rd := true }
  match v with
  | .ok ({ loc := l, len := _ } :: _) =>
    match windowOf a.toNat with
    | some .global =>
      let (r, m) := m.coreWalk w.coreNo w.ctx (a.toNat % 2 ^ 49)
      match r with
      | .leaf pte size =>
        let pa := fld pte 51 12 * 4096 + a.toNat % size
        ({ base := a, frame := BitVec.ofNat 52 pa, limit := BitVec.ofNat 32 (size - a.toNat % size),
           attr := BitVec.ofNat 12 pte }, m)
      | _ => ({ base := a }, m)
    | win =>
      match l with
      | .arr k o =>
        let limit := if win = some .own then 1024 * w.scratch - windowOff a.toNat else 0x100000 - o
        ({ base := a, frame := BitVec.ofNat 52 (k * 2 ^ 20 + o), limit := BitVec.ofNat 32 limit }, m)
      | _ => ({ base := a }, m)
  | _ => ({ base := a }, m)

end Sys2Proof.Machine
end

