-- ==== Sys2Proof/Machine/Regs.lean ====
section
/-!
DEFINITION. Machine/Regs.lean: scalar registers, conditions, predicates, lane registers with their windows,
shadows, lookahead, liveness and poison marks, and the fragments of a wave
(07 R152-R161; 08 R179-R195; 17 R350-R352; 03 R73).
-/
namespace Sys2Proof.Machine

/-! ## The loaded wave and fragment -/

/-- Change the loaded wave; the loaded fragment. -/
def Dev.onWave (m : Dev) (f : Wave → Wave) : Dev := { m with wave := f m.wave }
def Dev.onFrag (m : Dev) (f : Frag → Frag) : Dev := { m with frag := f m.frag }

/-- A wave as a fragment outside the handler sees it while another is in it (R361): the wave's own `s48`-`s63`, in USER
mode. Applied again, it is undone. -/
def Wave.swapBank (w : Wave) : Wave :=
  { w with sregs := (w.sregs.filter fun e => e.1 < 48) ++ w.bank, bank := w.sregs.filter fun e => e.1 ≥ 48,
           super := !w.super }

/-- Put the loaded wave, with its loaded fragment, back into the list of waves: then none is loaded. -/
def Dev.stash (m : Dev) : Dev :=
  if m.wave.uid = 0 then m else
  let w := if m.frag.fid = 0 then m.wave else { m.wave with frags := m.frag :: m.wave.frags }
  let w := if w.handler.isSome && !w.super then w.swapBank else w
  { m with waves := m.waves ++ [w], wave := {}, frag := {} }

/-- Take a wave and one of its fragments out of the lists. -/
def Dev.load (m : Dev) (uid fid : Nat) : Dev :=
  let m := m.stash
  match m.waves.find? fun w => w.uid = uid with
  | none => m
  | some w =>
    let m := { m with waves := m.waves.filter fun x => x.uid ≠ uid }
    match w.frags.find? fun f => f.fid = fid with
    | none => { m with wave := w }
    | some f =>
      let w := { w with frags := w.frags.filter fun x => x.fid ≠ fid }
      { m with wave := if w.handler.isSome && !f.inHandler then w.swapBank else w, frag := f }

/-- The wave with a number, loaded or not. -/
def Dev.waveOf (m : Dev) (uid : Nat) : Option Wave := m.allWaves.find? fun w => w.uid = uid

/-- Change the wave with a number, loaded or not. -/
def Dev.modWave (m : Dev) (uid : Nat) (f : Wave → Wave) : Dev :=
  if m.wave.uid = uid then { m with wave := f m.wave }
  else { m with waves := m.waves.map fun w => if w.uid = uid then f w else w }

/-- Change a fragment of a wave, loaded or not. -/
def Dev.modFrag (m : Dev) (uid fid : Nat) (f : Frag → Frag) : Dev :=
  if m.wave.uid = uid && m.frag.fid = fid then { m with frag := f m.frag }
  else m.modWave uid fun w => { w with frags := w.frags.map fun x => if x.fid = fid then f x else x }

/-- Change every fragment of a wave. -/
def Dev.modFrags (m : Dev) (uid : Nat) (f : Frag → Frag) : Dev :=
  let m := if m.wave.uid = uid then { m with frag := f m.frag } else m
  m.modWave uid fun w => { w with frags := w.frags.map f }

/-- All fragments of the loaded wave. -/
def Dev.frags (m : Dev) : List Frag := if m.frag.fid = 0 then m.wave.frags else m.frag :: m.wave.frags

/-- The lanes that the loaded wave has left, in all its fragments and parked at its splits (R167). -/
def Dev.lanesLeft (m : Dev) : Mask :=
  let held := m.wave.splits.foldl (fun k s =>
    k ||| (s.takenIn.getD 0) ||| (s.fallIn.getD 0) ||| (match s.fallAt with | some (_, _, _, _, x) => x | none => 0)) 0#1024
  m.frags.foldl (fun k f => k ||| f.mask) held

/-! ## Scalar registers, conditions, predicates (R179) -/

/-- A scalar register of a wave; `s0` reads 0. -/
def Wave.sget (w : Wave) (r : BitVec 6) : DWord := if r = 0 then 0 else w.sregs.get r.toNat
/-- Write a scalar register; a write to `s0` is discarded. -/
def Wave.sput (w : Wave) (r : BitVec 6) (v : DWord) : Wave :=
  if r = 0 then w else { w with sregs := w.sregs.put r.toNat v }
def Dev.s (m : Dev) (r : BitVec 6) : DWord := m.wave.sget r
def Dev.setS (m : Dev) (r : BitVec 6) (v : DWord) : Dev := { m with wave := m.wave.sput r v }

/-- A condition; `c0` reads 1. -/
def Wave.cget (w : Wave) (c : BitVec 3) : Bool := c = 0 || w.cregs.getLsbD c.toNat
/-- Write a condition; a write to `c0` is discarded. -/
def Wave.cput (w : Wave) (c : BitVec 3) (b : Bool) : Wave :=
  if c = 0 then w
  else { w with cregs := (w.cregs &&& ~~~(1#8 <<< c.toNat)) ||| (if b then 1#8 <<< c.toNat else 0#8) }
def Dev.c (m : Dev) (c : BitVec 3) : Bool := m.wave.cget c
def Dev.setC (m : Dev) (c : BitVec 3) (b : Bool) : Dev := { m with wave := m.wave.cput c b }

/-- A predicate; `k0` reads the active mask of the loaded fragment. -/
def Dev.k (m : Dev) (n : Nat) : Mask := if n = 0 then m.frag.mask else m.wave.kregs.getD n 0
/-- Write a predicate; a write to `k0` is discarded. -/
def Dev.setK (m : Dev) (n : Nat) (v : Mask) : Dev :=
  if n = 0 then m else { m with wave := { m.wave with kregs := setAt 0 m.wave.kregs n v } }

/-! ## WAVECTL (R197) -/

/-- Set a bit of `WAVECTL`. -/
def Dev.setCtl (m : Dev) (i : Nat) : Dev := m.onWave fun w => { w with wavectl := w.wavectl ||| (1#64 <<< i) }
/-- `irrev()` (R388): `WAVECTL.IRREV` and `SSTAT.EVERIRR`. -/
def Dev.irrev (m : Dev) : Dev := m.onWave fun w => { w with wavectl := w.wavectl ||| 2, everirr := true }

/-! ## Lane registers (R181-R183, R352) -/

/-- The key of a lane word inside a window. -/
def cellKey (reg tang lane : Nat) : Nat := (4 * reg + tang) * 1024 + lane

/-- The current window (R181). -/
def Wave.cur (w : Wave) : Win := w.stack.headD w.base
/-- Replace the current window. -/
def Wave.setCur (w : Wave) (x : Win) : Wave :=
  match w.stack with
  | [] => { w with base := x }
  | _ :: t => { w with stack := x :: t }

/-- The window that holds `v`n, and its number there. -/
def Wave.winOf (w : Wave) (n : Nat) : Win := if n < 8 then w.globals else w.cur
def winReg (n : Nat) : Nat := if n < 8 then n else n - 8
def Wave.setWin (w : Wave) (n : Nat) (x : Win) : Wave := if n < 8 then { w with globals := x } else w.setCur x

/-- Is `v`n inside the current window (R182)? -/
def Wave.inWindow (w : Wave) (n : Nat) : Bool := n < 8 || n - 8 < 8 * w.cur.units

/-- The word of `v`n (tangent 0) or of a shadow, in a lane. -/
def Wave.vget (w : Wave) (n tang lane : Nat) : Word := (w.winOf n).cells.get (cellKey (winReg n) tang lane)
/-- Write one word. -/
def Wave.vput (w : Wave) (n tang lane : Nat) (v : Word) : Wave :=
  let x := w.winOf n
  w.setWin n { x with cells := x.cells.put (cellKey (winReg n) tang lane) v }

/-- Is the register dead (R194)? -/
def Wave.isDead (w : Wave) (n : Nat) : Bool := (w.winOf n).dead.getLsbD (winReg n)

/-- The register becomes dead in every lane, with its shadows: it reads 0 until written (R194, R195). -/
def Wave.kill (w : Wave) (n : Nat) : Wave :=
  let x := w.winOf n
  let r := winReg n
  w.setWin n { x with dead := x.dead ||| (1#128 <<< r),
                      cells := x.cells.drop fun key => key / 4096 = r,
                      marks := x.marks.filter fun k => k.reg ≠ r }

/-- The register becomes live (R195). -/
def Wave.revive (w : Wave) (n : Nat) : Wave :=
  let x := w.winOf n
  w.setWin n { x with dead := x.dead &&& ~~~(1#128 <<< winReg n) }

/-! ## Poison marks (R73, R463) -/

/-- The marks of `v`n in the lanes of a mask. -/
def Wave.marksOf (w : Wave) (n : Nat) (lanes : Mask) : List Mark :=
  (w.winOf n).marks.filter fun k => k.reg = winReg n && Mask.has lanes k.lane

/-- Change the marks of every window. -/
def Wave.mapMarks (w : Wave) (f : List Mark → List Mark) : Wave :=
  { w with globals := { w.globals with marks := f w.globals.marks },
           base := { w.base with marks := f w.base.marks },
           stack := w.stack.map fun x => { x with marks := f x.marks } }

/-- Every mark of the wave. -/
def Wave.allMarks (w : Wave) : List Mark :=
  w.globals.marks ++ w.base.marks ++ w.stack.flatMap fun x => x.marks

/-- Remove the marks of one error (R73). -/
def Wave.clearError (w : Wave) (err : Nat) : Wave := w.mapMarks fun l => l.filter fun k => k.err ≠ err

/-! ## Peer results that are still to come (R67, R436) -/

/-- The name of a register for a peer result: its window with its number. -/
def Wave.peerReg (w : Wave) (n : Nat) : Nat := if n < 8 then n else n + 128 * w.cur.id

/-- The fragments of the wave with a number, the loaded one among them. -/
def Dev.fragsOf (m : Dev) (uid : Nat) : List Frag :=
  if m.wave.uid = uid then m.frags else (m.waveOf uid).elim [] fun w => w.frags

/-- The words of lane registers of a wave that are still to come, with their lanes: from peers, and from the accesses that
wait for these. -/
def Dev.toCome (m : Dev) (uid : Nat) : List (Late × Nat) :=
  let words (lo hi : Option Late) (l : Nat) : List (Late × Nat) := (lo.toList ++ hi.toList).map fun d => (d, l)
  (m.peers.flatMap fun (p : PeerOut) => if p.wave = uid then (match p.what with
    | .load lo hi _ l _ => words lo hi l
    | _ => []) else []) ++
  (m.fragsOf uid).flatMap fun f => f.todo.flatMap fun p => words p.lo p.hi p.lane

/-- The lookahead windows of a fragment that hold lane results. -/
def Frag.opens (f : Frag) : List Nat := (f.held.filter fun h => !h.scalar).map (·.hold)

/-- Is a result of a named register of a wave outstanding, but for those of some open windows? -/
def Dev.nameWaits (m : Dev) (uid name : Nat) (opens : List Nat := []) : Bool :=
  (m.toCome uid).any fun (x : Late × Nat) => x.1.name = name && !opens.contains x.1.hold

/-- Is a result of `v`n outstanding that an instruction of the loaded fragment would read: one of an open window of its own it
does not see (R192, R436)? -/
def Dev.peerPending (m : Dev) (n : Nat) : Bool := m.nameWaits m.wave.uid (m.wave.peerReg n) m.frag.opens

/-- Words of the loaded wave that are still to come and were to go where `gone` says (destination, lane) are discarded. -/
def Dev.dropResults (m : Dev) (gone : Late → Nat → Bool) : Dev :=
  let cut (l : Nat) (x : Option Late) : Option Late := x.filter fun d => !gone d l
  let cutFrag (f : Frag) : Frag :=
    { f with todo := f.todo.map fun (p : Part) => { p with lo := cut p.lane p.lo, hi := cut p.lane p.hi } }
  { m with
    peers := m.peers.map fun (p : PeerOut) =>
      if p.wave = m.wave.uid then
        match p.what with
        | .load lo hi t l x => { p with what := .load (cut l lo) (cut l hi) t l x }
        | _ => p
      else p,
    frag := cutFrag m.frag, wave := { m.wave with frags := m.wave.frags.map cutFrag } }

/-! ## Writing lane registers (R192, R195) -/

/-- A value for a register: per lane the primal and the tangents. -/
structure RegOut where
  reg   : Nat
  /-- values keyed `4 * lane + tangent` -/
  vals  : Cells 32 := []
  lanes : Mask := 0
  marks : List Mark := []
  /-- the shadows of the register stay as they are (R357) -/
  keep  : Bool := false
deriving DecidableEq, Repr

/-- Change the window that a register name means (`Wave.peerReg`), if it is still there: its number inside. -/
def Wave.peerWin (w : Wave) (name : Nat) (f : Nat → Win → Win) : Wave :=
  if name < 8 then { w with globals := f name w.globals }
  else
    let r := name % 128 - 8
    { w with base := if w.base.id = name / 128 then f r w.base else w.base,
             stack := w.stack.map fun x => if x.id = name / 128 then f r x else x }

/-- Values put into register `r` of a window: it becomes live, and its words in the lanes lose their marks, then take the new
ones. `tang`, `lanes`: the wave's tangents and lanes. -/
def Win.commit (x : Win) (r tang lanes : Nat) (o : RegOut) : Win :=
  if o.lanes = 0 then x else
  let tang := if o.keep then 0 else tang
  let cells := (Mask.lanes o.lanes lanes).foldl (fun c l =>
    (List.range (tang + 1)).foldl (fun (c : Cells 32) t => c.put (cellKey r t l) (o.vals.get (4 * l + t))) c) x.cells
  let kept := x.marks.filter fun k => !(k.reg = r && Mask.has o.lanes k.lane && k.tang ≤ tang)
  { x with cells, dead := x.dead &&& ~~~(1#128 <<< r), marks := kept ++ o.marks.map fun k => { k with reg := r } }

/-- Store a value in a register of the current window. -/
def Wave.commitReg (w : Wave) (lanes : Nat) (o : RegOut) : Wave :=
  w.setWin o.reg ((w.winOf o.reg).commit (winReg o.reg) w.tang lanes o)

/-- What a held result writes. -/
def Held.out (h : Held) : RegOut := { reg := h.reg, vals := h.vals, lanes := h.lanes, marks := h.marks, keep := h.keep }

/-- A held result is written (R192), into the window in which its instruction issued. -/
def Wave.commitHeld (w : Wave) (lanes : Nat) (h : Held) : Wave :=
  if h.scalar then w.sput (BitVec.ofNat 6 h.reg) h.sval
  else w.peerWin h.reg fun r x => x.commit r w.tang lanes h.out

/-- Lookahead windows of the loaded fragment close and their results are written; what older instructions were still to put
into the same words is discarded (R192, R193). -/
def Dev.settleHeld (m : Dev) (hs : List Held) : Dev :=
  let late := m.toCome m.wave.uid
  let m := m.dropResults fun d l => hs.any fun h => !h.scalar && h.reg = d.name && h.hold ≠ d.hold &&
    (Mask.has h.lanes l || late.contains (⟨h.reg, h.hold⟩, l))
  { m with wave := hs.foldl (fun w h => w.commitHeld w.wlanes h) m.wave }

/-- The open lookahead windows of the fragment close and their results are written (R193). -/
def Dev.closeWindows (m : Dev) : Dev :=
  if m.frag.held = [] then m else (m.settleHeld m.frag.held).onFrag fun f => { f with held := [] }

/-- A write of a named register by an instruction of an open window discards the held result in its lanes (R192). -/
def discardHeld (hs : List Held) (name : Nat) (lanes : Mask) : List Held :=
  hs.map fun h => if !h.scalar && h.reg = name then { h with lanes := h.lanes &&& ~~~lanes } else h

/-! ## Peer results that arrive (R67, R73, R192) -/

/-- One word of a register with its mark; `plain` zeroes the tangents (R350). -/
def putPeerWord (r tang lane : Nat) (plain : Bool) (v : Word) (k : Option Mark) (x : Win) : Win :=
  let mine (t : Nat) : Bool := t = tang || plain
  let cells := (List.range 4).foldl (fun (c : Cells 32) t =>
    if t = tang then c.put (cellKey r t lane) v else if plain then c.put (cellKey r t lane) 0 else c) x.cells
  { x with cells, dead := x.dead &&& ~~~(1#128 <<< r),
           marks := (x.marks.filter fun m => !(m.reg = r && m.lane = lane && mine m.tang)) ++
             (k.map fun m => { m with reg := r }).toList }

/-- A held result of a fragment takes a word (R192). -/
def holdPeerWord (tang lane : Nat) (v : Word) (k : Option Mark) (h : Held) : Held :=
  { h with lanes := Mask.put h.lanes lane true, vals := Cells.put h.vals (4 * lane + tang) v, marks := h.marks ++ k.toList }

/-- Is it the held result that a late word belongs to? -/
def Held.takes (d : Late) (h : Held) : Bool := !h.scalar && h.reg = d.name && h.hold = d.hold

/-- A word that comes after its instruction has completed reaches its register: through the lookahead window of its
instruction while that is open, or at once. -/
def Dev.lateWord (m : Dev) (uid : Nat) (d : Late) (tang lane : Nat) (plain : Bool) (v : Word) (k : Option Mark) : Dev :=
  if (m.fragsOf uid).any fun f => f.held.any (Held.takes d) then
    m.modFrags uid fun f => { f with held := f.held.map fun h => if h.takes d then holdPeerWord tang lane v k h else h }
  else m.modWave uid fun w => w.peerWin d.name fun r x => putPeerWord r tang lane plain v k x

/-- A write of a register in some lanes discards what outer windows were to put there, and, unless it is held itself, what older
instructions were still to put there (R192). -/
def Dev.discardOuter (m : Dev) (held : Bool) (reg : Nat) (lanes : Mask) : Dev :=
  let name := m.wave.peerReg reg
  (m.dropResults fun d l => d.name = name && Mask.has lanes l && (!held || m.frag.opens.contains d.hold)).onFrag fun f =>
    { f with held := discardHeld f.held name lanes }

/-- One more lane instruction has issued: every window comes one nearer to its close (R192). -/
def Dev.countWindows (m : Dev) : Dev :=
  if m.frag.held = [] then m else
  let hs := m.frag.held.map fun h => { h with left := h.left - 1 }
  (m.settleHeld (hs.filter fun h => h.left = 0)).onFrag fun f => { f with held := hs.filter fun h => h.left ≠ 0 }

/-! ## Blocks (R184) -/

/-- Blocks of one window unit, or of the globals, of a wave. -/
def Wave.unitBlocks (w : Wave) : Nat := if w.control then 0 else w.wlanes / 32 * (w.tang + 1)

/-- Blocks that a wave holds: its globals and its windows that are not spilt. -/
def Wave.blocks (w : Wave) : Nat :=
  w.unitBlocks * (1 + w.base.units + (w.stack.filter fun x => x.spilt.isNone).foldl (fun n x => n + x.units) 0)

/-- Blocks granted to a fragment that has not taken them yet (R189). -/
def grantedTo (f : Frag) : Nat :=
  match f.wait with
  | .blocks n _ => if f.phase = 20 then n else 0
  | _ => 0

/-- What is held on core `k` for units of other launches than `n`: the places of victims that have gone (R134). -/
def Dev.heldPlaces (m : Dev) (k n : Nat) : List Place :=
  (m.holds.filter fun h => h.launch ≠ n).flatMap fun h => h.places.filter fun p => p.core = k && p.gone

/-- Free blocks of core `k` for a launch. -/
def Dev.freeBlocksFor (m : Dev) (k n : Nat) : Nat :=
  Config.coreBlocks - (m.allWaves.filter fun w => w.coreNo = k).foldl
    (fun n w => n + w.blocks + (w.frags.foldl (fun n f => n + grantedTo f) 0))
    ((m.heldPlaces k n).map fun (p : Place) => p.blocks).sum

/-- Free blocks of a core for the waves that are on it. -/
def Dev.freeBlocks (m : Dev) (k : Nat) : Nat := m.freeBlocksFor k 0

end Sys2Proof.Machine
end

