-- ==== Sys2Proof/Machine/Tun.lean ====
section
/-!
DEFINITION. Machine/Tun.lean: region descriptors and the tun that arbitrates their rooms
(13 R275-R283, R287; 30 R523).
-/
namespace Sys2Proof.Machine

/-- A descriptor's place as a number: device memory, or host memory from 2^52 on. -/
def placeOf : Loc → Nat
  | .dev pa => pa
  | .host pa => 2 ^ 52 + pa
  | .arr _ o => o
def descLoc (n : Nat) : Loc := if n < 2 ^ 52 then .dev n else .host (n - 2 ^ 52)

/-- Doubleword at offset `o` of a descriptor, at its home. -/
def Dev.descDword (m : Dev) (place o : Nat) : Nat := ofBytes (m.bytesAt ((descLoc place).add o) 8)

/-- Write a descriptor doubleword when it changes (R277, R523). -/
def Dev.setDesc (m : Dev) (place o v : Nat) : Dev :=
  if m.descDword place o = v then m else m.write ((descLoc place).add o) (leBytes 8 v)

/-- The fields that software writes, from the 64 bytes of a descriptor (R275). -/
def roomOf (desc place mode : Nat) (d : Nat → Nat) : Room :=
  { desc, place, mode, base := fld (d 0) 48 0, len := fld (d 1) 39 0, slot := fld (d 2) 17 16,
    nslot := fld (d 2) 63 32, atype := fld (d 2) 9 8 }

/-- Do the doublewords of a descriptor keep R275? HEAD and TAIL take any value; the state words are the tun's. -/
def descOk (d : Nat → Nat) : Bool :=
  let base := fld (d 0) 48 0
  let len := fld (d 1) 39 0
  let modes := fld (d 2) 4 0
  let ring := modes.testBit 3 || modes.testBit 4
  let slot := fld (d 2) 17 16
  let nslot := fld (d 2) 63 32
  fld (d 0) 63 49 = 0 && base % 128 = 0 && fld (d 1) 63 40 = 0 && len ≠ 0 && len % 128 = 0 &&
  fld (d 2) 31 18 = 0 && fld (d 2) 15 10 = 0 && fld (d 2) 7 5 = 0 && modes ≠ 0 && slot < 2 &&
  (if ring then nslot ≥ 1 && nslot * (4 * 2 ^ slot) ≤ len else nslot = 0 && slot = 0) &&
  (modes.testBit 2 || fld (d 2) 9 8 = 0) &&
  fld (d 5) 57 32 = 0 && fld (d 6) 60 15 = 0

/-- The phases of R275. -/
inductive Phase where
  | closed | open | draining
deriving DecidableEq, Repr

/-- The state words of a region (R275 0x28-0x3F). -/
structure TunWords where
  poison : Bool := false
  mode   : Nat := 0
  phase  : Phase := .closed
  occ    : Nat := 0
  demand : List Nat := []
  opens  : Nat := 0
deriving DecidableEq, Repr

/-- Read the state words. -/
def Dev.tunWords (m : Dev) (place : Nat) : TunWords :=
  let a := m.descDword place 0x28
  let b := m.descDword place 0x30
  { poison := a.testBit 63, mode := fld a 62 60,
    phase := match fld a 59 58 with | 0 => .closed | 1 => .open | _ => .draining,
    occ := fld a 31 0, demand := (List.range (fld b 63 61)).map fun i => fld b (3 * i + 2) (3 * i),
    opens := m.descDword place 0x38 }

/-- Write the state words back, each that changes as one write (R523). While CLOSED, OPEN reads 0. -/
def Dev.setTunWords (m : Dev) (place : Nat) (t : TunWords) : Dev :=
  let ph := match t.phase with | .closed => 0 | .open => 1 | .draining => 2
  let mode := if t.phase = .closed then 0 else t.mode
  let a := b2n t.poison * 2 ^ 63 + mode * 2 ^ 60 + ph * 2 ^ 58 + t.occ % 2 ^ 32
  let b := t.demand.length * 2 ^ 61 + ((List.range 5).map fun i => t.demand.getD i 0 * 8 ^ i).sum
  ((m.setDesc place 0x28 a).setDesc place 0x30 b).setDesc place 0x38 (t.opens % 2 ^ 64)

/-- The tun's own record of a region. -/
def Dev.tun (m : Dev) (place : Nat) : Tun := (m.tuns.find? fun t => t.place = place).getD { place }
/-- Replace it; a record that holds nothing is dropped. -/
def Dev.setTun (m : Dev) (t : Tun) : Dev :=
  let rest := m.tuns.filter fun x => x.place ≠ t.place
  { m with tuns := if t.waiting = [] && t.routed = [] && t.clears = [] && t.leaves = [] && t.kills = 0 then rest else t :: rest }

/-- The slice whose tun serves a descriptor (R48, R277); host memory counts as one more. -/
def tunSlice (place : Nat) : Nat :=
  if place ≥ 2 ^ 52 then 16
  else if place < Config.memoryBytes then homeSlice 0 place else place / Config.memoryBytes - 1

/-- Waves on the waiting list of a slice (R283). -/
def Dev.sliceWaiting (m : Dev) (slice : Nat) : Nat :=
  ((m.tuns.filter fun t => tunSlice t.place = slice).map fun (t : Tun) => t.waiting.length).sum

/-- The requests that wait in the routers before a slice are sent on (R283). -/
def Dev.retryRouted (m : Dev) (slice : Nat) : Dev :=
  (m.tuns.filter fun t => tunSlice t.place = slice && t.routed ≠ []).foldl (fun m (t : Tun) =>
    t.routed.foldl (fun m (x : Nat × Nat × Nat) => m.push (.tunEnter t.place x.2.2 x.1 x.2.1)) (m.setTun { t with routed := [] })) m

/-- Does a fragment wait in `RENTER`? -/
def entering (f : Frag) : Bool := f.wait = .event && f.phase = 1

/-- What a fragment that waits for the tun is told: 2 admitted, 3 refused, 7 done or acknowledged. -/
def Dev.answer (m : Dev) (uid fid code : Nat) : Dev :=
  m.modFrag uid fid fun f => { f with wait := .none, phase := code }

/-- Admit a wave: the room joins its table, the entry is irrevocable (R279, R493), the answer is sent. -/
def Dev.letIn (m : Dev) (uid fid : Nat) : Dev :=
  let asked := match m.waveOf uid with
    | some w => ((if m.wave.uid = uid then m.frags else w.frags).find? fun (f : Frag) => f.fid = fid).bind (·.asked)
    | none => none
  let m := m.modWave uid fun w =>
    { w with rooms := w.rooms ++ asked.toList, wavectl := w.wavectl ||| 2, everirr := true }
  (m.modFrag uid fid fun f => { f with asked := none }).answer uid fid 2

/-- ENTER(x) (R282): a request that has to wait while the list of the slice is full is no demand yet (R283). -/
def Dev.tunEnter (m : Dev) (place x uid fid : Nat) : Dev :=
  let t := m.tunWords place
  if t.poison then (m.modFrag uid fid fun f => { f with asked := none }).answer uid fid 3
  else if !(t.phase = .closed || t.phase = .open && x = t.mode) && m.sliceWaiting (tunSlice place) ≥ 4096 then
    let r := m.tun place
    m.setTun { r with routed := r.routed ++ [(uid, fid, x)] }
  else
  match t.phase with
  | .closed =>
    (m.setTunWords place { t with phase := .open, mode := x, occ := 1, opens := t.opens + 1 }).letIn uid fid
  | .open =>
    if x = t.mode then (m.setTunWords place { t with occ := t.occ + 1 }).letIn uid fid
    else
      let r := m.tun place
      (m.setTunWords place { t with phase := .draining, demand := t.demand ++ [x] }).setTun
        { r with waiting := r.waiting ++ [(uid, fid, x)] }
  | .draining =>
    let r := m.tun place
    (m.setTunWords place { t with demand := if t.demand.contains x then t.demand else t.demand ++ [x] }).setTun
      { r with waiting := r.waiting ++ [(uid, fid, x)] }

/-- The rest of the demand queue from the first mode that has waiters (R282 OPEN-NEXT). -/
def openNext (waiting : List (Nat × Nat × Nat)) : List Nat → Option (Nat × List Nat)
  | [] => none
  | x :: q => if waiting.any fun w => w.2.2 = x then some (x, q) else openNext waiting q

/-- A region that has become CLOSED takes the CLEARs that it held (R282). -/
def Dev.takeClears (m : Dev) (place : Nat) : Dev :=
  let r := m.tun place
  if r.clears = [] then m else
  let m := (m.setTunWords place { m.tunWords place with poison := false }).setTun { r with clears := [] }
  r.clears.foldl (fun m (c : Nat × Nat) => m.answer c.1 c.2 7) m

/-- OPEN-NEXT (R282): the first demanded mode that has waiters opens for all of them; otherwise CLOSED. -/
def Dev.tunOpenNext (m : Dev) (place : Nat) : Dev :=
  let t := m.tunWords place
  let r := m.tun place
  match openNext r.waiting t.demand with
  | none => (m.setTunWords place { t with phase := .closed, occ := 0, demand := [] }).takeClears place
  | some (x, q) =>
    let ins := r.waiting.filter fun w => w.2.2 = x
    let m := m.setTunWords place { t with mode := x, demand := q, occ := ins.length, opens := t.opens + 1,
                                          phase := if q = [] then .open else .draining }
    let m := m.setTun { r with waiting := r.waiting.filter fun w => w.2.2 ≠ x }
    ins.foldl (fun m (w : Nat × Nat × Nat) => m.letIn w.1 w.2.1) m

/-- LEAVE (R282). -/
def Dev.tunLeave (m : Dev) (place : Nat) : Dev :=
  let t := m.tunWords place
  if t.phase = .closed then m
  else if t.occ > 1 then m.setTunWords place { t with occ := t.occ - 1 }
  else if t.phase = .open then (m.setTunWords place { t with phase := .closed, occ := 0 }).takeClears place
  else m.tunOpenNext place

/-- KILL of an occupant (R282): the region is poisoned, every waiting wave is refused. -/
def Dev.tunKill (m : Dev) (place : Nat) : Dev :=
  let t := m.tunWords place
  let r := m.tun place
  if t.phase = .closed then m else
  let last := t.occ ≤ 1
  let m := m.setTunWords place { t with poison := true, demand := [], occ := t.occ - 1,
                                        phase := if last then .closed else .open }
  let m := m.setTun { r with waiting := [] }
  let m := r.waiting.foldl (fun m (w : Nat × Nat × Nat) =>
    (m.modFrag w.1 w.2.1 fun f => { f with asked := none }).answer w.1 w.2.1 3) m
  if last then m.takeClears place else m

/-- WITHDRAW of a waiting wave (R282): the demand queue stays; the fragment restarts its RENTER (R365). -/
def Dev.tunWithdraw (m : Dev) (place uid : Nat) : Dev :=
  let r := m.tun place
  let m := m.setTun { r with waiting := r.waiting.filter fun w => w.1 ≠ uid, routed := r.routed.filter fun w => w.1 ≠ uid }
  m.modFrags uid fun f =>
    if entering f && f.asked.any fun x => x.place = place then
      { f with wait := .none, phase := 0, asked := none, instr := none }
    else f

/-- The demands of fragments of a wave that wait in `RENTER` are withdrawn (R282). -/
def Dev.withdrawEnters (m : Dev) (uid : Nat) (fs : List Frag) : Dev :=
  ((fs.filter entering).filterMap (·.asked)).foldl (fun m (r : Room) => (m.tunWithdraw r.place uid).retryRouted (tunSlice r.place)) m

/-- CLEAR (R282). -/
def Dev.tunClear (m : Dev) (place uid fid : Nat) : Dev :=
  let t := m.tunWords place
  if !t.poison then m.answer uid fid 7
  else if t.phase = .closed then (m.setTunWords place { t with poison := false }).answer uid fid 7
  else
    let r := m.tun place
    m.setTun { r with clears := r.clears ++ [(uid, fid)] }

end Sys2Proof.Machine
end

