-- ==== Sys2Proof/Machine/Retire.lean ====
section
/-!
DEFINITION. Machine/Retire.lean: launch fields, the error queue, barriers and copies that lose a party, how a
wave leaves the machine (by retirement or kill), and the end of a context
(04 R93, R96, R97; 07 R169-R176; 13 R287; 16 R336; 18 R369, R373).
-/
namespace Sys2Proof.Machine

/-! ## Launch fields (R93) -/

/-- Doubleword `i` of the launch record, and of the parameter block (R95). -/
def Launch.r (l : Launch) (i : Nat) : Nat := (l.record.getD i 0).toNat
def Launch.p (l : Launch) (i : Nat) : Nat := (l.params.getD i 0).toNat
def Launch.kind (l : Launch) : Nat := fld (l.r 0) 63 60
def Launch.replayable (l : Launch) : Bool := bit (l.r 0) 59
def Launch.cosched (l : Launch) : Bool := bit (l.r 0) 58
def Launch.tang (l : Launch) : Nat := fld (l.r 0) 57 56
def Launch.pinned (l : Launch) : Bool := bit (l.r 0) 55
def Launch.pack (l : Launch) : Bool := bit (l.r 0) 54
def Launch.prio (l : Launch) : Nat := fld (l.r 0) 53 52
def Launch.gangSize (l : Launch) : Nat := fld (l.r 0) 51 48
def Launch.dieMask (l : Launch) : Nat := fld (l.r 0) 47 40
def Launch.rolemap (l : Launch) : Nat := fld (l.r 0) 31 16
def Launch.roleCount (l : Launch) (i : Nat) : Nat := fld (l.r 0) (19 + 4 * i) (16 + 4 * i)
def Launch.eseg (l : Launch) : Nat := fld (l.r 1) 63 60
def Launch.eblk (l : Launch) : Nat := fld (l.r 1) 59 52
def Launch.sva (l : Launch) : Nat := fld (l.r 1) 48 14 * 2 ^ 14
def Launch.sseg (l : Launch) : Nat := fld (l.r 1) 11 0
def Launch.lva (l : Launch) : Nat := fld (l.r 2) 48 14 * 2 ^ 14
def Launch.lseg (l : Launch) : Nat := fld (l.r 2) 11 0
def Launch.lpr (l : Launch) : Nat := fld (l.r 4) 53 48
def Launch.scratch (l : Launch) : Nat := fld (l.r 4) 42 32
def Launch.basewin (l : Launch) : Nat := fld (l.r 4) 31 28
def Launch.lanes (l : Launch) : Nat := if l.kind = 1 then 32 * l.lpr else fld (l.r 4) 10 0
/-- Role `i`: base window, entry segment, entry block (R95). -/
def Launch.roleWin (l : Launch) (i : Nat) : Nat := fld (l.p (2 + i)) 19 16
def Launch.roleSeg (l : Launch) (i : Nat) : Nat := fld (l.p (2 + i)) 15 12
def Launch.roleBlk (l : Launch) (i : Nat) : Nat := fld (l.p (2 + i)) 11 4

def Dev.launchOf (m : Dev) (n : Nat) : Option Launch := m.launches.find? fun l => l.num = n
def Dev.modLaunch (m : Dev) (n : Nat) (f : Launch → Launch) : Dev :=
  { m with launches := m.launches.map fun l => if l.num = n then f l else l }

/-- Something may now be placed: turns of placement are due (R130, R147). -/
def Dev.pushPlace (m : Dev) : Dev :=
  let m := (List.range 8).foldl (fun m d => if (m.die d).spawns = [] then m else m.push (.childPlacement d)) m
  if (m.launches.any fun l => l.st = .ready || l.replays ≠ []) || m.savedWaves ≠ [] then m.push .placementTurn else m

/-- Launches leave the table: their tags, reservations and holds are free (R124, R132, R134, R169). The queues whose
triggers were kept while the table was full are served (R123). -/
def Dev.dropLaunches (m : Dev) (gone : List Nat) : Dev :=
  let full := m.launches.length ≥ Config.launchEntries
  let m := { m with
    launches := m.launches.filter fun l => !gone.contains l.num,
    holds := m.holds.filter fun h => !gone.contains h.launch,
    watch := m.watch.filter fun e => match e.2.2 with | .counterTrigger n => !gone.contains n | _ => true,
    tag7 := if m.tag7.launch.any gone.contains then {} else m.tag7,
    dies := m.dies.map fun (d : Die) => { d with
      spawns := d.spawns.filter fun c => !gone.contains c.launch,
      tags := d.tags.map fun (t : Tag) => if t.launch.any gone.contains then {} else t,
      reserved := d.reserved.filter fun n => !gone.contains n } }
  let m := if full then (List.range 64).foldl (fun m q => m.push (.lqService q)) m else m
  m.pushPlace

/-- The launch of the loaded wave; an empty record when there is none. -/
def Dev.launch (m : Dev) : Launch := (m.launchOf m.wave.launch).getD { num := 0 }

/-! ## Error queue (R96, R97, R92) -/

/-- The identity of a wave (R96). -/
def Dev.identity (m : Dev) (w : Wave) : Nat :=
  let seq := match m.launchOf w.launch with | some l => l.count % 2 ^ 32 | none => 0
  seq * 2 ^ 32 + w.die * 2 ^ 29 + w.cluster * 2 ^ 25 + w.core * 2 ^ 21 + w.slot * 2 ^ 17

/-- Signal an MSI-X vector (R78). -/
def Dev.msi (m : Dev) (v : Nat) : Dev := { m with msix := m.msix ||| (1#65 <<< v) }
/-- Raise a management event (R117): the package status takes it over, vector 64 is signalled. -/
def Dev.mgmtEvent (m : Dev) (b : Nat) : Dev := { (m.msi 64) with events := m.events ||| (1#64 <<< b) }

/-- Steps 1 to 3 of R225 for a virtual address of an engine or the hub: the range lies in the global window. -/
def globalRange (va n : Nat) : Option Cause :=
  if va ≥ 2 ^ 49 then some .protection else if va + n > 2 ^ 49 then some .windowSpan else none

/-- The place of a word for an engine access that needs rights, when no byte of it is poisoned (R92). -/
def Dev.engineLoc (m : Dev) (ctx va n : Nat) (rd wr : Bool) : Except Cause Loc :=
  match globalRange va n with
  | some c => .error c
  | none =>
    match walkVerdict (m.homeWalk ctx va) va rd wr false with
    | .error c => .error c
    | .ok l => if rd && m.anyPoison l n then .error .poison else .ok l

/-- The places of a range for an engine access that needs rights. -/
def Dev.engineRange (m : Dev) (ctx : Nat) (rd wr : Bool) (last : Nat) : List Nat → Except Cause (List Span)
  | [] => .ok []
  | va :: t =>
    match walkLeaf (m.homeWalk ctx va) rd wr false with
    | .error c => .error c
    | .ok (pte, size) =>
      match m.engineRange ctx rd wr last t with
      | .error c => .error c
      | .ok ss => .ok (leafSpans pte size va (min last (65536 * (va / 65536 + 1)) - va) ++ ss)

/-- The checks of R225 for a range at a virtual address: its places, or the cause of the first check that fails. -/
def Dev.engineSpans (m : Dev) (ctx va n : Nat) (rd wr : Bool) : Except Cause (List Span) :=
  match globalRange va n with
  | some c => .error c
  | none => m.engineRange ctx rd wr (va + n) (pageStarts va n)

/-- An entry is lost (R92, R97): it counts in DROPPED of the next one, which saturates. -/
def Dev.dropEntry (m : Dev) (ctx : Nat) : Dev :=
  { m with dropped := m.dropped.set ctx (min (2 ^ 32 - 1) (KMap.get 0 m.dropped ctx + 1)) }

/-- Post an entry to the error queue of a context (R96, R97). `lq`, `seq`: the fields of those names. -/
def Dev.post (m : Dev) (ctx code lq seq deta detb : Nat) : Dev :=
  let n := fld (m.ctxDword ctx 0x30) 63 60
  let ring := fld (m.ctxDword ctx 0x30) 48 0
  let lost := (m.dropEntry ctx).mgmtEvent 5
  if n = 0 then lost else
  match m.engineLoc ctx (fld (m.ctxDword ctx 0x38) 48 0) 8 true false,
        m.engineLoc ctx (fld (m.ctxDword ctx 0x40) 48 0) 8 true true with
  | .ok hl, .ok tl =>
    let head := ofBytes (m.bytesAt hl 8)
    let tail := ofBytes (m.bytesAt tl 8)
    if wrapN 64 ((tail : Int) - head) = 2 ^ n then lost else
    match m.engineLoc ctx (ring + 32 * (tail % 2 ^ n)) 32 false true with
    | .error _ => lost
    | .ok l =>
      let w3 := code * 2 ^ 56 + ctx * 2 ^ 50 + lq * 2 ^ 44 + seq % 2 ^ 32
      let w0 := KMap.get 0 m.dropped ctx
      let m := m.write l (leBytes 8 w0 ++ leBytes 8 (detb % 2 ^ 64) ++ leBytes 8 (deta % 2 ^ 64) ++ leBytes 8 w3)
      ({ m with dropped := m.dropped.erase ctx }.write tl (leBytes 8 ((tail + 1) % 2 ^ 64))).msi ctx
  | _, _ => lost

/-- Post an entry about a wave (R96): queue and record count of its launch. -/
def Dev.postWave (m : Dev) (w : Wave) (code deta detb : Nat) : Dev :=
  match m.launchOf w.launch with
  | some l => m.post w.ctx code l.queue l.count deta detb
  | none => m.post w.ctx code 0 0 deta detb

/-! ## Barriers that lose a party (R171, R172) -/

/-- The parties of a barrier: unretired waves of the launch on the die (all dies for tag 7), children
excepted; the members of a gang. -/
def Dev.parties (m : Dev) (b : BarrierRef) : List Nat :=
  match b with
  | .gang c g => (KMap.get { launch := 0, members := [] } (m.cluster c).gangs g).members
  | .die d t =>
    match ((m.die d).tags.getD t {}).launch with
    | none => []
    | some n => (m.allWaves.filter fun w => w.launch = n && w.die = d && !w.child).map fun (w : Wave) => w.uid
  | .package =>
    match m.tag7.launch with
    | none => []
    | some n => (m.allWaves.filter fun w => w.launch = n && !w.child).map fun (w : Wave) => w.uid

/-- Those that have arrived at the open phase. -/
def Dev.arrivals (m : Dev) (b : BarrierRef) : List Nat :=
  match b with
  | .gang c g => (KMap.get { launch := 0, members := [] } (m.cluster c).gangs g).arrived
  | .die d t => ((m.die d).tags.getD t {}).arrived
  | .package => m.tag7.arrived

/-- Replace the arrivals. -/
def Dev.setArrivals (m : Dev) (b : BarrierRef) (l : List Nat) : Dev :=
  match b with
  | .gang c g =>
    let x := m.cluster c
    match x.gangs.find? fun e => e.1 = g with
    | none => m
    | some e => m.setCluster c { x with gangs := x.gangs.set g { e.2 with arrived := l } }
  | .die d t =>
    let x := m.die d
    m.setDie d { x with tags := setAt {} x.tags t { x.tags.getD t {} with arrived := l } }
  | .package => { m with tag7 := { m.tag7 with arrived := l } }

/-- Is the phase complete: someone waits, and every party has arrived? -/
def Dev.phaseComplete (m : Dev) (b : BarrierRef) : Bool :=
  m.arrivals b ≠ [] && (m.parties b).all fun u => (m.arrivals b).contains u

/-- Schedule the release of a phase that has become complete. -/
def Dev.checkBarrier (m : Dev) (b : BarrierRef) : Dev :=
  if m.phaseComplete b then m.push (.barrierPhaseComplete b) else m

/-- Every barrier that a wave may be a party to. -/
def barriersOf (w : Wave) : List BarrierRef :=
  .package :: ((List.range 7).map fun t => .die w.die t) ++
    (match w.gang with | some g => [.gang w.clusterNo g] | none => [])

/-! ## Copies and gangs -/

/-- Is a command an unstarted slice of the copy that a party record names? -/
def sliceOf (p : CopyParty) (c : Cmd) : Bool :=
  match c.body with
  | .copy cl g cid _ _ _ _ _ _ _ n =>
    n = 0 && cl = p.cluster && g = p.gang && cid = p.cid && (g.isSome || p.parties.contains c.wave)
  | _ => false

/-- `CPYBASE` of the first member of a gang on core `n` of a cluster, if there is one (R337). -/
def Dev.receiverBase (m : Dev) (cluster : Nat) (gang : Option Nat) (n : Nat) : Option Nat :=
  match gang with
  | none => none
  | some g =>
    let members := (KMap.get { launch := 0, members := [] } (m.cluster cluster).gangs g).members
    let here := members.filterMap fun u => (m.waveOf u).bind fun w => if w.core = n then some w.cpybase.toNat else none
    here.head?

/-- COPY-START (R336): a copy whose every party has supplied a slice starts; its completion is then due. -/
def Dev.startCopies (m : Dev) : Dev :=
  m.copyParties.foldl (fun m p =>
    let slices := m.cmds.filter (sliceOf p)
    if slices ≠ [] && p.parties.all fun u => slices.any fun c => c.wave = u then
      let n := m.nextCopy
      let m := { m with nextCopy := n + 1, copyParties := m.copyParties.filter fun x => x ≠ p,
                        cmds := m.cmds.map fun c =>
                          if sliceOf p c then
                            match c.body with
                            | .copy cl g cid s d lo rc se st le _ =>
                              let rc := rc.map fun (r : Nat × Option Nat) => (r.1, m.receiverBase cl g r.1)
                              { c with body := .copy cl g cid s d lo rc se st le n }
                            | _ => c
                          else c }
      m.push (.copyComplete ((slices.head?.map (·.id)).getD 0))
    else m) m

/-- A wave that retires or is killed ceases to be a party to copies to which it has supplied nothing (R336). -/
def Dev.leaveCopies (m : Dev) (uid : Nat) : Dev :=
  ({ m with copyParties := (m.copyParties.map fun p =>
      if m.cmds.any fun c => c.wave = uid && sliceOf p c then p
      else { p with parties := p.parties.filter fun u => u ≠ uid }).filter fun p => p.parties ≠ [] }).startCopies

/-- A member leaves its gang; the last one dissolves it and frees its role queues (R159, R163). -/
def Dev.leaveGang (m : Dev) (w : Wave) : Dev :=
  match w.gang with
  | none => m
  | some g =>
    let x := m.cluster w.clusterNo
    match x.gangs.find? fun e => e.1 = g with
    | none => m
    | some e =>
      let rest := e.2.members.filter fun u => u ≠ w.uid
      let m := m.setCluster w.clusterNo
        (if rest = [] then
          { x with gangs := x.gangs.erase g, queues := x.queues.map fun q => if q.gang = some g then {} else q }
         else { x with gangs := x.gangs.set g { e.2 with members := rest, arrived := e.2.arrived.filter fun u => u ≠ w.uid } })
      let m := m.checkBarrier (.gang w.clusterNo g)
      if rest = [] then m.pushPlace else m

/-! ## Leaving the machine (R176, R287, R522) -/

/-- Free the segments of core `k` that belong to a launch, or to a context's handler, without a wave there
(R137, R359). -/
def Dev.freeSegments (m : Dev) (k : Nat) : Dev :=
  let ws := m.allWaves.filter fun w => w.coreNo = k
  let c := m.core k
  m.setCore k { c with segs := c.segs.map fun s =>
    match s.owner with
    | .launch n => if ws.any fun w => w.launch = n then s else {}
    | .handler x => if ws.any fun w => w.ctx = x then s else {}
    | .free => s }

/-- Take a wave out of the list, loaded or not. -/
def Dev.dropWave (m : Dev) (uid : Nat) : Dev :=
  if m.wave.uid = uid then { m with wave := {}, frag := {} }
  else { m with waves := m.waves.filter fun w => w.uid ≠ uid }

/-- The requests for blocks of core `k` are looked at again (R189). -/
def Dev.askBlocks (m : Dev) (k : Nat) : Dev := if (m.core k).queue = [] then m else m.push (.blockGrant k)

/-- What a core does once a wave no longer holds its place: segments, blocks, scratchpad and L1 (R137, R189,
R239); engine turns are due, since resources are free. A hold takes the blocks that its victim has when it goes (R134). -/
def Dev.freePlace (m : Dev) (w : Wave) : Dev :=
  let k := w.coreNo
  let before := m.l1Sets k
  let m := m.dropWave w.uid
  let m := if m.l1Sets k = before then m else m.resizeL1 k
  let m := m.freeSegments k
  let c := m.core k
  let m := m.setCore k { c with queue := c.queue.filter fun q => q.1 ≠ w.uid }
  let m := m.askBlocks k
  let m := { m with holds := m.holds.map fun (h : Hold) => { h with places := h.places.map fun (p : Place) =>
    if p.wave = w.uid then { p with gone := true, blocks := w.blocks } else p } }
  m.pushPlace

/-- Does nothing of a launch remain to run: no wave, child, saved or replayed wave, tracker entry (R124, R176)? -/
def Dev.launchIdle (m : Dev) (n : Nat) : Bool :=
  !(m.allWaves.any fun w => w.launch = n) && !(m.dies.any fun d => d.spawns.any fun c => c.launch = n) &&
  !(m.savedWaves.any fun s => s.wave.launch = n) &&
  !(m.cores.any fun (x : Nat × Core) => x.2.tracker.any fun (t : Tracked) => t.launch = n) &&
  match m.launchOf n with
  | some l => l.st = .running && l.replays = []
  | none => false

/-- The grid end becomes due when nothing of the launch remains. -/
def Dev.checkGrid (m : Dev) (n : Nat) : Dev := if m.launchIdle n then m.push (.gridEnd n) else m

/-- Write a future word (R148) where the context's tables have it. -/
def Dev.putFuture (m : Dev) (ctx futva v : Nat) : Dev :=
  if futva = 0 then m else
  match walkVerdict (m.homeWalk ctx futva) futva false true false with
  | .error _ => m
  | .ok l => m.write l (leBytes 8 v)

/-- The RESULT of a child (R148). -/
def Wave.result (w : Wave) : Nat := (w.sget 1).toNat % 2 ^ 32

/-- The future word (R148): DONE, KILLED and RESULT. -/
def futureWord (killed : Bool) (result : Nat) : Nat := 2 ^ 63 + (if killed then 2 ^ 62 else result)

/-- The future word of a child is written, as a release at `.DEV` (R148, R273). -/
def Dev.writeFuture (m : Dev) (w : Wave) (killed : Bool) : Dev :=
  if !w.child then m else (m.release w.coreNo 3).putFuture w.ctx w.futva (futureWord killed w.result)

/-- The rooms of a wave: left one by one with their shadows merged, or killed with them discarded (R287). -/
def Dev.leaveRooms (m : Dev) (w : Wave) (killed : Bool) : Dev :=
  let m := m.tuns.foldl (fun m (t : Tun) => m.setTun
    { t with waiting := t.waiting.filter fun x => x.1 ≠ w.uid, routed := t.routed.filter fun x => x.1 ≠ w.uid, clears := t.clears.filter fun x => x.1 ≠ w.uid }) m
  if w.rooms = [] then m
  else if killed then
    let m := m.endShadows w.coreNo w.uid false fun _ => true
    w.rooms.foldl (fun m (r : Room) =>
      let t := m.tun r.place
      (m.setTun { t with kills := t.kills + 1 }).push (.tunKill r.place)) m
  else
    let m := m.release w.coreNo 3
    let m := m.endShadows w.coreNo w.uid true fun _ => true
    w.rooms.foldl (fun m (r : Room) => (m.tunLeave r.place).retryRouted (tunSlice r.place)) m

/-- A wave leaves the machine (R176), by retirement or by a kill. -/
def Dev.leave (m : Dev) (w : Wave) (killed : Bool) : Dev :=
  let c := w.clusterNo
  let x := m.cluster c
  let m := m.setCluster c { x with receives := x.receives.filter fun r => r.wave ≠ w.uid }
  let m := { m with watch := m.watch.filter fun e => e.2.2 ≠ Instr.monitorTrigger w.uid }
  let m := m.leaveRooms w killed
  let m := m.writeFuture w killed
  let bs := barriersOf w
  let m := bs.foldl (fun m b => m.setArrivals b ((m.arrivals b).filter fun u => u ≠ w.uid)) m
  let m := m.leaveGang w
  let m := m.freePlace w
  let m := (m.leaveCopies w.uid)
  let m := bs.foldl (fun m b => m.checkBarrier b) m
  m.checkGrid w.launch

/-- Kill a wave by number (R287, R522). -/
def Dev.killWave (m : Dev) (uid : Nat) : Dev :=
  match m.waveOf uid with
  | none => m
  | some w => m.leave w true

/-! ## The end of a context (R369) -/

/-- HALT := 1 in every launch queue of a context (R87, R369). -/
def Dev.haltQueues (m : Dev) (ctx : Nat) : Dev :=
  (List.range 64).foldl (fun m q =>
    let l := m.phys (m.host.lqtbase + 32 * q + 24)
    let d := ofBytes (m.bytesAt l 8)
    if bit d 63 && fld d 62 57 = ctx && !bit d 51 then m.write l (leBytes 8 (d + 2 ^ 51)) else m) m

/-- A saved wave is killed: its receives end (R55), its rooms are killed (R287), it leaves its gang, and a child's future
word says KILLED (R148, R369). -/
def Dev.killSaved (m : Dev) (x : SavedWave) : Dev :=
  let c := m.cluster x.wave.clusterNo
  let m := m.setCluster x.wave.clusterNo { c with receives := c.receives.filter fun r => r.wave ≠ x.wave.uid }
  ((m.leaveRooms x.wave true).writeFuture x.wave true).leaveGang x.wave

/-- The engine commands of a context end with it, so that none touches what another context is given (R13, log 111); so do
its copies that have not started. -/
def Dev.dropCommands (m : Dev) (ctx : Nat) : Dev :=
  let gone := m.cmds.filter fun c => c.ctx = ctx
  { m with cmds := m.cmds.filter fun c => c.ctx ≠ ctx,
           copyParties := m.copyParties.filter fun p => !gone.any (sliceOf p) }

/-- Everything of a context leaves the device (R369 steps 1 to 3). -/
def Dev.clearContext (m : Dev) (ctx : Nat) : Dev :=
  let m := (m.allWaves.filter fun w => w.ctx = ctx).foldl (fun m (w : Wave) => m.killWave w.uid) m
  let m := (m.savedWaves.filter fun s => s.wave.ctx = ctx).foldl Dev.killSaved m
  let m := m.dropCommands ctx
  let gone := (m.launches.filter fun l => l.ctx = ctx).map fun (l : Launch) => l.num
  let m := { m with
    ended := m.ended ||| (1#64 <<< ctx),
    savedWaves := m.savedWaves.filter fun s => s.wave.ctx ≠ ctx,
    cores := m.cores.map fun (x : Nat × Core) => (x.1, { x.2 with
      tracker := x.2.tracker.filter fun (t : Tracked) => !gone.contains t.launch,
      arrCtx := x.2.arrCtx.map fun (e : Nat × Nat) => if e.2 = ctx + 1 then (e.1, 65) else e,
      tlb := x.2.tlb.filter fun (t : TlbEntry) => t.ctx ≠ ctx,
      segs := x.2.segs.map fun (s : Seg) => match s.owner with
        | .launch n => if gone.contains n then {} else s
        | .handler c => if c = ctx then {} else s
        | .free => s }),
    clusters := m.clusters.map fun (x : Nat × Cluster) => (x.1, { x.2 with
      receives := x.2.receives.filter fun (r : Receive) => r.ctx ≠ ctx,
      overflow := x.2.overflow.filter fun (r : Message) => r.ctx ≠ ctx,
      arriving := x.2.arriving.filter fun (r : Message) => r.ctx ≠ ctx,
      accs := x.2.accs.map fun (a : Acc) => if a.owned && a.tag = ctx then {} else a,
      plates := x.2.plates.map fun (a : Plate) => if a.owned && a.tag = ctx then {} else a,
      mqueue := x.2.mqueue.filter fun (e : MEntry) => e.ctx ≠ ctx }) }
  (m.dropLaunches gone).haltQueues ctx

/-- The device ends a context (R369), with a cause and the wave concerned. -/
def Dev.endContext (m : Dev) (ctx cause : Nat) (w : Wave) : Dev :=
  let id := m.identity w
  let (lq, seq) := match m.launchOf w.launch with
    | some l => (l.queue, l.count)
    | none => (0, 0)
  let m := m.clearContext ctx
  let at_ := m.phys (m.host.ctxbase + 128 * ctx)
  let m := m.write at_ (leBytes 8 (m.ctxDword ctx 0 % 2 ^ 63))
  m.post ctx 0x06 lq seq cause id

end Sys2Proof.Machine
end

