-- ==== Sys2Proof/Machine/Ops.lean ====
section
/-!
DEFINITION. Machine/Ops.lean: taking a trap and returning from one, moving the program counters, waiting,
fetching, and whose turn it is (07 R177; 09 R205-R215, R219; 18 R360-R363; 19 R374).
-/
namespace Sys2Proof.Machine

/-! ## The shape of a meaning -/

/-- The machine with its device part replaced. -/
def State.withDev (s : State) (m : Dev) : State := { s with dev := m }

/-- What a meaning that acts on the device part alone answers. -/
def State.run (s : State) (f : Dev → Dev) : Host.Outcome State Fault Refusal := .next (s.withDev (f s.dev))

/-- An access from outside, a monitor trigger, a tail word or a message reaches the package: it leaves P2 soon (R108). -/
def State.wake (s : State) : State := if s.pwr.state = .p2 then { s with dev := s.dev.push .p2Exit } else s

/-- What an event answers that ends P2 (R108). -/
def State.rouse (s : State) (f : Dev → Dev) : Host.Outcome State Fault Refusal := .next (s.withDev (f s.dev)).wake

/-! ## Traps (R11, R360-R363) -/

/-- The code of a cause (R11). -/
def causeCode : Cause → Nat
  | .illegalOpcode => 0x01 | .reservedField => 0x02 | .alignBranch => 0x03 | .poolExec => 0x04
  | .segMiss => 0x05 | .controlOnly => 0x06 | .noLanes => 0x07 | .windowState => 0x08
  | .pageFault => 0x10 | .protection => 0x11 | .windowSpan => 0x12 | .misaligned => 0x13
  | .peerFault => 0x14 | .peerTimeout => 0x15 | .poison => 0x16
  | .roomOrder => 0x20 | .roomMode => 0x21 | .roomLimit => 0x22 | .regionPoisoned => 0x23 | .roomNotHeld => 0x24
  | .mxOverflow => 0x30 | .accForeign => 0x31 | .outlierFull => 0x32 | .formatInvalid => 0x33
  | .msgOverflow => 0x40 | .gangFull => 0x41 | .spawnDepth => 0x42 | .spawnNofit => 0x43 | .queueMisuse => 0x44
  | .parityFatal => 0x51 | .deadRead => 0x52 | .breakpoint => 0x60 | .software => 0x61 | .divideByZero => 0x62

/-- What a trap is raised with: `kf` is the active mask when not given; `lf` are failing addresses by lane;
`err` the error whose poison marks the delivery clears (R73). -/
structure TrapArgs where
  cause : Cause
  stval : Nat := 0
  kf    : Option Mask := none
  lf    : Cells 64 := []
  err   : Option Nat := none
deriving DecidableEq, Repr

/-- The same address in every lane of a mask (R360). -/
def everyLane (k : Mask) (n : Nat) (a : Nat) : Cells 64 :=
  (Mask.lanes k n).foldl (fun (c : Cells 64) l => c.put l (BitVec.ofNat 64 a)) []

/-- Scalar registers 48 to 63 of a file (R361). -/
def upperBank (c : Cells 64) : Cells 64 := c.filter fun e => e.1 ≥ 48

/-- The handler's own `s48`-`s63` (R361). -/
def Dev.handlerBank (m : Dev) (ctx : Nat) : Cells 64 :=
  let put (c : Cells 64) (r v : Nat) : Cells 64 := Cells.put c r (BitVec.ofNat 64 v)
  put (put (put (put [] 48 (fld (m.ctxDword ctx 0x60) 48 0)) 49 (fld (m.ctxDword ctx 0x28) 48 0))
    50 (fld (m.ctxDword ctx 0x18) 48 0)) 51 (ctx % 64)

/-- Is the trap delivered to the handler (R363)? -/
def Dev.delivered (m : Dev) (c : Cause) : Bool :=
  c ≠ .parityFatal && !m.wave.super && fld (m.ctxDword m.wave.ctx 0x08) 11 0 ≠ 0

/-- Trap entry (R360, R361) of the loaded fragment, or the end of the context (R363). Open lookahead windows
close first (R193). While another fragment of the wave is in the handler, the instruction restarts once that one has
left it (log 16). -/
def Dev.trap (m : Dev) (t : TrapArgs) : Dev :=
  let m := m.closeWindows
  let w := m.wave
  let f := m.frag
  if w.handler.isSome && !w.super then m.onFrag fun f => { f with phase := 0, wait := .none, instr := none } else
  if !m.delivered t.cause then m.endContext w.ctx (causeCode t.cause) w else
  let lane := f.lrem > 0
  let kf := (t.kf.getD f.mask) &&& (f.reissue.getD (BitVec.allOnes 1024))
  let entry := m.ctxDword w.ctx 0x08
  let regs : TrapRegs :=
    { scause := BitVec.ofNat 64 (causeCode t.cause), sepc := BitVec.ofNat 64 f.spc,
      lepc := BitVec.ofNat 64 (if lane then f.lpc else 0), lrem := BitVec.ofNat 64 f.lrem,
      stval := BitVec.ofNat 64 t.stval, kf, lfaddr := t.lf.filter fun e => Mask.has kf e.1 }
  let w := match t.err with
    | some e => w.clearError e
    | none => w
  { m with
    wave := { w with trap := regs, psuper := false, super := true, handler := some f.fid, saved := f.mask,
                     bank := upperBank w.sregs,
                     sregs := (w.sregs.filter fun e => e.1 < 48) ++ m.handlerBank w.ctx,
                     trapLane := lane, trapLpc := f.lpc, trapSpc := f.spc, savedK := f.dualK, savedRem := f.dualRem },
    frag := { f with mask := kf, spc := fld entry 63 60 * 2 ^ 14 + fld entry 59 52 * 2 ^ 6, fell := false,
                     lrem := 0, dualK := 0, dualRem := 0, phase := 0, wait := .none, instr := none, reissue := none,
                     resumed := false, lepcBad := false, taken := 0, range := [], inHandler := true } }

/-- A trap with a cause alone. -/
def Dev.trapC (m : Dev) (c : Cause) : Dev := m.trap { cause := c }

/-- A trap of a scalar memory cause: the address in every lane of `KF` (R360). -/
def Dev.trapAt (m : Dev) (c : Cause) (a : Nat) : Dev :=
  m.trap { cause := c, lf := everyLane m.frag.mask m.wave.wlanes a }

/-! ## Program counters (R207, R212) -/

/-- The scalar PC moves to the next word; after the last word of a segment it has fallen off (R212). -/
def nextWord (f : Frag) : Frag :=
  { f with spc := f.spc + 4, fell := f.spc % 2 ^ 14 = 2 ^ 14 - 4, phase := 0, wait := .none }

/-- A scalar instruction is done: the fragment continues at the next word. -/
def Dev.advance (m : Dev) : Dev := m.onFrag nextWord

/-- The fragment continues at a block. -/
def Dev.goto (m : Dev) (t : Nat) : Dev :=
  m.onFrag fun f => { f with spc := t, fell := false, phase := 0, wait := .none }

/-- The fragment waits; its instruction is issued again when the wait is over. -/
def Dev.waitFor (m : Dev) (w : Wait) (phase : Nat := 0) : Dev := m.onFrag fun f => { f with wait := w, phase }

/-- A trap of the scalar word itself: `STVAL` holds the word (R374). -/
def Dev.trapWord (m : Dev) (c : Cause) : Dev :=
  m.trap { cause := c, stval := ofBytes (((m.core m.wave.coreNo).segs.getD (m.frag.spc / 2 ^ 14) {}).code.getBytes (m.frag.spc % 2 ^ 14) 4) }

/-- The block that holds the scalar PC, as a byte offset, and its segment. -/
def blockOf (spc : Nat) : Nat := spc / 64 * 64
def segOf (p : Nat) : Nat := p / 2 ^ 14

/-- A target `off` blocks from the block of the scalar PC, if it lies in the same segment (R211). -/
def Dev.blockTarget (m : Dev) (off : Int) : Option Nat :=
  let b := m.frag.spc / 64
  let t := (b : Int) + off
  if t ≥ 0 && t.toNat / 256 = b / 256 then some (64 * t.toNat) else none

/-! ## Code memory (R204, R211, R217, R219) -/

/-- Does a segment belong to the loaded wave: to its launch in USER mode, to its context's handler in SUPER
mode (R211)? -/
def Dev.ownsSegment (m : Dev) (s : Seg) : Bool :=
  s.owner = (if m.wave.super then .handler m.wave.ctx else .launch m.wave.launch)

/-- The segment with a number of the loaded wave's core. -/
def Dev.seg (m : Dev) (n : Nat) : Seg := (m.core m.wave.coreNo).segs.getD n {}

/-- The check of a code pointer as a target (R211). -/
def Dev.checkTarget (m : Dev) (t : Nat) (lane : Bool) : Option Cause :=
  if t % 64 ≠ 0 || t ≥ 2 ^ 18 then some .alignBranch
  else
    let s := m.seg (segOf t)
    if segOf t > 11 || !(s.st = .landed && s.lane = lane && m.ownsSegment s) then some .segMiss else none

/-- The check of a fetch at a byte offset (R212, R218, R219). -/
def Dev.checkFetch (m : Dev) (p : Nat) (fell lane : Bool) : Option Cause :=
  if fell then some .segMiss
  else if p ≥ 2 ^ 18 then some .alignBranch
  else
    let s := m.seg (segOf p)
    if segOf p > 11 || s.lane ≠ lane || !m.ownsSegment s then some .segMiss
    else if s.st = .error then some .poison
    else if s.st = .landed then none else some .segMiss

/-- `n` bytes of code at a byte offset of code memory. -/
def Dev.codeBytes (m : Dev) (p n : Nat) : Nat :=
  ofBytes ((m.seg (segOf p)).code.getBytes (p % 2 ^ 14) n)

/-- The cause of a refused encoding (R374). -/
def decodeCause : DecodeError → Cause
  | .poolExec => .poolExec | .illegalOpcode => .illegalOpcode | .reservedField => .reservedField

/-- Fetch and decode the scalar word at the scalar PC: an instruction, or the trap taken (R374). A word of OP 0
is `TRAPZ`. -/
def Dev.fetchScalar (m : Dev) : Option Instr × Dev :=
  let f := m.frag
  if f.spc % 4 ≠ 0 then (none, m.trapC .alignBranch) else
  match m.checkFetch f.spc f.fell false with
  | some c => (none, m.trapC c)
  | none =>
    if f.lepcBad then (none, m.trapC .alignBranch) else
    let w := m.codeBytes f.spc 4
    let m := m.onFrag fun f => { f with resumed := false }
    match decodeScalar (BitVec.ofNat 32 w) with
    | .ok i => if i.wellFormed then (some i, m) else (none, m.trap { cause := .reservedField, stval := w })
    | .error .poolExec => (some (trapzOf (BitVec.ofNat 32 w)), m)
    | .error e => (none, m.trap { cause := decodeCause e, stval := w })

/-- The lane PC at slot 0 of the next block (R214). -/
def nextBlock (f : Frag) : Frag :=
  let b := blockOf f.lpc
  { f with lpc := b + 64, lfell := b % 2 ^ 14 = 2 ^ 14 - 64 }

/-- The cause of a header that names no code (R209). -/
def headerCause (h : Nat) : Option Cause :=
  if fld h 31 28 ≠ 1 then some .poolExec
  else if fld h 27 25 = 0 || fld h 27 25 > 5 then some .reservedField
  else if fld h 24 0 ≠ 0 then some .reservedField else none

/-- The check of the block that the lane PC has reached: its count of slots, or the trap (R209, R212, R219). -/
def Dev.laneBlock (m : Dev) : Except TrapArgs Nat :=
  match m.checkFetch m.frag.lpc m.frag.lfell true with
  | some c => .error { cause := c }
  | none =>
    let h := m.codeBytes (blockOf m.frag.lpc) 4
    match headerCause h with
    | some c => .error { cause := c, stval := h }
    | none => .ok (fld h 27 25)

/-- The effective mask of a lane strip (R153): the active mask with the predicate, inverted when KN is set, in
the lanes that a reissue leaves (R235). -/
def Dev.effOf (m : Dev) (kp kn : Nat) : Mask :=
  let k := m.k kp
  m.frag.mask &&& (if kn = 1 then ~~~k else k) &&& (m.frag.reissue.getD (BitVec.allOnes 1024)) &&&
    Mask.first m.wave.wlanes

/-- Fetch and decode the lane instruction at the lane PC (R214, R374), after the checks of a resumed LISSUE
(R215, R518). -/
def Dev.fetchLane (m : Dev) : Option Instr × Dev :=
  let f := m.frag
  match (if f.resumed then (if f.spc % 4 ≠ 0 then some .alignBranch else m.checkFetch f.spc f.fell false) else none) with
  | some c => (none, m.trapC c)
  | none =>
    if f.lepcBad then (none, m.trapC .alignBranch) else
    let m := m.onFrag fun f => { f with resumed := false }
    match m.laneBlock with
    | .error t => (none, m.trap t)
    | .ok count =>
      let m := if m.frag.lpc / 4 % 16 ≥ count then m.onFrag nextBlock else m
      match m.laneBlock with
      | .error t => (none, m.trap t)
      | .ok _ =>
        let p := m.frag.lpc
        let w := m.codeBytes (blockOf p + 4 + 12 * (p / 4 % 16)) 12
        let kf := m.effOf (fld w 57 55) (fld w 54 54)
        match decodeLane (BitVec.ofNat 96 w) with
        | .ok i =>
          if i.wellFormed then (some i, m)
          else (none, m.trap { cause := .reservedField, stval := w / 2 ^ 64, kf := some kf })
        | .error e => (none, m.trap { cause := decodeCause e, stval := w / 2 ^ 64, kf := some kf })

/-- Fetch a new instruction: a lane instruction while the LISSUE has some left. The fragment keeps it until it completes. -/
def Dev.fetchNew (m : Dev) : Option Instr × Dev :=
  let (i, m) := if m.frag.lrem > 0 then m.fetchLane else m.fetchScalar
  (i, m.onFrag fun f => { f with instr := i })

/-- What the loaded fragment does next: the instruction that has issued and not completed (R219), else a new one; the wait
of a rollback for its window may have failed (R185, R190). -/
def Dev.fetch (m : Dev) : Option Instr × Dev :=
  match m.frag.wait, m.frag.instr with
  | .fill _, _ => (none, m.trapC .windowState)
  | _, some i => (some i, m)
  | _, none => m.fetchNew

/-- A lane instruction is done: the lane PC moves past it, and the LISSUE counts it (R214, R215). -/
def Dev.laneDone (m : Dev) : Dev :=
  let f := m.frag
  let count := fld (m.codeBytes (blockOf f.lpc) 4) 27 25
  let f' := if f.lpc / 4 % 16 + 1 < count then { f with lpc := f.lpc + 4 } else nextBlock f
  let f' := { f' with lrem := f.lrem - 1, phase := 0, wait := .none, reissue := none,
                      slots := if f.reissue.isSome then [] else f.slots }
  { m with frag := if f'.lrem = 0 then nextWord f' else f' }

/-! ## Return from a trap (R362, R518) -/

/-- `RTE` in SUPER mode (R362, R215): `s48`-`s63`, the mode, the active mask and `DUALST` are restored, and the
instruction at `SEPC` is issued again; a lane instruction that the handler did not skip in the lanes of `KF`. -/
def Dev.rte (m : Dev) : Dev :=
  let w := m.wave
  let t := w.trap
  let lrem := t.lrem.toNat
  let lane := w.trapLane || lrem ≠ 0
  let same := w.trapLane && lrem ≠ 0 && t.lepc.toNat = w.trapLpc
  let f := m.frag
  let rem := if w.trapLane && !same && w.savedRem ≠ 0 then w.savedRem - 1 else w.savedRem
  let lepc := t.lepc.toNat
  let f' : Frag := { f with
    mask := w.saved, spc := t.sepc.toNat, fell := false, phase := 0, wait := .none, resumed := true,
    lepcBad := lepc ≥ 2 ^ 18 || lepc % 4 ≠ 0 || lepc / 4 % 16 > 4,
    lpc := if lane then t.lepc.toNat else f.lpc, lfell := if lane then false else f.lfell, lrem,
    dualK := w.savedK, dualRem := rem, reissue := if same then some t.kf else none,
    slots := if same then f.slots else [], inHandler := false }
  { m with
    wave := { w with sregs := (w.sregs.filter fun e => e.1 < 48) ++ w.bank, bank := [],
                     super := w.psuper, handler := none,
                     frags := w.frags.map fun (x : Frag) => { x with inHandler := false } },
    frag := if w.trapLane && lrem = 0 && t.sepc.toNat = w.trapSpc then nextWord f' else f' }

/-! ## Waits (R177) -/

/-- Is a command of the list still under way? -/
def Dev.running (m : Dev) (ids : List Nat) : Bool := m.cmds.any fun c => ids.contains c.id

/-- Closed batches of a wave that are incomplete, up to number `b` (R341). -/
def Dev.waitsBatch (m : Dev) (w : Wave) (b : Word) : Bool :=
  w.closed.any fun x => (b - x.num).toNat < 2 ^ 31 && m.running x.cmds

/-- Closed batches of a wave that are incomplete (R340). -/
def Dev.incomplete (m : Dev) (w : Wave) : Nat := (w.closed.filter fun x => m.running x.cmds).length

/-- Has a wave an engine command, a peer request of a lane access (R270: not of a command), or a matrix instruction
under way? -/
def Dev.busyCmds (m : Dev) (uid : Nat) : Bool := m.cmds.any fun c => c.wave = uid
def Dev.busyPeers (m : Dev) (uid : Nat) : Bool :=
  (m.peers.any fun p => p.wave = uid && match p.what with
    | .cmd _ => false
    | _ => true) ||
  (m.waveOf uid).any fun w => w.frags.any fun f => f.todo ≠ []
def Dev.busyMatrix (m : Dev) (w : Wave) : Bool :=
  (m.cluster w.clusterNo).mqueue.any fun e => e.wave = w.uid

/-- Has the sibling of a fragment at its innermost split arrived (R167)? -/
def Wave.siblingIn (w : Wave) (f : Frag) : Bool :=
  match f.path with
  | [] => true
  | (id, taken) :: _ =>
    match w.splits.find? fun s => s.id = id with
    | none => true
    | some s => if taken then s.fallIn.isSome else s.takenIn.isSome

/-- Does an engine command, a CFETCH that waits, or an access of a lane instruction that is still to be performed, hold a
translation of a page of the region (R218, R370, R519)? -/
def Dev.pagesHeld (m : Dev) (ctx start size : Nat) : Bool :=
  (m.cmds.any fun c => c.ctx = ctx && c.pages.any fun p => start < (p + 1) * 65536 && p * 65536 < start + size) ||
  m.allWaves.any fun w => w.ctx = ctx && w.frags.any fun f => f.todo.any fun (p : Part) =>
    let a := p.acc.addr % 2 ^ 49
    p.acc.loc.isSome && start < a + p.size && a < start + size
  || f.range ≠ [] && start < f.taken % 2 ^ 49 + 0x4000 && f.taken % 2 ^ 49 < start + size

/-- Is the wait of a fragment over (R177)? -/
def Dev.waitOver (m : Dev) (w : Wave) (f : Frag) : Bool :=
  match f.wait with
  | .none => true
  | .event => false
  | .monitor d => d.any fun t => (m.core w.coreNo).cycle.toNat ≥ t
  | .sibling => w.siblingIn f
  | .blocks _ _ | .fill _ => f.phase = 20 || f.phase = 21
  | .queueFull q =>
    let x := (m.cluster w.clusterNo).queues.getD q {}
    x.vals.length < x.depth
  | .queueEmpty q => ((m.cluster w.clusterNo).queues.getD q {}).vals ≠ []
  | .drain => !m.draining w.die
  | .commands => !m.busyCmds w.uid && !m.busyPeers w.uid && !m.busyMatrix w
  | .peers => !m.busyPeers w.uid
  | .peerRegs ns => !ns.any fun n => m.nameWaits w.uid n f.opens
  | .room => !w.frags.any entering
  | .batches b => !m.waitsBatch w b
  | .batchRoom => m.incomplete w < 64
  | .copies => !(m.cmds.any fun c => c.wave = w.uid && match c.body with
      | .copy _ _ _ _ _ _ _ _ _ _ n => n = 0
      | _ => false)
  | .matrix => !m.busyMatrix w
  | .matrixRoom => (m.cluster w.clusterNo).mqueue.length < 8
  | .spawnRoom => (m.die w.die).spawns.length < 256
  | .segment s => ((m.core w.coreNo).segs.getD s {}).st ≠ .inflight
  | .pageUsers a n => !m.pagesHeld w.ctx a n
  | .ordered ids _ => !m.peers.any fun p => ids.contains p.id

/-- Is a fragment at a pre-emption point (R365)? Between instructions, and in the waits that R365 lists; not
in the waits of CALL, RET, GLEAVE, MSEND, RLEAVE, EXIT and CFETCH, in the release of a SPAWN (phase 17) and in the fill of a
rollback, nor once a wait has been answered. -/
def atPoint (f : Frag) : Bool :=
  match f.wait with
  | .none => f.phase = 0
  | .event => f.phase = 1 || f.phase = 6 || f.phase = 10 || f.phase = 12 || f.phase = 14 || f.phase = 30
  | .blocks _ p => p && f.phase ≠ 20 && f.phase ≠ 21
  | .copies | .segment _ | .fill _ => false
  | .ordered _ _ => f.todo = []
  | .drain => f.phase ≠ 4 && f.phase ≠ 17
  | .commands => f.phase ≠ 8
  | _ => true

/-- Is another fragment of the wave in the handler, and not this one (log 16)? -/
def Wave.outside (w : Wave) (f : Frag) : Bool := w.handler.isSome && !f.inHandler

/-- May a fragment issue: its wait is over; it is not held at a pre-emption point because another fragment of its wave is in
the handler (log 16), its wave is halted (R111) or a victim without rooms (R288, R365)? -/
def Dev.ready (m : Dev) (w : Wave) (f : Frag) : Bool :=
  let stops := w.outside f || w.halted || (w.victim && w.rooms = [])
  m.waitOver w f && !(stops && atPoint f)

/-! ## Deadlock of blocks (R190) -/

/-- Is a fragment in a wait for blocks that has not been answered? -/
def wantsBlocks (f : Frag) : Bool :=
  match f.wait with
  | .blocks _ _ | .fill _ => f.phase = 19
  | _ => false

/-- Does a fragment wait for a grant that another fragment of its wave does not end? One held outside the handler ends no
wait. -/
def Wave.stuck (w : Wave) : Bool :=
  (w.frags.any wantsBlocks) && w.frags.all fun f =>
    wantsBlocks f || (f.wait = .sibling && !w.siblingIn f) || (w.outside f && atPoint f)

/-- Is every resident wave of core `k` waiting for blocks (R190)? -/
def Dev.deadlocked (m : Dev) (k : Nat) : Bool :=
  let ws := m.allWaves.filter fun w => w.coreNo = k
  ws ≠ [] && ws.all Wave.stuck

/-- A core whose waves all wait for blocks. -/
def Dev.deadlockedCore (m : Dev) : Option Nat :=
  (m.cores.find? fun (x : Nat × Core) => x.2.queue ≠ [] && m.deadlocked x.1).map fun (x : Nat × Core) => x.1

/-! ## Whose turn it is (R177, log 10) -/

/-- Is an instruction one of the indivisible events, which have no encoding? -/
def isEvent (i : Instr) : Bool := (encodeScalar i).isNone && (encodeLane i).isNone

/-- A fragment that may issue, with what R177 orders by. -/
structure Candidate where
  uid  : Nat
  fid  : Nat
  prio : Nat
  last : Nat
  lastCycle : DWord
deriving DecidableEq, Repr

/-- Those of core `k`, in the order of wave slots. -/
def Dev.candidates (m : Dev) (k : Nat) : List Candidate :=
  (m.waves.filter fun w => w.coreNo = k).flatMap fun (w : Wave) =>
    let prio := match m.launchOf w.launch with | some l => l.prio | none => 0
    (w.frags.filter fun f => m.ready w f).map fun (f : Frag) =>
      { uid := w.uid, fid := f.fid, prio, last := f.last, lastCycle := f.lastCycle }

/-- The better of two: higher priority, then longer without issue. -/
def Candidate.before (byPrio : Bool) (a b : Candidate) : Bool :=
  if byPrio && a.prio ≠ b.prio then a.prio > b.prio else a.last ≤ b.last

/-- The choice of R177; its 1,024 cycles are those of the core's `CYCLE` (R516, log 12). -/
def Dev.pick (m : Dev) (k : Nat) : Option Candidate :=
  let cs := m.candidates k
  let old := cs.filter fun c => ((m.core k).cycle - c.lastCycle).toNat ≥ 1024
  let best (byPrio : Bool) : List Candidate → Option Candidate
    | [] => none
    | c :: t => some (t.foldl (fun a b => if a.before byPrio b then a else b) c)
  if old ≠ [] then best false old else best true cs

/-- The next core, round robin after `lastCore`, that has a fragment to issue. -/
def Dev.nextCore (m : Dev) : Option Nat :=
  let ks := (m.waves.filter fun w => w.frags.any fun f => m.ready w f).map fun (w : Wave) => w.coreNo
  let least (l : List Nat) : Option Nat := l.foldl (fun b k => match b with
    | none => some k
    | some x => some (min x k)) none
  match least (ks.filter fun k => k > m.lastCore) with
  | some k => some k
  | none => least ks

/-- A fragment as it issues in a slot and cycle: a wait for blocks keeps its answer; what has not completed goes on (R219). -/
def Frag.issued (f : Frag) (slot : Nat) (cycle : DWord) : Frag :=
  { f with last := slot, lastCycle := cycle, instr := if f.wait = .none && f.phase = 0 then none else f.instr,
           wait := match f.wait with | .blocks n p => .blocks n p | .fill n => .fill n | _ => .none }

/-- Load the fragment that core `k` issues, and count its issue slot and cycles (R516, log 1). -/
def Dev.issue (m : Dev) (k : Nat) (c : Candidate) : Dev :=
  let x := m.core k
  let m := m.setCore k { x with issued := x.issued + 1,
                                cycle := x.cycle + BitVec.ofNat 64 (1 + Config.extraCycles x.issued) }
  let m := { m with lastCore := k }
  let m := m.load c.uid c.fid
  let m := match m.frag.wait with
    | .ordered _ true => m.dropG k
    | _ => m
  { m with wave := { m.wave with drowsy := false },
           frag := m.frag.issued x.issued x.cycle }

/-- Cycles of its core that a fragment still waits in an `MWAIT` with a timeout. -/
def Dev.timeLeft (m : Dev) (w : Wave) (f : Frag) : Option Nat :=
  match f.wait with
  | .monitor (some t) => some (t - (m.core w.coreNo).cycle.toNat)
  | _ => none

/-- The `MWAIT` timeout that is taken when nothing else can go on: the one with least time left. -/
def Dev.nextTimeout (m : Dev) : Option Instr :=
  let all := m.waves.flatMap fun (w : Wave) =>
    w.frags.filterMap fun (f : Frag) => (m.timeLeft w f).map fun n => (n, Instr.mwaitTimeout w.uid f.fid)
  match all with
  | [] => none
  | x :: t => some (t.foldl (fun (a b : Nat × Instr) => if b.1 < a.1 then b else a) x).2

/-- A victim that has reached its pre-emption point in every fragment, and whose engine commands and peer requests are
complete (R365, R366 steps 1 and 2). -/
def Dev.saveReady (m : Dev) (w : Wave) : Bool :=
  w.victim && !w.leaving && w.rooms = [] && w.frags.all atPoint && !m.busyCmds w.uid && !m.busyPeers w.uid

/-- The event of a victim that can be saved. -/
def Dev.nextSave (m : Dev) : Option Instr := (m.waves.find? m.saveReady).map fun (w : Wave) => .waveSave w.uid

/-- Is a bias flip under way (R82, R83)? -/
def Dev.flipping (m : Dev) : Bool := m.host.biasreq.getLsbD 63

/-- Events that reach no memory, and host accesses, each of which is held by its own pages: all others wait while a flip holds
accesses (R83 step 3). -/
def freeInFlip : Instr → Bool
  | .powerOn _ _ _ | .rstNPulse _ | .pcieFundamentalReset _ | .wipeComplete _ _ | .supplyOutOfBand _ | .sensorAt95c _ _
  | .sensorAt110c _ _ | .powerWindowEnd _ _ | .p2Entry | .p2Exit | .d3hotEntry | .d3hotExit | .powerRemoval _
  | .mctpControl _ | .mgmtRead _ | .mgmtWrite _ _ | .hostRegisterWrite _ _ | .rstctlReset _ | .salvctlOpen _ | .pwrcapWrite _
  | .mgtevtClear _ | .biasreqGo _ | .biasFlipComplete | .lifecycleChange _ | .lifecycleBurnDone
  | .getVersion | .getCapabilities | .negotiateAlgorithms | .getDigests | .getCertificate | .challenge | .getMeasurements _ _
  | .spdmUnsupportedRequest _ | .hostCxlAccess _ | .hostDma _ | .hostAccessBlocked _ | .salvageRead _ _ | .fatalError _ _ _ _
  | .linkLaneRetire _ | .flitReceive _ _ | .replayRequest _ _ | .portRetrainDone _ _ | .rolloverCountReached _
  | .rolloverTimerExpired _ | .keyAgreementComplete _ _ _ | .keyReady _ | .oldEpochDrained _ | .keyRetire _ | .keyDone _
  | .keyReadyTimeout _ | .keyDoneTimeout _ | .drowsyTimeout _ | .gLineExpiry _ _ | .monitorTrigger _ | .mwaitTimeout _ _ => true
  | _ => false

/-- Must the flip end before the next turn (R83)? -/
def Dev.flipFirst (m : Dev) : Bool :=
  m.flipping && match m.turns with
    | .event i :: _ => !freeInFlip i
    | _ => true

/-- What the next step does. -/
inductive Next where
  | event (i : Instr) (m : Dev)
  | wave (m : Dev)
  | idle (m : Dev)
deriving DecidableEq, Repr

/-- Core `k` issues, if it has a fragment to issue. -/
def Dev.coreTurn (m : Dev) (k : Nat) : Next :=
  match m.pick k with
  | some c => .wave (m.issue k c)
  | none => .idle m

/-- The turn: the end of a bias flip; else as `turns` says; else an event that is due; else a victim's save; else the break
of a deadlock; else the next core; else a timeout. `live`: do cores run (R108, R112)? `asleep`: the package is in P2, where
a flip holds accesses as in P0, and the counts of timeouts stand (R516). -/
def Dev.turn (m : Dev) (live : Bool) (asleep : Bool := false) : Next :=
  let m := m.stash
  if (live || asleep) && m.flipFirst then .event .biasFlipComplete { m with agenda := m.agenda.erase .biasFlipComplete } else
  match m.turns with
  | .event i :: t => .event i { m with turns := t }
  | .core k :: t => if live then { m with turns := t }.coreTurn k else .idle { m with turns := t }
  | [] =>
    match m.agenda with
    | i :: t => .event i { m with agenda := t }
    | [] =>
      if !live then .idle m else
      match m.nextSave with
      | some i => .event i m
      | none =>
      match m.deadlockedCore with
      | some k => .event (.claimDeadlockBreak k) m
      | none =>
      match m.nextCore with
      | some k => m.coreTurn k
      | none =>
        match m.nextTimeout with
        | some i => .event i m
        | none => .idle m

end Sys2Proof.Machine
end

