-- ==== Sys2Proof/Machine/Operands.lean ====
section
/-!
DEFINITION. Machine/Operands.lean: how a lane instruction starts, reads its operands, writes its results and
ends (08 R179-R195; 17 R350-R357; 19 R382-R388; 22 R433-R435), and how a lane or scalar access to memory is
checked and performed (10 R225, R234; 13 R284, R285; 23 R461-R463).
-/
namespace Sys2Proof.Machine

/-! ## Operands -/

/-- Is the lane instruction dual (R349, R350)? -/
def Dev.dual (m : Dev) : Bool :=
  if m.frag.dualRem ≠ 0 then m.frag.dualK ≠ 0 else decide (m.wave.tang > 0)

/-- How many tangents the instruction computes or moves. -/
def Dev.tangents (m : Dev) : Nat := if m.dual then m.wave.tang else 0

/-- A register or pair of a lane: primal (0) or tangent `t`. -/
def Dev.vread (m : Dev) (r : Nat) (pair : Bool) (t l : Nat) : Nat :=
  (m.wave.vget r t l).toNat + (if pair then (m.wave.vget (r + 1) t l).toNat * 2 ^ 32 else 0)

/-- The width of an element of an Integer type (R437). -/
def elemWidth (f : LaneF) : Nat := if pBit f then 64 else if f.ty = 13 then 16 else if f.ty = 5 then 8 else 32

/-- A value repeated in every element of a lane or pair (R434). -/
def replicateElem (w x : Nat) : Nat :=
  match w with
  | 8 => x % 256 * 0x01010101
  | 16 => x % 65536 * 0x00010001
  | _ => x % 2 ^ w

/-- The scalar B operand (R383). -/
def Dev.scalarB (m : Dev) (opc : Nat) (f : LaneF) : Nat :=
  let v := (m.s (f.vb.extractLsb' 0 6)).toNat
  if isPair opc f then v else v % 2 ^ 32

/-- `opB(l)` (R388, R434). -/
def Dev.opB (m : Dev) (opc : Nat) (f : LaneF) (l : Nat) : Nat :=
  if sBit f then m.scalarB opc f
  else if iBit f && opc ≤ 0x018 then replicateElem (elemWidth f) (f.imm.signExtend 64).toNat
  else m.vread f.vb.toNat (isPair opc f) 0 l

/-- The tangent of `opB(l)`: zero for a scalar or an immediate (R353). -/
def Dev.opBt (m : Dev) (opc : Nat) (f : LaneF) (t l : Nat) : Nat :=
  if bIsLane opc f then m.vread f.vb.toNat (isPair opc f) t l else 0

/-- The registers of one operand. -/
def regsOf (r : BitVec 7) (pair : Bool) : List Nat := if pair then [r.toNat, r.toNat + 1] else [r.toNat]

/-- The lane registers of A, of B and of C that an instruction reads, and of its destination. -/
def srcA (opc : Nat) (f : LaneF) : List Nat := if (laneRow opc f).va = .lane then regsOf f.va (pairA opc f) else []
def srcB (opc : Nat) (f : LaneF) : List Nat := if bIsLane opc f then regsOf f.vb (isPair opc f) else []
def srcC (opc : Nat) (f : LaneF) : List Nat := if (laneRow opc f).vc = .lane then regsOf f.vc (isPair opc f) else []
def destV (opc : Nat) (f : LaneF) : List Nat := if (laneRow opc f).vd = .lane then regsOf f.vd (isPair opc f) else []

/-- Are tangents of A, of B and C, read by a dual instruction (R354, R356, R357, R469)? -/
def tangA (opc : Nat) : Bool :=
  (0x040 ≤ opc && opc ≤ 0x051 && opc ≠ 0x049) || opc = 0x018 || (0x080 ≤ opc && opc ≤ 0x082) || opc = 0x0A0 ||
  opc = 0x0A2 || opc = 0x0A3 || opc = 0x0A4 || opc = 0x0A7 || opc = 0x0A8
def tangB (opc : Nat) (f : LaneF) : Bool :=
  (0x040 ≤ opc && opc ≤ 0x04D && opc ≠ 0x049) || opc = 0x018 || opc = 0x081 || opc = 0x0A2 || opc = 0x0C1 ||
  (opc = 0x0C2 && f.imm.toNat % 16 ≤ 1) || opc = 0x0C4

/-! ## Start of a lane instruction (R153, R182, R195, R364 row 4, R73) -/

/-- A lane instruction has issued: its windows, its `DUAL` count and the PCs move on (R192, R350, R214). -/
def Dev.laneCount (m : Dev) : Dev :=
  (m.countWindows.onFrag fun f => { f with dualRem := f.dualRem - (if f.dualRem = 0 then 0 else 1) }).laneDone

/-- The registers whose results a lane instruction waits for: its sources (R436), and of an `ATOM`, which keeps its shadows,
the destination. -/
def laneWaits (opc : Nat) (f : LaneF) : List Nat :=
  srcA opc f ++ srcB opc f ++ srcC opc f ++ (if opc = 0x0C2 then destV opc f else [])

/-- The oldest error of a list of marks (R73): the one with the least number, which its request took when it was issued
(log 108). -/
def oldest : List Mark → Option Mark
  | [] => none
  | k :: t =>
    match oldest t with
    | some x => some (if x.err < k.err then x else k)
    | none => some k

/-- The addresses that the marks of one error report, by lane. -/
def markAddrs (ks : List Mark) (err : Nat) : Cells 64 :=
  (ks.filter fun k => k.err = err).foldl (fun (c : Cells 64) k => c.put k.lane k.addr) []

/-- The trap of a source read of the error `k` of `marks` (R73): `KF` is the affected lanes; of POISON, the effective mask
(R360). -/
def Dev.trapMark (m : Dev) (marks : List Mark) (k : Mark) (eff : Mask) : Dev :=
  let mine := Mask.ofLanes ((marks.filter fun x => x.err = k.err).map (·.lane))
  m.trap { cause := k.cause, kf := some (if k.cause = .poison then eff else mine), lf := markAddrs marks k.err, err := some k.err }

/-- The checks before the first pass. An error is the machine after a trap or a wait, or with nothing left to
do because the effective mask is empty. `readA`: the lanes whose A words are read, when they are not those
of the effective mask. -/
def Dev.laneStart (m : Dev) (opc : Nat) (f : LaneF) (readA : Option Mask := none) : Except Dev (Mask × Dev) :=
  let eff := m.effOf f.kp.toNat f.kn.toNat
  if m.wave.control then .error (m.trap { cause := .noLanes, kf := some eff }) else
  let srcs := srcA opc f ++ srcB opc f ++ srcC opc f
  if (srcs ++ destV opc f).any fun r => !m.wave.inWindow r then
    .error (m.trap { cause := .windowState, kf := some eff })
  else if eff = 0 then .error m.laneCount
  else if (laneWaits opc f).any m.peerPending then
    .error (m.waitFor (.peerRegs ((laneWaits opc f).map m.wave.peerReg)))
  else
    let dead := srcs.any fun r => m.wave.isDead r
    if dead && m.wave.wavectl.getLsbD 7 then .error (m.trap { cause := .deadRead, kf := some eff }) else
    let dual := m.dual
    let marks :=
      ((srcA opc f).flatMap fun r => (m.wave.marksOf r (readA.getD eff)).filter fun k => k.tang = 0 || (dual && tangA opc)) ++
      ((srcB opc f).flatMap fun r => (m.wave.marksOf r eff).filter fun k => k.tang = 0 || (dual && tangB opc f)) ++
      ((srcC opc f).flatMap fun r => (m.wave.marksOf r eff).filter fun k => k.tang = 0 || (dual && opc = 0x043))
    match oldest marks with
    | some k => .error (m.trapMark marks k eff)
    | none => .ok (eff, if dead then m.setCtl 6 else m)

/-! ## End of a lane instruction (R192, R194, R195) -/

/-- The registers whose last-read bits are set. -/
def lastReads (opc : Nat) (f : LaneF) : List Nat :=
  (if lrA f then srcA opc f else []) ++ (if lrB f then srcB opc f else []) ++ (if lrC f then srcC opc f else [])

/-- A register that a held result will write and that the instruction marks dead: it is live, keeps its words in the lanes
of the result until they are written (R192), and reads zero in the others (R194, R195). -/
def Wave.narrow (w : Wave) (n : Nat) (lanes : Mask) : Wave :=
  let x := (w.revive n).winOf n
  let out (l : Nat) : Bool := !Mask.has lanes l
  w.setWin n { x with cells := x.cells.drop fun key => key / 4096 = winReg n && out (key % 1024),
                      marks := x.marks.filter fun k => !(k.reg = winReg n && out k.lane) }

/-- The registers whose last-read bits are set die (R194); one of `outs` is written after that, and is live: it keeps the words
that are written when a window closes, and its shadows under `keep`. -/
def Dev.killSources (m : Dev) (opc : Nat) (f : LaneF) (outs : List RegOut) : Dev :=
  m.onWave fun w => (lastReads opc f).foldl (fun w r =>
    match outs.find? fun o => o.reg = r && o.lanes ≠ 0 with
    | some o => if f.la = 0 && !o.keep then (w.kill r).revive r else w.narrow r o.lanes
    | none => w.kill r) w

/-- Write results to registers at once. -/
def Dev.commit (m : Dev) (o : RegOut) : Dev := m.onWave fun w => w.commitReg w.wlanes o

/-- Open a lookahead window for a result (R192). -/
def Dev.hold (m : Dev) (la : Nat) (o : RegOut) : Dev :=
  m.onFrag fun f => { f with held := f.held ++
    [{ left := la, reg := m.wave.peerReg o.reg, lanes := o.lanes, vals := o.vals, marks := o.marks, hold := m.wave.nextHold,
       keep := o.keep }] }

/-- The number of the next lookahead window has been used. -/
def Dev.newHold (m : Dev) : Dev := m.onWave fun w => { w with nextHold := w.nextHold + 1 }

/-- The instruction completes with lane results: sources die, what outer windows hold for those words is discarded, results
are written or held, windows count. `late`: the lanes whose results come later. -/
def Dev.laneFinish (m : Dev) (opc : Nat) (f : LaneF) (outs : List RegOut) (late : Mask := 0) : Dev :=
  let m := m.killSources opc f (outs.map fun o => { o with lanes := o.lanes ||| late })
  let m := outs.foldl (fun m o => m.discardOuter (f.la ≠ 0) o.reg (o.lanes ||| late)) m
  if f.la = 0 then (outs.foldl (fun m o => m.commit o) m).laneCount
  else
    let m := m.countWindows
    let m := (outs.foldl (fun m o => m.hold f.la.toNat o) m).newHold
    (m.onFrag fun x => { x with dualRem := x.dualRem - (if x.dualRem = 0 then 0 else 1) }).laneDone

/-- RESERVED-FIELD of the lane instruction at the lane PC: `STVAL` holds its word 2 (R374). -/
def Dev.trapLaneWord (m : Dev) (eff : Mask) : Dev :=
  let p := m.frag.lpc
  m.trap { cause := .reservedField, stval := m.codeBytes (blockOf p + 12 + 12 * (p / 4 % 16)) 4, kf := some eff }

/-- A lane instruction writes a scalar register (R386): at once, or at the close of its window (R192). -/
def Dev.laneScalar (m : Dev) (f : LaneF) (v : DWord) : Dev :=
  let d := f.vd.toNat % 64
  let m := m.onFrag fun x => { x with held := x.held.filter fun h => !(h.scalar && h.reg = d) }
  if f.la = 0 then m.setS (f.vd.extractLsb' 0 6) v
  else m.onFrag fun x => { x with held := x.held ++ [{ left := f.la.toNat + 1, scalar := true, reg := d, sval := v }] }

/-! ## Instructions that work in each lane alone -/

/-- The operands of one lane: A, B, C and their tangents. -/
structure LaneIn where
  a : Nat
  b : Nat
  c : Nat
  t : List (Nat × Nat × Nat)
deriving DecidableEq, Repr

/-- The result of one lane: value and tangents, which are zero when not given. -/
structure LaneRes where
  v : Nat
  t : List Nat := []
deriving DecidableEq, Repr

/-- The operands of lane `l`. -/
def Dev.laneIn (m : Dev) (opc : Nat) (f : LaneF) (l : Nat) : LaneIn :=
  { a := if (laneRow opc f).va = .lane then m.vread f.va.toNat (pairA opc f) 0 l else 0,
    b := m.opB opc f l,
    c := if (laneRow opc f).vc = .lane then m.vread f.vc.toNat (isPair opc f) 0 l else 0,
    t := (List.range m.tangents).map fun j =>
      (if (laneRow opc f).va = .lane then m.vread f.va.toNat (pairA opc f) (j + 1) l else 0,
       m.opBt opc f (j + 1) l,
       if (laneRow opc f).vc = .lane then m.vread f.vc.toNat (isPair opc f) (j + 1) l else 0) }

/-- The values of lane `l` put into a register's cells: word `hi` (0 low, 1 high) of value and tangents. -/
def putRes (hi : Nat) (c : Cells 32) (l : Nat) (r : LaneRes) : Cells 32 :=
  let word (x : Nat) : Word := BitVec.ofNat 32 (x >>> (32 * hi))
  let c := Cells.put c (4 * l) (word r.v)
  ((List.range r.t.length).zip r.t).foldl (fun (c : Cells 32) (x : Nat × Nat) => Cells.put c (4 * l + x.1 + 1) (word x.2)) c

/-- Register results from results by lane: one register, or two of a pair. -/
def laneOuts (reg : Nat) (pair : Bool) (rs : List (Nat × LaneRes)) : List RegOut :=
  let lanes := Mask.ofLanes (rs.map fun (x : Nat × LaneRes) => x.1)
  let out (hi : Nat) : RegOut :=
    { reg := reg + hi, lanes, vals := rs.foldl (fun (c : Cells 32) (x : Nat × LaneRes) => putRes hi c x.1 x.2) [] }
  if pair then [out 0, out 1] else [out 0]

/-- An instruction with a lane register destination that computes each lane of `eff` alone (R433). -/
def Dev.laneOp (m : Dev) (opc : Nat) (f : LaneF) (g : LaneIn → LaneRes) : Dev :=
  match m.laneStart opc f with
  | .error m => m
  | .ok (eff, m) =>
    m.laneFinish opc f
      (laneOuts f.vd.toNat (isPair opc f) ((Mask.lanes eff m.wave.wlanes).map fun l => (l, g (m.laneIn opc f l))))

/-- Bits of a predicate in the lanes of `eff`, the others kept (R386). -/
def predBits (old eff : Mask) (n : Nat) (b : Nat → Bool) : Mask :=
  (Mask.lanes eff n).foldl (fun k l => Mask.put k l (b l)) old

/-- Write a predicate in the lanes of `eff`; `k0` discards it. -/
def Dev.putPred (m : Dev) (kd : Nat) (eff : Mask) (b : Nat → Bool) : Dev :=
  m.setK kd (predBits (m.k kd) eff m.wave.wlanes b)

/-- An instruction with a predicate destination (R386). -/
def Dev.predOp (m : Dev) (opc : Nat) (f : LaneF) (g : Nat → LaneIn → Bool) : Dev :=
  match m.laneStart opc f with
  | .error m => m
  | .ok (eff, m) =>
    (m.putPred (f.vd.toNat % 8) eff fun l => g l (m.laneIn opc f l)).laneFinish opc f []

/-! ## Elements of a lane -/

/-- Element `i` of width `w`. -/
def elem (w x i : Nat) : Nat := x >>> (w * i) % 2 ^ w

/-- A lane of `n` elements of width `w`. -/
def ofElems (w n : Nat) (g : Nat → Nat) : Nat := ((List.range n).map fun i => g i % 2 ^ w * 2 ^ (w * i)).sum

/-- Apply an operation to every element of a lane of `total` bits. -/
def mapElems (total w : Nat) (g : Nat → Nat → Nat → Nat) (a b c : Nat) : Nat :=
  ofElems w (total / w) fun i => g (elem w a i) (elem w b i) (elem w c i)

/-! ## Accesses to memory (R225, R284, R285) -/

/-- What an access does. -/
inductive Act where
  | load | store | atomic | pref
deriving DecidableEq, Repr

def Act.rd : Act → Bool
  | .store => false
  | _ => true
def Act.wr : Act → Bool
  | .store | .atomic => true
  | _ => false

/-- R284 and R285 for `n` bytes at generic pointer `a`. -/
def roomUse (rooms : List Room) (a n : Nat) (k : Act) : RoomUse :=
  if windowOf a ≠ some .global then .memory else
  match rooms.filter fun r => a < r.base + r.len && r.base < a + n with
  | [] => .memory
  | [r] =>
    if !(r.base ≤ a && a + n ≤ r.base + r.len) then (if k = .pref then .dropped else .bad) else
    match k, r.mode with
    | .pref, 0 | .pref, 1 => .memory
    | .pref, _ => .dropped
    | .load, 0 | .load, 1 | .store, 1 | .atomic, 1 => .memory
    | .load, 2 | .store, 2 => if n = atypeSize r.atype && a % n = 0 then .shadow r else .bad
    | _, _ => .bad
  | _ => if k = .pref then .dropped else .bad

/-- Why an access is not performed: the rank of R364 row 6, the cause and the failing address. -/
structure Fail where
  rank  : Nat
  cause : Cause
  addr  : Nat
deriving DecidableEq, Repr

/-- The result of R225 with the room check after it. -/
def finishCheck (rooms : List Room) (a n : Nat) (k : Act) (v : Verdict) : Except Fail Access :=
  match v with
  | .bad r c x => .error { rank := r, cause := c, addr := x }
  | .peer => .ok { addr := a, loc := none, use := .memory }
  | .ok ss =>
    match roomUse rooms a n k with
    | .bad => .error { rank := 6, cause := .roomMode, addr := a }
    | u => .ok { addr := a, loc := ss.head?.map (·.loc), use := u }

/-- `check` of a lane access at `BASE + off` (R388). -/
def Dev.laneAccess (m : Dev) (x : XReg) (off : Int) (n : Nat) (k : Act) : Except Fail Access × Dev :=
  let (v, m) := m.checkX x off n { windows := laneWindows, rd := k.rd, wr := k.wr, align := n }
  (finishCheck m.wave.rooms (wrapN 64 (x.base.toNat + off)) n k v, m)

/-- The check of a scalar access (R418, R420). -/
def Dev.scalarAccess (m : Dev) (a : Nat) (n : Nat) (k : Act) : Except Fail Access × Dev :=
  let (v, m) := m.check a n { windows := scalarWindows, rd := k.rd, wr := k.wr, align := n }
  (finishCheck m.wave.rooms a n k v, m)

/-- Read `n` bytes of a checked access that is not in the peer window, with their poison (R461). -/
def Dev.loadAt (m : Dev) (a : Access) (n : Nat) (strong : Bool) : List (Byte × Bool) × Dev :=
  match a.use, a.loc with
  | .shadow r, some l => m.shadowLoad m.wave.coreNo m.wave.uid l.shadowNum (l.key % 128) n r.atype r.desc
  | _, some (.dev pa) => m.loadLine m.wave.coreNo pa n strong
  | _, some l => ((List.range n).map fun i => (m.byteAt (l.add i), m.poisonAt (l.add i)), m)
  | _, none => ([], m)

/-- Write bytes at a checked access that is not in the peer window (R461). -/
def Dev.storeAt (m : Dev) (a : Access) (strong : Bool) (sc : Nat) (bs : List Byte) : Dev :=
  match a.use, a.loc with
  | .shadow r, some l => m.shadowStore m.wave.coreNo m.wave.uid l.shadowNum (l.key % 128) r.atype r.desc bs
  | _, some (.dev pa) => if strong then m.storeStrong m.wave.coreNo pa sc bs else m.storeLocal m.wave.coreNo pa bs
  | _, some l => m.write l bs
  | _, none => m

/-- An atomic at scope `sc` at a checked access that is not in the peer window (R420, R467): the old value, whether it is
poisoned, and the write when the operation makes one. A poisoned value is not changed (R463). -/
def Dev.atomicAt (m : Dev) (a : Access) (n sc : Nat) (g : Nat → Option Nat) : (Nat × Bool) × Dev :=
  match a.loc with
  | none => ((0, false), m)
  | some l =>
    let m := m.atomicPlace m.wave.coreNo sc l
    let was := m.atomicBytes m.wave.coreNo l n
    let old := ofBytes (was.map (·.1))
    if was.any (·.2) then ((old, true), m) else
    match g old with
    | some v => ((old, false), m.atomicPut m.wave.coreNo sc l (clean (leBytes n v)))
    | none => ((old, false), m)

/-! ## Lane accesses that fail (R234, R364) -/

/-- A lane whose access is not performed. -/
structure LaneFail where
  lane : Nat
  fail : Fail
deriving DecidableEq, Repr

/-- Does a failure come before another in row 6 of R364: by its check, and in step 5 of R225 by its byte? -/
def Fail.before (a b : Fail) : Bool := a.rank < b.rank || (a.rank = 4 && b.rank = 4 && a.addr < b.addr)

/-- The failure that `SCAUSE` names (R364 row 6). -/
def leastFail : List LaneFail → Option Fail
  | [] => none
  | x :: t =>
    match leastFail t with
    | some y => some (if y.before x.fail then y else x.fail)
    | none => some x.fail

/-- `fail()` (R388): the trap of R234; the machine as it is when no lane failed. -/
def Dev.failLanes (m : Dev) (fs : List LaneFail) : Option Dev :=
  (leastFail fs).map fun x =>
    m.trap { cause := x.cause, kf := some (Mask.ofLanes (fs.map (·.lane))),
             lf := fs.foldl (fun (c : Cells 64) y => c.put y.lane (BitVec.ofNat 64 y.fail.addr)) [] }

end Sys2Proof.Machine
end

