-- ==== Sys2Proof/Machine/LaneArith.lean ====
section
/-!
DEFINITION. Machine/LaneArith.lean: lane integer, bitwise, bit-field, comparison and predicate instructions
(22 R437-R443, R457-R459).
-/
namespace Sys2Proof.Machine

/-! ## Integer and bitwise (R438, R439) -/

/-- Bits of a lane or pair. -/
def laneBits (f : LaneF) : Nat := if pBit f then 64 else 32

/-- An Integer-class instruction: `g` takes the element width, SGN and the elements of A, B and C. -/
def Dev.laneInt (m : Dev) (opc : Nat) (f : LaneF) (g : Nat → Bool → Nat → Nat → Nat → Nat) : Dev :=
  m.laneOp opc f fun x => { v := mapElems (laneBits f) (elemWidth f) (g (elemWidth f) (gBit f)) x.a x.b x.c }

/-- `IADD` (R438). -/
def execIadd (f : LaneF) (s : State) : Host.Outcome State Fault Refusal :=
  s.run fun m => m.laneInt 0x001 f fun n _ a b _ => (a + b) % 2 ^ n
/-- `ISUB` (R438). -/
def execIsub (f : LaneF) (s : State) : Host.Outcome State Fault Refusal :=
  s.run fun m => m.laneInt 0x002 f fun n _ a b _ => (a + 2 ^ n - b) % 2 ^ n
/-- `IMUL` (R438). -/
def execImul (f : LaneF) (s : State) : Host.Outcome State Fault Refusal :=
  s.run fun m => m.laneInt 0x003 f fun n _ a b _ => a * b % 2 ^ n
/-- `IMULH` (R438). -/
def execImulh (f : LaneF) (s : State) : Host.Outcome State Fault Refusal :=
  s.run fun m => m.laneInt 0x004 f fun n sg a b _ => wrapN n (ordValue sg n a * ordValue sg n b / (2 ^ n : Nat))
/-- `IMAD` (R438). -/
def execImad (f : LaneF) (s : State) : Host.Outcome State Fault Refusal :=
  s.run fun m => m.laneInt 0x005 f fun n _ a b c => (a * b + c) % 2 ^ n
/-- `IABS` (R438). -/
def execIabs (f : LaneF) (s : State) : Host.Outcome State Fault Refusal :=
  s.run fun m => m.laneInt 0x006 f fun n _ a _ _ => (sextN n a).natAbs % 2 ^ n
/-- `INEG` (R438). -/
def execIneg (f : LaneF) (s : State) : Host.Outcome State Fault Refusal :=
  s.run fun m => m.laneInt 0x007 f fun n _ a _ _ => (2 ^ n - a) % 2 ^ n
/-- `IMIN` (R438). -/
def execImin (f : LaneF) (s : State) : Host.Outcome State Fault Refusal :=
  s.run fun m => m.laneInt 0x008 f fun n sg a b _ => if ordValue sg n b < ordValue sg n a then b else a
/-- `IMAX` (R438). -/
def execImax (f : LaneF) (s : State) : Host.Outcome State Fault Refusal :=
  s.run fun m => m.laneInt 0x009 f fun n sg a b _ => if ordValue sg n a < ordValue sg n b then b else a
/-- `AND` (R439). -/
def execAnd (f : LaneF) (s : State) : Host.Outcome State Fault Refusal :=
  s.run fun m => m.laneInt 0x00A f fun _ _ a b _ => a &&& b
/-- `OR` (R439). -/
def execOr (f : LaneF) (s : State) : Host.Outcome State Fault Refusal :=
  s.run fun m => m.laneInt 0x00B f fun _ _ a b _ => a ||| b
/-- `XOR` (R439). -/
def execXor (f : LaneF) (s : State) : Host.Outcome State Fault Refusal :=
  s.run fun m => m.laneInt 0x00C f fun _ _ a b _ => a ^^^ b
/-- `NOT` (R439). -/
def execNot (f : LaneF) (s : State) : Host.Outcome State Fault Refusal :=
  s.run fun m => m.laneInt 0x00D f fun n _ a _ _ => 2 ^ n - 1 - a
/-- `SHL` (R439). -/
def execShl (f : LaneF) (s : State) : Host.Outcome State Fault Refusal :=
  s.run fun m => m.laneInt 0x00E f fun n _ a b _ => a * 2 ^ (b % n) % 2 ^ n
/-- `SHR` (R439). -/
def execShr (f : LaneF) (s : State) : Host.Outcome State Fault Refusal :=
  s.run fun m => m.laneInt 0x00F f fun n _ a b _ => a / 2 ^ (b % n)
/-- `SAR` (R439). -/
def execSar (f : LaneF) (s : State) : Host.Outcome State Fault Refusal :=
  s.run fun m => m.laneInt 0x010 f fun n _ a b _ => wrapN n (sextN n a / (2 ^ (b % n) : Nat))
/-- `ROT` (R439). -/
def execRot (f : LaneF) (s : State) : Host.Outcome State Fault Refusal :=
  s.run fun m => m.laneInt 0x011 f fun n _ a b _ => a * 2 ^ (b % n) % 2 ^ n + a / 2 ^ (n - b % n)

/-! ## Bit fields and counts (R440, R441) -/

/-- POS and WIDTH of a bit-field instruction. -/
def bfPos (f : LaneF) : Nat := f.imm.toNat % 32
def bfWidth (f : LaneF) : Nat := f.imm.toNat / 32 % 64

/-- `BFX` (R440). -/
def execBfx (f : LaneF) (s : State) : Host.Outcome State Fault Refusal :=
  s.run fun m => m.laneOp 0x012 f fun x =>
    let y := x.a / 2 ^ bfPos f % 2 ^ bfWidth f
    { v := if gBit f then wrapN 32 (sextN (bfWidth f) y) else y }
/-- `BFI` (R440). -/
def execBfi (f : LaneF) (s : State) : Host.Outcome State Fault Refusal :=
  s.run fun m => m.laneOp 0x013 f fun x =>
    let k := (2 ^ bfWidth f - 1) * 2 ^ bfPos f
    { v := (x.a &&& (2 ^ 32 - 1 - k)) ||| (x.b * 2 ^ bfPos f &&& k) }
/-- `POPC` (R441). -/
def execPopc (f : LaneF) (s : State) : Host.Outcome State Fault Refusal :=
  s.run fun m => m.laneOp 0x014 f fun x => { v := popcount 32 x.a }
/-- `CLZ` (R441). -/
def execClz (f : LaneF) (s : State) : Host.Outcome State Fault Refusal :=
  s.run fun m => m.laneOp 0x015 f fun x => { v := clzN 32 x.a }
/-- `BREV` (R441). -/
def execBrev (f : LaneF) (s : State) : Host.Outcome State Fault Refusal :=
  s.run fun m => m.laneOp 0x016 f fun x => { v := ofElems 1 32 fun i => elem 1 x.a (31 - i) }

/-! ## Comparison and selection (R442, R443) -/

/-- `ICMP` (R442). -/
def execIcmp (f : LaneF) (s : State) : Host.Outcome State Fault Refusal :=
  s.run fun m => m.predOp 0x017 f fun _ x =>
    intCond (f.vc.toNat % 8) (gBit f) (elemWidth f) (elem (elemWidth f) x.a 0) (elem (elemWidth f) x.b 0)

/-- A selection by predicate kC, lane by lane, with the tangents of the operand selected (R443, R472). -/
def Dev.selectOp (m : Dev) (opc : Nat) (f : LaneF) : Dev :=
  match m.laneStart opc f with
  | .error m => m
  | .ok (eff, m) =>
    let kc := m.k (f.vc.toNat % 8)
    m.laneFinish opc f (laneOuts f.vd.toNat (isPair opc f) ((Mask.lanes eff m.wave.wlanes).map fun l =>
      let x := m.laneIn opc f l
      (l, if Mask.has kc l then { v := x.a, t := x.t.map fun (y : Nat × Nat × Nat) => y.1 }
          else { v := x.b, t := x.t.map fun (y : Nat × Nat × Nat) => y.2.1 })))

/-- `ISEL` (R443). -/
def execIsel (f : LaneF) (s : State) : Host.Outcome State Fault Refusal := s.run fun m => m.selectOp 0x018 f

/-! ## Predicates (R457-R459) -/

/-- `KAND` (R457). -/
def execKand (f : LaneF) (s : State) : Host.Outcome State Fault Refusal :=
  s.run fun m => m.predOp 0x100 f fun l _ => Mask.has (m.k (f.va.toNat % 8) &&& m.k (f.vb.toNat % 8)) l
/-- `KOR` (R457). -/
def execKor (f : LaneF) (s : State) : Host.Outcome State Fault Refusal :=
  s.run fun m => m.predOp 0x101 f fun l _ => Mask.has (m.k (f.va.toNat % 8) ||| m.k (f.vb.toNat % 8)) l
/-- `KXOR` (R457). -/
def execKxor (f : LaneF) (s : State) : Host.Outcome State Fault Refusal :=
  s.run fun m => m.predOp 0x102 f fun l _ => Mask.has (m.k (f.va.toNat % 8) ^^^ m.k (f.vb.toNat % 8)) l
/-- `KNOT` (R457). -/
def execKnot (f : LaneF) (s : State) : Host.Outcome State Fault Refusal :=
  s.run fun m => m.predOp 0x103 f fun l _ => !Mask.has (m.k (f.va.toNat % 8)) l

/-- The lanes of a mask word. -/
def wordMask (w : Nat) : Mask := BitVec.ofNat 1024 ((2 ^ 32 - 1) * 2 ^ (32 * w))

/-- `KMOV` (R458). -/
def execKmov (f : LaneF) (s : State) : Host.Outcome State Fault Refusal :=
  s.run fun m => match m.laneStart 0x104 f with
    | .error m => m
    | .ok (eff, m) =>
      let v := (m.s (f.vb.extractLsb' 0 6)).toNat
      (m.putPred (f.vd.toNat % 8) (eff &&& wordMask f.imm.toNat) fun l => v.testBit (l % 32)).laneFinish 0x104 f []

/-- `KGET` (R459). -/
def execKget (f : LaneF) (s : State) : Host.Outcome State Fault Refusal :=
  s.run fun m => match m.laneStart 0x105 f with
    | .error m => m
    | .ok (eff, m) =>
      let v := (m.k (f.va.toNat % 8) &&& eff).toNat / 2 ^ (32 * f.imm.toNat) % 2 ^ 32
      (m.laneScalar f (BitVec.ofNat 64 v)).laneFinish 0x105 f []

end Sys2Proof.Machine
end

