-- ==== Sys2Proof/Machine/LaneFloat.lean ====
section
/-!
DEFINITION. Machine/LaneFloat.lean: lane floating-point instructions with their tangents
(22 R444-R449; 17 R353, R354; 14 R299-R301).
-/
namespace Sys2Proof.Machine

/-- The format of a Float-class TY, and the width of its elements (R299). -/
def floatTy (f : LaneF) : FFmt := if f.ty = 1 then f16 else if f.ty = 2 then b16 else f32
def floatWidth (f : LaneF) : Nat := if f.ty = 0 then 32 else 16

/-! ## Tangent steps (R353): F32 encodings, each step rounded to nearest even -/

def tAdd (a b : Nat) : Nat := fAdd f32 0 a b
def tSub (a b : Nat) : Nat := fSub f32 0 a b
def tMul (a b : Nat) : Nat := fMul f32 0 a b
def tDiv (a b : Nat) : Nat := f32Div 0 (f32.decode a) (f32.decode b)
def tNeg (a : Nat) : Nat := fNeg f32 a
/-- A step that selects a tangent: r of it, so that a NaN is the canonical one (R292, R300, R353). -/
def tKeep (a : Nat) : Nat := f32.round 0 (f32.decode a)
/-- 0.5 and LN2 (R354). -/
def tHalf : Nat := 0x3F000000
def tLn2 : Nat := 0x3F317218

/-- An element of a type widened to F32, and a tangent rounded back (R353). F32 encodings stay as they are. -/
def widen (f : LaneF) (x : Nat) : Nat := if f.ty = 0 then x else f32.round 0 ((floatTy f).decode x)
def unwiden (f : LaneF) (x : Nat) : Nat := if f.ty = 0 then x else (floatTy f).round 0 (f32.decode x)

/-- What a tangent is computed from: a, b, c, their tangents and the rounded primal result, in F32. -/
structure TanIn where
  a : Nat
  b : Nat
  c : Nat
  ta : Nat
  tb : Nat
  tc : Nat
  y : Nat
deriving DecidableEq, Repr

/-- Does SAT change the value of a result (R353)? -/
def satChanges (f : FFmt) (y : Nat) : Bool := !(f.decode y).eqv (f.decode (satFloat f y))

/-- A Float-class instruction: `g` computes an element, `t` its tangent (R353, R354, R444). -/
def Dev.laneFloat (m : Dev) (opc : Nat) (f : LaneF) (g : FFmt → Nat → Nat → Nat → Nat → Nat) (t : TanIn → Nat) : Dev :=
  let ff := floatTy f
  let w := floatWidth f
  m.laneOp opc f fun x =>
    let y (i : Nat) : Nat := g ff (rmCode f) (elem w x.a i) (elem w x.b i) (elem w x.c i)
    { v := ofElems w (32 / w) fun i => if satBit f then satFloat ff (y i) else y i,
      t := x.t.map fun (z : Nat × Nat × Nat) => ofElems w (32 / w) fun i =>
        if satBit f && satChanges ff (y i) then 0
        else unwiden f (t { a := widen f (elem w x.a i), b := widen f (elem w x.b i), c := widen f (elem w x.c i),
                            ta := widen f (elem w z.1 i), tb := widen f (elem w z.2.1 i),
                            tc := widen f (elem w z.2.2 i), y := widen f (y i) }) }

/-- The tangent of the operand that `FMIN` or `FMAX` returns (R354). -/
def tanMinMax (max : Bool) (x : TanIn) : Nat :=
  match pickMinMax max (f32.decode x.a) (f32.decode x.b) with
  | 0 => tKeep x.ta
  | 1 => tKeep x.tb
  | _ => canonicalNan 0

/-- The tangent of a magnitude (R354 `FABS`). -/
def tanAbs (a ta : Nat) : Nat := if a.testBit 31 then tNeg ta else tKeep ta

/-- `FADD` (R445). -/
def execFadd (f : LaneF) (s : State) : Host.Outcome State Fault Refusal :=
  s.run fun m => m.laneFloat 0x040 f (fun ff rm a b _ => fAdd ff rm a b) fun x => tAdd x.ta x.tb
/-- `FSUB` (R445). -/
def execFsub (f : LaneF) (s : State) : Host.Outcome State Fault Refusal :=
  s.run fun m => m.laneFloat 0x041 f (fun ff rm a b _ => fSub ff rm a b) fun x => tSub x.ta x.tb
/-- `FMUL` (R445). -/
def execFmul (f : LaneF) (s : State) : Host.Outcome State Fault Refusal :=
  s.run fun m => m.laneFloat 0x042 f (fun ff rm a b _ => fMul ff rm a b)
    fun x => tAdd (tMul x.a x.tb) (tMul x.b x.ta)
/-- `FFMA` (R445). -/
def execFfma (f : LaneF) (s : State) : Host.Outcome State Fault Refusal :=
  s.run fun m => m.laneFloat 0x043 f (fun ff rm a b c => fFma ff rm a b c)
    fun x => tAdd (tAdd (tMul x.a x.tb) (tMul x.b x.ta)) x.tc
/-- `FMIN` (R446). -/
def execFmin (f : LaneF) (s : State) : Host.Outcome State Fault Refusal :=
  s.run fun m => m.laneFloat 0x044 f (fun ff _ a b _ => fMinMax ff false a b) (tanMinMax false)
/-- `FMAX` (R446). -/
def execFmax (f : LaneF) (s : State) : Host.Outcome State Fault Refusal :=
  s.run fun m => m.laneFloat 0x045 f (fun ff _ a b _ => fMinMax ff true a b) (tanMinMax true)
/-- `FMAXM` (R446). -/
def execFmaxm (f : LaneF) (s : State) : Host.Outcome State Fault Refusal :=
  s.run fun m => m.laneFloat 0x046 f (fun ff _ a b _ => fMaxM ff a b) fun x =>
    match pickMinMax true (f32.decode x.a).abs (f32.decode x.b).abs with
    | 0 => tanAbs x.a x.ta
    | 1 => tanAbs x.b x.tb
    | _ => canonicalNan 0
/-- `FABS` (R446). -/
def execFabs (f : LaneF) (s : State) : Host.Outcome State Fault Refusal :=
  s.run fun m => m.laneFloat 0x047 f (fun ff _ a _ _ => fAbs ff a) fun x => tanAbs x.a x.ta
/-- `FNEG` (R446). -/
def execFneg (f : LaneF) (s : State) : Host.Outcome State Fault Refusal :=
  s.run fun m => m.laneFloat 0x048 f (fun ff _ a _ _ => fNeg ff a) fun x => tNeg x.ta

/-- `FCMP` (R447). -/
def execFcmp (f : LaneF) (s : State) : Host.Outcome State Fault Refusal :=
  s.run fun m => m.predOp 0x049 f fun _ x =>
    let w := floatWidth f
    fCond (f.vc.toNat % 8) ((floatTy f).decode (elem w x.a 0)) ((floatTy f).decode (elem w x.b 0))

/-- A function of one F32 value. -/
def Dev.laneFunction (m : Dev) (opc : Nat) (f : LaneF) (g : Nat → Num → Nat) (t : TanIn → Nat) : Dev :=
  m.laneFloat opc f (fun ff rm a _ _ => g rm (ff.decode a)) t

/-- One. -/
def numOne : Num := .fin false 1 0

/-- `FRCP` (R448). -/
def execFrcp (f : LaneF) (s : State) : Host.Outcome State Fault Refusal :=
  s.run fun m => m.laneFunction 0x04A f (fun rm a => f32Div rm numOne a) fun x => tNeg (tMul (tMul x.y x.y) x.ta)
/-- `FRSQ` (R448). -/
def execFrsq (f : LaneF) (s : State) : Host.Outcome State Fault Refusal :=
  s.run fun m => m.laneFunction 0x04B f f32Rsqrt fun x => tNeg (tMul (tMul (tMul x.y x.y) (tMul tHalf x.y)) x.ta)
/-- `FSQRT` (R448). -/
def execFsqrt (f : LaneF) (s : State) : Host.Outcome State Fault Refusal :=
  s.run fun m => m.laneFunction 0x04C f f32Sqrt fun x => tDiv (tMul tHalf x.ta) x.y
/-- `FDIV` (R448). -/
def execFdiv (f : LaneF) (s : State) : Host.Outcome State Fault Refusal :=
  s.run fun m => m.laneFloat 0x04D f (fun ff rm a b _ => f32Div rm (ff.decode a) (ff.decode b))
    fun x => tDiv (tSub x.ta (tMul x.y x.tb)) x.b
/-- `FEXP2` (R448). -/
def execFexp2 (f : LaneF) (s : State) : Host.Outcome State Fault Refusal :=
  s.run fun m => m.laneFunction 0x04E f f32Exp2 fun x => tMul (tMul x.y tLn2) x.ta
/-- `FLOG2` (R448). -/
def execFlog2 (f : LaneF) (s : State) : Host.Outcome State Fault Refusal :=
  s.run fun m => m.laneFunction 0x04F f f32Log2 fun x => tDiv x.ta (tMul x.a tLn2)
/-- `FSIN` (R448). -/
def execFsin (f : LaneF) (s : State) : Host.Outcome State Fault Refusal :=
  s.run fun m => m.laneFunction 0x050 f (f32SinCos false) fun x => tMul (f32SinCos true 0 (f32.decode x.a)) x.ta
/-- `FCOS` (R448). -/
def execFcos (f : LaneF) (s : State) : Host.Outcome State Fault Refusal :=
  s.run fun m => m.laneFunction 0x051 f (f32SinCos true) fun x => tNeg (tMul (f32SinCos false 0 (f32.decode x.a)) x.ta)

/-- `FCLASS` (R449). -/
def execFclass (f : LaneF) (s : State) : Host.Outcome State Fault Refusal :=
  s.run fun m => m.laneOp 0x052 f fun x =>
    { v := ofElems (floatWidth f) (32 / floatWidth f) fun i => fClass (floatTy f) (elem (floatWidth f) x.a i) }

end Sys2Proof.Machine
end

