-- ==== Sys2Proof/Machine/LaneMove.lean ====
section
/-!
DEFINITION. Machine/LaneMove.lean: copies, shuffles, votes, reductions, placement registers and home slices
(23 R471-R479; 17 R354; 07 R150).
-/
namespace Sys2Proof.Machine

/-! ## Copy and select (R472) -/

/-- The tangents of A. -/
def LaneIn.ta (x : LaneIn) : List Nat := x.t.map fun (y : Nat × Nat × Nat) => y.1

/-- `MOV` (R472); the tangent moves with the value of a lane register. -/
def execMov (f : LaneF) (s : State) : Host.Outcome State Fault Refusal :=
  s.run fun m => m.laneOp 0x0A0 f fun x => if sBit f then { v := x.b } else { v := x.a, t := x.ta }
/-- `MOVI` (R472). -/
def execMovi (f : LaneF) (s : State) : Host.Outcome State Fault Refusal :=
  s.run fun m => m.laneOp 0x0A1 f fun _ => { v := f.imm.toNat }
/-- `SEL` of lanes (R472). -/
def execLaneSel (f : LaneF) (s : State) : Host.Outcome State Fault Refusal := s.run fun m => m.selectOp 0x0A2 f

/-! ## Shuffle and broadcast (R473, R474) -/

/-- The source lane of `SHFL` for lane `l` with B operand `b`. -/
def shflLane (mode g wlanes l b : Nat) : Nat :=
  let n := 2 ^ g
  let sb := l - l % n
  let j : Int :=
    match mode with
    | 0 => sb + (b % n : Nat)
    | 1 => (l : Int) - b
    | 2 => (l : Int) + b
    | _ => (l ^^^ (b % n) : Nat)
  if sb ≤ j ∧ j < (sb + n : Nat) ∧ j < wlanes then j.toNat else l

/-- Copy to each lane of `eff` the A word, with its tangents, of another lane. -/
def Dev.gatherLanes (m : Dev) (opc : Nat) (f : LaneF) (src : Nat → Nat) : Dev :=
  let eff := m.effOf f.kp.toNat f.kn.toNat
  let from_ := Mask.ofLanes ((Mask.lanes eff m.wave.wlanes).map src)
  match m.laneStart opc f (some from_) with
  | .error m => m
  | .ok (eff, m) =>
    m.laneFinish opc f (laneOuts f.vd.toNat false ((Mask.lanes eff m.wave.wlanes).map fun l =>
      (l, { v := m.vread f.va.toNat false 0 (src l),
            t := (List.range m.tangents).map fun j => m.vread f.va.toNat false (j + 1) (src l) })))

/-- `SHFL` (R473). -/
def execShfl (f : LaneF) (s : State) : Host.Outcome State Fault Refusal :=
  s.run fun m => m.gatherLanes 0x0A3 f fun l => shflLane (sub f) (f.imm.toNat % 16) m.wave.wlanes l (m.opB 0x0A3 f l)

def Dev.bcast (m : Dev) (f : LaneF) : Dev :=
  if f.imm.toNat ≥ m.wave.wlanes then m.trapLaneWord (m.effOf f.kp.toNat f.kn.toNat)
  else m.gatherLanes 0x0A4 f fun _ => f.imm.toNat

/-- `BCAST` (R474). -/
def execBcast (f : LaneF) (s : State) : Host.Outcome State Fault Refusal := s.run fun m => m.bcast f

/-! ## Vote (R475) -/

def Dev.vote (m : Dev) (f : LaneF) : Dev :=
  match m.laneStart 0x0A5 f with
  | .error m => m
  | .ok (eff, m) =>
    let ka := m.k (f.va.toNat % 8)
    let v := voteOf (sub f) ((Mask.lanes eff m.wave.wlanes).map fun l => Mask.has ka l)
    (m.putPred (f.vd.toNat % 8) eff fun _ => v).laneFinish 0x0A5 f []

/-- `VOTE` (R475). -/
def execVote (f : LaneF) (s : State) : Host.Outcome State Fault Refusal := s.run fun m => m.vote f

/-! ## Reduction and prefix (R476, R477) -/

/-- OP, INT and X of the SUB field; the width of an element. -/
def redCode (f : LaneF) : Nat := sub f / 16
def redIsInt (f : LaneF) : Bool := f.mode.getLsbD 3
def redExclusive (f : LaneF) : Bool := f.mode.getLsbD 2
def redWidth (f : LaneF) : Nat := if redIsInt f then elemWidth f else floatWidth f
def redBits (f : LaneF) : Nat := if pBit f then 64 else 32

/-- The function f of R477 on one element. -/
def redElem (f : LaneF) (a b : Nat) : Nat :=
  let n := redWidth f
  let ff := floatTy f
  match redCode f, redIsInt f with
  | 0, true => (a + b) % 2 ^ n
  | 0, false => fAdd ff 0 a b
  | 1, true => if ordValue (gBit f) n b < ordValue (gBit f) n a then b else a
  | 1, false => fMinMax ff false a b
  | 2, true => if ordValue (gBit f) n a < ordValue (gBit f) n b then b else a
  | 2, false => fMinMax ff true a b
  | 3, _ => a &&& b
  | 4, _ => a ||| b
  | _, _ => a ^^^ b

/-- The tangent of a step, in F32 (R353, R354): of accumulator `a` with `ta` and element `b` with `tb`. -/
def redTan (f : LaneF) (a ta b tb : Nat) : Nat :=
  if redIsInt f then 0
  else match redCode f with
  | 0 => tAdd ta tb
  | c => tanMinMax (c = 2) { a := widen f a, b := widen f b, c := 0, ta, tb, tc := 0, y := 0 }

/-- The identity of R477. -/
def redIdentity (f : LaneF) : Nat :=
  let n := redWidth f
  match redCode f, redIsInt f with
  | 1, true => if gBit f then 2 ^ (n - 1) - 1 else 2 ^ n - 1
  | 1, false => (floatTy f).infBits false
  | 2, true => if gBit f then 2 ^ (n - 1) else 0
  | 2, false => (floatTy f).infBits true
  | 3, _ => 2 ^ n - 1
  | _, _ => 0

/-- The elements of a lane while they are accumulated: values, and per tangent the F32 encodings. -/
structure RedAcc where
  v : List Nat
  t : List (List Nat)
deriving DecidableEq, Repr

/-- The elements of a lane. -/
def redIn (f : LaneF) (v : Nat) (t : List Nat) : RedAcc :=
  let is := List.range (redBits f / redWidth f)
  { v := is.map fun i => elem (redWidth f) v i,
    t := t.map fun x => if redIsInt f then is.map fun _ => 0 else is.map fun i => widen f (elem (redWidth f) x i) }

/-- One step of the accumulation. -/
def redStep (f : LaneF) (a x : RedAcc) : RedAcc :=
  { v := (a.v.zip x.v).map fun (p : Nat × Nat) => redElem f p.1 p.2,
    t := (a.t.zip x.t).map fun (p : List Nat × List Nat) =>
      ((a.v.zip p.1).zip (x.v.zip p.2)).map fun (q : (Nat × Nat) × (Nat × Nat)) => redTan f q.1.1 q.1.2 q.2.1 q.2.2 }

/-- The accumulator after each lane. -/
def redRuns (f : LaneF) : Option RedAcc → List RedAcc → List RedAcc
  | _, [] => []
  | none, x :: t => x :: redRuns f (some x) t
  | some a, x :: t => redStep f a x :: redRuns f (some (redStep f a x)) t

/-- The lane value of an accumulator. -/
def redOut (f : LaneF) (a : RedAcc) : LaneRes :=
  let n := redBits f / redWidth f
  { v := ofElems (redWidth f) n fun i => a.v.getD i 0,
    t := a.t.map fun t => if redIsInt f then 0 else ofElems (redWidth f) n fun i => unwiden f (t.getD i 0) }

/-- The accumulators after each lane of `eff`, ascending. -/
def Dev.redLanes (m : Dev) (f : LaneF) (eff : Mask) : List RedAcc :=
  redRuns f none ((Mask.lanes eff m.wave.wlanes).map fun l =>
    redIn f (m.vread f.va.toNat (pBit f) 0 l)
      ((List.range m.tangents).map fun j => m.vread f.va.toNat (pBit f) (j + 1) l))

/-- The doubleword that `REDUCE` writes: sign-extended for I32 (R477). -/
def redScalar (f : LaneF) (v : Nat) : DWord :=
  if redIsInt f && f.ty = 0 && gBit f && !pBit f then (BitVec.ofNat 32 v).signExtend 64 else BitVec.ofNat 64 v

def Dev.reduce (m : Dev) (f : LaneF) : Dev :=
  match m.laneStart 0x0A6 f with
  | .error m => m
  | .ok (eff, m) =>
    match (m.redLanes f eff).getLast? with
    | none => m
    | some a => (m.laneScalar f (redScalar f (redOut f a).v)).laneFinish 0x0A6 f []

/-- `REDUCE` (R477). -/
def execReduce (f : LaneF) (s : State) : Host.Outcome State Fault Refusal := s.run fun m => m.reduce f

def Dev.reduceV (m : Dev) (f : LaneF) : Dev :=
  match m.laneStart 0x0A7 f with
  | .error m => m
  | .ok (eff, m) =>
    match (m.redLanes f eff).getLast? with
    | none => m
    | some a =>
      m.laneFinish 0x0A7 f (laneOuts f.vd.toNat (pBit f) ((Mask.lanes eff m.wave.wlanes).map fun l => (l, redOut f a)))

/-- `REDUCE.V` (R477). -/
def execReduceV (f : LaneF) (s : State) : Host.Outcome State Fault Refusal := s.run fun m => m.reduceV f

def Dev.scan (m : Dev) (f : LaneF) : Dev :=
  match m.laneStart 0x0A8 f with
  | .error m => m
  | .ok (eff, m) =>
    let runs := (m.redLanes f eff).map (redOut f)
    let first : LaneRes :=
      { v := ofElems (redWidth f) (redBits f / redWidth f) fun _ => redIdentity f }
    let rs := if redExclusive f then first :: runs.dropLast else runs
    m.laneFinish 0x0A8 f (laneOuts f.vd.toNat (pBit f) ((Mask.lanes eff m.wave.wlanes).zip rs))

/-- `SCAN` (R477). -/
def execScan (f : LaneF) (s : State) : Host.Outcome State Fault Refusal := s.run fun m => m.scan f

/-! ## Placement registers (R150, R478) -/

/-- The value of a selector that is the same in every lane. -/
def Wave.specValue (w : Wave) (sel : Nat) : Nat :=
  match sel with
  | 0 => w.die
  | 1 => w.dieidx
  | 2 => w.cluster
  | 3 => w.core
  | 4 => w.waveid
  | 6 => 2 * w.die
  | 7 => 2 * w.die + 1
  | 8 | 9 | 10 | 11 => (w.trec.getD (sel - 8) 0).toNat
  | 14 => w.wlanes
  | _ => 0

def Dev.laneSpec (m : Dev) (f : LaneF) : Dev :=
  let sel := f.imm.toNat
  let eff := m.effOf f.kp.toNat f.kn.toNat
  if !m.wave.control && eff ≠ 0 && (sel = 12 || sel = 13) && !m.wave.super then
    m.trap { cause := .protection, kf := some eff }
  else
    match m.laneStart 0x0A9 f with
    | .error m => m
    | .ok (eff, m) =>
      m.laneFinish 0x0A9 f (laneOuts f.vd.toNat false ((Mask.lanes eff m.wave.wlanes).map fun l =>
        (l, { v := match sel with
                   | 5 => l
                   | 12 => (m.wave.trap.lfaddr.get l).toNat % 2 ^ 32
                   | 13 => (m.wave.trap.lfaddr.get l).toNat / 2 ^ 32
                   | _ => m.wave.specValue sel })))

/-- `SPEC` of lanes (R478). -/
def execLaneSpec (f : LaneF) (s : State) : Host.Outcome State Fault Refusal := s.run fun m => m.laneSpec f

/-! ## Home slices (R479) -/

/-- The word of `SLC` for a leaf and a physical address. -/
def slcWord (pte : Nat) (pa : Nat) : Nat :=
  if bit pte 5 then 2 ^ 31 else let s := homeSlice (fld pte 9 6) pa; s / 2 * 16 + s

/-- `SLC` of one lane: the fast path of R232, or a walk. -/
def Dev.slcLane (m : Dev) (x : XReg) (off : Int) : Nat × Dev :=
  let a := wrapN 64 (x.base.toNat + off)
  if 0 ≤ off && off + 1 ≤ x.limit.toNat then
    (if windowOf x.base.toNat = some .global then slcWord x.attr.toNat (x.frame.toNat + off.toNat) else 2 ^ 31, m)
  else if windowOf a = some .global && windowOff a < 2 ^ 49 then
    let (r, m) := m.coreWalk m.wave.coreNo m.wave.ctx (windowOff a)
    match r with
    | .leaf pte size => (slcWord pte (fld pte 51 12 * 4096 + windowOff a % size), m)
    | _ => (2 ^ 31, m)
  else (2 ^ 31, m)

/-- The offset of a lane address: zext(vA) + sext(IMM) (R232, R388). -/
def Dev.laneOff (m : Dev) (f : LaneF) (l : Nat) : Int :=
  ((m.wave.vget f.va.toNat 0 l).toNat : Int) + f.imm.toInt

def Dev.slc (m : Dev) (f : LaneF) : Dev :=
  match m.laneStart 0x0AA f with
  | .error m => m
  | .ok (eff, m) =>
    let x := m.wave.xregs.getD f.xs.toNat {}
    let (rs, m) := (Mask.lanes eff m.wave.wlanes).foldl (fun (p : List (Nat × LaneRes) × Dev) l =>
      let (v, m) := p.2.slcLane x (p.2.laneOff f l)
      (p.1 ++ [(l, { v })], m)) ([], m)
    m.laneFinish 0x0AA f (laneOuts f.vd.toNat false rs)

/-- `SLC` (R479). -/
def execSlc (f : LaneF) (s : State) : Host.Outcome State Fault Refusal := s.run fun m => m.slc f

end Sys2Proof.Machine
end

