-- ==== Sys2Proof/Machine/Blocks.lean ====
section
/-!
DEFINITION. Machine/Blocks.lean: register blocks: spilling, filling, waiting for a grant and the deadlock rule
(08 R183-R190), and the events that grant or fail a wait.
-/
namespace Sys2Proof.Machine

/-! ## Spill areas (R185-R187) -/

/-- SHIFT and VA of `SPILLBASE`; the address of a wave's area (R186). -/
def Wave.spillShift (w : Wave) : Nat := fld w.spillbase.toNat 63 56
def Wave.spillArea (w : Wave) : Nat := fld w.spillbase.toNat 48 0 + w.waveid * 2 ^ w.spillShift

/-- `FMTLO` and `FMTHI` (R307). -/
def FmtReg.lo (x : FmtReg) : DWord := x.oscale ++ x.ascale ++ x.bscale ++ x.afmt ++ x.bfmt ++ x.cfmt ++ x.dfmt
def FmtReg.hi (x : FmtReg) : DWord := 0#48 ++ x.accrange ++ 0#4 ++ x.rows ++ x.ovfmode

/-- A mask that may be absent, as its number of lanes plus one. -/
def arrivedCode (k : Option Mask) : Nat := match k with | some k => popcount 1024 k.toNat + 1 | none => 0

/-- The 64 bytes of a split in the spill area and in a save record (R166, R367), in the model's order (log 8). -/
def Split.entry (x : Split) : List Byte :=
  leBytes 8 (2 ^ 63 + b2n x.serial * 2 ^ 62 + x.rejoin) ++ leBytes 8 x.fmt.lo.toNat ++ leBytes 8 x.fmt.hi.toNat ++
  leBytes 8 x.id ++ leBytes 8 (arrivedCode x.takenIn) ++ leBytes 8 (arrivedCode x.fallIn) ++
  (match x.fallAt with
   | some (spc, fell, lpc, lfell, _) => leBytes 8 (2 ^ 63 + b2n fell * 2 ^ 62 + spc) ++ leBytes 8 (b2n lfell * 2 ^ 62 + lpc)
   | none => leBytes 16 0)

/-- The words of one lane register of a window with its shadows, shadow by shadow, each lane from 0 up. -/
def Win.regBytes (x : Win) (tang lanes r : Nat) : List Byte :=
  (List.range (tang + 1)).flatMap fun t => (List.range lanes).flatMap fun l => leBytes 4 (x.cells.get (cellKey r t l)).toNat

/-- The values of a window of a wave, register by register (R187), in the model's order (log 8). -/
def Wave.winBytes (w : Wave) (x : Win) : List Byte :=
  (List.range (8 * x.units)).flatMap fun r => x.regBytes w.tang w.wlanes r

/-- Bytes of a spilt window of `u` units (R187). -/
def Wave.spillBytes (w : Wave) (u : Nat) : Nat := u * 8 * w.wlanes * 4 * (w.tang + 1)

/-- Where the next spilt window of a wave goes in its area (R186). -/
def Wave.spillTop (w : Wave) : Nat :=
  1024 + ((w.stack.filter fun x => x.spilt.isSome).map fun (x : Win) => w.spillBytes x.units).sum

/-- Can a window of `u` units of a wave be spilt (R185)? The places of its bytes. -/
def Dev.spillPlace (m : Dev) (w : Wave) (u : Nat) : Option (List Span) :=
  if w.spillShift = 0 || w.spillTop + w.spillBytes u > 2 ^ w.spillShift then none
  else match m.engineSpans w.ctx (w.spillArea + w.spillTop) (w.spillBytes u) false true with
    | .ok ss => some ss
    | .error _ => none

/-- Call windows of a core that the spill engine may take: (age, wave, place in the stack). -/
def Dev.spillable (m : Dev) (k : Nat) : List (Nat × Nat × Nat) :=
  (m.allWaves.filter fun w => w.coreNo = k && !w.control).flatMap fun (w : Wave) =>
    ((List.range w.stack.length).zip w.stack).filterMap fun (x : Nat × Win) =>
      if x.1 ≥ 1 && x.2.spilt.isNone && x.2.units > 0 && (m.spillPlace w x.2.units).isSome
      then some (x.2.born, w.uid, x.1) else none

/-- The oldest of them. -/
def oldestWindow : List (Nat × Nat × Nat) → Option (Nat × Nat × Nat)
  | [] => none
  | x :: t =>
    match oldestWindow t with
    | some y => some (if y.1 < x.1 then y else x)
    | none => some x

/-- Spill window `i` of a wave: its blocks are free, its values are in the area, and return with the fill. -/
def Dev.spillWindow (m : Dev) (uid i : Nat) : Dev :=
  match m.waveOf uid with
  | none => m
  | some w =>
    let x := w.stack.getD i {}
    match m.spillPlace w x.units with
    | none => m
    | some ss =>
      (m.writeSpans ss ((w.winBytes x).map fun b => (b, false))).modWave uid fun w => { w with stack := setAt {} w.stack i { x with spilt := some w.spillTop } }

/-- Spill windows of core `k`, oldest first, until `n` blocks are free or none is left. -/
def Dev.spillFor (m : Dev) (k n : Nat) : Nat → Dev
  | 0 => m
  | fuel + 1 =>
    if m.freeBlocks k ≥ n then m else
    match oldestWindow (m.spillable k) with
    | none => m
    | some x => (m.spillWindow x.2.1 x.2.2).spillFor k n fuel

/-- At most this many windows can be spilt on a core at once. -/
def spillFuel : Nat := 512

/-! ## Waiting for blocks (R189, R190) -/

/-- The loaded fragment joins the queue of its core for blocks. -/
def Dev.queueBlocks (m : Dev) (w : Wait) : Dev :=
  let k := m.wave.coreNo
  let c := m.core k
  ((m.setCore k { c with queue := c.queue ++ [(m.wave.uid, m.frag.fid)] }).waitFor w 19).push (.blockGrant k)

/-- Ask for `n` blocks for the loaded fragment: the machine goes on when they are granted, or waits. -/
def Dev.wantBlocks (m : Dev) (n : Nat) (point : Bool) : Except Dev Dev :=
  if n ≤ grantedTo m.frag then .ok m else
  let k := m.wave.coreNo
  if (m.core k).queue ≠ [] then .error (m.queueBlocks (.blocks n point)) else
  let m := m.spillFor k n spillFuel
  if m.freeBlocks k ≥ n then .ok m else .error (m.queueBlocks (.blocks n point))

/-- The loaded wave has given blocks back: the next request may be granted. -/
def Dev.blocksFreed (m : Dev) : Dev := (m.askBlocks m.wave.coreNo).pushPlace

/-- The instruction of the loaded fragment ends without the blocks that were granted to it, if any: they are free (R189). -/
def Dev.giveBack (m : Dev) : Dev := if grantedTo m.frag = 0 then m else m.blocksFreed

/-- The fragment that waits at the head of the queue of core `k`, with its need. -/
def Dev.firstWait (m : Dev) (x : Nat × Nat) : Option Nat :=
  match m.waveOf x.1 with
  | none => none
  | some w =>
    match w.frags.find? fun f => f.fid = x.2 with
    | some f => if wantsBlocks f then (match f.wait with | .blocks n _ | .fill n => some n | _ => none) else none
    | none => none

/-- A fragment no longer waits for blocks: it leaves the queue of its core. -/
def Dev.unqueue (m : Dev) (k : Nat) (x : Nat × Nat) : Dev :=
  let c := m.core k
  m.setCore k { c with queue := c.queue.erase x }

/-- The current window of a wave is filled, when it is spilt (R185): its blocks have been granted. -/
def Wave.fillCur (w : Wave) : Wave := w.setCur { w.cur with spilt := none }

/-- A granted request: the instruction takes its blocks when it issues again; the fill of a rollback is done. -/
def Dev.grant (m : Dev) (x : Nat × Nat) (n : Nat) : Dev :=
  if ((m.waveOf x.1).bind fun w => w.frags.find? fun f => f.fid = x.2 && f.wait = .fill n).isSome then
    (m.modWave x.1 Wave.fillCur).modFrag x.1 x.2 fun f => { f with wait := .none, phase := 0 }
  else m.modFrag x.1 x.2 fun f => { f with phase := 20 }

/-- `BLOCK_GRANT` (R189): the first request of the queue is granted when its whole need is free. -/
def Dev.blockGrant (m : Dev) (k : Nat) : Dev :=
  match (m.core k).queue with
  | [] => m
  | x :: _ =>
    match m.firstWait x with
    | none => (m.unqueue k x).push (.blockGrant k)
    | some n =>
      let m := m.spillFor k n spillFuel
      if m.freeBlocks k ≥ n then
        let m := (m.grant x n).unqueue k x
        m.askBlocks k
      else m

/-- `BLOCK_GRANT` (R189). -/
def execBlockGrant (core : Nat) (s : State) : Host.Outcome State Fault Refusal :=
  s.run fun m => m.stash.blockGrant core

/-- The wave of the highest slot among those with a fragment that satisfies `p`: wave and fragment. -/
def highestSlot (p : Frag → Bool) (ws : List Wave) : Option (Nat × Nat) :=
  (ws.foldl (fun (b : Option (Nat × Nat × Nat)) (w : Wave) =>
    match w.frags.find? p with
    | none => b
    | some f => match b with
      | some y => if w.slot > y.1 then some (w.slot, w.uid, f.fid) else b
      | none => some (w.slot, w.uid, f.fid)) none).map fun y => y.2

/-- `CLAIM_DEADLOCK_BREAK` (R190): one wait of a deadlocked core fails: a `CLAIM` or `ROLESW` of the highest
slot, else the `CALL` or `RET` of the highest slot, and where nothing but fills of rollbacks waits, the one of the highest slot
(log 122). The next request may be granted then. -/
def Dev.breakDeadlock (m : Dev) (k : Nat) : Dev :=
  if !m.deadlocked k then m else
  let ws := m.allWaves.filter fun w => w.coreNo = k
  let atPt (f : Frag) : Bool := wantsBlocks f && (match f.wait with | .blocks _ p => p | _ => false)
  let call (f : Frag) : Bool := wantsBlocks f && (match f.wait with | .blocks _ _ => true | _ => false)
  match ((highestSlot atPt ws).or (highestSlot call ws)).or (highestSlot wantsBlocks ws) with
  | none => m
  | some x =>
    ((m.modFrag x.1 x.2 fun f => { f with phase := 21 }).unqueue k x).askBlocks k

/-- `CLAIM_DEADLOCK_BREAK` (R190). -/
def execClaimDeadlockBreak (core : Nat) (s : State) : Host.Outcome State Fault Refusal :=
  s.run fun m => m.stash.breakDeadlock core

/-- Is a wave that has issued nothing for a while not drowsy yet (R202)? The spec's 4,096 cycles are
counted in the cycle of its core at its last issue. -/
def Dev.drowse (m : Dev) (uid : Nat) : Dev := m.modWave uid fun w => { w with drowsy := true }

/-- `DROWSY_TIMEOUT` (R202): the blocks of an idle wave go drowsy. -/
def execDrowsyTimeout (wave : Nat) (s : State) : Host.Outcome State Fault Refusal :=
  s.run fun m => m.stash.drowse wave

end Sys2Proof.Machine
end

