-- ==== Sys2Proof/Machine/Scalar.lean ====
section
/-!
DEFINITION. Machine/Scalar.lean: scalar arithmetic, comparison, selection, memory, and the modes that scalar
words set (21 R411-R421, R430-R432; 17 R350; 14 R307-R309; 10 R231).
-/
namespace Sys2Proof.Machine

/-! ## Arithmetic (R412-R415) -/

/-- The result of an ALUOP on `n`-bit operands (R412); none for a division by zero (R413). -/
def saluOp (op n : Nat) (a b : BitVec n) : Option (BitVec n) :=
  let sh := b.toNat % n
  match op with
  | 0 => some (a + b)
  | 1 => some (a - b)
  | 2 => some (a &&& b)
  | 3 => some (a ||| b)
  | 4 => some (a ^^^ b)
  | 5 => some (a <<< sh)
  | 6 => some (a >>> sh)
  | 7 => some (a.sshiftRight sh)
  | 8 => some (a * b)
  | 9 => some (BitVec.ofNat n ((a.toNat * b.toNat) / 2 ^ n))
  | 10 => some (BitVec.ofInt n ((a.toInt * b.toInt) / 2 ^ n))
  | 11 => if b = 0 then none else some (a / b)
  | 12 => if b = 0 then none else some (a.sdiv b)
  | 13 => if b = 0 then none else some (a % b)
  | 14 => if b = 0 then none else some (a.srem b)
  | 15 => some (if a.slt b then a else b)
  | 16 => some (if a.slt b then b else a)
  | 17 => some (if a.ult b then a else b)
  | 18 => some (if a.ult b then b else a)
  | 19 => some (BitVec.ofNat n (clzN n a.toNat))
  | 20 => some (BitVec.ofNat n (popcount n a.toNat))
  | 21 => some (a &&& ~~~b)
  | _ => some (a.rotateLeft sh)

/-- The value that `SALU` writes: 64 bits, or 32 bits sign-extended when W is set (R412). -/
def saluValue (op : Nat) (w : BitVec 1) (a b : DWord) : Option DWord :=
  if w = 1 then (saluOp op 32 (a.setWidth 32) (b.setWidth 32)).map (·.signExtend 64) else saluOp op 64 a b

/-- A scalar instruction that writes one register and goes on. -/
def Dev.writeS (m : Dev) (d : BitVec 6) (v : DWord) : Dev := (m.setS d v).advance

def Dev.salu (m : Dev) (d a b : BitVec 6) (w : BitVec 1) (op : BitVec 6) : Dev :=
  match saluValue op.toNat w (m.s a) (m.s b) with
  | some v => m.writeS d v
  | none => m.trapWord .divideByZero

/-- `SALU` (R412, R413). -/
def execSalu (d a b : BitVec 6) (w : BitVec 1) (op : BitVec 6) (s : State) : Host.Outcome State Fault Refusal :=
  s.run fun m => m.salu d a b w op

/-- `ADDI` (R414). -/
def execAddi (d a : BitVec 6) (imm : BitVec 14) (s : State) : Host.Outcome State Fault Refusal :=
  s.run fun m => m.writeS d (m.s a + imm.signExtend 64)
/-- `ANDI` (R414). -/
def execAndi (d a : BitVec 6) (imm : BitVec 14) (s : State) : Host.Outcome State Fault Refusal :=
  s.run fun m => m.writeS d (m.s a &&& imm.signExtend 64)
/-- `ORI` (R414). -/
def execOri (d a : BitVec 6) (imm : BitVec 14) (s : State) : Host.Outcome State Fault Refusal :=
  s.run fun m => m.writeS d (m.s a ||| imm.signExtend 64)
/-- `XORI` (R414). -/
def execXori (d a : BitVec 6) (imm : BitVec 14) (s : State) : Host.Outcome State Fault Refusal :=
  s.run fun m => m.writeS d (m.s a ^^^ imm.signExtend 64)
/-- `SHLI` (R414). -/
def execShli (d a sh : BitVec 6) (s : State) : Host.Outcome State Fault Refusal :=
  s.run fun m => m.writeS d (m.s a <<< sh.toNat)
/-- `SHRI` (R414). -/
def execShri (d a sh : BitVec 6) (s : State) : Host.Outcome State Fault Refusal :=
  s.run fun m => m.writeS d (m.s a >>> sh.toNat)
/-- `SARI` (R414). -/
def execSari (d a sh : BitVec 6) (s : State) : Host.Outcome State Fault Refusal :=
  s.run fun m => m.writeS d ((m.s a).sshiftRight sh.toNat)
/-- `MOVH` (R415). -/
def execMovh (d : BitVec 6) (imm : BitVec 20) (s : State) : Host.Outcome State Fault Refusal :=
  s.run fun m => m.writeS d ((imm ++ 0#12).signExtend 64)

/-! ## Comparison and selection (R416, R417) -/

/-- `CMP` (R416). -/
def execCmp (c : BitVec 3) (a b : BitVec 6) (cond : BitVec 3) (s : State) : Host.Outcome State Fault Refusal :=
  s.run fun m => (m.setC c (scalarCond cond (m.s a) (m.s b))).advance
/-- `CMPI` (R416). -/
def execCmpi (cond c : BitVec 3) (a : BitVec 6) (imm : BitVec 14) (s : State) : Host.Outcome State Fault Refusal :=
  s.run fun m => (m.setC c (scalarCond cond (m.s a) (imm.signExtend 64))).advance
/-- `SEL` (R417). -/
def execSel (d a b : BitVec 6) (c : BitVec 3) (s : State) : Host.Outcome State Fault Refusal :=
  s.run fun m => m.writeS d (if m.c c then m.s a else m.s b)

/-! ## Memory (R418-R421, R463) -/

/-- The trap of a scalar access that fails its checks (R419). -/
def Dev.trapFail (m : Dev) (x : Fail) : Dev := m.trapAt x.cause x.addr

/-- The address of `SLD` and `SST` (R418). -/
def Dev.scalarEa (m : Dev) (a : BitVec 6) (sz : BitVec 2) (off : BitVec 12) : Nat :=
  (m.s a + (off.signExtend 64 <<< sz.toNat)).toNat

/-- The trap address of a scalar access: that of the access (R360, R419). -/
def Fail.at (x : Fail) (a : Nat) : Fail := { x with addr := a }

def Dev.sld (m : Dev) (d a : BitVec 6) (sz : BitVec 2) (off : BitVec 12) : Dev :=
  let addr := m.scalarEa a sz off
  match m.scalarAccess addr (2 ^ sz.toNat) .load with
  | (.error x, m) => m.trapFail (x.at addr)
  | (.ok acc, m) =>
    let (bs, m) := m.loadAt acc (2 ^ sz.toNat) true
    if bs.any (·.2) then m.trapAt .poison addr
    else m.writeS d (BitVec.ofNat 64 (ofBytes (bs.map (·.1))))

/-- `SLD` (R418, R419): a strong load at `.DEV`. -/
def execSld (d a : BitVec 6) (sz : BitVec 2) (off : BitVec 12) (s : State) : Host.Outcome State Fault Refusal :=
  s.run fun m => m.sld d a sz off

def Dev.sst (m : Dev) (d a : BitVec 6) (sz : BitVec 2) (off : BitVec 12) : Dev :=
  let addr := m.scalarEa a sz off
  match m.scalarAccess addr (2 ^ sz.toNat) .store with
  | (.error x, m) => m.trapFail (x.at addr)
  | (.ok acc, m) => (m.storeAt acc true 3 (leBytes (2 ^ sz.toNat) (m.s d).toNat)).advance

/-- `SST` (R418, R419): a strong store at `.DEV`. -/
def execSst (d a : BitVec 6) (sz : BitVec 2) (off : BitVec 12) (s : State) : Host.Outcome State Fault Refusal :=
  s.run fun m => m.sst d a sz off

/-- The new doubleword of a `SAMO`; none when `CAS` does not match (R420). -/
def samoOp (op : BitVec 3) (old b c : DWord) : Option DWord :=
  match op.toNat with
  | 0 => some (old + b)
  | 1 => some (old &&& b)
  | 2 => some (old ||| b)
  | 3 => some (old ^^^ b)
  | 4 => some (if old.slt b then old else b)
  | 5 => some (if old.slt b then b else old)
  | 6 => some b
  | _ => if old = c then some b else none

/-- The acquire of a load or atomic: the core's G lines are dropped (R249, R264). -/
def Dev.acquire (m : Dev) : Dev := m.dropG m.wave.coreNo

/-- On a page of host memory (SYS = 1) it is made at `.SYS` (R255). -/
def Dev.samo (m : Dev) (d a b : BitVec 6) (ar : BitVec 1) (scope op : BitVec 3) : Dev :=
  let addr := (m.s a).toNat
  match m.scalarAccess addr 8 .atomic with
  | (.error x, m) => m.trapFail (x.at addr)
  | (.ok acc, m) =>
    let sc := if (match acc.loc with | some (.host _) => true | _ => false) then 4 else scope.toNat
    if ar = 1 && sc = 4 && m.busyPeers m.wave.uid then m.waitFor .peers else
    let m := m.irrev
    let m := if ar = 1 then m.release m.wave.coreNo sc else m
    let ((old, bad), m) := m.atomicAt acc 8 sc fun x =>
      (samoOp op (BitVec.ofNat 64 x) (m.s b) (m.s d)).map (·.toNat)
    let m := if ar = 1 then m.acquire else m
    if bad then m.trapAt .poison addr else m.writeS d (BitVec.ofNat 64 old)

/-- `SAMO` (R420, R421). -/
def execSamo (d a b : BitVec 6) (ar : BitVec 1) (scope : BitVec 3) (op : BitVec 3) (s : State) :
    Host.Outcome State Fault Refusal :=
  s.run fun m => m.samo d a b ar scope op

/-! ## Modes and formats (R430-R432) -/

def Dev.dualPrefix (m : Dev) (k : BitVec 2) (n : BitVec 4) : Dev :=
  if k ≠ 0 && k.toNat ≠ m.wave.tang then m.trapWord .reservedField
  else if m.wave.control then m.advance
  else (m.onFrag fun f => { f with dualK := k, dualRem := n }).advance

/-- `DUAL` (R350, R430): on a control core it has no effect. -/
def execDual (k : BitVec 2) (n : BitVec 4) (s : State) : Host.Outcome State Fault Refusal :=
  s.run fun m => m.dualPrefix k n

/-- The ACCRANGE field of a D format code (R309). -/
def accRangeOf (d : Nat) : Nat :=
  match d with
  | 1 | 4 | 14 => 16
  | 3 => 9
  | 5 => 7
  | 6 | 10 => 8
  | 7 => 3
  | 8 | 9 => 4
  | 11 => 2
  | 12 => 0
  | 13 => 15
  | _ => 0xFF

/-- `FMT` with one field written, or none when the value traps (R431). -/
def fmtField (x : FmtReg) (field : Nat) (v : DWord) : Option FmtReg :=
  let small := v.ult 16
  match field with
  | 0 => if small then some { x with afmt := v.setWidth 4 } else none
  | 1 => if small then some { x with bfmt := v.setWidth 4 } else none
  | 2 => if small then some { x with cfmt := v.setWidth 4 } else none
  | 3 => if small then some { x with dfmt := v.setWidth 4, accrange := BitVec.ofNat 8 (accRangeOf v.toNat) } else none
  | 4 => if -128 ≤ v.toInt && v.toInt ≤ 127 then some { x with ascale := v.setWidth 8 } else none
  | 5 => if -128 ≤ v.toInt && v.toInt ≤ 127 then some { x with bscale := v.setWidth 8 } else none
  | 6 => some { x with oscale := v.setWidth 32 }
  | 7 => if v.ult 3 then some { x with ovfmode := v.setWidth 2 } else none
  | _ => if v ≠ 0 && v.ult 5 then some { x with rows := (v - 1).setWidth 2 } else none

def Dev.fmtWrite (m : Dev) (field : BitVec 4) (a : BitVec 6) (imm : BitVec 14) : Dev :=
  match fmtField m.frag.fmt field.toNat (m.s a + imm.signExtend 64) with
  | some x => (m.onFrag fun f => { f with fmt := x }).advance
  | none => m.trapWord .reservedField

/-- `FMT` (R431). -/
def execFmt (field : BitVec 4) (a : BitVec 6) (imm : BitVec 14) (s : State) : Host.Outcome State Fault Refusal :=
  s.run fun m => m.fmtWrite field a imm

def Dev.xlatWrite (m : Dev) (x : BitVec 3) (a : BitVec 6) : Dev :=
  let (r, m) := m.xlat (m.s a)
  (m.onWave fun w => { w with xregs := setAt {} w.xregs x.toNat r }).advance

/-- `XLAT` (R231, R432). -/
def execXlat (x : BitVec 3) (a : BitVec 6) (s : State) : Host.Outcome State Fault Refusal :=
  s.run fun m => m.xlatWrite x a

end Sys2Proof.Machine
end

