-- ==== Sys2Proof/Machine/Control.lean ====
section
/-!
DEFINITION. Machine/Control.lean: branches, calls, jumps, the lane stream (21 R422-R426, R428, R429), splits and
their rejoin (07 R165-R168; 24 R482, R483), window resizing (08 R188; 24 R487) and regions (08 R198; 24 R492).
-/
namespace Sys2Proof.Machine

/-- The fragment's lookahead windows close and its `DUAL` prefix ends (R193, R350). -/
def Dev.closeAll (m : Dev) : Dev := m.closeWindows.onFrag fun f => { f with dualK := 0, dualRem := 0 }

/-! ## Branches (R422) -/

/-- Go to the block `off` blocks away, which must lie in the segment. -/
def Dev.branchBy (m : Dev) (off : BitVec 22) : Dev :=
  match m.blockTarget off.toInt with
  | some t => m.goto t
  | none => m.trapC .segMiss

/-- `BR` (R422). -/
def execBr (off : BitVec 22) (s : State) : Host.Outcome State Fault Refusal := s.run fun m => m.branchBy off

/-- `BC` (R422). -/
def execBc (c : BitVec 3) (n : BitVec 1) (off : BitVec 22) (s : State) : Host.Outcome State Fault Refusal :=
  s.run fun m => if m.c c != (n = 1) then m.branchBy off else m.advance

/-! ## Calls and returns (R423, R424) -/

/-- The return pointer of a call: the block after the one that holds it (R213). -/
def returnBlock (f : Frag) : Nat := blockOf f.spc + 64

/-- The rest of a call after its target is checked, in the order of R423. The caller's window can be spilt from then on (R185). -/
def Dev.callTo (m : Dev) (ws : BitVec 4) (t : Nat) : Dev :=
  if m.frag.spc / 64 % 256 = 255 then m.trapC .segMiss
  else if m.wave.stack.length ≥ 255 then m.giveBack.trapC .windowState
  else if m.frag.phase = 21 then m.trapC .windowState
  else match m.wantBlocks (ws.toNat * m.wave.unitBlocks) false with
    | .error m => m
    | .ok m =>
      let born := (m.core m.wave.coreNo).issued
      let units := if m.wave.control then 0 else ws.toNat
      let m := m.onWave fun w => { w with stack := { units, born, id := w.nextWin } :: w.stack, nextWin := w.nextWin + 1 }
      ((m.setS 63 (BitVec.ofNat 64 (returnBlock m.frag))).closeAll.askBlocks m.wave.coreNo).goto t

/-- `CALL` (R423). -/
def execCall (ws : BitVec 4) (off : BitVec 22) (s : State) : Host.Outcome State Fault Refusal :=
  s.run fun m => match m.blockTarget off.toInt with
    | some t => m.callTo ws t
    | none => m.trapC .segMiss

/-- What an instruction takes from `sA` once, when it issues: one that goes on after a wait keeps it. -/
def Dev.takeS (m : Dev) (a : BitVec 6) : Dev :=
  if m.frag.phase = 0 then m.onFrag fun f => { f with taken := (m.s a).toNat } else m

/-- The target of a `CALLR` or `RET`, taken and checked when it issues (R423, R424); an error is the machine after the trap. -/
def Dev.newTarget (m : Dev) (a : BitVec 6) : Except Dev Dev :=
  if m.frag.phase ≠ 0 then .ok m else
  match m.checkTarget (m.s a).toNat false with
  | some c => .error (m.trapC c)
  | none => .ok (m.takeS a)

/-- `CALLR` (R423). -/
def execCallr (a : BitVec 6) (ws : BitVec 4) (s : State) : Host.Outcome State Fault Refusal :=
  s.run fun m => match m.newTarget a with
    | .error m => m
    | .ok m => m.callTo ws m.frag.taken

/-- Fill the window below the innermost, when it is spilt (R185). -/
def Dev.fillBelow (m : Dev) : Except Dev Dev :=
  match m.wave.stack with
  | _ :: x :: _ =>
    match x.spilt with
    | none => .ok m
    | some off =>
      let w := m.wave
      match m.engineSpans w.ctx (w.spillArea + off) (w.spillBytes x.units) true false with
      | .error _ => .error (m.giveBack.trapAt .pageFault w.spillArea)
      | .ok _ =>
        if m.frag.phase = 21 then .error (m.trapC .windowState) else
        match m.wantBlocks (x.units * w.unitBlocks) false with
        | .error m => .error m
        | .ok m => .ok (m.onWave fun w => { w with stack := setAt {} w.stack 1 { x with spilt := none } })
  | _ => .ok m

def Dev.ret (m : Dev) (a : BitVec 6) : Dev :=
  match m.newTarget a with
  | .error m => m
  | .ok m =>
    if m.wave.stack = [] then m.giveBack.trapC .windowState else
    match m.fillBelow with
    | .error m => m
    | .ok m =>
      let m := (m.onWave fun w => { w with stack := w.stack.tail }).blocksFreed
      let m := if m.wave.stack.length < m.wave.region.depth then m.irrev else m
      m.closeAll.goto m.frag.taken

/-- `RET` (R424). -/
def execRet (a : BitVec 6) (s : State) : Host.Outcome State Fault Refusal := s.run fun m => m.ret a

/-! ## Jumps and the lane PC (R425, R426, R428, R429) -/

/-- Jump to a code pointer after its check. -/
def Dev.jumpTo (m : Dev) (t : Nat) : Dev :=
  match m.checkTarget t false with
  | some c => m.trapC c
  | none => m.goto t

/-- The code pointer of a segment and block (R205). -/
def codePointer (seg : BitVec 4) (blk : BitVec 8) : Nat := seg.toNat * 2 ^ 14 + blk.toNat * 2 ^ 6

/-- `JR` (R425). -/
def execJr (a : BitVec 6) (s : State) : Host.Outcome State Fault Refusal := s.run fun m => m.jumpTo (m.s a).toNat
/-- `JSEG` (R426): no words are fetched ahead here, so there are none to discard. -/
def execJseg (seg : BitVec 4) (blk : BitVec 8) (s : State) : Host.Outcome State Fault Refusal :=
  s.run fun m => m.jumpTo (codePointer seg blk)
/-- `JSEG.REG` (R426). -/
def execJsegReg (a : BitVec 6) (s : State) : Host.Outcome State Fault Refusal :=
  s.run fun m => m.jumpTo (m.s a).toNat

/-- Set the lane PC to slot 0 of a block after its check (R428). -/
def Dev.lpcTo (m : Dev) (t : Nat) : Dev :=
  match m.checkTarget t true with
  | some c => m.trapC c
  | none => (m.onFrag fun f => { f with lpc := t, lfell := false }).advance

/-- `LPC` (R428). -/
def execLpc (seg : BitVec 4) (blk : BitVec 8) (s : State) : Host.Outcome State Fault Refusal :=
  s.run fun m => m.lpcTo (codePointer seg blk)
/-- `LPC.REG` (R428). -/
def execLpcReg (a : BitVec 6) (s : State) : Host.Outcome State Fault Refusal := s.run fun m => m.lpcTo (m.s a).toNat

/-- `LISSUE` (R214, R429): the lane instructions issue next; the scalar PC stays until they have. -/
def execLissue (n : BitVec 4) (s : State) : Host.Outcome State Fault Refusal :=
  s.run fun m => if m.wave.control then m.trapC .noLanes else m.onFrag fun f => { f with lrem := n.toNat }

/-! ## Splits (R165, R166, R482) -/

/-- Entries of the split table in use, and records of the spill area in use. -/
def Wave.splitsHeld (w : Wave) (serial : Bool) : Nat := (w.splits.filter fun x => x.serial = serial).length

/-- A serialised split takes 64 bytes of the spill area (R166). -/
def Dev.splitRecord (m : Dev) (x : Split) : Dev :=
  let w := m.wave
  match m.engineSpans w.ctx (w.spillArea + 64 * w.splitsHeld true) 64 false true with
  | .ok ss => m.writeSpans ss (x.entry.map fun b => (b, false))
  | .error _ => m

/-- Open a split (R165): `t` the target, `j` the rejoin, `T` the taken lanes. -/
def Dev.openSplit (m : Dev) (t j : Nat) (T : Mask) (serial : Bool) : Dev :=
  let f := m.frag
  let id := m.wave.nextSplit
  let F := f.mask &&& ~~~T
  let taken : Frag := { f with mask := T, spc := t, fell := false, phase := 0, wait := .none, path := (id, true) :: f.path }
  let fall : Frag := { nextWord f with mask := F, path := (id, false) :: f.path }
  let sp : Split := { id, rejoin := j, fmt := f.fmt, serial,
                      takenIn := if T = 0 then some 0 else none,
                      fallIn := if F = 0 && T ≠ 0 then some 0 else none,
                      fallAt := if serial && T ≠ 0 && F ≠ 0 then some (fall.spc, fall.fell, fall.lpc, fall.lfell, F) else none }
  let both := T ≠ 0 && F ≠ 0 && !serial
  let m := if serial then m.splitRecord sp else m
  let m := m.onWave fun w => { w with
    nextSplit := id + 1, splits := sp :: w.splits, nextFid := if both then w.nextFid + 1 else w.nextFid,
    frags := if both then { fall with fid := w.nextFid } :: w.frags else w.frags }
  { m with frag := if T = 0 then fall else taken }

def Dev.split (m : Dev) (k : BitVec 3) (n : BitVec 1) (t r : BitVec 11) : Dev :=
  if m.wave.control && k ≠ 0 then m.trapWord .reservedField else
  match m.blockTarget t.toInt, m.blockTarget r.toInt with
  | some t, some j =>
    let T := m.frag.mask &&& (if n = 1 then ~~~(m.k k.toNat) else m.k k.toNat)
    if m.wave.splitsHeld false < 16 then m.closeAll.openSplit t j T false
    else if m.wave.spillShift ≠ 0 && m.wave.splitsHeld true < 16 then m.closeAll.openSplit t j T true
    else m.trapC .windowState
  | _, _ => m.trapC .segMiss

/-- `SPLIT` (R482). -/
def execSplit (k : BitVec 3) (n : BitVec 1) (t r : BitVec 11) (s : State) : Host.Outcome State Fault Refusal :=
  s.run fun m => m.split k n t r

/-! ## Rejoining (R167, R483) -/

def Split.arrived (x : Split) (taken : Bool) : Option Mask := if taken then x.takenIn else x.fallIn

/-- Replace a split of the loaded wave. -/
def Dev.modSplit (m : Dev) (id : Nat) (f : Split → Split) : Dev :=
  m.onWave fun w => { w with splits := w.splits.map fun x => if x.id = id then f x else x }

/-- One side of a split arrives with its lanes; the fall-through side of a serialised split starts then, at the
word after the `SPLIT`, with the split's `FMT` (R167). -/
def Dev.arriveSide (m : Dev) (x : Split) (taken : Bool) (k : Mask) (rest : List (Nat × Bool)) : Dev :=
  let m := m.modSplit x.id fun x => if taken then { x with takenIn := some k, fallAt := none } else { x with fallIn := some k }
  match x.fallAt with
  | some (spc, fell, lpc, lfell, mask) =>
    m.onWave fun w => { w with
      nextFid := w.nextFid + 1,
      frags := { fid := w.nextFid, spc, fell, lpc, lfell, mask, fmt := x.fmt, path := (x.id, false) :: rest,
                 last := (m.core w.coreNo).issued, lastCycle := (m.core w.coreNo).cycle,
                 inHandler := m.frag.inHandler } :: w.frags }
  | none => m

/-- `FUSE` on the open splits of the loaded fragment, innermost first (R167). -/
def Dev.fuseLoop (m : Dev) : List (Nat × Bool) → Dev
  | [] => m.advance
  | (id, taken) :: rest =>
    match m.wave.splits.find? fun x => x.id = id with
    | none => m.advance
    | some x =>
      if x.rejoin ≠ blockOf m.frag.spc then m.advance else
      match x.arrived (!taken) with
      | none => (m.arriveSide x taken m.frag.mask rest).waitFor .sibling
      | some other =>
        let m := m.onWave fun w => { w with
          splits := w.splits.filter fun y => y.id ≠ id,
          frags := w.frags.filter fun f => f.path.head? ≠ some (id, !taken) }
        (m.onFrag fun f => { f with mask := f.mask ||| other, fmt := x.fmt, path := rest }).fuseLoop rest

/-- `FUSE` (R167, R483). -/
def execFuse (s : State) : Host.Outcome State Fault Refusal :=
  s.run fun m => let m := m.closeAll; m.fuseLoop m.frag.path

/-- A fragment has lost its last lane: it counts as arrived at its split; a split whose sides both have none is
an arrival without lanes of the fragment that opened it (R167, R174). -/
def Dev.endFragment (m : Dev) : List (Nat × Bool) → Dev
  | [] => m
  | (id, taken) :: rest =>
    match m.wave.splits.find? fun x => x.id = id with
    | none => m
    | some x =>
      if x.arrived (!taken) = some 0 then
        (m.onWave fun w => { w with splits := w.splits.filter fun y => y.id ≠ id }).endFragment rest
      else m.arriveSide x taken 0 rest

/-! ## Windows of a chosen size (R188, R487) -/

/-- The base window grows or shrinks to `u` units; new registers read zero, those cut off are lost (R188). -/
def Wave.resizeBase (w : Wave) (u : Nat) : Wave :=
  { w with base := { w.base with
      units := u,
      cells := w.base.cells.drop fun key => key / 4096 ≥ 8 * min u w.base.units,
      dead := w.base.dead &&& BitVec.ofNat 128 (2 ^ (8 * u) - 1),
      marks := w.base.marks.filter fun k => k.reg < 8 * u } }

/-- The loaded wave's base window has a new size; results that were still to come for registers it has lost are discarded. -/
def Dev.resize (m : Dev) (u : Nat) : Dev :=
  let gone (n : Nat) : Bool := decide (8 + 8 * u ≤ n) && decide (n < 128)
  let cut (f : Frag) : Frag := { f with held := f.held.filter fun h => h.scalar || !gone h.reg }
  ((m.dropResults fun d _ => gone d.name).onFrag cut).onWave fun w => { w.resizeBase u with frags := w.frags.map cut }

/-- `sD` and `c1` of a resize. -/
def Dev.resizeAnswer (m : Dev) (d : BitVec 6) (u : Nat) (ok : Bool) : Dev :=
  ((m.setS d (BitVec.ofNat 64 u)).setC 1 ok).advance

def Dev.claim (m : Dev) (d a : BitVec 6) : Dev :=
  let m := m.takeS a
  let n := m.frag.taken
  let u := m.wave.base.units
  if m.wave.stack ≠ [] then m.giveBack.trapC .windowState
  else if u + n > 15 || (m.wave.control && n ≠ 0) then m.giveBack.resizeAnswer d 0 false
  else if m.frag.phase = 21 then m.resizeAnswer d 0 false
  else match m.wantBlocks (n * m.wave.unitBlocks) true with
    | .error m => m
    | .ok m => (m.resize (u + n)).resizeAnswer d (u + n) true

/-- `CLAIM` (R188, R487). -/
def execClaim (d a : BitVec 6) (s : State) : Host.Outcome State Fault Refusal := s.run fun m => m.claim d a

def Dev.yieldUnits (m : Dev) (d a : BitVec 6) : Dev :=
  let n := (m.s a).toNat
  let u := m.wave.base.units
  if m.wave.stack ≠ [] then m.trapC .windowState
  else if n > u then m.resizeAnswer d 0 false
  else ((m.resize (u - n)).blocksFreed).resizeAnswer d (u - n) true

/-- `YIELD` (R188, R487). -/
def execYield (d a : BitVec 6) (s : State) : Host.Outcome State Fault Refusal := s.run fun m => m.yieldUnits d a

/-! ## Regions (R198-R200, R492) -/

def Dev.region (m : Dev) : Dev :=
  let m := m.closeWindows
  if m.wave.super then m.advance
  else if m.wave.splits ≠ [] then (m.onWave fun w => { w with wavectl := w.wavectl ||| 2 }).advance
  else
    let f := nextWord m.frag
    (m.onWave fun w => { w with
      region := { spc := f.spc, fell := f.fell, lpc := f.lpc, lfell := f.lfell, mask := f.mask, fmt := f.fmt,
                  depth := w.stack.length, rollbacks := 0 },
      wavectl := w.wavectl &&& ~~~2#64 }).advance

/-- `REGION` (R198, R492). -/
def execRegion (s : State) : Host.Outcome State Fault Refusal := s.run fun m => m.region

end Sys2Proof.Machine
end

