-- ==== Sys2Proof/Machine/Waves.lean ====
section
/-!
DEFINITION. Machine/Waves.lean: gangs, roles and role queues (07 R158-R164; 24 R484-R486, R502), children
(06 R145-R148; 24 R488), barriers (07 R169-R173; 24 R485, R491) and the ways a wave's lanes retire
(07 R174-R176; 24 R489, R490).
-/
namespace Sys2Proof.Machine

/-! ## Descriptors and pending errors -/

/-- A trap of an issue check: the failing address in every lane of `KF` (R480). -/
def Dev.trapCheck (m : Dev) (c : Cause) (a : Nat) : Dev := m.trapAt c a

/-- The strong read of a descriptor of `n` bytes, 128 at most and aligned to its size, at issue (R225, R268): an
error is the machine after its trap. A poisoned byte traps as R463 says of loads that reach no lane register
(log 21). -/
def Dev.readDesc (m : Dev) (a n align : Nat) (ws : List Window) : Except Dev (List Byte × Dev) :=
  match m.check a n { windows := ws, rd := true, align } with
  | (.bad _ c x, m) => .error (m.trapCheck c x)
  | (.peer, m) => .error (m.trapCheck .protection a)
  | (.ok ss, m) =>
    let (bs, m) := m.loadAt { addr := a, loc := ss.head?.map (·.loc), use := .memory } n true
    if bs.any (·.2) then .error (m.trapCheck .poison a) else .ok (bs.map (·.1), m)

/-- Doubleword `i` of a descriptor. -/
def dwordOf (bs : List Byte) (i : Nat) : Nat := ofBytes ((bs.drop (8 * i)).take 8)

/-- The check of a range that a descriptor names (R225): its spans, or the machine after the trap. -/
def Dev.checkRange (m : Dev) (a n : Nat) (ak : AccessKind) : Except Dev (List Span × Dev) :=
  match m.check a n ak with
  | (.ok ss, m) => .ok (ss, m)
  | (.peer, m) => .error (m.trapCheck .protection a)
  | (.bad _ c x, m) => .error (m.trapCheck c x)

/-- The cause of a code of R11 that `ASYNCERR` holds (R75). -/
def asyncCause (code : Nat) : Cause := if code = 0x15 then .peerTimeout else if code = 0x16 then .poison else .peerFault

/-- The trap of R73 or R74 that is pending for the wave, if any (R371): the oldest error whose marks stand, with
the affected lanes in `KF` (the active mask at an `EXIT`, R489), then `ASYNCERR`. -/
def Dev.pendingTrap (m : Dev) (exit : Bool) : Option Dev :=
  let marks := m.wave.allMarks
  match oldest marks with
  | some k =>
    let mine := marks.filter fun x => x.err = k.err
    some (m.trap { cause := k.cause, kf := if exit then none else some (Mask.ofLanes (mine.map (·.lane))),
                   lf := markAddrs marks k.err, err := some k.err })
  | none =>
    let a := m.wave.asyncerr
    if a.getLsbD 63 then some (m.trap { cause := asyncCause (fld a.toNat 55 48), stval := m.wave.asyncAddr.toNat }) else none

/-! ## Gangs (R158, R159, R484) -/

/-- Free gang ids of a cluster, rising (R156). -/
def freeGang (x : Cluster) : Option Nat := (List.range 256).find? fun g => !(x.gangs.any fun e => e.1 = g)

/-- Add the loaded wave to a gang (R158). -/
def Dev.joinGang (m : Dev) (d : BitVec 6) (g : Nat) (x : Gang) : Dev :=
  let c := m.wave.clusterNo
  let cl := m.cluster c
  let m := m.setCluster c { cl with gangs := cl.gangs.set g { x with members := x.members ++ [m.wave.uid] } }
  (m.onWave fun w => { w with gang := some g }).writeS d (BitVec.ofNat 64 g)

def Dev.gjoin (m : Dev) (d a : BitVec 6) : Dev :=
  let n := (m.s a).toNat
  let cl := m.cluster m.wave.clusterNo
  if m.wave.gang.isSome || n > 0x100 || m.wave.child then m.trapC .protection
  else if n = 0x100 then
    match freeGang cl with
    | none => m.trapC .gangFull
    | some g => m.joinGang d g { launch := m.wave.launch, members := [] }
  else
    match cl.gangs.find? fun e => e.1 = n with
    | none => m.trapC .protection
    | some e =>
      if e.2.launch ≠ m.wave.launch then m.trapC .protection
      else if e.2.members.length ≥ 12 then m.trapC .gangFull
      else m.joinGang d n e.2

/-- `GJOIN` (R158, R484). -/
def execGjoin (d a : BitVec 6) (s : State) : Host.Outcome State Fault Refusal := s.run fun m => m.gjoin d a

def Dev.gleave (m : Dev) : Dev :=
  if m.wave.gang.isNone then m.trapC .protection
  else if !m.waitOver { m.wave with frags := [] } { m.frag with wait := .copies } then m.waitFor .copies
  else
    let m := (m.leaveGang m.wave).onWave fun w => { w with gang := none }
    (m.leaveCopies m.wave.uid).advance

/-- `GLEAVE` (R159, R484). -/
def execGleave (s : State) : Host.Outcome State Fault Refusal := s.run fun m => m.gleave

/-! ## Barriers (R170-R173, R485, R491) -/

/-- Arrive at the open phase of a barrier and wait in a phase of the instruction. -/
def Dev.arrive (m : Dev) (b : BarrierRef) (phase : Nat) : Dev :=
  let l := m.arrivals b
  let m := m.setArrivals b (if l.contains m.wave.uid then l else l ++ [m.wave.uid])
  (m.waitFor .event phase).checkBarrier b

/-- A release at scope `sc` that the instruction waits for: done once its phase is reached or nothing drains. -/
def Dev.releaseWait (m : Dev) (sc : Nat) (phase : Nat := 9) : Except Dev Dev :=
  if m.frag.phase = phase then .ok m else
  let m := m.releaseStart m.wave.coreNo sc
  if sc ≥ 3 && m.draining m.wave.die then .error (m.waitFor .drain phase) else .ok m

def Dev.barG (m : Dev) : Dev :=
  match m.wave.gang with
  | none => m.trapC .protection
  | some g =>
    if m.frag.phase = 15 then m.acquire.advance
    else (m.release m.wave.coreNo 1).arrive (.gang m.wave.clusterNo g) 14

/-- `BAR.G` (R172, R173, R485). -/
def execBarG (s : State) : Host.Outcome State Fault Refusal := s.run fun m => m.barG

/-- `DIEBAR` of a wave (R170). -/
def Dev.diebar (m : Dev) (w : Wave) : Nat :=
  let t := ((List.range 7).filter fun i => ((m.die w.die).tags.getD i {}).launch = some w.launch).head?
  (if m.tag7.launch = some w.launch then 0x80 else 0) + (match t with | some i => 8 + i | none => 0)

def Dev.bar (m : Dev) (t : BitVec 3) : Dev :=
  let v := m.diebar m.wave
  let die := v.testBit 3 && v % 8 = t.toNat
  if !die && !(v.testBit 7 && t = 7) then m.trapC .protection
  else if m.frag.phase = 11 || m.frag.phase = 13 then m.acquire.advance
  else match m.releaseWait (if t = 7 then 3 else 2) with
    | .error m => m
    | .ok m => if t = 7 then m.arrive .package 10 else m.arrive (.die m.wave.die t.toNat) 12

/-- `BAR` (R171, R173, R491). -/
def execBar (t : BitVec 3) (s : State) : Host.Outcome State Fault Refusal := s.run fun m => m.bar t

/-- The waiting phase of a barrier's instruction. -/
def barPhase : BarrierRef → Nat
  | .gang _ _ => 14
  | .die _ _ => 12
  | .package => 10

/-- All waves that wait at a barrier are released together, and the next phase opens (R171). -/
def Dev.releaseBarrier (m : Dev) (b : BarrierRef) : Dev :=
  if !m.phaseComplete b then m else
  let us := m.arrivals b
  let m := us.foldl (fun m u => m.modFrags u fun f =>
    if f.wait = .event && f.phase = barPhase b then { f with wait := .none, phase := barPhase b + 1 } else f) m
  m.setArrivals b []

/-- `BARRIER_PHASE_COMPLETE` (R171, R172). -/
def execBarrierPhaseComplete (b : BarrierRef) (s : State) : Host.Outcome State Fault Refusal :=
  s.run fun m => m.stash.releaseBarrier b

/-! ## Roles and role queues (R162-R164, R486, R502) -/

def Dev.rolesw (m : Dev) (r : BitVec 4) : Dev :=
  let l := m.launch
  let m := m.closeWindows
  let w := m.wave
  let r := r.toNat
  if l.rolemap = 0 || w.child || ((w.role = 3) != (r = 3)) then m.trapC .protection
  else if w.stack ≠ [] then m.giveBack.trapC .windowState
  else if m.frag.phase ≠ 20 && m.frag.phase ≠ 21 && (m.busyCmds w.uid || m.busyPeers w.uid || m.busyMatrix w) then
    m.waitFor .commands
  else
    let m := m.closeAll
    let u := if w.control then 0 else l.roleWin r
    let go (m : Dev) : Dev :=
      ((m.onWave fun w => { w with role := r }).setC 1 true).goto (l.roleSeg r * 2 ^ 14 + l.roleBlk r * 2 ^ 6)
    if u ≤ w.base.units then go ((m.resize u).blocksFreed)
    else if m.frag.phase = 21 then (m.setC 1 false).advance
    else match m.wantBlocks ((u - w.base.units) * w.unitBlocks) true with
      | .error m => m
      | .ok m => go ((m.resize u).giveBack)

/-- `ROLESW` (R162, R486). -/
def execRolesw (r : BitVec 4) (s : State) : Host.Outcome State Fault Refusal := s.run fun m => m.rolesw r

/-- Role queue `q` of the loaded wave's cluster. -/
def Dev.queue (m : Dev) (q : Nat) : RoleQueue := (m.cluster m.wave.clusterNo).queues.getD q {}
def Dev.setQueue (m : Dev) (q : Nat) (x : RoleQueue) : Dev :=
  let c := m.cluster m.wave.clusterNo
  m.setCluster m.wave.clusterNo { c with queues := setAt {} c.queues q x }

/-- Does the wave's gang hold queue `q` (R164)? -/
def Dev.holdsQueue (m : Dev) (q : Nat) : Bool := q ≤ 3 && m.wave.gang.isSome && (m.queue q).gang = m.wave.gang

def Dev.qinit (m : Dev) (d a : BitVec 6) : Dev :=
  let n := (m.s a).toNat
  if m.wave.gang.isNone || n < 1 || n > 16 then m.trapC .queueMisuse
  else match (List.range 4).find? fun q => (m.queue q).gang.isNone with
    | none => (m.setC 1 false).writeS d 0
    | some q => ((m.setQueue q { gang := m.wave.gang, depth := n, vals := [] }).setC 1 true).writeS d (BitVec.ofNat 64 q)

/-- `QINIT` (R163, R502). -/
def execQinit (d a : BitVec 6) (s : State) : Host.Outcome State Fault Refusal := s.run fun m => m.qinit d a

def Dev.qput (m : Dev) (a b : BitVec 6) : Dev :=
  let q := (m.s a).toNat
  if !m.holdsQueue q then m.trapC .queueMisuse
  else
    let m := m.release m.wave.coreNo 1
    let x := m.queue q
    if x.vals.length ≥ x.depth then m.waitFor (.queueFull q)
    else (m.irrev.setQueue q { x with vals := x.vals ++ [m.s b] }).advance

/-- `QPUT` (R164, R502). -/
def execQput (a b : BitVec 6) (s : State) : Host.Outcome State Fault Refusal := s.run fun m => m.qput a b

def Dev.qtake (m : Dev) (d a : BitVec 6) : Dev :=
  let q := (m.s a).toNat
  if !m.holdsQueue q then m.trapC .queueMisuse
  else
    let x := m.queue q
    match x.vals with
    | [] => m.waitFor (.queueEmpty q)
    | v :: t => ((m.irrev.setQueue q { x with vals := t }).acquire).writeS d v

/-- `QTAKE` (R164, R502). -/
def execQtake (d a : BitVec 6) (s : State) : Host.Outcome State Fault Refusal := s.run fun m => m.qtake d a

/-! ## Children (R145-R148, R488) -/

/-- Does a child descriptor keep R145 and R146 steps 2 and 3? -/
def childOk (l : Launch) (tang : Nat) (d : List Byte) : Bool :=
  let a := dwordOf d 0
  let fut := dwordOf d 2
  let lanes := fld a 10 0
  let win := fld a 19 16
  fld a 63 60 = 0 && fld a 47 43 = 0 && fld a 31 20 = 0 && fld a 15 11 = 0 && fld fut 63 49 = 0 && dwordOf d 3 = 0 &&
  fld a 42 32 ≤ 1024 && 32 ≤ lanes && lanes ≤ 1024 && lanes % 32 = 0 && l.sseg.testBit (fld a 59 56) &&
  fut % 8 = 0 && (1 + win) * (lanes / 32) * (tang + 1) ≤ 512

/-- Queue a child on the die of its parent (R147). -/
def Dev.queueChild (m : Dev) (d : List Byte) : Dev :=
  let w := m.wave
  let l := m.launch
  let a := dwordOf d 0
  let c : Child := { launch := w.launch, parent := w.uid, ctx := w.ctx, cluster := w.cluster, depth := w.depth + 1,
                     waveid := l.waves + l.children, eseg := fld a 59 56, eblk := fld a 55 48, scratch := fld a 42 32,
                     basewin := fld a 19 16, lanes := fld a 10 0, arg := BitVec.ofNat 64 (dwordOf d 1),
                     futva := fld (dwordOf d 2) 48 0, trec := w.trec }
  let x := m.die w.die
  let m := m.setDie w.die { x with spawns := x.spawns ++ [c] }
  (m.modLaunch w.launch fun l => { l with children := l.children + 1 }).push (.childPlacement w.die)

/-- The child of a descriptor joins the queue, once it has room: that wait is a point, at which the `SPAWN` restarts (R145,
R480, R488). -/
def Dev.spawnQueue (m : Dev) (d : List Byte) : Dev :=
  if (m.die m.wave.die).spawns.length ≥ 256 then (m.onFrag fun f => { f with desc := d }).waitFor .spawnRoom 18
  else ((m.irrev.queueChild d).onFrag fun f => { f with desc := [] }).advance

/-- The descriptor is read and checked once (R145); then the release of the parent's writes, and the queue. -/
def Dev.spawn (m : Dev) (a : BitVec 6) : Dev :=
  if m.frag.phase = 17 || m.frag.phase = 18 then m.spawnQueue m.frag.desc else
  if m.wave.depth ≥ 4 then m.trapC .spawnDepth else
  match m.readDesc (m.s a).toNat 32 32 [.global] with
  | .error m => m
  | .ok (d, m) =>
    if !childOk m.launch m.wave.tang d then m.trapC .spawnNofit else
    let fut := fld (dwordOf d 2) 48 0
    let checked : Except Dev Dev := if fut = 0 then .ok m else
      match m.checkRange fut 8 { windows := [.global], wr := true, align := 8 } with
      | .error m => .error m
      | .ok (_, m) => .ok m
    match checked with
    | .error m => m
    | .ok m =>
      match m.releaseWait 3 17 with
      | .error m => m.onFrag fun f => { f with desc := d }
      | .ok m => m.spawnQueue d

/-- `SPAWN` (R145-R147, R488). -/
def execSpawn (a : BitVec 6) (s : State) : Host.Outcome State Fault Refusal := s.run fun m => m.spawn a

/-! ## Retirement (R174-R176, R489, R490) -/

/-- The loaded wave retires (R176): its rooms are left with `ROOMLEAK` set (R287). -/
def Dev.retire (m : Dev) : Dev :=
  let m := if m.wave.rooms = [] then m else m.setCtl 4
  m.leave m.wave false

/-- The loaded wave has no lanes left: its retirement is due (R176). -/
def Dev.emptyWave (m : Dev) : Dev :=
  ({ m with frag := {} }.onWave fun w => { w with leaving := true, frags := [], splits := [] }).push (.waveRetire m.wave.uid)

/-- The loaded fragment has lost its last lane. -/
def Dev.dropFragment (m : Dev) : Dev :=
  let path := m.frag.path
  let m := { m with frag := {} }
  m.endFragment path

/-- Remove lanes from the loaded fragment, after the traps (R489). -/
def Dev.removeLanes (m : Dev) (x : Mask) : Dev :=
  if x = 0 then m.advance else
  let m := m.onFrag fun f => { f with mask := f.mask &&& ~~~x }
  if m.lanesLeft = 0 then m.emptyWave
  else if m.frag.mask = 0 then m.dropFragment else m.advance

/-- `EXIT` of a set of lanes (R489). -/
def Dev.exitLanes (m : Dev) (x : Mask) : Dev :=
  if m.wave.super then m.trapC .protection else
  let m := m.closeAll
  let all := m.lanesLeft &&& ~~~x = 0
  if all && (m.busyCmds m.wave.uid || m.busyPeers m.wave.uid || m.busyMatrix m.wave) then m.waitFor .commands 8
  else match m.pendingTrap true with
    | some m => m
    | none => m.removeLanes x

/-- `EXIT` (R174, R489). -/
def execExit (s : State) : Host.Outcome State Fault Refusal := s.run fun m => m.exitLanes m.frag.mask

/-- `EXIT.K` (R174, R489). -/
def execExitK (k : BitVec 6) (s : State) : Host.Outcome State Fault Refusal :=
  s.run fun m =>
    if m.wave.control && k ≠ 0 then m.trapWord .reservedField else m.exitLanes (m.frag.mask &&& m.k (k.toNat % 8))

/-- Is it a `PEER` command? -/
def Cmd.isPeer (c : Cmd) : Bool := match c.body with | .peer _ _ _ _ _ _ _ _ _ _ => true | _ => false

/-- The entries of a core's retirement tracker that are in use (R175). -/
def Core.trackerUse (c : Core) : Nat := (c.tracker.filter fun t => !t.killed).length

/-- Does `TAIL` act as `EXIT` (R175, R490)? A `PEER` command is outstanding until its stamp is written (R348). -/
def Dev.tailWaits (m : Dev) : Bool :=
  m.wave.frags ≠ [] || m.lanesLeft &&& ~~~m.frag.mask ≠ 0 || m.wave.rooms ≠ [] ||
  (m.peers.any fun p => p.wave = m.wave.uid) || (m.cmds.any fun c => c.wave = m.wave.uid && c.isPeer) ||
  m.wave.asyncerr.getLsbD 63 || m.wave.allMarks ≠ [] || (m.core m.wave.coreNo).trackerUse ≥ 8

/-- What the loaded wave, which ends, has outstanding is held until it completes (R175, R522), and with it a child's future word,
which says DONE only then (R148). -/
def Dev.leaveTracked (m : Dev) (killed : Bool) : Dev :=
  let w := m.wave
  let cmds := (m.cmds.filter fun c => c.wave = w.uid).map fun (c : Cmd) => c.id
  if cmds = [] && !m.busyMatrix w then m else
  let c := m.core w.coreNo
  let t : Tracked := { launch := w.launch, wave := w.uid, killed, cmds, ctx := w.ctx,
                       futva := if w.child then w.futva else 0, result := w.result }
  (m.setCore w.coreNo { c with tracker := c.tracker ++ [t] }).onWave fun w => { w with futva := 0 }

/-- The wave retires at once; a tracker entry holds what is outstanding (R175). -/
def Dev.retireTracked (m : Dev) : Dev := (m.leaveTracked false).retire

/-- `TAIL` (R175, R490). -/
def execTail (s : State) : Host.Outcome State Fault Refusal :=
  s.run fun m =>
    if m.wave.super then m.trapC .protection
    else
      let m := m.closeAll
      if m.tailWaits then m.exitLanes m.frag.mask else m.retireTracked

/-- Has everything that a tracker entry holds completed? -/
def Dev.trackerDone (m : Dev) (t : Tracked) : Bool :=
  !m.running t.cmds && !(m.clusters.any fun (x : Nat × Cluster) => x.2.mqueue.any fun (e : MEntry) => e.wave = t.wave)

/-- Schedule the release of tracker entries that have completed. -/
def Dev.checkTrackers (m : Dev) : Dev :=
  m.cores.foldl (fun m (x : Nat × Core) =>
    match (List.range x.2.tracker.length).find? fun i => m.trackerDone (x.2.tracker.getD i { launch := 0, wave := 0 }) with
    | some i => m.push (.trackerDrain x.1 i)
    | none => m) m

/-- `TRACKER_DRAIN` (R175): an entry whose commands are complete is freed, and its future word written (R148). -/
def Dev.trackerDrain (m : Dev) (k i : Nat) : Dev :=
  let c := m.core k
  match (c.tracker.drop i).head? with
  | none => m
  | some t =>
    if !m.trackerDone t then m else
    let m := m.setCore k { c with tracker := c.tracker.take i ++ c.tracker.drop (i + 1) }
    let m := if t.futva = 0 then m else (m.release k 3).putFuture t.ctx t.futva (futureWord t.killed t.result)
    (m.checkTrackers).checkGrid t.launch

/-- `TRACKER_DRAIN` (R175). -/
def execTrackerDrain (core entry : Nat) (s : State) : Host.Outcome State Fault Refusal :=
  s.run fun m => m.stash.trackerDrain core entry

/-- `WAVE_RETIRE` (R176): a wave that has no lanes left, and whose `EXIT` has waited, retires; with rooms held,
`ROOMLEAK` is set (R287). -/
def Dev.waveRetire (m : Dev) (uid : Nat) : Dev :=
  match m.waveOf uid with
  | none => m
  | some w =>
    if w.leaving then m.leave { w with wavectl := if w.rooms = [] then w.wavectl else w.wavectl ||| 16 } false else m

/-- `WAVE_RETIRE` (R176). -/
def execWaveRetire (wave : Nat) (s : State) : Host.Outcome State Fault Refusal := s.run fun m => m.stash.waveRetire wave

end Sys2Proof.Machine
end

