-- ==== Sys2Proof/Machine/System.lean ====
section
/-!
DEFINITION. Machine/System.lean: traps raised by words, return from a trap, system registers, placement values,
invalidation of translations, the L1 flush, HALT and NOP (25 R512-R522; 18 R358-R363; 01 R36; 05 R111).
-/
namespace Sys2Proof.Machine

/-! ## Trap words (R210, R512, R513) -/

/-- `TRAPZ` (R210): POOL-EXEC with the word. -/
def execTrapz (x : BitVec 26) (s : State) : Host.Outcome State Fault Refusal :=
  s.run fun m => m.trap { cause := .poolExec, stval := x.toNat }

/-- `LFADDR` of the lowest active lane (R513). -/
def Dev.lowestAddr (m : Dev) : Nat :=
  match (Mask.lanes m.frag.mask 1024).head? with
  | some l => (m.wave.trap.lfaddr.get l).toNat
  | none => 0

/-- The codes that `TRAP` posts (R513). -/
def trapPosts (e : Nat) : Bool :=
  e.testBit 19 && e / 256 % 2048 = 0 && (e % 256 = 4 || e % 256 = 8 || e % 256 ≥ 0x80)

def Dev.trapInstr (m : Dev) (e : Nat) : Dev :=
  if m.wave.super && trapPosts e then (m.postWave m.wave (e % 256) m.lowestAddr (m.identity m.wave)).advance
  else m.trap { cause := .software, stval := e }

/-- `TRAP` (R512, R513). -/
def execTrap (imm : BitVec 20) (s : State) : Host.Outcome State Fault Refusal := s.run fun m => m.trapInstr imm.toNat

/-- The debug level in force: APP has ended once its context has (R107). -/
def State.level (s : State) : DebugLevel :=
  if s.sec.level = .app && s.dev.ended.getLsbD s.sec.appCtx then .none else s.sec.level

/-- May the debugger halt the waves of a context (R106, R111)? -/
def State.halts (s : State) (ctx : Nat) : Bool :=
  match s.level with
  | .none => false
  | .app => s.sec.appCtx = ctx
  | .full => true

/-- `BRK` (R512): the wave halts at the next word under a debug level that grants it, else BREAKPOINT. -/
def execBrk (s : State) : Host.Outcome State Fault Refusal :=
  if s.halts s.dev.wave.ctx then s.run fun m => (m.advance).onWave fun w => { w with halted := true }
  else s.run fun m => m.trapC .breakpoint

/-- `RTE` (R362, R518). -/
def execRte (s : State) : Host.Outcome State Fault Refusal :=
  s.run fun m => if m.wave.super then m.rte else m.trapC .protection

/-! ## System registers (R515-R517) -/

/-- Bit counts of masks. -/
def countBits (n : Nat) (x : Nat) : Nat := popcount n x

/-- Core mask of a cluster (R36 `CLCAP`). -/
def Capability.clcap (c : Capability) (i : Nat) : Nat := (c.cores.getD i 0).toNat
/-- Clusters in service of a die. -/
def Capability.clmask (c : Capability) (d : Nat) : Nat :=
  ((List.range 16).map fun i => b2n (c.clcap (16 * d + i) ≠ 0) * 2 ^ i).sum
/-- `DIECAP` (R36). -/
def Capability.diecap (c : Capability) (d : Nat) : Nat :=
  fld c.ports.toNat (3 * d + 2) (3 * d) * 2 ^ 48 + c.clmask d * 2 ^ 32 + fld c.half.toNat (3 * d + 2) (3 * d) * 2 ^ 16 +
  fld c.spares.toNat (2 * d + 1) (2 * d)
/-- Dies with a cluster in service. -/
def Capability.diemask (c : Capability) : Nat := ((List.range 8).map fun d => b2n (c.clmask d ≠ 0) * 2 ^ d).sum
/-- `CAPSUM` (R36). -/
def Capability.capsum (c : Capability) : Nat :=
  b2n c.replace * 2 ^ 60 + 0xFFFF * 2 ^ 44 + c.diemask * 2 ^ 36 +
  ((List.range 128).map fun i => b2n (c.clcap i ≠ 0)).sum * 2 ^ 28 +
  ((List.range 128).map fun i => countBits 12 (c.clcap i)).sum * 2 ^ 16 + countBits 24 c.ports.toNat * 2 ^ 11

/-- `SEGSTAT` as the loaded wave's launch sees its core (R217, R427). -/
def Dev.segstat (m : Dev) : Nat :=
  let st (s : Seg) : Nat :=
    match s.owner with
    | .free => 0
    | .launch n =>
      if n ≠ m.wave.launch then 4
      else match s.st with | .free => 0 | .inflight => 1 | .landed => 2 | .error => 3
    | .handler _ => 4
  ((List.range 12).map fun i => (b2n (m.seg i).lane * 8 + st (m.seg i)) * 16 ^ i).sum

/-- `SSTAT` (R358). -/
def Wave.sstat (w : Wave) : Nat :=
  b2n w.super + b2n w.psuper * 2 + b2n w.replay * 2 ^ 8 + b2n w.everirr * 2 ^ 9 + w.ctx % 64 * 2 ^ 10

/-- `DUALST` (R351). -/
def Frag.dualst (f : Frag) : Nat := if f.dualRem = 0 then 0 else f.dualK.toNat * 16 + f.dualRem.toNat

/-- `MSGSTAT` of a cluster (R56). -/
def Cluster.msgstat (c : Cluster) : Nat :=
  min c.refused 0xFFFF * 2 ^ 23 + c.receives.length * 2 ^ 16 + c.overflow.length * 2 ^ 9 + b2n c.ovf

/-- A system register that USER mode reads (R515); none when the number names no such register. -/
def Dev.userReg (m : Dev) (n : Nat) : Option Nat :=
  let w := m.wave
  match n with
  | 0x000 | 0x001 | 0x002 | 0x003 | 0x004 | 0x006 | 0x007 | 0x00E => some (w.specValue n)
  | 0x010 => some w.role
  | 0x011 => some (match w.gang with | some g => 0x100 + g % 256 | none => 0)
  | 0x012 => some (m.diebar w)
  | 0x020 => some w.wavectl.toNat
  | 0x021 => some w.sstat
  | 0x022 => some m.segstat
  | 0x023 => some (if w.control then 0 else w.scrbase)
  | 0x024 => some w.cpybase.toNat
  | 0x026 => some m.frag.dualst
  | 0x027 => some w.tstride.toNat
  | 0x028 => some w.spillbase.toNat
  | 0x029 => some (w.mheld % 16 * 2 ^ 32 + w.mdone % 2 ^ 32)
  | 0x02A => some w.mxcfg.toNat
  | 0x02B => some (m.core w.coreNo).cycle.toNat
  | 0x030 => some m.frag.fmt.lo.toNat
  | 0x031 => some m.frag.fmt.hi.toNat
  | 0x032 => some w.olbase.toNat
  | 0x033 => some w.olcap.toNat
  | 0x034 => some w.oltag.toNat
  | 0x050 => some (KMap.get 0 m.gdrop w.ctx)
  | _ => none

/-- A system register that only SUPER mode reads (R515). -/
def Dev.superReg (m : Dev) (n : Nat) : Option Nat :=
  let t := m.wave.trap
  match n with
  | 0x025 => some m.wave.asyncerr.toNat
  | 0x040 => some t.scause.toNat
  | 0x041 => some t.sepc.toNat
  | 0x042 => some t.lepc.toNat
  | 0x043 => some t.lrem.toNat
  | 0x044 => some t.stval.toNat
  | 0x051 => some (m.cluster m.wave.clusterNo).msgstat
  | 0x100 => some m.cap.capsum
  | _ =>
    if 0x108 ≤ n && n < 0x110 then some (m.cap.diecap (n - 0x108))
    else if 0x180 ≤ n && n < 0x200 then some (m.cap.clcap (n - 0x180)) else none

/-- The value that `MFSR` reads; none where it traps (R378, R515). -/
def Dev.sysRead (m : Dev) (n : Nat) : Option Nat :=
  match m.userReg n with
  | some v => some v
  | none => if m.wave.super then m.superReg n else none

def Dev.mfsr (m : Dev) (d : BitVec 6) (n : Nat) : Dev :=
  match m.sysRead n with
  | some v => m.writeS d (BitVec.ofNat 64 v)
  | none => m.trapWord .reservedField

/-- `MFSR` (R515, R517). -/
def execMfsr (d : BitVec 6) (reg : BitVec 12) (s : State) : Host.Outcome State Fault Refusal :=
  s.run fun m => m.mfsr d reg.toNat

/-- `WAVECTL` after a write: DRT takes the value, the W1C bits clear (R197). -/
def wavectlWrite (old v : DWord) : DWord := (old &&& ~~~0x80#64 &&& ~~~(v &&& 0x7C#64)) ||| (v &&& 0x80#64)

/-- `ASYNCERR` after a write: V clears with MORE (R371). -/
def asyncWrite (old v : DWord) : DWord := if v.getLsbD 63 then old &&& 0x00FFFFFFFFFFFFFF#64 else old

/-- A write by `MTSR` (R517); none where the register is not written in the mode. -/
def Dev.sysWrite (m : Dev) (n : Nat) (v : DWord) : Option Dev :=
  let low (k : Nat) : DWord := v &&& BitVec.ofNat 64 (2 ^ k - 1)
  let sup (m' : Dev) : Option Dev := if m.wave.super then some m' else none
  match n with
  | 0x020 => some (m.onWave fun w => { w with wavectl := wavectlWrite w.wavectl v })
  | 0x024 => some (m.onWave fun w => { w with cpybase := v.setWidth 20 })
  | 0x025 => sup (m.onWave fun w => { w with asyncerr := asyncWrite w.asyncerr v })
  | 0x032 => some (m.onWave fun w => { w with olbase := low 49 &&& ~~~0xF#64 })
  | 0x033 => some (m.onWave fun w => { w with olcap := low 32 })
  | 0x034 => some (m.onWave fun w => { w with oltag := v })
  | 0x041 => sup (m.onWave fun w => { w with trap := { w.trap with sepc := v } })
  | 0x042 => sup (m.onWave fun w => { w with trap := { w.trap with lepc := v } })
  | 0x043 => sup (m.onWave fun w => { w with trap := { w.trap with lrem := v } })
  | 0x050 => sup { m with gdrop := m.gdrop.set m.wave.ctx (low 32).toNat }
  | 0x051 =>
    let c := m.cluster m.wave.clusterNo
    sup (m.setCluster m.wave.clusterNo { c with ovf := c.ovf && !v.getLsbD 0 })
  | _ => none

def Dev.mtsr (m : Dev) (d : BitVec 6) (n : Nat) : Dev :=
  if n = 0x050 && !m.wave.super then m.trapC .protection else
  match m.sysWrite n (m.s d) with
  | some m => m.advance
  | none => m.trapWord .reservedField

/-- `MTSR` (R346, R515, R517). -/
def execMtsr (d : BitVec 6) (reg : BitVec 12) (s : State) : Host.Outcome State Fault Refusal :=
  s.run fun m => m.mtsr d reg.toNat

/-- `SPEC` into a scalar (R521). -/
def execSpec (d : BitVec 6) (sel : BitVec 12) (s : State) : Host.Outcome State Fault Refusal :=
  s.run fun m => m.writeS d (BitVec.ofNat 64 (m.wave.specValue sel.toNat))

/-! ## Translations (R229, R519) -/

/-- The region of a `TLBINV`: its start and size. -/
def tlbRegion (v : Nat) : Nat × Nat :=
  let va := v % 2 ^ 49 / 2 ^ 16 * 2 ^ 16
  match v % 4 with
  | 0 => (va, 2 ^ 16)
  | 1 => (va / 2 ^ 21 * 2 ^ 21, 2 ^ 21)
  | 2 => (va / 2 ^ 30 * 2 ^ 30, 2 ^ 30)
  | _ => (0, 2 ^ 49)

/-- Drop the cached translations of a context that touch a region (R519 step 2). -/
def Dev.dropTlb (m : Dev) (ctx start size : Nat) : Dev :=
  { m with cores := m.cores.map fun (x : Nat × Core) =>
      (x.1, { x.2 with tlb := x.2.tlb.filter fun (t : TlbEntry) =>
        !(t.ctx = ctx && t.page * t.size < start + size && start < (t.page + 1) * t.size) }) }

/-- LIMIT := 0 in the translation registers of a wave whose BASE lies in a region (R519 step 3). -/
def Wave.dropLimits (w : Wave) (start size : Nat) : Wave :=
  { w with xregs := w.xregs.map fun (x : XReg) =>
      if start ≤ x.base.toNat && x.base.toNat < start + size then { x with limit := 0 } else x }

/-- Every `MWAIT` of a context on a word in a region reads it again, where the tables now have it. -/
def Dev.rereadMonitors (m : Dev) (ctx start size : Nat) : Dev :=
  (m.waves.filter fun w => w.ctx = ctx && w.monitor.any fun x => start ≤ x.1.toNat && x.1.toNat < start + size).foldl
    (fun m (w : Wave) => m.push (.monitorTrigger w.uid)) m

def Dev.tlbinv (m : Dev) (a : BitVec 6) : Dev :=
  let v := (m.s a).toNat
  if !m.wave.super then m.trapC .protection
  else if fld v 63 49 ≠ 0 || fld v 15 2 ≠ 0 then m.trapWord .reservedField
  else match m.releaseWait 3 with
    | .error m => m
    | .ok m =>
      let ctx := m.wave.ctx
      let (start, size) := tlbRegion v
      let m := m.dropTlb ctx start size
      let m := { m with waves := m.waves.map fun (w : Wave) => if w.ctx = ctx then w.dropLimits start size else w }
      let m := m.onWave fun w => w.dropLimits start size
      let m := m.rereadMonitors ctx start size
      if m.pagesHeld ctx start size then m.waitFor (.pageUsers start size) 9 else m.advance

/-- `TLBINV` (R519). -/
def execTlbinv (a : BitVec 6) (s : State) : Host.Outcome State Fault Refusal := s.run fun m => m.tlbinv a

/-! ## L1 flush, HALT, NOP (R520, R522) -/

/-- The lines of a core but its shadows leave its L1: pending and dirty bytes are written back (R239). -/
def Dev.emptyL1 (m : Dev) (k : Nat) : Dev :=
  let c := m.core k
  (c.l1.filter fun l => l.st ≠ .shadow).foldl (fun m l => m.evict k l)
    (m.setCore k { c with l1 := c.l1.filter fun l => l.st = .shadow })

def Dev.l1flush (m : Dev) : Dev :=
  if m.busyPeers m.wave.uid then m.waitFor .peers else
  ((m.release m.wave.coreNo 2).emptyL1 m.wave.coreNo).acquire.advance

/-- `L1FLUSH` (R520): the pending lines of the cluster reach the die merge buffer, and the core's L1 is written back and
emptied, its ACCUM shadows apart, which are no copies of lines. -/
def execL1flush (s : State) : Host.Outcome State Fault Refusal := s.run fun m => m.l1flush

/-- `HALT` in SUPER mode (R522): the wave is killed and its launch leaves without its signal; its engine commands run on, and the
grid ends after them (R128). -/
def Dev.haltWave (m : Dev) : Dev :=
  let m := m.modLaunch m.wave.launch fun l => { l with noSignal := true }
  (m.leaveTracked true).killWave m.wave.uid

/-- `HALT` (R514, R522). -/
def execHalt (s : State) : Host.Outcome State Fault Refusal :=
  s.run fun m => if m.wave.super then m.haltWave else m.trapC .protection

/-- `NOP` (R522). -/
def execNop (s : State) : Host.Outcome State Fault Refusal := s.run fun m => m.advance

end Sys2Proof.Machine
end

