-- ==== Sys2Proof/Machine/Package.lean ====
section
/-!
DEFINITION. Machine/Package.lean: events of the package: management events, power states and the throttle, the
package reset and its wipe, fatal errors (01 R26-R29; 05 R98, R108-R119).
-/
namespace Sys2Proof.Machine

/-! ## Management events (R117) -/

/-- The management events that waves and engines raised join `MGTEVT`. -/
def State.takeEvents (s : State) : State :=
  { s with pkg := { s.pkg with mgtevt := s.pkg.mgtevt ||| s.dev.events }, dev := { s.dev with events := 0 } }

/-- Set a bit of `MGTEVT`: vector 64 is signalled (R78, R117). `ALERT_N` is low while a bit of `MGTEVT` is 1. -/
def State.alert (s : State) (b : Nat) : State :=
  { s with pkg := { s.pkg with mgtevt := s.pkg.mgtevt ||| (1#64 <<< b) }, dev := s.dev.msi 64 }

/-- Record what the device answered. -/
def State.answered (s : State) (r : Reply) : State := { s with pkg := { s.pkg with reply := r } }

/-- Do the clocks and supplies of the dies run (R108)? -/
def Power.on (p : Power) : Bool := p.state = .p0 || p.state = .p1 || p.state = .p2

/-- Does the package run: RUNNING, in P0, P1 or P2 (R111, R117)? -/
def State.runs (s : State) : Bool := s.pkg.stat = .running && s.pwr.on

/-! ## The throttle (R109) -/

/-- CAP (R109). -/
def Power.cap (p : Power) : Nat := min p.freq p.thr

/-- P1 while CAP is below 16 (R109), or once a sensor has stood at 95 C in this window (R29); else P0. A package in another
state stays there (R108, R110). -/
def Power.settle (p : Power) : Power :=
  if p.state = .p0 || p.state = .p1 then { p with state := if p.cap = 16 && !p.hot then .p0 else .p1 } else p

/-- THR at the end of a window (R109). -/
def nextThr (thr : Nat) (beyond hot cool : Bool) : Nat :=
  if beyond || hot then max 8 (thr - 2) else if cool then min 16 (thr + 1) else thr

/-- The window's update of the power record (R28, R109). `hottest`: the highest sensor of the window in C. -/
def Power.window (p : Power) (mean hottest : Nat) : Power :=
  let thr := nextThr p.thr (mean > p.limit) (p.hot || hottest ≥ 95) (hottest < 90)
  Power.settle { p with
    thr, hot := false, mean, floorWin := if p.thr = 8 && thr = 8 then min 100 (p.floorWin + 1) else 0 }

/-- Has THR been 8 for 100 windows with the mean power still above the limit (R109)? -/
def Power.atFloor (p : Power) : Bool := p.floorWin = 100 && p.mean > p.limit

/-- THROTTLE-FLOOR (R109). -/
def State.checkFloor (s : State) : State := if s.pwr.atFloor then s.alert 2 else s

/-- `POWER_WINDOW_END` (R28, R109). -/
def execPowerWindowEnd (meanWatts hottest : Nat) (s : State) : Host.Outcome State Fault Refusal :=
  if s.pwr.on then .next (State.checkFloor { s with pwr := s.pwr.window meanWatts hottest }) else .next s

/-- The write of `PWRCAP`: limit and FREQ are clamped (R109). -/
def Power.writeCap (p : Power) (v : Nat) : Power :=
  Power.settle { p with limit := min 3600 (fld v 47 32), freq := max 8 (min 16 (fld v 4 0)) }

/-- A write of `PWRCAP`. -/
def State.writePwrcap (s : State) (v : Nat) : State := State.checkFloor { s with pwr := s.pwr.writeCap v }

/-- `PWRCAP_WRITE` (R109). -/
def execPwrcapWrite (value : DWord) (s : State) : Host.Outcome State Fault Refusal :=
  if s.pwr.on then .next (s.writePwrcap value.toNat) else .next s

/-- Is a temperature sensor of a die there (R29)? Compute dies are 0 to 7, memory base dies 8 to 23. -/
def sensorExists (die sensor : Nat) : Bool := (die < 8 && sensor < 16) || (8 ≤ die && die < 24 && sensor < 2)

/-- `SENSOR_AT_95C` (R29): P1 and a management alert; THR takes its step at the end of the window (R109). -/
def execSensorAt95c (die sensor : Nat) (s : State) : Host.Outcome State Fault Refusal :=
  if s.pwr.on && sensorExists die sensor then
    .next (State.alert { s with pwr := Power.settle { s.pwr with hot := true } } 1)
  else .next s

/-! ## P2 (R108) -/

/-- Is nothing issuing, no engine busy and no launch ready (R108)? -/
def Dev.quiet (m : Dev) : Bool :=
  m.nextSave = none && m.nextCore = none && m.deadlockedCore = none && !m.flipping && m.cmds = [] && m.peers = [] &&
  m.agenda = [] &&
  !(m.launches.any fun l => l.st = .ready) && !(m.clusters.any fun (x : Nat × Cluster) => x.2.mqueue ≠ [])

/-- `P2_ENTRY` (R108): resident waves go drowsy. -/
def execP2Entry (s : State) : Host.Outcome State Fault Refusal :=
  let m := s.dev.stash
  if s.pkg.stat = .running && (s.pwr.state = .p0 || s.pwr.state = .p1) && m.quiet then
    .next { s with pwr := { s.pwr with state := .p2 },
                   dev := { m with waves := m.waves.map fun (w : Wave) => { w with drowsy := true } } }
  else .next s

/-- `P2_EXIT` (R108, R110): a limit that arrived in P2 applies. -/
def execP2Exit (s : State) : Host.Outcome State Fault Refusal :=
  if s.pwr.state = .p2 then .next { s with pwr := Power.settle { s.pwr with state := .p0 } } else .next s

/-! ## What a reset keeps (R112-R114) -/

/-- The device part once all work has ended and every memory is zero: the retirement record stays (R35, R113,
R114); host memory is not the device's, and the schedule is the model's. R35 names no step by which Neroskeno service
undoes a retirement in RETURNED: the model has none, so that the record and `REPLACE` stay for ever (MODEL's choice, log 123). -/
def Dev.wiped (m : Dev) : Dev := { cap := m.cap, hostmem := m.hostmem, turns := m.turns, choices := m.choices }

/-- The power record after a reset (R109, R117): pins and straps as they are. -/
def Power.afterReset (p : Power) : Power :=
  { state := .p0, rstHigh := p.rstHigh, pwroff := p.pwroff, miSel := p.miSel, pulses := p.pulses }

/-- The security record after a reset: life cycle and keys stay, the debug level is NONE, `NONCE` is fresh (R103,
R107, R114). R105 speaks of a loss of power only: any reset before the burn is complete drops the pending change, and the
Neroskeno half of DEPLOYED to RETURNED with it (MODEL's choice, log 125 and log 126). -/
def Security.afterReset (x : Security) : Security :=
  { x with level := .none, appCtx := 0, nonces := x.nonces + 1, burning := none, returnAsked := false }

/-- The package record after a reset: syndromes, the count of resets and the `WIPESTAT` of the reset before stay
(R114-R116). -/
def Pkg.afterReset (p : Pkg) (cause : Nat) (ok : Bool) : Pkg :=
  { stat := if ok then .wiping else .resetHold, cause, wipestat := p.wipestat, resets := p.resets + 1,
    wipeErr := p.wipeErr, syn := p.syn, hubFailed := p.hubFailed, cxlUp := p.cxlUp }

/-- Does the boot ROM pass an image (R98)? -/
def bootPasses (x : BootImage) (counter : Nat) : Bool := x.fusedKey && x.verifies && decide (counter ≤ x.version)

/-- Do both images pass (R98)? -/
def Security.imagesOk (x : Security) : Bool := bootPasses x.secImage x.rollback && bootPasses x.hubImage x.rollback

/-- PACKAGE-RESET (R112): all work ends and the wipe starts. A package whose hub die failed returns only through
power-on (R119); one whose images fail the boot ROM stays in reset-hold (R98). -/
def State.packageReset (s : State) (cause : Nat) : State :=
  if s.pkg.hubFailed then s else
  { pwr := s.pwr.afterReset, sec := s.sec.afterReset, pkg := s.pkg.afterReset cause s.sec.imagesOk,
    dev := s.dev.wiped }

/-- `POWER_ON` (R26, R27, R98): RST_N is low until every supply is within its band, and the straps are sampled then; the boot
ROM finds two images and the fused counter, which never falls. -/
def execPowerOn (aonFirst rstHeld : Bool) (boot : BootInputs) (s : State) : Host.Outcome State Fault Refusal :=
  if s.pwr.state ≠ .off then .next s
  else if !aonFirst || !rstHeld then .fault .supplySequence
  else
    let x := { s.sec with rollback := max s.sec.rollback boot.rollback, secImage := boot.sec, hubImage := boot.hub }
    .next (State.packageReset { s with sec := x, pwr := { s.pwr with pwroff := false, rstHigh := true, miSel := boot.straps },
                                       pkg := { s.pkg with hubFailed := false, wipeErr := false } } 0)

/-- `POWER_REMOVAL` (R26, R105): what is not in fuses, in the store of R35 or in the syndromes is lost. -/
def execPowerRemoval (aonLast : Bool) (s : State) : Host.Outcome State Fault Refusal :=
  if s.pwr.state = .off then .next s
  else if !aonLast then .fault .supplySequence
  else .next { pwr := { s.pwr.afterReset with state := .off, pwroff := false, rstHigh := false },
               sec := { s.sec.afterReset with nonces := s.sec.nonces },
               pkg := { stat := .resetHold, wipestat := s.pkg.wipestat, resets := s.pkg.resets, syn := s.pkg.syn,
                        wipeErr := s.pkg.wipeErr, hubFailed := s.pkg.hubFailed, cxlUp := s.pkg.cxlUp },
               dev := s.dev.wiped }

/-- `RST_N_PULSE` (R27): of at least 10 us a reset, of less than 1 us ignored, between them open (log 7); a reset samples the
straps. -/
def execRstNPulse (pulse : RstPulse) (s : State) : Host.Outcome State Fault Refusal :=
  let sampled (s : State) : State := { s with pwr := { s.pwr with miSel := pulse.straps } }
  if s.pwr.state = .off || pulse.nanoseconds < 1000 then .next s
  else if pulse.nanoseconds ≥ 10000 then .next ((sampled s).packageReset 5)
  else
    let s' := { s with pwr := { s.pwr with pulses := s.pwr.pulses + 1 } }
    if Config.shortPulseResets s.pwr.pulses then .next ((sampled s').packageReset 5) else .next s'

/-- `PCIE_FUNDAMENTAL_RESET` (R112). -/
def execPcieFundamentalReset (link : Nat) (s : State) : Host.Outcome State Fault Refusal :=
  if s.pwr.state = .off || link > 1 then .next s else .next (s.packageReset 2)

/-- `RSTCTL_RESET` (R112, R117). -/
def execRstctlReset (value : DWord) (s : State) : Host.Outcome State Fault Refusal :=
  if s.pwr.on && value.getLsbD 0 then .next (s.packageReset 1) else .next s

/-- `D3HOT_ENTRY` (R108, R110): every context ends and the debug level is NONE. The event of a burn under way goes with the
agenda (MODEL's choice, log 126). -/
def execD3hotEntry (s : State) : Host.Outcome State Fault Refusal :=
  if s.pwr.on then
    .next { s with pwr := { s.pwr with state := .d3hot }, sec := { s.sec with level := .none, appCtx := 0 },
                   dev := s.dev.wiped }
  else .next s

/-- `D3HOT_EXIT` (R108, R112). -/
def execD3hotExit (s : State) : Host.Outcome State Fault Refusal :=
  if s.pwr.state = .d3hot then .next (s.packageReset 4) else .next s

/-- `WIPESTAT` (R115). -/
def wipeWord (done err : Bool) (cause resets ms : Nat) : DWord :=
  BitVec.ofNat 64 (b2n done * 2 ^ 63 + b2n err * 2 ^ 62 + cause % 16 * 2 ^ 58 + resets % 2 ^ 16 * 2 ^ 16 + ms % 2 ^ 16)

/-- `WIPE_COMPLETE` (R113, R115): RUNNING, or RESET-HOLD when a verification has failed since power was cycled. -/
def execWipeComplete (ms : Nat) (verified : Bool) (s : State) : Host.Outcome State Fault Refusal :=
  if s.pkg.stat ≠ .wiping then .next s else
  let err := s.pkg.wipeErr || !verified
  .next { s with pkg := { s.pkg with
    stat := if err then .resetHold else .running, wipeErr := err,
    wipestat := wipeWord verified err s.pkg.cause s.pkg.resets ms } }

/-! ## Fatal errors (R118, R119) -/

/-- The syndrome of a die (R118). In that of a die stopped by another's failure R118 gives V and CODE alone: KIND, FIRST, UNIT and
ADDR are 0 (MODEL's choice, log 129). -/
def synWord (failed first : Bool) (kind unit addr : Nat) : DWord :=
  BitVec.ofNat 64 (2 ^ 63 + if failed then 0x7F * 2 ^ 56 + kind % 16 * 2 ^ 52 + b2n first * 2 ^ 51 +
    unit % 64 * 2 ^ 45 + addr % 2 ^ 40 else 0)

/-- SYNDROME-CAPTURE (R118): every die writes its register, unless that holds a syndrome. -/
def captureSyn (syn : List DWord) (die : Nat) (first : Bool) (kind unit addr : Nat) : List DWord :=
  ((List.range 25).zip syn).map fun (x : Nat × DWord) =>
    if x.2.getLsbD 63 then x.2 else synWord (x.1 = die) first kind unit addr

/-- All work ends at once: no trap, no error queue entry (R105, R110, R118); every context has ended (R107). Memory and caches
stay as they are for the salvage window; a bias flip in progress is abandoned, and the ports stop. The event of a burn under way
goes with the agenda (R105; MODEL's choice, log 126). -/
def Dev.stopAll (m : Dev) : Dev :=
  { m with ended := BitVec.allOnes 64, ports := List.replicate 24 {}, turnLeft := none,
           launches := [], watch := [], savedWaves := [], holds := [], clusters := [], tag7 := {}, tuns := [],
           dies := m.dies.map fun (d : Die) => { d with tags := List.replicate 7 {}, spawns := [], reserved := [] },
           cmds := [], copyParties := [], peers := [], waves := [], wave := {}, frag := {}, agenda := [],
           host := { m.host with biasreq := m.host.biasreq &&& 0x7FFFFFFFFFFFFFFF#64 } }

/-- A fatal error (R118, R119). Dies are numbered as the syndrome registers: compute 0-7, memory 8-23, hub 24. FIRST marks the
first failure since the reset. Of the `WIPESTAT` of a wipe that it ends R119 gives ERR: DONE and WIPEMS are 0 (MODEL's choice,
log 129). -/
def State.fatal (s : State) (die kind unit addr : Nat) : State :=
  if !s.pwr.on then s else
  let pkg := { s.pkg with syn := captureSyn s.pkg.syn die (s.pkg.failed = 0) kind unit addr,
                          failed := s.pkg.failed ||| (1#25 <<< die), hubFailed := s.pkg.hubFailed || die = 24 }
  let s := { s with pkg, pwr := { s.pwr with pwroff := s.pwr.pwroff || die = 24 } }
  match s.pkg.stat with
  | .running => State.alert { s with pkg := { s.pkg with stat := .fatal }, dev := s.dev.stash.stopAll } 6
  | .wiping =>
    let pkg := { s.pkg with stat := .resetHold, wipeErr := true, wipestat := wipeWord false true s.pkg.cause s.pkg.resets 0 }
    State.alert { s with pkg } 6
  | .resetHold => s.alert 6
  | .salvage => if die = 24 then { s with pkg := { s.pkg with stat := .fatal } } else s
  | .fatal => s

/-- `FATAL_ERROR` (R118). -/
def execFatalError (die kind unit addr : Nat) (s : State) : Host.Outcome State Fault Refusal :=
  .next (s.fatal die kind unit addr)

/-- The die of a supply domain in the order of R25 (R118): 41, the link PHYs, and 42, `VDD_AON`, are taken with the hub
die. -/
def domainDie (d : Nat) : Nat := if d < 8 then d else if d < 24 then d else if d < 40 then d - 16 else 24

/-- `SUPPLY_OUT_OF_BAND` (R26): domains in the order of R118; 42 is `VDD_AON`, which R118 gives no number (log 113). -/
def execSupplyOutOfBand (domain : Nat) (s : State) : Host.Outcome State Fault Refusal :=
  if domain ≤ 42 then .next (s.fatal (domainDie domain) 4 domain 0) else .next s

/-- `SENSOR_AT_110C` (R29): FATAL, and the board is asked to remove power. -/
def execSensorAt110c (die sensor : Nat) (s : State) : Host.Outcome State Fault Refusal :=
  if s.pwr.on && sensorExists die sensor then
    let s := s.fatal die 5 sensor 0
    .next { s with pwr := { s.pwr with pwroff := true } }
  else .next s

end Sys2Proof.Machine
end

