-- ==== Sys2Proof/Machine/Attest.lean ====
section
/-!
DEFINITION. Machine/Attest.lean: the security processor: signed requests, debug unlock, life cycle, and SPDM
(04 R85, R86; 05 R98-R107).
-/
namespace Sys2Proof.Machine

/-! ## Signed requests (R103) -/

/-- Does the mailbox answer: link 1 has power (R108, R116)? -/
def State.mailbox (s : State) : Bool := s.pwr.on

/-- Do SERIAL, NONCE and the zero bytes of a request hold, and is its CTX zero where it names none (R103)? -/
def Security.requestOk (x : Security) (r : SignedRequest) (named : Bool) : Bool :=
  r.serial = Config.serial && r.nonce = Config.nonceValue x.nonces && r.zerosOk && (named || r.ctx = 0)

/-- Is the owner key there to verify under: installed in PROVISIONED (R99)? -/
def Security.ownerSigns (x : Security) (r : SignedRequest) : Bool :=
  r.signer = .owner && !r.sigZero && (x.ownerKey || x.life = .provisioned)
def neroskenoSigns (r : SignedRequest) : Bool := r.signer = .neroskeno && !r.sigZero

/-- The level that a TYPE 1 request is granted, if it is (R103, R106). R106 asks for no request for level NONE; a TYPE 1 request
that asks for it takes effect when Neroskeno or the owner has signed it (MODEL's choice, log 114). One for APP that names a
context of 64 or more, for which R106 states no outcome, is refused (MODEL's choice, log 127). -/
def Security.unlock (x : Security) (r : SignedRequest) : Option DebugLevel :=
  if x.burning.isSome || !x.requestOk r (r.arg = 1) then none else
  match r.arg with
  | 0 => if neroskenoSigns r || x.ownerSigns r then some .none else none
  | 1 => if (x.life = .provisioned || x.life = .deployed || x.life = .returned) && x.ownerSigns r && r.ctx < 64
      then some .app else none
  | 2 => if (x.life = .manufacture && (neroskenoSigns r || r.sigZero)) || (x.life = .returned && neroskenoSigns r)
      then some .full else none
  | _ => none

/-- Waves that the debugger halted go on once no level grants it. -/
def Dev.unhalt (m : Dev) : Dev :=
  { m with waves := m.waves.map fun (w : Wave) => { w with halted := false } }

/-- A request that an owner key verified shows that the key is installed (log 30). -/
def Security.sawOwner (x : Security) (r : SignedRequest) : Security := { x with ownerKey := x.ownerKey || x.ownerSigns r }

/-- `DEBUG_UNLOCK` (R103, R106, R107): `NONCE` is fresh after it, granted or not. A grant of APP in place of FULL or of APP for
another context leaves the waves of the other contexts that the debugger halted as they are (MODEL's choice, log 128). -/
def execDebugUnlock (r : SignedRequest) (s : State) : Host.Outcome State Fault Refusal :=
  if !s.mailbox then .next s else
  let x := { s.sec with nonces := s.sec.nonces + 1 }
  match s.sec.unlock r with
  | none => .next { s with sec := x }
  | some l =>
    .next { s with sec := { x.sawOwner r with level := l, appCtx := if l = .app then r.ctx else 0 },
                   dev := if l = .none then s.dev.stash.unhalt else { s.dev with ended := 0 } }

/-! ## Life cycle (R99, R101, R104, R105) -/

def lifeCode : LifeCycle → Nat
  | .manufacture => 0 | .provisioned => 1 | .deployed => 2 | .returned => 3 | .decommissioned => 4
def levelCode : DebugLevel → Nat
  | .none => 0 | .app => 1 | .full => 2

/-- What a TYPE 2 request brings (R104): nothing, the first half of DEPLOYED to RETURNED, or a change. -/
inductive Change where
  | refused | asked | to (l : LifeCycle)
deriving DecidableEq, Repr

/-- The table of R104. How long the first half of DEPLOYED to RETURNED stays pending it does not say: until the second half, another
change or a reset, whatever else is asked for in between (MODEL's choice, log 125). -/
def Security.change (x : Security) (r : SignedRequest) : Change :=
  if x.burning.isSome || !x.requestOk r false then .refused else
  match x.life, r.arg with
  | .manufacture, 1 => if neroskenoSigns r then .to .provisioned else .refused
  | .provisioned, 2 => if x.ownerSigns r then .to .deployed else .refused
  | .deployed, 3 =>
    if neroskenoSigns r then .asked else if x.ownerSigns r && x.returnAsked then .to .returned else .refused
  | .returned, 2 => if neroskenoSigns r then .to .deployed else .refused
  | .decommissioned, _ => .refused
  | l, 4 =>
    if x.ownerSigns r || (neroskenoSigns r && (l = .manufacture || l = .returned)) then .to .decommissioned else .refused
  | _, _ => .refused

/-- `LIFECYCLE_CHANGE` (R103-R105): an accepted change ends every context, and the fuses are burnt. -/
def execLifecycleChange (r : SignedRequest) (s : State) : Host.Outcome State Fault Refusal :=
  if !s.mailbox then .next s else
  let x := { s.sec with nonces := s.sec.nonces + 1 }
  match s.sec.change r with
  | .refused => .next { s with sec := x }
  | .asked => .next { s with sec := { x with returnAsked := true } }
  | .to l => .next { s with sec := { x.sawOwner r with burning := some l },
                            dev := s.dev.stash.stopAll.push .lifecycleBurnDone }

/-- The keys of a life-cycle state that has just taken effect (R99, R101). -/
def Security.enter (x : Security) (l : LifeCycle) : Security :=
  match l with
  | .provisioned => { x with life := l, identityKey := true, testKey := false }
  | .decommissioned => { x with life := l, identityKey := false, testKey := false }
  | _ => { x with life := l }

/-- `LIFECYCLE_BURN_DONE` (R105, R112); a security processor on a failed hub die burns nothing (R119). -/
def execLifecycleBurnDone (s : State) : Host.Outcome State Fault Refusal :=
  match s.sec.burning with
  | none => .next s
  | some l =>
    if s.pwr.on && !s.pkg.hubFailed then .next (State.packageReset { s with sec := s.sec.enter l } 3) else .next s

/-! ## SPDM (R85, R86, R101) -/

/-- Does the security processor hold a signing key: the identity key, or the test key in MANUFACTURE (R101)? -/
def Security.signs (x : Security) : Bool :=
  match x.life with
  | .manufacture => x.testKey
  | .decommissioned => false
  | _ => x.identityKey

/-- An SPDM answer, while the DOE mailbox has power (R116). -/
def State.spdm (s : State) (r : Reply) : Host.Outcome State Fault Refusal :=
  if s.mailbox then .next (s.answered r) else .next s

/-- `GET_VERSION`: SPDM 1.2 and 1.3 (R85). -/
def execGetVersion (s : State) : Host.Outcome State Fault Refusal := s.spdm (.spdm 0x84 [0x12, 0x13] false)
/-- `GET_CAPABILITIES` (R85). Its flags are those of the SPDM standard (log 9). -/
def execGetCapabilities (s : State) : Host.Outcome State Fault Refusal := s.spdm (.spdm 0xE1 [Config.replyByte 0xE1] false)
/-- `NEGOTIATE_ALGORITHMS`: ECDSA P-384 and SHA-384 only (R85). -/
def execNegotiateAlgorithms (s : State) : Host.Outcome State Fault Refusal := s.spdm (.spdm 0xE3 [0x80, 0x02] false)
/-- `GET_DIGESTS`: the mask of certificate slots, empty without a signing key (R101). -/
def execGetDigests (s : State) : Host.Outcome State Fault Refusal :=
  s.spdm (.spdm 0x81 [if s.sec.signs then 1 else 0] false)
/-- `GET_CERTIFICATE`: the chain of the identity key, or of the test key; it names the state (R85, R99, R101). -/
def execGetCertificate (s : State) : Host.Outcome State Fault Refusal :=
  s.spdm (if s.sec.signs then .spdm 0x82 [BitVec.ofNat 8 (lifeCode s.sec.life)] false else .spdmUnsupported)
/-- `CHALLENGE` (R85, R101). -/
def execChallenge (s : State) : Host.Outcome State Fault Refusal :=
  s.spdm (if s.sec.signs then .spdm 0x83 [] true else .spdmUnsupported)

/-- Measurement block 3 (R102). -/
def State.lifeByte (s : State) : Nat := lifeCode s.sec.life * 32 + levelCode s.level * 8

/-- The measurement blocks (R86). -/
def State.measurement (s : State) (index : Nat) : Option (List Byte) :=
  match index with
  | 1 => some (leBytes 48 Config.hubDigest.toNat)
  | 2 => some (leBytes 48 Config.secDigest.toNat)
  | 3 => some [BitVec.ofNat 8 s.lifeByte]
  | 4 => some (leBytes 8 s.pkg.wipestat.toNat)
  | 5 => some (leBytes 8 s.dev.cap.capsum)
  | _ => none

/-- `GET_MEASUREMENTS` (R86, R101, R116): one block, or all five under index 255; a signature needs a key. -/
def execGetMeasurements (index : Nat) (signed : Bool) (s : State) : Host.Outcome State Fault Refusal :=
  let blocks := if index = 255 then some ([1, 2, 3, 4, 5].flatMap fun i => (s.measurement i).getD [])
    else s.measurement index
  s.spdm (if signed && !s.sec.signs then .spdmUnsupported
    else match blocks with
      | some b => .spdm 0xE0 b signed
      | none => .error)

/-- The request codes of SPDM sessions: KEY_EXCHANGE, FINISH, PSK_EXCHANGE, PSK_FINISH, HEARTBEAT, KEY_UPDATE and END_SESSION
(log 9). -/
def sessionCodes : List Nat := [0xE4, 0xE5, 0xE6, 0xE7, 0xE8, 0xE9, 0xEC]

/-- `SPDM_UNSUPPORTED_REQUEST` (R85): a session request is not answered; any other code gets UnsupportedRequest. -/
def execSpdmUnsupportedRequest (code : Nat) (s : State) : Host.Outcome State Fault Refusal :=
  if sessionCodes.contains code then .next s else s.spdm .spdmUnsupported

end Sys2Proof.Machine
end

