-- ==== Sys2Proof/Machine/LaneConvert.lean ====
section
/-!
DEFINITION. Machine/LaneConvert.lean: conversions between formats with the outlier list, and logarithmic products
(22 R450-R456; 14 R293, R298, R305, R306, R311-R313; 17 R354).
-/
namespace Sys2Proof.Machine

/-! ## One element (R305, R306, R451) -/

/-- Is a destination code narrow (R305)? -/
def narrowFmt (c : Nat) : Bool := 3 ≤ c && c ≤ 12

/-- OSCALE as a value; is it NaN or infinite (R305)? -/
def FmtReg.scale (x : FmtReg) : Num := f32.decode x.oscale.toNat
def FmtReg.badScale (x : FmtReg) : Bool :=
  match x.scale with
  | .fin _ _ _ => false
  | _ => true

/-- What a conversion is to: a 32-bit integer (DINT), or a format; its mode. -/
structure ConvTo where
  dint : Bool := false
  sgn  : Bool := false
  fc   : Nat
  rm   : Nat
  sat  : Bool
deriving DecidableEq, Repr

/-- Range of a 32-bit integer. -/
def range32 (sgn : Bool) : Int × Int := if sgn then (-(2 ^ 31 : Nat), (2 ^ 31 - 1 : Nat)) else (0, (2 ^ 32 - 1 : Nat))

/-- The element written, and the overflowing value if the conversion is narrow and overflows. -/
def convElem (x : FmtReg) (d : ConvTo) (v : Num) : Nat × Option Num :=
  if d.dint then (wrapN 32 (toIntClamped d.rm (range32 d.sgn).1 (range32 d.sgn).2 v), none)
  else if narrowFmt d.fc then
    match narrowTo d.fc d.rm d.sat (x.scale.mul v) with
    | .elem b => (b, none)
    | .beyond u => (if x.ovfmode = 1 then zeroElem d.fc else satElem d.fc u, some u)
  else
    let y := wideTo d.fc d.rm v
    match ffmtOf d.fc with
    | some ff => (if d.sat then satFloat ff y else y, none)
    | none => (y, none)

/-- Does SAT change the value of the result (R353)? -/
def convSatChanges (x : FmtReg) (d : ConvTo) (v : Num) : Bool :=
  d.sat && !d.dint &&
  (if narrowFmt d.fc then
    match narrowTo d.fc d.rm false (x.scale.mul v) with
    | .beyond _ => true
    | .elem b => let y := decodeFmt d.fc b; y.isNan || y.lt .zero || numOne.lt y
  else match ffmtOf d.fc with
    | some ff => satChanges ff (wideTo d.fc d.rm v)
    | none => false)

/-- The element of a tangent: converted to nearest even, with overflow saturating (R354). -/
def convTangent (x : FmtReg) (fc : Nat) (t : Num) : Nat :=
  if narrowFmt fc then
    match narrowTo fc 0 false (x.scale.mul t) with
    | .elem b => b
    | .beyond u => satElem fc u
  else wideTo fc 0 t

/-- Bits of the element of format `c` at a position of a lane. -/
def elemAt (c pos a : Nat) : Nat := a / 2 ^ pos % 2 ^ fmtBits c

/-- A T2 element that reads 0b10 (R293). -/
def badT2 (c bits : Nat) : Bool := c = 12 && bits % 4 = 2

/-! ## The outlier list (R311-R313, R452) -/

/-- An outlier entry of `CVT` or `PACK` as its low and high doubleword (R312, R452). -/
def laneOutlier (w : Wave) (l dpos fc : Nat) (v : Num) : List Byte :=
  leBytes 8 (f32.round 0 v * 2 ^ 32 + l * 2 ^ 10 + dpos * 2 ^ 4 + fc) ++ leBytes 8 (w.oltag.toNat + 4 * l)

/-- Append entries to the wave's outlier list (R313, R452): an error is the trap. -/
def Dev.appendLane (m : Dev) (eff : Mask) (entries : List (List Byte)) : Except Dev Dev :=
  let base := m.wave.olbase.toNat
  let cap := m.wave.olcap.toNat % 2 ^ 32
  let fail (m : Dev) (c : Cause) (a : Nat) : Dev := m.trap { cause := c, kf := some eff, lf := everyLane eff m.wave.wlanes a }
  if cap = 0 then .error (m.trap { cause := .outlierFull, kf := some eff }) else
  match m.check base (16 + 16 * cap) { windows := [.global], wr := true } with
  | (.bad _ c a, m) => .error (fail m c a)
  | (.peer, m) => .error (fail m .protection base)
  | (.ok ss, m) =>
    let at_ (off : Nat) : Access := { addr := base + off, loc := ((Span.drop ss off).head?).map fun (x : Span) => x.loc, use := .memory }
    let n := entries.length
    let ((old, bad), m) := m.irrev.atomicAt (at_ 0) 8 3 fun x => if x + n ≤ cap then some (x + n) else none
    if bad then .error (fail m .poison base)
    else if old + n > cap then .error (m.trap { cause := .outlierFull, kf := some eff })
    else .ok (((List.range n).zip entries).foldl
      (fun m (x : Nat × List Byte) => m.storeAt (at_ (16 + 16 * (old + x.1))) true 3 x.2) m)

/-! ## Conversions of lanes -/

/-- What a conversion makes of a lane: the result, the overflow, and whether a T2 source read 0b10. -/
structure LaneConv where
  res  : LaneRes
  beyond : Option Num := none
  bad  : Bool := false
deriving DecidableEq, Repr

/-- A conversion over the lanes of `eff`: the checks of R451 and R452, then the writes. -/
def Dev.laneConvert (m : Dev) (opc : Nat) (f : LaneF) (fc dpos : Nat) (narrow : Bool) (g : FmtReg → LaneIn → LaneConv) : Dev :=
  match m.laneStart opc f with
  | .error m => m
  | .ok (eff, m) =>
    let x := m.frag.fmt
    if narrow && x.badScale then m.trap { cause := .formatInvalid, kf := some eff } else
    let rs := (Mask.lanes eff m.wave.wlanes).map fun l => (l, g x (m.laneIn opc f l))
    let overs := rs.filterMap fun (r : Nat × LaneConv) => r.2.beyond.map fun v => (r.1, v)
    let m := if rs.any fun (r : Nat × LaneConv) => r.2.bad then m.setCtl 2 else m
    let finish (m : Dev) : Dev :=
      m.laneFinish opc f (laneOuts f.vd.toNat false (rs.map fun (r : Nat × LaneConv) => (r.1, r.2.res)))
    match overs with
    | [] => finish m
    | (l0, _) :: _ =>
      if x.ovfmode = 2 then m.trap { cause := .mxOverflow, stval := l0, kf := some eff }
      else if x.ovfmode = 1 then
        match m.appendLane eff (overs.map fun (o : Nat × Num) => laneOutlier m.wave o.1 dpos fc o.2) with
        | .error m => m
        | .ok m => finish m
      else finish m

/-- The selectors of `CVT` (R450). -/
def cvtSpos (f : LaneF) : Nat := f.imm.toNat % 32
def cvtDpos (f : LaneF) : Nat := f.imm.toNat / 32 % 32
def cvtSfc (f : LaneF) : Nat := f.imm.toNat / 1024 % 16
def cvtSint (f : LaneF) : Bool := f.imm.getLsbD 14
def cvtDint (f : LaneF) : Bool := f.imm.getLsbD 15
def cvtSgn (f : LaneF) : Bool := f.imm.getLsbD 16

/-- A 32-bit integer as a value. -/
def intNum (sgn : Bool) (a : Nat) : Num :=
  let v := if sgn then sextN 32 a else (a % 2 ^ 32 : Nat)
  .fin (decide (v < 0)) v.natAbs 0

/-- `CVT` of one lane (R451, R354). -/
def cvtLane (f : LaneF) (x : FmtReg) (i : LaneIn) : LaneConv :=
  let d : ConvTo := { dint := cvtDint f, sgn := cvtSgn f, fc := f.ty.toNat, rm := rmCode f, sat := satBit f }
  let bits := elemAt (cvtSfc f) (cvtSpos f) i.a
  let v := if cvtSint f then intNum (cvtSgn f) i.a else decodeFmt (cvtSfc f) bits
  let (y, beyond) := convElem x d v
  let none' := cvtSint f || cvtDint f || fmtInteger (cvtSfc f) || fmtInteger d.fc
  let zero := convSatChanges x d v || (beyond.isSome && x.ovfmode = 1)
  { res := { v := y * 2 ^ cvtDpos f,
             t := i.t.map fun (t : Nat × Nat × Nat) =>
               if none' then 0
               else (if zero then zeroElem d.fc
                     else convTangent x d.fc (decodeFmt (cvtSfc f) (elemAt (cvtSfc f) (cvtSpos f) t.1))) * 2 ^ cvtDpos f },
    beyond, bad := !cvtSint f && badT2 (cvtSfc f) bits }

/-- `CVT` (R450-R452). -/
def execCvt (f : LaneF) (s : State) : Host.Outcome State Fault Refusal :=
  s.run fun m => m.laneConvert 0x080 f f.ty.toNat (cvtDpos f) (narrowFmt f.ty.toNat && !cvtDint f) (cvtLane f)

/-- A lane with the element of format `c` at a position replaced. -/
def insertElem (c pos b e : Nat) : Nat :=
  b % 2 ^ pos + e % 2 ^ laneWidth c * 2 ^ pos + b / 2 ^ (pos + laneWidth c) * 2 ^ (pos + laneWidth c)

/-- `PACK` of one lane (R453, R354). -/
def packLane (f : LaneF) (x : FmtReg) (i : LaneIn) : LaneConv :=
  let d : ConvTo := { fc := f.ty.toNat, rm := rmCode f, sat := satBit f }
  let pos := f.imm.toNat % 32
  let v := f32.decode i.a
  let (y, beyond) := convElem x d v
  let zero := convSatChanges x d v || (beyond.isSome && x.ovfmode = 1)
  { res := { v := insertElem d.fc pos i.b y,
             t := i.t.map fun (t : Nat × Nat × Nat) =>
               insertElem d.fc pos t.2.1 (if zero then zeroElem d.fc else convTangent x d.fc (f32.decode t.1)) },
    beyond }

/-- `PACK` (R453). -/
def execPack (f : LaneF) (s : State) : Host.Outcome State Fault Refusal :=
  s.run fun m => m.laneConvert 0x081 f f.ty.toNat (f.imm.toNat % 32) (narrowFmt f.ty.toNat) (packLane f)

/-- `UNPACK` of one lane (R454, R354). -/
def unpackLane (f : LaneF) (_ : FmtReg) (i : LaneIn) : LaneConv :=
  let c := f.ty.toNat
  let get (a : Nat) : Nat := elemAt c (f.imm.toNat % 32) a
  { res := { v := f32.round 0 (decodeFmt c (get i.a)),
             t := i.t.map fun (t : Nat × Nat × Nat) => f32.round 0 (decodeFmt c (get t.1)) },
    bad := badT2 c (get i.a) || i.t.any fun (t : Nat × Nat × Nat) => badT2 c (get t.1) }

/-- `UNPACK` (R454). -/
def execUnpack (f : LaneF) (s : State) : Host.Outcome State Fault Refusal :=
  s.run fun m => m.laneConvert 0x082 f 0 0 false (unpackLane f)

/-! ## Logarithmic products (R298, R455, R456) -/

/-- Width and count of the elements of a lane (R455). -/
def logElems (c : Nat) : Nat × Nat := if c = 10 then (8, 4) else if c = 11 then (4, 8) else (6, 5)

/-- The product of two codes (R298): NaN, zero, or a sign and steps. -/
inductive LogProd where
  | nan
  | zero
  | code (neg : Bool) (l : Int)
deriving DecidableEq, Repr

def logProduct (c : Nat) (x : FmtReg) (a b : Nat) : LogProd :=
  let w := (logShape c).1
  let la := logSteps c a
  let lb := logSteps c b
  let na := (a / 2 ^ w) % 2 = 1
  let nb := (b / 2 ^ w) % 2 = 1
  if (la = logZero c && na) || (lb = logZero c && nb) then .nan
  else if la = logZero c || lb = logZero c then .zero
  else .code (na != nb) (la + lb + (x.ascale.toInt + x.bscale.toInt) * ((logShape c).2 : Nat))

/-- The exact value of a product. -/
def LogProd.num (c : Nat) : LogProd → Num
  | .nan => .nan
  | .zero => .zero
  | .code n l => logValue c n l

/-- The code that `LMUL` writes (R456). -/
def LogProd.element (c : Nat) : LogProd → Nat
  | .nan => canonicalNan c
  | .zero => zeroElem c
  | .code n l =>
    if l > -(logZero c) - 1 then logEncode c n (-(logZero c) - 1)
    else if l ≤ logZero c then zeroElem c else logEncode c n l

/-- `LMUL` (R455, R456). -/
def execLmul (f : LaneF) (s : State) : Host.Outcome State Fault Refusal :=
  s.run fun m =>
    let x := m.frag.fmt
    let c := f.ty.toNat
    let w := (logElems c).1
    m.laneOp 0x083 f fun i =>
      { v := ofElems w (logElems c).2 fun k => (logProduct c x (elem w i.a k) (elem w i.b k)).element c }

/-- The sum of the products of a lane, rounded to F32 (R456). -/
def logSum (f : LaneF) (x : FmtReg) (i : LaneIn) : Nat :=
  let c := f.ty.toNat
  let w := (logElems c).1
  let sum := (List.range (logElems c).2).foldl
    (fun (t : Num) k => t.addS false ((logProduct c x (elem w i.a k) (elem w i.b k)).num c)) .zero
  let y := f32.round (rmCode f) (if sum.isZero then .zero else sum)
  if satBit f then satFloat f32 y else y

/-- `LSUM` (R455, R456). -/
def execLsum (f : LaneF) (s : State) : Host.Outcome State Fault Refusal :=
  s.run fun m =>
    let x := m.frag.fmt
    m.laneOp 0x084 f fun i => { v := logSum f x i }

end Sys2Proof.Machine
end

