-- ==== Sys2Proof/Machine/Matrix.lean ====
section
/-!
DEFINITION. Machine/Matrix.lean: the matrix queue, operands, accumulators with their pairing stage, plates, and
the matrix instructions (15 R315-R332; 25 R503-R511).
-/
namespace Sys2Proof.Machine

/-! ## Shapes (R317) -/

/-- The row of R317 that a format stands in. -/
def fmtClass (c : Nat) : Nat :=
  match c with
  | 0 | 15 => 0
  | 1 | 2 => 1
  | 13 | 14 => 2
  | 3 | 4 | 5 | 6 | 10 => 3
  | 9 => 4
  | 7 | 8 => 5
  | _ => 6

/-- K per K-block. -/
def blockK (c : Nat) : Nat := [16, 32, 32, 64, 128, 128, 256].getD (fmtClass c) 16
/-- Terms per K-block, and products per term. -/
def blockTerms (c : Nat) : Nat := if fmtClass c = 0 then 16 else 32
def termProducts (c : Nat) : Nat := blockK c / blockTerms c
/-- Plates per K-block. -/
def blockPlates (c : Nat) : Nat := if c = 9 || c = 11 then 2 else 1
/-- Bytes of a row of A, of a row of B or of a drained row. -/
def rowBytesA (c : Nat) : Nat := blockK c * laneWidth c / 8
def rowBytesB (c : Nat) : Nat := 128 * laneWidth c / 8
/-- Is the format logarithmic? -/
def fmtLog (c : Nat) : Bool := c = 9 || c = 10 || c = 11
/-- May A and B have these formats (R317)? -/
def fmtPair (a b : Nat) : Bool := fmtClass a = fmtClass b && (!(fmtLog a || fmtLog b) || a = b)

def FmtReg.a (x : FmtReg) : Nat := x.afmt.toNat
def FmtReg.b (x : FmtReg) : Nat := x.bfmt.toNat
def FmtReg.d (x : FmtReg) : Nat := x.dfmt.toNat
/-- Rows of D (R307). -/
def FmtReg.rowCount (x : FmtReg) : Nat := 32 * (x.rows.toNat + 1)

/-- Visible accumulators and plates under `k` tangents, and the physical units of one (R332). -/
def accCount (k : Nat) : Nat := 8 / (k + 1)
def plateCount (k : Nat) : Nat := 16 / (k + 1)
def accUnits (k i : Nat) : List Nat := (List.range (k + 1)).map fun j => i + j * accCount k

/-! ## The pairing stage (R326, R327) -/

/-- An accumulator element: S in A24, the residue in F32, the P and N queues in A24 (R326). -/
structure PairElem where
  s : Nat := 0
  r : Nat := 0
  p : List Nat := []
  n : List Nat := []
deriving DecidableEq, Repr

/-- The 32-byte record of an element (R330). -/
def PairElem.record (e : PairElem) : Nat :=
  let q (l : List Nat) (at_ : Nat) : Nat := ((List.range 4).map fun i => l.getD i 0 * 2 ^ (at_ + 24 * i)).sum
  e.s + e.p.length * 2 ^ 24 + e.n.length * 2 ^ 27 + e.r * 2 ^ 32 + q e.p 64 + q e.n 160

/-- The element of a record. -/
def pairOf (x : Nat) : PairElem :=
  let q (at_ n : Nat) : List Nat := (List.range n).map fun i => fld x (at_ + 24 * i + 23) (at_ + 24 * i)
  { s := fld x 23 0, r := fld x 63 32, p := q 64 (fld x 26 24), n := q 160 (fld x 29 27) }

/-- Is a record one that `MSAVE` can write (R331)? -/
def recordOk (x : Nat) : Bool :=
  let e := pairOf x
  let pos (c : Nat) : Bool := Num.lt .zero (a24.decode c)
  let neg (c : Nat) : Bool := (a24.decode c).lt .zero
  fld x 26 24 ≤ 4 && fld x 29 27 ≤ 4 && fld x 31 30 = 0 &&
  (match a24.decode e.s with | .fin _ _ _ => true | _ => false) && e.p.all pos && e.n.all neg

/-- The bound B (R309, R326). -/
def pairBound (x : FmtReg) : Num :=
  if x.accrange = 0xFF then .fin false a24.largest.1 a24.largest.2 else .fin false 1 x.accrange.toNat

/-- The queue that a release selects: P (true) or N; none when both are empty. -/
def PairElem.select (e : PairElem) : Option Bool :=
  let neg := (a24.decode e.s).lt .zero
  if neg then (if e.p ≠ [] then some true else if e.n ≠ [] then some false else none)
  else (if e.n ≠ [] then some false else if e.p ≠ [] then some true else none)

/-- A head moves to the residue. -/
def PairElem.toResidue (e : PairElem) (h : Num) : PairElem :=
  { e with r := f32.round 0 ((f32.decode e.r).addS false h) }

/-- The head of a queue, and the element without it. -/
def PairElem.head (e : PairElem) (p : Bool) : Num := a24.decode ((if p then e.p else e.n).headD 0)
def PairElem.pop (e : PairElem) (p : Bool) : PairElem :=
  if p then { e with p := e.p.tail } else { e with n := e.n.tail }

/-- Action 1 on a selected queue: the head is absorbed if the exact sum stays within the bound. -/
def PairElem.absorb (bound : Num) (e : PairElem) (p : Bool) : Option PairElem :=
  let sum := (a24.decode e.s).addS false (e.head p)
  if sum.isNan || bound.lt sum.abs then none else some { e.pop p with s := a24.round 0 sum }

/-- Action 1 (R326). -/
def PairElem.release (bound : Num) (e : PairElem) : PairElem :=
  match e.select with
  | some p => (e.absorb bound p).getD e
  | none => e

/-- Append a term to a queue; the head of a full queue moves to the residue first (R326). -/
def PairElem.append (e : PairElem) (p : Bool) (t : Nat) : PairElem :=
  let full := (if p then e.p else e.n).length ≥ 4
  let e := if full then (e.toResidue (e.head p)).pop p else e
  if p then { e with p := e.p ++ [t] } else { e with n := e.n ++ [t] }

/-- Action 2 (R326): the arrival of a term. -/
def PairElem.arrive (e : PairElem) (t : Nat) : PairElem :=
  let x := a24.decode t
  if x.isNan then { e with r := canonicalNan 0 }
  else if Num.lt .zero x then e.append true t
  else if x.lt .zero then e.append false t else e

/-- Action 3 (R326): the one-sided tail. -/
def PairElem.tail (e : PairElem) : PairElem :=
  if e.p.length = 4 && e.n = [] then (e.toResidue (e.head true)).pop true
  else if e.n.length = 4 && e.p = [] then (e.toResidue (e.head false)).pop false else e

/-- A term slot (R326). -/
def PairElem.slot (bound : Num) (e : PairElem) (t : Nat) : PairElem := ((e.release bound).arrive t).tail

/-- `MDRAIN` empties the queues (R327): at most `n` heads. -/
def PairElem.drain (bound : Num) : Nat → PairElem → PairElem
  | 0, e => e
  | n + 1, e =>
    match e.select with
    | none => e
    | some p =>
      match e.absorb bound p with
      | some e => e.drain bound n
      | none => ((e.toResidue (e.head p)).pop p).drain bound n

/-- The value that is drained (R327). -/
def PairElem.value (e : PairElem) : Num := f32.decode (f32.round 0 ((a24.decode e.s).addS false (f32.decode e.r)))

/-! ## Accumulators and plates (R329, R330) -/

/-- Element (row, column) of an accumulator. -/
def Acc.elem (a : Acc) (r c : Nat) : PairElem := pairOf (a.elems.get (128 * r + c)).toNat
def Acc.setElem (a : Acc) (r c : Nat) (e : PairElem) : Acc :=
  { a with elems := a.elems.put (128 * r + c) (BitVec.ofNat 256 e.record) }

def Dev.acc (m : Dev) (cl i : Nat) : Acc := (m.cluster cl).accs.getD i {}
def Dev.setAcc (m : Dev) (cl i : Nat) (a : Acc) : Dev :=
  let x := m.cluster cl
  m.setCluster cl { x with accs := setAt {} x.accs i a }
def Dev.plate (m : Dev) (cl p : Nat) : Plate := (m.cluster cl).plates.getD p {}
def Dev.setPlate (m : Dev) (cl p : Nat) (a : Plate) : Dev :=
  let x := m.cluster cl
  m.setCluster cl { x with plates := setAt {} x.plates p a }

/-- A foreign unit among accumulators of a cluster (R329). -/
def Dev.foreignAcc (m : Dev) (cl ctx : Nat) (us : List Nat) : Option Nat :=
  us.find? fun i => (m.acc cl i).owned && (m.acc cl i).tag ≠ ctx

/-- Take the units that nobody owns (R329). -/
def Dev.takeAccs (m : Dev) (cl ctx : Nat) (us : List Nat) : Dev :=
  us.foldl (fun m i => if (m.acc cl i).owned then m else m.setAcc cl i { owned := true, tag := ctx }) m

/-- The save slots of a context for a cluster (R330): of an accumulator, and of a plate. -/
def Dev.saveBlock (m : Dev) (ctx cl : Nat) : Nat := fld (m.ctxDword ctx 0x28) 48 0 + cl * 2 ^ 23
def Dev.accSlot (m : Dev) (ctx cl i : Nat) : Nat := m.saveBlock ctx cl + i * 2 ^ 19
def Dev.plateSlot (m : Dev) (ctx cl p : Nat) : Nat := m.saveBlock ctx cl + 2 ^ 22 + p * 2 ^ 14

/-- A foreign plate is written to its owner's slot (R329); a slot that does not translate ends the owner's
context, and the plate then starts at zero: is it so? -/
def Dev.savePlate (m : Dev) (cl p : Nat) (w : Wave) : Bool × Dev :=
  let a := m.plate cl p
  match m.engineSpans a.tag (m.plateSlot a.tag cl p) 8200 false true with
  | .ok ss => (false, m.storeEngine cl a.tag ss (clean (a.bytes.getBytes 0 8192 ++ leBytes 8 1)))
  | .error c => (true, m.endContext a.tag (causeCode c) w)

/-- An access of context `ctx` to a plate (R329). An error is the machine after the end of the accessing
context; the plate then starts at zero. `w`: the wave that accesses. -/
def Dev.ownPlate (m : Dev) (cl p ctx : Nat) (w : Wave) : Except Dev Dev :=
  let a := m.plate cl p
  if a.owned && a.tag = ctx then .ok m
  else if !a.owned then .ok (m.setPlate cl p { owned := true, tag := ctx })
  else
    let (zero, m) := m.savePlate cl p w
    let m := m.setPlate cl p { owned := true, tag := ctx }
    if zero then .ok m else
    match m.engineSpans ctx (m.plateSlot ctx cl p) 8200 true true with
    | .error c => .error (m.endContext ctx (causeCode c) w)
    | .ok ss =>
      let bs := (m.engineBytes cl ctx ss).map (·.1)
      if ofBytes (bs.drop 8192) ≠ 1 then .ok m
      else
        let m := m.storeEngine cl ctx (Span.drop ss 8192) (clean (leBytes 8 0))
        .ok (m.setPlate cl p { owned := true, tag := ctx, bytes := Cells.putBytes [] 0 (bs.take 8192) })

/-- The same for several plates. -/
def Dev.ownPlates (m : Dev) (cl ctx : Nat) (w : Wave) : List Nat → Except Dev Dev
  | [] => .ok m
  | p :: t =>
    match m.ownPlate cl p ctx w with
    | .ok m => m.ownPlates cl ctx w t
    | .error m => .error m

/-! ## Operands (R318-R320) -/

/-- Does a descriptor keep R320 for rows of `rowb` bytes? -/
def spadDescOk (d rowb : Nat) : Bool :=
  fld d 63 36 = 0 && fld d 35 32 ≤ 5 && fld d 31 16 % 16 = 0 && fld d 15 0 % 16 = 0 && fld d 15 0 ≥ rowb &&
  rowb % (16 * 2 ^ fld d 35 32) = 0

/-- The operand of a base and a descriptor. -/
def spadOf (base d : Nat) : MOperand := .spad base (fld d 31 16) (fld d 15 0) (fld d 35 32)

/-- The operand of tangent `j` (R332): the shadow of a plate, or `j * TSTRIDE` bytes further. -/
def MOperand.tangent (o : MOperand) (k : Nat) (stride : DWord) (j : Nat) : MOperand :=
  match o with
  | .plate p => .plate (p + j * plateCount k)
  | .spad b t r x => .spad (wrapN 64 (b + j * stride.toInt)) t r x

/-- Bytes of the span of an operand (R320): `blocks` K-blocks of `rows` rows of `rowb` bytes. -/
def spanBytes (o : MOperand) (blocks rows rowb : Nat) : Nat :=
  match o with
  | .plate _ => 0
  | .spad _ t r _ => if blocks = 0 then 0 else (blocks - 1) * t + (rows - 1) * r + rowb

/-- The check of the spans of an operand and its tangents at issue (R320, R332); `js`: which of them. -/
def Dev.checkSpad (m : Dev) (o : MOperand) (n : Nat) (wr : Bool) : List Nat → Except Dev Dev
  | [] => .ok m
  | j :: t =>
    match o.tangent m.wave.tang m.wave.tstride j with
    | .plate _ => .ok m
    | .spad b _ _ _ =>
      if n = 0 then .ok m
      else if windowOf b ≠ some .cluster || b % 128 ≠ 0 then .error (m.trapCheck .protection b)
      else match m.checkRange b n { windows := [.cluster], rd := !wr, wr } with
        | .error m => .error m
        | .ok (_, m) => m.checkSpad o n wr t

/-- The place of chunk `c` of row `i` of K-block `j` (R320) of a scratchpad operand in cluster `cl`: its pointer and
its place in an array. -/
def chunkPtr (base tp rp rot j i c : Nat) : Nat := base + j * tp + i * rp + 16 * (c ^^^ (i % 2 ^ rot))
def chunkLoc (cl ptr : Nat) : Loc := .arr (13 * cl + windowOff ptr / 2 ^ 20) (ptr % 2 ^ 20)

/-- The plates that the first `n` bytes of K-block `j` of a plate operand lie in (R318, R319). -/
def platesOf (p j per n : Nat) : List Nat := (List.range ((n + 8191) / 8192)).map fun i => p + j * per + i

/-- The rows of K-block `j` of an operand as numbers (R318, R320); its plates are the context's own already, and array bytes
of another context read zero (R13). -/
def Dev.operandRows (m : Dev) (cl ctx : Nat) (o : MOperand) (j per rows rowb : Nat) : List Nat :=
  (List.range rows).map fun i =>
    match o with
    | .spad b t r x =>
      ofBytes ((List.range (rowb / 16)).flatMap fun c =>
        (m.engineBytes cl ctx [{ loc := chunkLoc cl (chunkPtr b t r x j i c), len := 16 }]).map (·.1))
    | .plate p =>
      ofBytes ((List.range rowb).map fun b =>
        let at_ := i * rowb + b
        (m.plate cl (p + j * per + at_ / 8192)).bytes.get (at_ % 8192))

/-- The plates that a step reads of an operand. -/
def MOperand.plates (o : MOperand) (j per n : Nat) : List Nat :=
  match o with
  | .plate p => platesOf p j per n
  | .spad _ _ _ _ => []

/-- Element `k` of a row (R294). -/
def rowElem (c row k : Nat) : Nat := row / 2 ^ (laneWidth c * k) % 2 ^ fmtBits c

/-! ## A step of `MMA` (R324, R332) -/

/-- The exact product of two elements with the scales (R298, R324). -/
def mmaProduct (x : FmtReg) (a b : Nat) : Num :=
  if fmtLog x.a then (logProduct x.a x a b).num x.a
  else ((decodeFmt x.a a).scale x.ascale.toInt).mul ((decodeFmt x.b b).scale x.bscale.toInt)

/-- Term `t` of element (row of A, column `c`): the sum over its K indices of one or several pairs of operands,
rounded to A24 (R324, R332). Each pair is a row of A and the rows of B. -/
def mmaTerm (x : FmtReg) (pairs : List (Nat × List Nat)) (t c : Nat) : Nat :=
  let g := termProducts x.a
  let sum := pairs.foldl (fun (s : Num) (p : Nat × List Nat) =>
    (List.range g).foldl (fun (s : Num) i =>
      let k := t * g + i
      s.addS false (mmaProduct x (rowElem x.a p.1 k) (rowElem x.b (p.2.getD k 0) c))) s) .zero
  a24.round 0 sum

/-- Feed the terms of a K-block to every element of an accumulator. `rowsOf r`: the pairs of row `r`. -/
def accStep (x : FmtReg) (a : Acc) (rowsOf : Nat → List (Nat × List Nat)) : Acc :=
  (List.range x.rowCount).foldl (fun (a : Acc) r =>
    let pairs := rowsOf r
    (List.range 128).foldl (fun (a : Acc) c =>
      a.setElem r c ((List.range (blockTerms x.a)).foldl (fun e t => e.slot (pairBound x) (mmaTerm x pairs t c)) (a.elem r c))) a) a

/-- Has a list of rows a T2 element that reads 0b10 (R293)? -/
def rowsBadT2 (c n : Nat) (rows : List Nat) : Bool :=
  c = 12 && rows.any fun r => (List.range n).any fun k => rowElem c r k = 2

/-- `FMTBAD` of the wave that issued (R293). -/
def Dev.fmtBad (m : Dev) (uid : Nat) (b : Bool) : Dev :=
  if b then m.modWave uid fun w => { w with wavectl := w.wavectl ||| 4 } else m

/-- What a wave that has gone leaves of its identity (R96). -/
def Dev.waveFor (m : Dev) (e : MEntry) : Wave := (m.waveOf e.wave).getD { ctx := e.ctx }

/-- Step `j` of an `MMA` entry on cluster `cl` (R324, R332, R505). A unit that another context has taken since the issue
stays as it is (R13, log 112). -/
def Dev.mmaBlock (m : Dev) (cl : Nat) (e : MEntry) (acc : Nat) (a b : MOperand) (j : Nat) : Except Dev Dev :=
  let x := e.fmt
  let k := blockK x.a
  let ops (o : MOperand) : List MOperand := (List.range (e.tang + 1)).map fun i => o.tangent e.tang e.tstride i
  let bytesA := x.rowCount * rowBytesA x.a
  let bytesB := k * rowBytesB x.b
  let need := ((ops a).flatMap fun o => o.plates j (blockPlates x.a) bytesA) ++
    ((ops b).flatMap fun o => o.plates j (blockPlates x.b) bytesB)
  match m.ownPlates cl e.ctx (m.waveFor e) need with
  | .error m => .error m
  | .ok m =>
    let as := (ops a).map fun o => m.operandRows cl e.ctx o j (blockPlates x.a) x.rowCount (rowBytesA x.a)
    let bs := (ops b).map fun o => m.operandRows cl e.ctx o j (blockPlates x.b) k (rowBytesB x.b)
    let m := m.fmtBad e.wave (as.any (rowsBadT2 x.a k) || bs.any (rowsBadT2 x.b 128))
    let units := accUnits e.tang acc
    let m := m.takeAccs cl e.ctx units
    let a0 := as.headD []
    let b0 := bs.headD []
    .ok ((List.range (e.tang + 1)).foldl (fun m i =>
      let u := units.getD i 0
      if (m.acc cl u).tag ≠ e.ctx then m else
      m.setAcc cl u (accStep x (m.acc cl u) fun r =>
        if i = 0 then [(a0.getD r 0, b0)]
        else [((as.getD i []).getD r 0, b0), (a0.getD r 0, bs.getD i [])])) m)

/-! ## The queue (R315) -/

/-- The event that is due for the oldest entry. -/
def Dev.kickMatrix (m : Dev) (cl : Nat) : Dev :=
  match (m.cluster cl).mqueue with
  | [] => m
  | e :: _ =>
    match e.op with
    | .mma _ _ _ n => m.push (if e.done < n then .mmaStep cl else .matrixExecute cl)
    | _ => m.push (.matrixExecute cl)

/-- The oldest entry is complete: it leaves the queue. -/
def Dev.popMatrix (m : Dev) (cl : Nat) : Dev :=
  let x := m.cluster cl
  ((m.setCluster cl { x with mqueue := x.mqueue.tail }).kickMatrix cl).checkTrackers

/-- An entry joins the queue of the loaded wave's cluster (R503). -/
def Dev.queueMatrix (m : Dev) (op : MOp) : Dev :=
  let cl := m.wave.clusterNo
  let x := m.cluster cl
  let e : MEntry := { wave := m.wave.uid, fid := m.frag.fid, ctx := m.wave.ctx, tang := m.wave.tang,
                      tstride := m.wave.tstride, fmt := m.frag.fmt, op }
  (m.setCluster cl { x with mqueue := x.mqueue ++ [e] }).kickMatrix cl

/-- Is the queue of the loaded wave's cluster full? -/
def Dev.matrixFull (m : Dev) : Bool := (m.cluster m.wave.clusterNo).mqueue.length ≥ 8

/-- `MMA_STEP` (R324): one K-block of the `MMA` that is the oldest entry. Where the oldest entry is another one, its
own event is scheduled. -/
def execMmaStep (cluster : Nat) (s : State) : Host.Outcome State Fault Refusal :=
  s.run fun m =>
    let m := m.stash
    match (m.cluster cluster).mqueue with
    | [] => m
    | e :: _ =>
      match e.op with
      | .mma acc a b n =>
        if e.done ≥ n then m.kickMatrix cluster else
        match m.mmaBlock cluster e acc a b e.done with
        | .error m => m.kickMatrix cluster
        | .ok m =>
          if e.done + 1 ≥ n then m.popMatrix cluster
          else
            let x := m.cluster cluster
            (m.setCluster cluster { x with mqueue := { e with done := e.done + 1 } :: x.mqueue.tail }).kickMatrix cluster
      | _ => m.kickMatrix cluster

/-- `MLD` performed (R506): the K-block goes to the plates of the primal and of each tangent. -/
def Dev.mldRun (m : Dev) (cl : Nat) (e : MEntry) (plate : Nat) (bSide : Bool) (o : MOperand) : Except Dev Dev :=
  let c := if bSide then e.fmt.b else e.fmt.a
  let rows := if bSide then blockK c else e.fmt.rowCount
  let rowb := if bSide then rowBytesB c else rowBytesA c
  (List.range (e.tang + 1)).foldl (fun (r : Except Dev Dev) j =>
    match r with
    | .error m => .error m
    | .ok m =>
      let p := plate + j * plateCount e.tang
      let ps := platesOf p 0 1 (rows * rowb)
      match m.ownPlates cl e.ctx (m.waveFor e) ps with
      | .error m => .error m
      | .ok m =>
        let rs := m.operandRows cl e.ctx (o.tangent e.tang e.tstride j) 0 1 rows rowb
        let m := m.fmtBad e.wave (rowsBadT2 c (if bSide then 128 else blockK c) rs)
        let bs := rs.flatMap fun r => leBytes rowb r
        .ok (((List.range ps.length).zip ps).foldl (fun m (x : Nat × Nat) =>
          let a := m.plate cl x.2
          m.setPlate cl x.2 { a with bytes := a.bytes.putBytes 0 ((bs.drop (8192 * x.1)).take 8192) }) m)) (.ok m)

/-- `MSAVE` performed (R510): the records go to the owner's slot, as a write of class MATX (R268). -/
def Dev.msaveRun (m : Dev) (cl : Nat) (e : MEntry) (i : Nat) : Dev :=
  let a := m.acc cl i
  if !a.owned then m else
  match m.engineSpans a.tag (m.accSlot a.tag cl i) (2 ^ 19) false true with
  | .error c => m.endContext a.tag (causeCode c) (m.waveFor e)
  | .ok ss =>
    let bs := (List.range 16384).flatMap fun k => (leBytes 32 (a.elems.get k).toNat).map fun b => (b, false)
    (m.storeEngine cl a.tag ss bs).setAcc cl i {}

/-! ## Checks at issue (R503) -/

/-- Do the masks of `MXCFG` allow the units (R504)? -/
def mxAllows (x : DWord) (accs plates : List Nat) : Bool :=
  accs.all (fun i => x.getLsbD i) && plates.all fun p => x.getLsbD (8 + p)

/-- The checks 1 to 3 of R503 for units named; an error is the machine after the trap. -/
def Dev.matrixChecks (m : Dev) (accs plates : List Nat) (fieldsOk : Bool := true) : Option Dev :=
  let k := m.wave.tang
  if !fieldsOk || accs.any (fun i => i ≥ accCount k) || plates.any fun p => p ≥ plateCount k then
    some (m.trapWord .reservedField)
  else if !m.wave.control then some (m.trapC .controlOnly)
  else if !mxAllows m.wave.mxcfg accs plates then some (m.trapC .protection)
  else none

/-- Check 5 of R503, and the taking of units that nobody owns (R329). -/
def Dev.claimAccs (m : Dev) (us : List Nat) : Except Dev Dev :=
  match m.foreignAcc m.wave.clusterNo m.wave.ctx us with
  | some i => .error (m.trap { cause := .accForeign, stval := i })
  | none => .ok (m.takeAccs m.wave.clusterNo m.wave.ctx us)

/-- All tangents of the wave, the primal first. -/
def Dev.allTangents (m : Dev) : List Nat := List.range (m.wave.tang + 1)

/-! ## The instructions -/

/-- The plates of a plate operand with `count` K-blocks (R319); plate `p` itself when there are none. -/
def operandPlates (spad : Bool) (p per count : Nat) : List Nat :=
  if spad then [] else (List.range (max count 1 * per)).map fun i => p + i

/-- The number of plates that a count names, bounded so that no list of it is longer than the units. -/
def platesBeyond (spad : Bool) (p per count k : Nat) : Bool :=
  !spad && (p + max count 1 * per > plateCount k || p % per ≠ 0)

def Dev.mma (m : Dev) (mop a b : BitVec 6) (acc : BitVec 3) (bs as : BitVec 1) : Dev :=
  let x := m.frag.fmt
  let count := (m.s mop).toNat
  let k := m.wave.tang
  let sa := as = 1
  let sb := bs = 1
  if count ≥ 2 ^ 32 || platesBeyond sa a.toNat (blockPlates x.a) count k || platesBeyond sb b.toNat (blockPlates x.b) count k then
    m.trapWord .reservedField
  else
    let plates := operandPlates sa a.toNat (blockPlates x.a) count ++ operandPlates sb b.toNat (blockPlates x.b) count
    match m.matrixChecks [acc.toNat] plates with
    | some m => m
    | none =>
      if !fmtPair x.a x.b then m.trapC .formatInvalid else
      let da := (m.s (a + 1)).toNat
      let db := (m.s (b + 1)).toNat
      if (sa && !spadDescOk da (rowBytesA x.a)) || (sb && !spadDescOk db (rowBytesB x.b)) then m.trapWord .reservedField else
      let oa := if sa then spadOf (m.s a).toNat da else .plate a.toNat
      let ob := if sb then spadOf (m.s b).toNat db else .plate b.toNat
      match m.checkSpad oa (spanBytes oa count x.rowCount (rowBytesA x.a)) false m.allTangents with
      | .error m => m
      | .ok m =>
        match m.checkSpad ob (spanBytes ob count (blockK x.b) (rowBytesB x.b)) false m.allTangents with
        | .error m => m
        | .ok m =>
          match m.claimAccs (accUnits k acc.toNat) with
          | .error m => m
          | .ok m =>
            if m.matrixFull then m.waitFor .matrixRoom
            else (m.irrev.queueMatrix (.mma acc.toNat oa ob count)).advance

/-- `MMA` (R322, R323, R505). -/
def execMma (mop a b : BitVec 6) (acc : BitVec 3) (bs as : BitVec 1) (s : State) : Host.Outcome State Fault Refusal :=
  s.run fun m => m.mma mop a b acc bs as

def Dev.mld (m : Dev) (plate : BitVec 4) (a b : BitVec 6) (opnd : BitVec 1) : Dev :=
  let bSide := opnd = 1
  let x := m.frag.fmt
  let c := if bSide then x.b else x.a
  let p := plate.toNat
  let per := blockPlates c
  let k := m.wave.tang
  let named := if per = 2 && p + 1 < plateCount k then [p, p + 1] else [p]
  match m.matrixChecks [] named with
  | some m => m
  | none =>
    let d := (m.s b).toNat
    let rows := if bSide then blockK c else x.rowCount
    let rowb := if bSide then rowBytesB c else rowBytesA c
    if (per = 2 && (p % 2 ≠ 0 || p + 1 ≥ plateCount k)) || !spadDescOk d rowb then m.trapWord .reservedField else
    let o := spadOf (m.s a).toNat d
    match m.checkSpad o (spanBytes o 1 rows rowb) false m.allTangents with
    | .error m => m
    | .ok m =>
      let m := m.irrev
      if m.matrixFull then m.waitFor .matrixRoom else (m.queueMatrix (.mld p bSide o)).advance

/-- `MLD` (R321, R506). -/
def execMld (plate : BitVec 4) (a b : BitVec 6) (opnd : BitVec 1) (s : State) : Host.Outcome State Fault Refusal :=
  s.run fun m => m.mld plate a b opnd

def Dev.mzero (m : Dev) (acc : BitVec 3) : Dev :=
  match m.matrixChecks [acc.toNat] [] with
  | some m => m
  | none =>
    match m.claimAccs (accUnits m.wave.tang acc.toNat) with
    | .error m => m
    | .ok m =>
      let m := m.irrev
      if m.matrixFull then m.waitFor .matrixRoom else (m.queueMatrix (.mzero acc.toNat)).advance

/-- `MZERO` (R508). -/
def execMzero (acc : BitVec 3) (s : State) : Host.Outcome State Fault Refusal := s.run fun m => m.mzero acc

/-- The place and mode checks of `MSAVE` and `MREST` (R331, R509). -/
def Dev.saveChecks (m : Dev) : Option Dev :=
  if !m.wave.control then some (m.trapC .controlOnly)
  else if !m.wave.super then some (m.trapC .protection) else none

def Dev.msave (m : Dev) (acc : BitVec 3) : Dev :=
  match m.saveChecks with
  | some m => m
  | none =>
    let m := m.irrev
    if m.matrixFull then m.waitFor .matrixRoom else (m.queueMatrix (.msave acc.toNat)).advance

/-- `MSAVE` (R509, R510). -/
def execMsave (acc : BitVec 3) (s : State) : Host.Outcome State Fault Refusal := s.run fun m => m.msave acc

def Dev.mrest (m : Dev) (acc : BitVec 3) : Dev :=
  match m.saveChecks with
  | some m => m
  | none =>
    match m.checkRange (m.accSlot m.wave.ctx m.wave.clusterNo acc.toNat) (2 ^ 19) { windows := [.global], rd := true } with
    | .error m => m
    | .ok (_, m) =>
      let m := m.irrev
      if m.matrixFull then m.waitFor .matrixRoom else (m.queueMatrix (.mrest acc.toNat)).waitFor .event 30

/-- `MREST` (R509, R510): it waits in phase 30 until it is the oldest matrix instruction. -/
def execMrest (acc : BitVec 3) (s : State) : Host.Outcome State Fault Refusal := s.run fun m => m.mrest acc

def Dev.mcfg (m : Dev) (a : BitVec 6) : Dev :=
  if !m.wave.control then m.trapC .controlOnly
  else if (m.s a).toNat ≥ 2 ^ 24 then m.trapWord .reservedField
  else if m.matrixFull then m.waitFor .matrixRoom
  else ((m.queueMatrix .mcfg).onWave fun w => { w with mxcfg := m.s a }).advance

/-- `MCFG` (R504). -/
def execMcfg (a : BitVec 6) (s : State) : Host.Outcome State Fault Refusal := s.run fun m => m.mcfg a

def Dev.mwaitm (m : Dev) : Dev :=
  if !m.wave.control then m.trapC .controlOnly
  else if m.busyMatrix m.wave then m.waitFor .matrix else m.advance

/-- `MWAITM` (R511). -/
def execMwaitm (s : State) : Host.Outcome State Fault Refusal := s.run fun m => m.mwaitm

def Dev.mdrain (m : Dev) (a b : BitVec 6) (acc : BitVec 3) (rz : BitVec 1) : Dev :=
  let x := m.frag.fmt
  match m.matrixChecks [acc.toNat] [] with
  | some m => m
  | none =>
    let d := (m.s b).toNat
    if !spadDescOk d (rowBytesB x.d) then m.trapWord .reservedField else
    let o := spadOf (m.s a).toNat d
    match m.checkSpad o (spanBytes o 1 x.rowCount (rowBytesB x.d)) true m.allTangents with
    | .error m => m
    | .ok m =>
      match m.claimAccs (accUnits m.wave.tang acc.toNat) with
      | .error m => m
      | .ok m =>
        let m := m.irrev
        if m.matrixFull then m.waitFor .matrixRoom else (m.queueMatrix (.mdrain acc.toNat o (rz = 1))).waitFor .event 30

/-- `MDRAIN` (R327, R507): it waits in phase 30 until it is the oldest matrix instruction. -/
def execMdrain (a b : BitVec 6) (acc : BitVec 3) (rz : BitVec 1) (s : State) : Host.Outcome State Fault Refusal :=
  s.run fun m => m.mdrain a b acc rz

/-! ## The end of `MDRAIN` and `MREST` at issue -/

/-- One drained element: tangent, row, column, the element and its overflow. -/
structure Drained where
  j    : Nat
  row  : Nat
  col  : Nat
  bits : Nat
  beyond : Option Num
deriving DecidableEq, Repr

/-- The drained elements of an accumulator unit in row and column order (R305, R327). -/
def drainedOf (x : FmtReg) (rz : Bool) (j : Nat) (a : Acc) : List Drained :=
  (List.range x.rowCount).flatMap fun r => (List.range 128).map fun c =>
    match narrowTo x.d (if rz then 1 else 0) false (x.scale.mul (a.elem r c).value) with
    | .elem b => { j, row := r, col := c, bits := b, beyond := none }
    | .beyond u => { j, row := r, col := c, bits := if x.ovfmode = 1 then zeroElem x.d else satElem x.d u, beyond := some u }

/-- The pointer of the byte that holds bit 0 of an element, after rotation (R312, R320). -/
def drainPtr (o : MOperand) (c row col : Nat) : Nat :=
  let b := col * laneWidth c / 8
  match o with
  | .spad base _ rp rot => chunkPtr base 0 rp rot 0 row (b / 16) + b % 16
  | .plate _ => 0

/-- An outlier entry of `MDRAIN` (R312). -/
def drainOutlier (o : MOperand) (c : Nat) (e : Drained) (v : Num) : List Byte :=
  leBytes 8 (f32.round 0 v * 2 ^ 32 + e.row * 2 ^ 20 + e.col * 2 ^ 10 + 2 ^ 9 + e.col * laneWidth c % 8 * 2 ^ 4 + c) ++
  leBytes 8 (drainPtr o c e.row e.col)

/-- Write the rows of one unit to its destination (R320, R327); array bytes of another context stay (R13). -/
def Dev.writeDrained (m : Dev) (cl ctx : Nat) (o : MOperand) (x : FmtReg) (es : List Drained) : Dev :=
  match o with
  | .plate _ => m
  | .spad b _ rp rot =>
    (List.range x.rowCount).foldl (fun m r =>
      let row := ((es.filter fun e => e.row = r).map fun e => e.bits * 2 ^ (laneWidth x.d * e.col)).sum
      let bs := leBytes (rowBytesB x.d) row
      (List.range (rowBytesB x.d / 16)).foldl (fun m c =>
        m.storeSpan cl ctx (chunkLoc cl (chunkPtr b 0 rp rot 0 r c)) (((bs.drop (16 * c)).take 16).map fun b => (b, false))) m) m

/-- The queues of every element that a drain covers are emptied (R327). -/
def Dev.emptyQueues (m : Dev) (cl : Nat) (x : FmtReg) (units : List Nat) : Dev :=
  units.foldl (fun m u =>
    m.setAcc cl u ((List.range x.rowCount).foldl (fun (a : Acc) r => (List.range 128).foldl (fun (a : Acc) c =>
      a.setElem r c ((a.elem r c).drain (pairBound x) 8)) a) (m.acc cl u))) m

/-- The drain of the loaded wave's `MDRAIN` (R507), with its traps; it takes a unit that an `MSAVE` ahead has freed (R329). -/
def Dev.drainNow (m : Dev) (cl : Nat) (e : MEntry) (acc : Nat) (o : MOperand) (rz : Bool) : Dev :=
  let x := e.fmt
  let units := accUnits e.tang acc
  match m.foreignAcc cl e.ctx units with
  | some u => m.trap { cause := .accForeign, stval := u }
  | none =>
  let m := (m.takeAccs cl e.ctx units).emptyQueues cl x units
  if x.badScale then m.trapC .formatInvalid else
  let js := List.range (e.tang + 1)
  let dst (j : Nat) : MOperand := o.tangent e.tang e.tstride j
  let all := js.map fun j => drainedOf x rz j (m.acc cl (units.getD j 0))
  let overs := all.flatten.filterMap fun (d : Drained) => d.beyond.map fun v => (d, v)
  let finish (m : Dev) : Dev :=
    (js.foldl (fun m j => m.writeDrained cl e.ctx (dst j) x (all.getD j [])) m).advance
  match overs with
  | [] => finish m
  | (d, _) :: _ =>
    if x.ovfmode = 2 then m.trap { cause := .mxOverflow, stval := 128 * d.row + d.col }
    else if x.ovfmode = 1 then
      match m.appendLane m.frag.mask (overs.map fun (p : Drained × Num) => drainOutlier (dst p.1.j) x.d p.1 p.2) with
      | .error m => m
      | .ok m => finish m
    else finish m

/-- The restore of the loaded wave's `MREST` (R510), with its traps; its slot is translated when it is read (R519). -/
def Dev.restNow (m : Dev) (cl : Nat) (e : MEntry) (i : Nat) : Dev :=
  match m.foreignAcc cl e.ctx [i] with
  | some u => m.trap { cause := .accForeign, stval := u }
  | none =>
    match m.checkRange (m.accSlot e.ctx cl i) (2 ^ 19) { windows := [.global], rd := true } with
    | .error m => m
    | .ok (ss, m) =>
    let bs := (m.engineBytes cl e.ctx ss).map (·.1)
    let recs := (List.range 16384).map fun k => ofBytes ((bs.drop (32 * k)).take 32)
    if recs.any fun r => !recordOk r then m.trapWord .reservedField else
    let elems := ((List.range 16384).zip recs).foldl (fun (c : Cells 256) (x : Nat × Nat) =>
      Cells.put c x.1 (BitVec.ofNat 256 (pairOf x.2).record)) []
    (m.setAcc cl i { owned := true, tag := e.ctx, elems }).advance

/-- Let a waiting fragment take its turn: it is loaded with its wait over, or there is none. -/
def Dev.takeTurn (m : Dev) (e : MEntry) : Option Dev :=
  let m := m.load e.wave e.fid
  if m.frag.fid ≠ 0 && m.frag.wait = .event && m.frag.phase = 30 then
    some (m.onFrag fun f => { f with wait := .none, phase := 0 })
  else none

/-- `MATRIX_EXECUTE` (R315): the engine takes the oldest entry, if it is not an `MMA` with steps to do. -/
def execMatrixExecute (cluster : Nat) (s : State) : Host.Outcome State Fault Refusal :=
  s.run fun m =>
    let m := m.stash
    match (m.cluster cluster).mqueue with
    | [] => m
    | e :: _ =>
      let pop (m : Dev) : Dev := m.popMatrix cluster
      match e.op with
      | .mma _ _ _ n => if e.done < n then m.kickMatrix cluster else pop m
      | .mld p bSide o =>
        match m.mldRun cluster e p bSide o with
        | .error m => m.kickMatrix cluster
        | .ok m => pop m
      | .mzero acc =>
        pop ((accUnits e.tang acc).foldl (fun m u =>
          let m := m.takeAccs cluster e.ctx [u]
          if (m.acc cluster u).tag ≠ e.ctx then m else m.setAcc cluster u { m.acc cluster u with elems := [] }) m)
      | .msave i =>
        let m := m.msaveRun cluster e i
        if (m.cluster cluster).mqueue.contains e then pop m else m.kickMatrix cluster
      | .mcfg => pop m
      | .mdrain acc o rz =>
        match m.takeTurn e with
        | none => pop m
        | some m => ((pop m).drainNow cluster e acc o rz).stash
      | .mrest i =>
        match m.takeTurn e with
        | none => pop m
        | some m => ((pop m).restNow cluster e i).stash

end Sys2Proof.Machine
end

