-- ==== Sys2Proof/Machine/Ports.lean ====
section
/-!
DEFINITION. Machine/Ports.lean: the Cassen ports as the device part uses them: the flits that a port sends, its replay
buffer, and the port that carries a peer request (03 R57-R64, R68; 01 R17, R20).
-/
namespace Sys2Proof.Machine

def Dev.port (m : Dev) (p : Nat) : Port := m.ports.getD p {}
def Dev.setPort (m : Dev) (p : Nat) (x : Port) : Dev := { m with ports := setAt {} m.ports p x }

/-! ## Keys of a direction -/

/-- The key of an epoch at the receiver, and at the sender. -/
def RecvDir.slot (r : RecvDir) (epoch : Bool) : Option Nat := if epoch then r.slot1 else r.slot0
def SendDir.slot (r : SendDir) (epoch : Bool) : Option Nat := if epoch then r.slot1 else r.slot0
def RecvDir.setSlot (r : RecvDir) (epoch : Bool) (k : Option Nat) : RecvDir :=
  if epoch then { r with slot1 := k } else { r with slot0 := k }
def SendDir.setSlot (r : SendDir) (epoch : Bool) (k : Option Nat) : SendDir :=
  if epoch then { r with slot1 := k } else { r with slot0 := k }

/-! ## Flits that are sent (R58, R59, R61) -/

/-- Flits per direction that the replay buffer holds (R59). -/
def replayFlits : Nat := 512
/-- Flits under one key at which a rollover starts (R64), and at which new flits are held (R61). -/
def rolloverFlits : Nat := 2 ^ 39
def holdFlits : Nat := 2 ^ 40

/-- Messages of a rollover, which the hold of R61 does not stop (log 39). -/
def FlitLoad.ofRollover : FlitLoad → Bool
  | .keyReady | .keyRetire | .keyDone => true
  | _ => false

/-- What a flit carries, as a number: it selects the free flit type (log 38). -/
def FlitLoad.kind : FlitLoad → Nat
  | .request _ => 0
  | .answer _ _ => 1
  | .keyReady => 2
  | .keyRetire => 3
  | .keyDone => 4

/-- The nonce of a flit (R61): port number, direction (1: outgoing) and counter. -/
def flitNonce (port counter : Nat) : Nat := port * 2 ^ 65 + 2 ^ 64 + counter

/-- The header of a flit (R58). -/
def SentFlit.header (f : SentFlit) (port : Nat) : Nat :=
  (Config.flitType f.load.kind).toNat * 2 ^ 60 + b2n f.epoch * 2 ^ 59 + f.seqNo.toNat * 2 ^ 47 + f.ackNo.toNat * 2 ^ 35 +
    (Config.flitCredits (flitNonce port f.counter)).toNat * 2 ^ 20

/-- The 256 bytes of a flit (R58): header, payload, tag, parity. Key and nonce name it, so that a resent flit is the same
(R59). -/
def SentFlit.bytes (f : SentFlit) (port : Nat) : List Byte :=
  let n := flitNonce port f.counter
  leBytes 8 (f.header port) ++ (List.range 216).map (Config.flitCipher f.key n) ++ (List.range 16).map (Config.flitTag f.key n) ++
    (List.range 16).map (Config.flitFec f.key n)

/-- The oldest thing waiting is sent, if it may be: it takes the next sequence number and counter, and enters the replay
buffer; the hold begins at 2^40 flits (R59, R61). -/
def SendDir.send (x : SendDir) (ack : BitVec 12) (l : FlitLoad) : SendDir :=
  match x.slot x.epoch with
  | none => { x with waiting := x.waiting ++ [l] }
  | some key =>
    if x.buffer.length ≥ replayFlits || (x.hold && !l.ofRollover) then { x with waiting := x.waiting ++ [l] }
    else { x with
      buffer := x.buffer ++ [{ seqNo := x.nextSeq, epoch := x.epoch, ackNo := ack, key, counter := x.counter, load := l }],
      nextSeq := x.nextSeq + 1, counter := x.counter + 1, hold := x.hold || x.counter + 1 ≥ holdFlits }

/-- All that is waiting is sent, in order, as far as it may be. -/
def SendDir.sendAll (x : SendDir) (ack : BitVec 12) : SendDir :=
  x.waiting.foldl (fun y l => y.send ack l) { x with waiting := [] }

/-- The requests in a replay buffer. -/
def SendDir.requests (x : SendDir) : List Nat := x.buffer.filterMap fun f => match f.load with
  | .request id => some id
  | _ => none

/-- A port sends what it can: the requests in it have left (R74), and at 2^39 flits under one key a rollover is due (R64). -/
def Dev.pump (m : Dev) (p : Nat) : Dev :=
  let x := m.port p
  if !x.up then m else
  let y := x.send.sendAll (x.recv.expected - 1)
  let gone := y.requests
  let m := { m.setPort p { x with send := y } with
    peers := m.peers.map fun (r : PeerOut) => if gone.contains r.id then { r with left := true } else r }
  if y.roll = .idle && y.counter ≥ rolloverFlits then m.push (.rolloverCountReached p) else m

/-- Something is to be sent on a port. -/
def Dev.postFlit (m : Dev) (p : Nat) (l : FlitLoad) : Dev :=
  let x := m.port p
  (m.setPort p { x with send := { x.send with waiting := x.send.waiting ++ [l] } }).pump p

/-! ## The port of a request (R20, R68) -/

/-- Ports of a die in service. -/
def Dev.diePorts (m : Dev) (d : Nat) : List Nat := [3 * d, 3 * d + 1, 3 * d + 2].filter fun p => m.cap.ports.getLsbD p

/-- Links between two dies on their way in rows and columns (R20). -/
def dieDistance (a b : Nat) : Nat := (max a b / 4 - min a b / 4) + (max (a % 4) (b % 4) - min (a % 4) (b % 4))

/-- The nearest die to `d` that has a port in service; of two equally near the one with the lower number (log 13). -/
def Dev.nearestDie (m : Dev) (d : Nat) : Option Nat :=
  ((List.range Config.dies).filter fun x => m.diePorts x ≠ []).foldl (fun best x => match best with
    | none => some x
    | some y => some (if dieDistance d x < dieDistance d y then x else y)) none

/-- The port that the hash takes for a request of die `d` to a peer address (R68); none while no port is in service. -/
def Dev.portFor (m : Dev) (d addr : Nat) : Option Nat :=
  (m.nearestDie d).bind fun x =>
    let ps := m.diePorts x
    ps[Config.portHash (fld addr 55 42) (fld addr 55 7) % ps.length]?

/-- A peer request is made: it takes its port and waits there to be sent. -/
def Dev.sendRequest (m : Dev) (d : Nat) (r : PeerOut) : Dev :=
  let port := m.portFor d r.addr.toNat
  let m := { m with peers := m.peers ++ [{ r with port }] }
  match port with
  | some p => m.postFlit p (.request r.id)
  | none => m

end Sys2Proof.Machine
end

