-- ==== Sys2Proof/Machine/LaneMem.lean ====
section
/-!
DEFINITION. Machine/LaneMem.lean: lane loads, stores, atomics, prefetches, plate words and ring slots
(23 R460-R470; 17 R355-R357; 13 R286; 10 R232-R235; 03 R67).
-/
namespace Sys2Proof.Machine

/-! ## The checks of all lanes (R461, R356) -/

/-- A lane whose checks pass: its accesses, the primal first. -/
structure LaneAcc where
  lane : Nat
  accs : List Access
deriving DecidableEq, Repr

/-- Check one lane's offsets in order; the first that fails decides. -/
def Dev.checkLane (m : Dev) (x : XReg) (n : Nat) (k : Act) : List Int → Except Fail (List Access) × Dev
  | [] => (.ok [], m)
  | o :: t =>
    match m.laneAccess x o n k with
    | (.error e, m) => (.error e, m)
    | (.ok a, m) =>
      match m.checkLane x n k t with
      | (.error e, m) => (.error e, m)
      | (.ok as, m) => (.ok (a :: as), m)

/-- Check the lanes of `eff` in ascending order. `off`: the offset of a lane; `tang`: how many tangents are moved. -/
def Dev.checkLanes (m : Dev) (x : XReg) (n : Nat) (k : Act) (tang : Nat) (off : Nat → Int) (ls : List Nat) :
    (List LaneFail × List LaneAcc) × Dev :=
  ls.foldl (fun (p : (List LaneFail × List LaneAcc) × Dev) l =>
    let os := (List.range (tang + 1)).map fun (j : Nat) => off l + (j : Int) * p.2.wave.tstride.toInt
    match p.2.checkLane x n k os with
    | (.error e, m) => ((p.1.1 ++ [{ lane := l, fail := e }], p.1.2), m)
    | (.ok as, m) => ((p.1.1, p.1.2 ++ [{ lane := l, accs := as }]), m)) (([], []), m)

/-! ## Accesses that are performed (R461-R463) -/

/-- The results of a load or an atomic in the lanes that are performed. -/
structure Results where
  lo   : RegOut
  hi   : RegOut
deriving DecidableEq, Repr

/-- A word of a result, written as 0 and marked when it is poisoned (R463). -/
def putWord (o : RegOut) (l j : Nat) (v : Nat) (bad : Bool) (err addr : Nat) : RegOut :=
  { o with lanes := Mask.put o.lanes l true,
           vals := Cells.put o.vals (4 * l + j) (BitVec.ofNat 32 (if bad then 0 else v)),
           marks := if bad then o.marks ++ [{ reg := 0, tang := j, lane := l, err, cause := .poison,
                                              addr := BitVec.ofNat 64 addr }] else o.marks }

/-- The value of an access of `n` bytes put into the result: the low word, and the high word of a pair. -/
def Results.put (r : Results) (l j n v : Nat) (badLo badHi : Bool) (err addr : Nat) : Results :=
  let r := { r with lo := putWord r.lo l j (v % 2 ^ 32) badLo err addr }
  if n = 8 then { r with hi := putWord r.hi l j (v / 2 ^ 32) badHi err addr } else r

/-- Empty results for a destination. -/
def resultsFor (vd : Nat) : Results := { lo := { reg := vd }, hi := { reg := vd + 1 } }
def Results.outs (r : Results) (n : Nat) : List RegOut := if n = 8 then [r.lo, r.hi] else [r.lo]

/-- The number of the next error of the wave. -/
def Dev.newErr (m : Dev) : Nat × Dev := (m.wave.nextErr, m.onWave fun w => { w with nextErr := w.nextErr + 1 })

/-- An access that has been performed: the value read, whether its low and high word are poisoned, its error number (R73:
each load is an error of its own). -/
structure Done where
  part : Part
  v    : Nat := 0
  badLo : Bool := false
  badHi : Bool := false
  err  : Nat := 0
deriving DecidableEq, Repr

/-- Put what an access has read into the results. -/
def Results.take (r : Results) (d : Done) : Results :=
  r.put d.part.lane d.part.tang d.part.size d.v d.badLo d.badHi d.err d.part.acc.addr

/-- The new memory value of an `ATOM` function on `n` bytes (R466); none when `CAS` does not match. -/
def atomOp (fn n m b c : Nat) : Option Nat :=
  let w := 8 * n
  let b := b % 2 ^ w
  match fn with
  | 0 => some ((m + b) % 2 ^ w)
  | 1 => some (fAdd (if n = 2 then f16 else f32) 0 m b)
  | 2 => some (if sextN w b < sextN w m then b else m)
  | 3 => some (if sextN w m < sextN w b then b else m)
  | 4 => some (min m b)
  | 5 => some (max m b)
  | 6 => some (fMinMax f32 true m b)
  | 7 => some (m &&& b)
  | 8 => some (m ||| b)
  | 9 => some (m ^^^ b)
  | 10 => some b
  | _ => if m = c % 2 ^ w then some b else none

/-- Do the accesses of a lane read a poisoned word, once their lines are where the atomics are performed? -/
def Dev.lanePoison (m : Dev) (n sc : Nat) (places : List Loc) : Bool × Dev :=
  let m := places.foldl (fun m l => m.atomicPlace m.wave.coreNo sc l) m
  (places.any fun l => (m.atomicBytes m.wave.coreNo l n).any (·.2), m)

/-- Perform an access that is not in the peer window. An atomic of a lane that reads poison writes nothing (R463). Array bytes
that have gone to another context while the access waited read zero and stay (R13). -/
def Dev.perform (m : Dev) (p : Part) (err : Nat) : Done × Dev :=
  let n := p.size
  if !(p.acc.loc.all fun l => (List.range n).all fun i => m.ownsArray m.wave.ctx (l.add i)) then ({ part := p, err }, m) else
  match p.op with
  | .load strong =>
    let (bs, m) := m.loadAt p.acc n strong
    ({ part := p, v := ofBytes (bs.map (·.1)), badLo := (bs.take 4).any (·.2), badHi := (bs.drop 4).any (·.2), err }, m)
  | .store strong sc bs => ({ part := p, err }, m.storeAt p.acc strong sc bs)
  | .atomic sc fn b c mates =>
    let (bad, m) := m.lanePoison n sc mates
    let was := p.acc.loc.elim [] fun l => m.atomicBytes m.wave.coreNo l n
    let ((old, _), m) := m.atomicAt p.acc n sc fun v => if bad then none else atomOp fn n v b c
    ({ part := p, v := old, badLo := (was.take 4).any (·.2), badHi := (was.drop 4).any (·.2), err }, m)

/-- How far the accesses of an instruction have come: performed, sent to peers with their error numbers, left for later. -/
structure Ran where
  done : List Done := []
  sent : List (Part × Nat) := []
  rest : List Part := []
deriving DecidableEq, Repr

/-- Perform accesses in order (R462). One in the peer window is sent (R67); one that waits for the accesses before it stops
here when one of these has been sent (R264, R356). -/
def Dev.runParts (m : Dev) (r : Ran) : List Part → Ran × Dev
  | [] => (r, m)
  | p :: t =>
    if p.waits && r.sent ≠ [] then ({ r with rest := p :: t }, m) else
    let (err, m) := m.newErr
    if p.acc.loc.isNone then m.runParts { r with sent := r.sent ++ [(p, err)] } t
    else
      let (d, m) := m.perform p err
      m.runParts { r with done := r.done ++ [d] } t

/-- The lanes whose results come later. -/
def Ran.late (r : Ran) : Mask := Mask.ofLanes ((r.sent.map fun (x : Part × Nat) => x.1.lane) ++ r.rest.map (·.lane))

/-- What a peer request is made for, and what it carries (R67). -/
def Part.peerFor (p : Part) : PeerFor :=
  match p.op with
  | .store _ _ _ => .store
  | _ => .load p.lo p.hi p.tang p.lane p.plain
def Part.data (p : Part) : List Byte :=
  match p.op with
  | .load _ => []
  | .store _ _ bs => bs
  | .atomic _ fn b c _ => leBytes 1 fn ++ leBytes 8 b ++ leBytes 8 c

/-- Send the requests of the wave with a number, in order (R67, R68). -/
def Dev.sendParts (m : Dev) (uid die : Nat) (ps : List (Part × Nat)) : Dev :=
  ps.foldl (fun m (x : Part × Nat) =>
    { m with nextPeer := m.nextPeer + 1 }.sendRequest die
      { id := m.nextPeer, wave := uid, err := x.2, addr := BitVec.ofNat 64 x.1.acc.addr, size := x.1.size,
        what := x.1.peerFor, data := x.1.data }) m

/-- Does what comes after the access wait for it: is it an acquire (R264)? -/
def Part.acquires (p : Part) : Bool :=
  match p.op with
  | .store _ _ _ => false
  | _ => p.acq

/-- Send what goes to peers. The fragment waits for the answers when accesses are left, or when one that was sent is an acquire
(R264, R356, R462). -/
def Dev.sendRan (m : Dev) (uid die : Nat) (r : Ran) : Dev :=
  let first := m.nextPeer
  let m := m.sendParts uid die r.sent
  let acq := r.sent.any fun (x : Part × Nat) => x.1.acquires
  if m.wave.uid ≠ uid || (r.rest = [] && !acq) then m
  else m.onFrag fun f => { f with wait := .ordered ((List.range r.sent.length).map (first + ·)) acq, phase := 0, instr := none,
                                  todo := r.rest }

/-- The end of a memory instruction: the results of the performed lanes are written, then the trap of R234 is
taken if a lane failed (R464). -/
def Dev.memFinish (m : Dev) (opc : Nat) (f : LaneF) (outs : List RegOut) (r : Ran) (fs : List LaneFail) : Dev :=
  let uid := m.wave.uid
  let die := m.wave.die
  let m :=
    if fs = [] then m.laneFinish opc f outs r.late
    else
      let m := outs.foldl (fun m o => (m.discardOuter false o.reg (o.lanes ||| r.late)).commit o) m.newHold
      (m.failLanes fs).getD m
  m.sendRan uid die r

/-- A word of an access that was left for later reaches its register. -/
def Dev.lateDone (m : Dev) (d : Done) : Dev :=
  let p := d.part
  let put (m : Dev) (dest : Option Late) (v : Nat) (bad : Bool) : Dev :=
    match dest with
    | none => m
    | some x =>
      m.lateWord m.wave.uid x p.tang p.lane p.plain (BitVec.ofNat 32 (if bad then 0 else v))
        (if bad then some { reg := 0, tang := p.tang, lane := p.lane, err := d.err, cause := .poison, addr := BitVec.ofNat 64 p.acc.addr } else none)
  match p.op with
  | .store _ _ _ => m
  | _ => put (put m p.lo (d.v % 2 ^ 32) d.badLo) p.hi (d.v / 2 ^ 32) d.badHi

/-- The fragment goes on with the accesses that its last lane instruction has left. -/
def Dev.goOn (m : Dev) : Dev :=
  let (r, m) := (m.onFrag fun f => { f with todo := [] }).runParts {} m.frag.todo
  (r.done.foldl Dev.lateDone m).sendRan m.wave.uid m.wave.die r

/-- The scope at which the release of an instruction is made: `.SYS` when an access of it is performed there (R255, R461). -/
def releaseScope (sc : Nat) (ls : List LaneAcc) : Nat :=
  if ls.any fun x => x.accs.any fun a => match a.loc with
    | none | some (.host _) => true
    | _ => false
  then 4 else sc

/-- Does a release at a scope wait for peer responses first (R264)? -/
def Dev.sysWait (m : Dev) (release : Bool) (sc : Nat) : Bool := release && sc = 4 && m.busyPeers m.wave.uid

/-- The accesses of a lane, each with the number of its tangent. -/
def LaneAcc.items (x : LaneAcc) : List (Nat × Access) := (List.range x.accs.length).zip x.accs

/-! ## Loads (R464) -/

/-- Where the later words of a lane instruction for a register go: through its window, which opens when it completes. -/
def Dev.lateFor (m : Dev) (f : LaneF) (r : Nat) : Late :=
  { name := m.wave.peerReg r, hold := if f.la = 0 then 0 else m.wave.nextHold }

/-- An access of a lane instruction whose result goes to the lane registers `vd`, and `vd + 1` of a pair. -/
def Dev.partFor (m : Dev) (f : LaneF) (n : Nat) (acq : Bool) (x : LaneAcc) (a : Nat × Access) (op : PartOp) : Part :=
  { lane := x.lane, tang := a.1, acc := a.2, size := n, op, acq, waits := acq, lo := some (m.lateFor f f.vd.toNat),
    hi := if n = 8 then some (m.lateFor f (f.vd.toNat + 1)) else none, plain := !m.dual && m.wave.tang > 0 }

/-- The loads of a lane: the primal first, which is the acquire of an `LD.ACQ` (R356). -/
def Dev.loadParts (m : Dev) (f : LaneF) (n : Nat) (x : LaneAcc) : List Part :=
  x.items.map fun a => m.partFor f n (strCode f = 2) x a (.load (strCode f ≠ 0))

def Dev.ld (m : Dev) (f : LaneF) : Dev :=
  match m.laneStart 0x0C0 f with
  | .error m => m
  | .ok (eff, m) =>
    let n := 2 ^ sizeCode f
    let x := m.wave.xregs.getD f.xs.toNat {}
    let ((fs, ls), m) := m.checkLanes x n .load m.tangents (fun l => m.laneOff f l) (Mask.lanes eff m.wave.wlanes)
    let (r, m) := m.runParts {} (ls.flatMap fun a => m.loadParts f n a)
    let m := if strCode f = 2 then m.acquire else m
    m.memFinish 0x0C0 f ((r.done.foldl Results.take (resultsFor f.vd.toNat)).outs n) r fs

/-- `LD` (R464). -/
def execLd (f : LaneF) (s : State) : Host.Outcome State Fault Refusal := s.run fun m => m.ld f

/-! ## Stores (R465) -/

/-- The data of tangent `j` (0: the primal) of a lane. -/
def Dev.dataOf (m : Dev) (opc : Nat) (f : LaneF) (j l : Nat) : Nat :=
  if j = 0 then m.opB opc f l else m.opBt opc f j l

/-- The stores of a lane: the tangents before the primal, which is the release of an `ST.REL` (R356). -/
def Dev.storeParts (m : Dev) (f : LaneF) (n : Nat) (x : LaneAcc) : List Part :=
  (x.items.drop 1 ++ x.items.take 1).map fun a =>
    { lane := x.lane, tang := a.1, acc := a.2, size := n, waits := strCode f = 3 && a.1 = 0,
      op := .store (strCode f ≠ 0) (scopeCode f) (leBytes n (m.dataOf 0x0C1 f a.1 x.lane)) }

def Dev.st (m : Dev) (f : LaneF) : Dev :=
  match m.laneStart 0x0C1 f with
  | .error m => m
  | .ok (eff, m) =>
    let n := 2 ^ sizeCode f
    let x := m.wave.xregs.getD f.xs.toNat {}
    let ((fs, ls), m) := m.checkLanes x n .store m.tangents (fun l => m.laneOff f l) (Mask.lanes eff m.wave.wlanes)
    let sc := releaseScope (scopeCode f) ls
    if ls ≠ [] && m.sysWait (strCode f = 3) sc then m.waitFor .peers else
    let m := if ls ≠ [] && strCode f = 3 then m.release m.wave.coreNo sc else m
    let (r, m) := m.runParts {} (ls.flatMap fun a => m.storeParts f n a)
    m.memFinish 0x0C1 f [] r fs

/-- `ST` (R465). -/
def execSt (f : LaneF) (s : State) : Host.Outcome State Fault Refusal := s.run fun m => m.st f

/-! ## Atomics (R466, R467, R357) -/

/-- The atomics of a lane. All but those of strength WEAK are ordered by it (R257). -/
def Dev.atomParts (m : Dev) (f : LaneF) (n : Nat) (x : LaneAcc) : List Part :=
  let fn := f.imm.toNat % 16
  let c := if fn = 11 then m.vread f.vc.toNat (n = 8) 0 x.lane else 0
  let mates := x.accs.filterMap (·.loc)
  x.items.map fun a =>
    { m.partFor f n (strCode f = 0 || strCode f = 2) x a (.atomic (scopeCode f) fn (m.dataOf 0x0C2 f a.1 x.lane) c mates) with
      waits := strCode f ≠ 1 }

def Dev.atom (m : Dev) (f : LaneF) : Dev :=
  match m.laneStart 0x0C2 f with
  | .error m => m
  | .ok (eff, m) =>
    let n := 2 ^ sizeCode f
    let adds := f.imm.toNat % 16 ≤ 1
    let keep := m.dual && !adds
    let rel := strCode f = 0 || strCode f = 3
    let x := m.wave.xregs.getD f.xs.toNat {}
    let ((fs, ls), m) := m.checkLanes x n .atomic (if adds then m.tangents else 0)
      (fun l => ((m.wave.vget f.va.toNat 0 l).toNat : Int)) (Mask.lanes eff m.wave.wlanes)
    let sc := releaseScope (scopeCode f) ls
    if ls = [] then m.memFinish 0x0C2 f [] {} fs
    else if m.sysWait rel sc then m.waitFor .peers else
    let m := m.irrev
    let m := if rel then m.release m.wave.coreNo sc else m
    let m := if keep then m.setCtl 3 else m
    let (r, m) := m.runParts {} (ls.flatMap fun a => m.atomParts f n a)
    let m := if strCode f = 0 || strCode f = 2 then m.acquire else m
    let outs := (r.done.foldl Results.take (resultsFor f.vd.toNat)).outs n
    m.memFinish 0x0C2 f (outs.map fun o => { o with keep }) r fs

/-- `ATOM` (R466, R467). -/
def execAtom (f : LaneF) (s : State) : Host.Outcome State Fault Refusal := s.run fun m => m.atom f

/-! ## Prefetch (R468) -/

def Dev.pref (m : Dev) (f : LaneF) : Dev :=
  match m.laneStart 0x0C3 f with
  | .error m => m
  | .ok (eff, m) =>
    let x := m.wave.xregs.getD f.xs.toNat {}
    let ((_, ls), m) := m.checkLanes x (2 ^ sizeCode f) .pref 0 (fun l => m.laneOff f l) (Mask.lanes eff m.wave.wlanes)
    let m := ls.foldl (fun m (a : LaneAcc) => a.accs.foldl (fun m b =>
      match b.use, b.loc with
      | .memory, some (.dev pa) => m.prefetchLine m.wave.coreNo (pa / 128)
      | _, _ => m) m) m
    m.laneFinish 0x0C3 f []

/-- `PREF` (R468). -/
def execPref (f : LaneF) (s : State) : Host.Outcome State Fault Refusal := s.run fun m => m.pref f

/-! ## Plate words (R469) -/

/-- The check of a plate offset. -/
def plateFail (o : Nat) : Option Fail :=
  if o % 4 ≠ 0 then some { rank := 3, cause := .misaligned, addr := o }
  else if o ≥ 8192 then some { rank := 4, cause := .protection, addr := o } else none

/-- Write one word of a plate. -/
def Dev.plateWord (m : Dev) (cl p o v : Nat) : Dev :=
  let a := m.plate cl p
  m.setPlate cl p { a with bytes := a.bytes.putBytes o (leBytes 4 v) }

def Dev.plw (m : Dev) (f : LaneF) : Dev :=
  let p := f.imm.toNat % 16
  let k := m.wave.tang
  if p ≥ plateCount k then m.trapLaneWord (m.effOf f.kp.toNat f.kn.toNat) else
  match m.laneStart 0x0C4 f with
  | .error m => m
  | .ok (eff, m) =>
    let cl := m.wave.clusterNo
    let lanes := (Mask.lanes eff m.wave.wlanes).map fun l => (l, (m.wave.vget f.va.toNat 0 l).toNat)
    let fs := lanes.filterMap fun (x : Nat × Nat) => (plateFail x.2).map fun e => ({ lane := x.1, fail := e } : LaneFail)
    let good := lanes.filter fun (x : Nat × Nat) => (plateFail x.2).isNone
    let units := if good = [] then [] else (List.range (k + 1)).map fun j => p + j * plateCount k
    match m.ownPlates cl m.wave.ctx m.wave units with
    | .error m => m
    | .ok m =>
      let m := good.foldl (fun m (x : Nat × Nat) =>
        (List.range (k + 1)).foldl (fun m j =>
          m.plateWord cl (p + j * plateCount k) x.2 (if j > 0 && !m.dual then 0 else m.dataOf 0x0C4 f j x.1)) m) m
      m.memFinish 0x0C4 f [] {} fs

/-- `PLW` (R469). -/
def execPlw (f : LaneF) (s : State) : Host.Outcome State Fault Refusal := s.run fun m => m.plw f

/-! ## Ring slots (R286, R470) -/

/-- A ring while the tun gives out its slots: HEAD, TAIL, and the slots by lane. -/
structure RingState where
  head : Nat
  tail : Nat
  got  : KMap Nat := []
deriving DecidableEq, Repr

/-- One lane asks for a slot (R286). HEAD and TAIL are compared as integers: software may set either beyond the other. -/
def RingState.ask (x : RingState) (push : Bool) (nslot l : Nat) : RingState :=
  if push then
    if (x.tail : Int) - x.head < nslot then { x with tail := (x.tail + 1) % 2 ^ 64, got := x.got.set l (x.tail % nslot) } else x
  else if x.tail > x.head then { x with head := x.head + 1, got := x.got.set l (x.head % nslot) } else x

/-- The tun gives slots to the lanes of an instruction, ascending: the lanes that get one, with the slot, and the
machine with HEAD or TAIL moved on (R286). -/
def Dev.ringSlots (m : Dev) (r : Room) (push : Bool) (ls : List Nat) : KMap Nat × Dev :=
  let x := ls.foldl (fun x l => RingState.ask x push r.nslot l) { head := m.descDword r.place 0x18, tail := m.descDword r.place 0x20 }
  (x.got, m.setDesc r.place (if push then 0x20 else 0x18) (if push then x.tail else x.head))

/-- The slots of the lanes of `eff`: those that a reissue keeps, or new ones from the tun, with kR written. -/
def Dev.takeSlots (m : Dev) (f : LaneF) (r : Room) (push : Bool) (eff : Mask) : KMap Nat × Dev :=
  if m.frag.reissue.isSome && m.frag.slots ≠ [] then (m.frag.slots.filter fun (e : Nat × Nat) => Mask.has eff e.1, m)
  else
    let (got, m) := m.ringSlots r push (Mask.lanes eff m.wave.wlanes)
    (got, m.irrev.putPred (f.imm.toNat % 8) eff fun l => got.any fun (e : Nat × Nat) => e.1 = l)

/-- The check of a slot access (R470): it is not compared with rooms. -/
def Dev.slotAccess (m : Dev) (a n : Nat) (push : Bool) : Except Fail Access × Dev :=
  match m.check a n { windows := [.global], rd := !push, wr := push, align := n } with
  | (.ok ss, m) => (.ok { addr := a, loc := ss.head?.map (·.loc), use := .memory }, m)
  | (.peer, m) => (.error { rank := 1, cause := .protection, addr := a }, m)
  | (.bad k c x, m) => (.error { rank := k, cause := c, addr := x }, m)

/-- The room entry that a ring instruction names, or the trap of R470 steps 2 and 3. -/
def Dev.ringRoom (m : Dev) (f : LaneF) (push : Bool) (eff : Mask) : Except Dev Room :=
  match m.wave.rooms.find? fun r => r.desc = (m.s (f.vb.extractLsb' 0 6)).toNat with
  | none => .error (m.trap { cause := .roomNotHeld, kf := some eff })
  | some r =>
    if r.mode ≠ (if push then 3 else 4) || sizeCode f - 2 ≠ r.slot then .error (m.trap { cause := .roomMode, kf := some eff })
    else .ok r

/-- One lane's slot: checked and performed. -/
def Dev.ringLane (m : Dev) (f : LaneF) (r : Room) (push : Bool) (res : Results) (l slot : Nat) :
    (Option LaneFail × Results) × Dev :=
  let n := 2 ^ sizeCode f
  match m.slotAccess (r.base + n * slot) n push with
  | (.error e, m) => ((some { lane := l, fail := e }, res), m)
  | (.ok a, m) =>
    if push then ((none, res), m.storeAt a true 3 (leBytes n (m.vread f.va.toNat (n = 8) 0 l)))
    else
      let (err, m) := m.newErr
      let (bs, m) := m.loadAt a n true
      ((none, res.put l 0 n (ofBytes (bs.map (·.1))) ((bs.take 4).any (·.2)) ((bs.drop 4).any (·.2)) err a.addr), m)

def Dev.ring (m : Dev) (opc : Nat) (push : Bool) (f : LaneF) : Dev :=
  match m.laneStart opc f with
  | .error m => m
  | .ok (eff, m) =>
    match m.ringRoom f push eff with
    | .error m => m
    | .ok r =>
      let (slots, m) := m.takeSlots f r push eff
      let ((fs, res), m) := slots.foldl (fun (p : (List LaneFail × Results) × Dev) (e : Nat × Nat) =>
        let ((x, res), m) := p.2.ringLane f r push p.1.2 e.1 e.2
        ((p.1.1 ++ x.toList, res), m)) (([], resultsFor f.vd.toNat), m)
      let m := if m.wave.super then m else m.onFrag fun g => { g with slots := slots.filter fun (e : Nat × Nat) => fs.any fun x => x.lane = e.1 }
      m.memFinish opc f (if push then [] else res.outs (2 ^ sizeCode f)) {} fs

/-- `RPUSH` (R286, R470). -/
def execRpush (f : LaneF) (s : State) : Host.Outcome State Fault Refusal := s.run fun m => m.ring 0x0C5 true f
/-- `RPOP` (R286, R470). -/
def execRpop (f : LaneF) (s : State) : Host.Outcome State Fault Refusal := s.run fun m => m.ring 0x0C6 false f

end Sys2Proof.Machine
end

