-- ==== Sys2Proof/Machine/Sync.lean ====
section
/-!
DEFINITION. Machine/Sync.lean: rooms and the events of the tun (13 R278-R288; 24 R493), fences (12 R271, R272),
batches (16 R340, R341) and monitors (16 R342, R343).
-/
namespace Sys2Proof.Machine

/-! ## Rooms (R279-R281) -/

/-- Fields of a descriptor that has been read. -/
def descOf (bs : List Byte) : Nat → Nat := dwordOf bs

/-- The checks of a descriptor pointer and the read of the descriptor (R279, R281): its bytes and its place. -/
def Dev.readRoomDesc (m : Dev) (a : Nat) : Except Dev (List Byte × Nat × Dev) :=
  match m.check a 64 { windows := [.global], rd := true, align := 64 } with
  | (.bad _ c x, m) => .error (m.trapCheck c x)
  | (.peer, m) => .error (m.trapCheck .protection a)
  | (.ok ss, m) =>
    let loc := ss.head?.map (·.loc)
    let (bs, m) := m.loadAt { addr := a, loc, use := .memory } 64 true
    if bs.any (·.2) then .error (m.trapCheck .poison a)
    else .ok (bs.map (·.1), (loc.map placeOf).getD 0, m)

/-- Do two ranges overlap? -/
def rangesMeet (a n b k : Nat) : Bool := a < b + k && b < a + n

/-- The checks of `RENTER` before its request (R279): the room that it asks for. -/
def Dev.roomAsked (m : Dev) (a mode : Nat) : Except Dev (Room × Dev) :=
  if a / 2 ^ 56 ≠ 0 then .error (m.trapCheck .protection a)
  else if a % 64 ≠ 0 then .error (m.trapCheck .misaligned a)
  else if m.wave.rooms.length ≥ 4 then .error (m.trapC .roomLimit)
  else if m.wave.rooms.any fun r => r.desc ≥ a then .error (m.trapC .roomOrder)
  else match m.readRoomDesc a with
    | .error m => .error m
    | .ok (bs, place, m) =>
      let d := descOf bs
      let r := roomOf a place mode d
      if !descOk d || m.wave.rooms.any fun x => rangesMeet r.base r.len x.base x.len then .error (m.trapCheck .protection a)
      else if !(d 2).testBit mode then .error (m.trapC .roomMode)
      else if mode = 2 && m.l1Sets m.wave.coreNo = 0 then .error (m.trapC .roomLimit)
      else .ok (r, m)

def Dev.renter (m : Dev) (a : BitVec 6) (mode : BitVec 3) : Dev :=
  match m.frag.phase with
  | 2 => m.acquire.advance
  | 3 => m.trapC .regionPoisoned
  | _ =>
    if m.wave.frags.any entering then m.waitFor .room else
    match m.roomAsked (m.s a).toNat mode.toNat with
    | .error m => m
    | .ok (r, m) =>
      ((m.onFrag fun f => { f with asked := some r }).waitFor .event 1).push
        (.tunEnter r.place mode.toNat m.wave.uid m.frag.fid)

/-- `RENTER` (R279, R493). -/
def execRenter (a : BitVec 6) (mode : BitVec 3) (s : State) : Host.Outcome State Fault Refusal :=
  s.run fun m => m.renter a mode

/-- The last part of `RLEAVE` after its release: shadows are merged, the entry goes, LEAVE is sent (R280). -/
def Dev.sendLeave (m : Dev) (r : Room) : Dev :=
  let w := m.wave
  let m := if r.mode = 2 then m.endShadows w.coreNo w.uid true fun d => d = r.desc else m
  let m := m.onWave fun w => { w with rooms := w.rooms.filter fun x => x.desc ≠ r.desc }
  let t := m.tun r.place
  let m := m.setTun { t with leaves := t.leaves ++ [w.uid] }
  (((m.onFrag fun f => { f with asked := some r }).waitFor .event 5).push (.tunLeave r.place w.uid)).pushPlace

def Dev.rleave (m : Dev) (a : BitVec 6) : Dev :=
  if m.frag.phase = 7 then m.advance else
  match m.wave.rooms.find? fun r => r.desc = (m.s a).toNat with
  | none => m.trapC .roomNotHeld
  | some r =>
    if m.frag.phase = 4 then m.sendLeave r else
    let m := m.irrev
    if m.busyPeers m.wave.uid then m.waitFor .peers else
    let m := m.releaseStart m.wave.coreNo 3
    if m.draining m.wave.die then m.waitFor .drain 4 else m.sendLeave r

/-- `RLEAVE` (R280, R493): it waits for the peer accesses of the wave, and for what its fragments have left behind them, before
its release. -/
def execRleave (a : BitVec 6) (s : State) : Host.Outcome State Fault Refusal := s.run fun m => m.rleave a

def Dev.rclr (m : Dev) (a : BitVec 6) : Dev :=
  if m.frag.phase = 7 then m.advance else
  let p := (m.s a).toNat
  if p / 2 ^ 56 ≠ 0 then m.trapCheck .protection p
  else if p % 64 ≠ 0 then m.trapCheck .misaligned p
  else if m.wave.rooms.any fun r => r.desc = p then m.trapCheck .protection p
  else match m.readRoomDesc p with
    | .error m => m
    | .ok (bs, place, m) =>
      if !descOk (descOf bs) then m.trapCheck .protection p else
      ((m.irrev.onFrag fun f => { f with asked := some (roomOf p place 0 (descOf bs)) }).waitFor .event 6).push
        (.tunClear place m.wave.uid m.frag.fid)

/-- `RCLR` (R281, R493). -/
def execRclr (a : BitVec 6) (s : State) : Host.Outcome State Fault Refusal := s.run fun m => m.rclr a

/-! ## Events of the tun (R282) -/

/-- Does a fragment wait in a phase for an answer about a descriptor? -/
def asks (place phase : Nat) (f : Frag) : Bool :=
  f.wait = .event && f.phase = phase && (match f.asked with | some r => r.place = place | none => false)

/-- A fragment of a wave that satisfies `p`. -/
def Dev.fragOf (m : Dev) (uid : Nat) (p : Frag → Bool) : Option Frag :=
  (m.waveOf uid).bind fun w => w.frags.find? p

/-- `TUN_ENTER` (R282): the request must be pending and not be in the waiting set already. -/
def execTunEnter (desc mode wave frag : Nat) (s : State) : Host.Outcome State Fault Refusal :=
  s.run fun m =>
    let m := m.stash
    match m.fragOf wave fun f => f.fid = frag && asks desc 1 f && f.asked.any fun r => r.mode = mode with
    | none => m
    | some _ =>
      let t := m.tun desc
      if (t.waiting ++ t.routed).any fun w => w.1 = wave && w.2.1 = frag then m else m.tunEnter desc mode wave frag

/-- `TUN_LEAVE` (R282): a LEAVE that has been sent is handled, and acknowledged when its sender is still there. -/
def execTunLeave (desc wave : Nat) (s : State) : Host.Outcome State Fault Refusal :=
  s.run fun m =>
    let m := m.stash
    let t := m.tun desc
    if !t.leaves.contains wave then m else
    let asker := m.fragOf wave (asks desc 5)
    let m := ((m.setTun { t with leaves := t.leaves.erase wave }).tunLeave desc).retryRouted (tunSlice desc)
    match asker with
    | none => m
    | some f => (m.modFrag wave f.fid fun f => { f with asked := none }).answer wave f.fid 7

/-- `TUN_KILL` (R282, R287). -/
def execTunKill (desc : Nat) (s : State) : Host.Outcome State Fault Refusal :=
  s.run fun m =>
    let m := m.stash
    let t := m.tun desc
    if t.kills = 0 then m else
    let m := ((m.setTun { t with kills := t.kills - 1 }).tunKill desc).retryRouted (tunSlice desc)
    if (m.tun desc).kills = 0 then m else m.push (.tunKill desc)

/-- `TUN_WITHDRAW` (R282, R283): the wave has been chosen as a victim and waits for a room. -/
def execTunWithdraw (desc wave : Nat) (s : State) : Host.Outcome State Fault Refusal :=
  s.run fun m =>
    let m := m.stash
    match m.waveOf wave with
    | some w => if w.victim then (m.tunWithdraw desc wave).retryRouted (tunSlice desc) else m
    | none => m

/-- `TUN_CLEAR` (R282). -/
def execTunClear (desc wave frag : Nat) (s : State) : Host.Outcome State Fault Refusal :=
  s.run fun m =>
    let m := m.stash
    match m.fragOf wave fun f => f.fid = frag && asks desc 6 f with
    | none => m
    | some _ => if (m.tun desc).clears.contains (wave, frag) then m else m.tunClear desc wave frag

/-! ## Fences (R271, R272, R494) -/

/-- `FENCE` at a scope; `cla` its class mask A. -/
def Dev.fence (m : Dev) (scope kind cla : Nat) : Dev :=
  if m.busyPeers m.wave.uid then m.waitFor .peers else
  match m.pendingTrap false with
  | some m => m
  | none =>
    let released := if kind ≠ 0 && cla.testBit 0 then m.releaseWait scope else .ok m
    match released with
    | .error m => m
    | .ok m => if kind = 1 then m.advance else m.acquire.advance

/-- `FENCE` (R271, R272). -/
def execFence (scope : BitVec 3) (kind : BitVec 2) (s : State) : Host.Outcome State Fault Refusal :=
  s.run fun m => m.fence scope.toNat kind.toNat 1

/-- `FENCE.X` (R271, R272). Work of the engine classes that the wave has observed is performed already (R270). -/
def execFenceX (scope : BitVec 3) (kind : BitVec 2) (cla _clb : BitVec 6) (s : State) : Host.Outcome State Fault Refusal :=
  s.run fun m => m.fence scope.toNat kind.toNat cla.toNat

/-! ## Batches (R340, R341, R496) -/

def Dev.cbatch (m : Dev) (d : BitVec 6) : Dev :=
  let w := m.wave
  if m.running w.openBatch && m.incomplete w ≥ 64 then m.waitFor .batchRoom
  else
    let n := w.batchNum + 1
    let closed := (w.closed.filter fun b => m.running b.cmds) ++ (if m.running w.openBatch then [{ num := n, cmds := w.openBatch }] else [])
    (m.onWave fun w => { w with batchNum := n, openBatch := [], closed }).writeS d (n.setWidth 64)

/-- `CBATCH` (R340, R496). -/
def execCbatch (d : BitVec 6) (s : State) : Host.Outcome State Fault Refusal := s.run fun m => m.cbatch d

def Dev.cwait (m : Dev) (a : BitVec 6) : Dev :=
  match m.pendingTrap false with
  | some m => m
  | none =>
    let b : Word := (m.s a).setWidth 32
    if m.waitsBatch m.wave b then m.waitFor (.batches b)
    else if m.busyPeers m.wave.uid then m.waitFor .peers
    else m.acquire.advance

/-- `CWAIT` (R341, R496): it ends as a `FENCE` does, which waits for peer responses first (R272). -/
def execCwait (a : BitVec 6) (s : State) : Host.Outcome State Fault Refusal := s.run fun m => m.cwait a

/-! ## Monitors (R342, R343, R497) -/

/-- The loaded wave's monitor is armed on a word at a place. -/
def Dev.arm (m : Dev) (p : DWord) (loc : Loc) : Dev :=
  let uid := m.wave.uid
  let m := m.onWave fun w => { w with monitor := some (p, loc) }
  let rest := m.watch.filter fun (e : Loc × Nat × Instr) => e.2.2 ≠ Instr.monitorTrigger uid
  { m with watch := rest ++ [(loc, 8, Instr.monitorTrigger uid)] }

def Dev.mon (m : Dev) (a : BitVec 6) : Dev :=
  let p := m.s a
  match m.checkRange p.toNat 8 { windows := scalarWindows, rd := true, align := 8 } with
  | .error m => m
  | .ok (ss, m) =>
    (m.arm p (((ss.head?).map fun (x : Span) => x.loc).getD (.dev 0))).advance

/-- `MON` (R342, R497). -/
def execMon (a : BitVec 6) (s : State) : Host.Outcome State Fault Refusal := s.run fun m => m.mon a

/-- `MWAIT` ends with a value of `c1`. -/
def Dev.mwaitEnd (m : Dev) (b : Bool) : Dev := ((m.setC 1 b).onFrag fun f => { f with deadline := none }).advance

/-- The loop of `MWAIT`: the word is translated anew for each read, so that it is read where the tables have it (R519). -/
def Dev.mwait (m : Dev) (a b : BitVec 6) (cond : BitVec 2) : Dev :=
  match m.wave.monitor with
  | none => m.trapC .protection
  | some (p, loc) =>
    if m.frag.phase = 23 then m.mwaitEnd false else
    match m.checkRange p.toNat 8 { windows := scalarWindows, rd := true, align := 8 } with
    | .error m => m
    | .ok (ss, m) =>
    let m := m.arm p (((ss.head?).map fun (x : Span) => x.loc).getD loc)
    let (bs, m) := m.acquire.loadAt { addr := p.toNat, loc := ss.head?.map (·.loc), use := .memory } 8 true
    if bs.any (·.2) then m.trapCheck .poison p.toNat
    else if mwaitCond cond (BitVec.ofNat 64 (ofBytes (bs.map (·.1)))) (m.s b) then m.mwaitEnd true
    else
      let now := (m.core m.wave.coreNo).cycle.toNat
      let t := (m.s a).toNat
      let d := if m.frag.phase = 22 then m.frag.deadline else if t = 0 then none else some (now + t)
      if d.any fun x => now ≥ x then m.mwaitEnd false
      else (m.onFrag fun f => { f with deadline := d }).waitFor (.monitor d) 23

/-- `MWAIT` (R343, R497): phase 22 after a trigger, 23 when its time has passed. -/
def execMwait (a b : BitVec 6) (cond : BitVec 2) (s : State) : Host.Outcome State Fault Refusal :=
  s.run fun m => m.mwait a b cond

/-- Does a fragment wait in `MWAIT`? -/
def inMwait (f : Frag) : Bool := match f.wait with | .monitor _ => true | _ => false

/-- `MONITOR_TRIGGER` (R343): every `MWAIT` of the wave reads the word again. -/
def execMonitorTrigger (wave : Nat) (s : State) : Host.Outcome State Fault Refusal :=
  s.rouse fun m => m.stash.modFrags wave fun f => if inMwait f then { f with wait := .none, phase := 22 } else f

/-- `MWAIT_TIMEOUT` (R343): the core's cycle counter has reached the deadline, and the wait ends with `c1` = 0. In P2 the counter
stands (R516), and no deadline is reached. -/
def execMwaitTimeout (wave frag : Nat) (s : State) : Host.Outcome State Fault Refusal :=
  if s.pwr.state = .p2 then .next s else s.run fun m =>
    let m := m.stash
    match m.waveOf wave, m.fragOf wave fun f => f.fid = frag && inMwait f with
    | some w, some f =>
      match f.deadline with
      | none => m
      | some d =>
        let c := m.core w.coreNo
        let m := m.setCore w.coreNo { c with cycle := if c.cycle.toNat < d then BitVec.ofNat 64 d else c.cycle }
        m.modFrag wave frag fun f => { f with wait := .none, phase := 23 }
    | _, _ => m

/-! ## Drains (R246, R247) -/

/-- `MEMORY_ACCESS_PERFORMED` (R246, R265): a line of a die merge buffer, or of the die's atomic unit, reaches its home. -/
def execMemoryAccessPerformed (die line : Nat) (s : State) : Host.Outcome State Fault Refusal :=
  s.run fun m =>
    let m := m.stash.homeLine die line
    if (m.die die).atomics.any (fun l => l.num = line) then m.recall line else m

/-- `G_LINE_EXPIRY` (R249): a G line of a core is dropped 65,536 cycles after its fill. -/
def execGLineExpiry (core line : Nat) (s : State) : Host.Outcome State Fault Refusal :=
  s.run fun m =>
    let now := (m.core core).cycle.toNat
    m.stash.dropLines core fun l => l.num = line && l.st = .g && l.expired now

end Sys2Proof.Machine
end

