-- ==== Sys2Proof/Machine/Engines.lean ====
section
/-!
DEFINITION. Machine/Engines.lean: code fetches, copies, gathers and scatter-adds, peer transfers and cluster
messages, with the events that complete them (16 R333-R348; 09 R218; 02 R50-R56; 18 R370; 24 R495-R501).
-/
namespace Sys2Proof.Machine

/-! ## Commands (R334, R340, R370) -/

/-- The global pages that a range touches. -/
def pagesOf (a n : Nat) : List Nat :=
  if windowOf a ≠ some .global || n = 0 then []
  else (List.range ((windowOff a + n - 1) / 65536 + 1 - windowOff a / 65536)).map fun i => windowOff a / 65536 + i

/-- Start a command: it joins the open batch of the wave (R340). -/
def Dev.join (m : Dev) (pages : List Nat) (body : CmdBody) : Dev :=
  let c : Cmd := { id := m.nextCmd, wave := m.wave.uid, ctx := m.wave.ctx, cluster := m.wave.clusterNo, pages, body }
  { m with nextCmd := m.nextCmd + 1, cmds := m.cmds ++ [c] }.onWave fun w =>
    { w with openBatch := w.openBatch ++ [c.id] }

/-- Change what the command with a number does. -/
def Dev.modCmd (m : Dev) (id : Nat) (f : CmdBody → CmdBody) : Dev :=
  { m with cmds := m.cmds.map fun (x : Cmd) => if x.id = id then { x with body := f x.body } else x }

/-- Commands of the list complete (R340): what waited for them is polled, tracker entries may drain (R175). -/
def Dev.finishCmds (m : Dev) (ids : List Nat) : Dev :=
  ({ m with cmds := m.cmds.filter fun c => !ids.contains c.id }).checkTrackers

/-- The windows of `CPY` ranges and `PEER` local ranges (R224). -/
def engineWindows : List Window := [.global, .dieShared, .cluster, .own]

/-- A check that follows only when a condition holds; no spans otherwise. -/
def Dev.checkIf (m : Dev) (b : Bool) (a n : Nat) (ak : AccessKind) : Except Dev (List Span × Dev) :=
  if b then m.checkRange a n ak else .ok ([], m)

/-- Bytes of a range at its homes and arrays, with their poison. -/
def Dev.sourceBytes (m : Dev) (ss : List Span) : List (Byte × Bool) := (m.readSpans ss).zip (m.poisonSpans ss)

/-- Does every byte of a scratchpad range lie in an allocation of a context on a core in service (R222)? -/
def Dev.reachable (m : Dev) (ctx core off n : Nat) : Bool :=
  match m.checkArray core ctx off n 0 with
  | .ok _ => off + n ≤ 2 ^ 20
  | _ => false

/-! ## CFETCH (R218, R427) -/

/-- A `CFETCH` whose range has been translated: it starts once no other fetch of the segment is under way. -/
def Dev.cfetchStart (m : Dev) (seg : Nat) (ln : Bool) : Dev :=
  let x := m.seg seg
  if x.st = .inflight then m.waitFor (.segment seg) 1 else
  let f := m.frag
  let k := m.wave.coreNo
  let c := m.core k
  let m := m.setCore k { c with segs := setAt {} c.segs seg { x with st := .inflight, lane := ln, owner := .launch m.wave.launch } }
  (((m.join (pagesOf f.taken 0x4000) (.cfetch k seg f.range)).push (.cfetchComplete k seg)).onFrag fun f => { f with range := [] }).advance

def Dev.cfetch (m : Dev) (seg : Nat) (ln : Bool) (a : BitVec 6) : Dev :=
  if m.frag.phase ≠ 0 then m.cfetchStart seg ln else
  let p := (m.s a).toNat
  let x := m.seg seg
  if seg > 11 || p % 2 ^ 14 ≠ 0 then m.trapAt .misaligned p
  else if x.owner ≠ .free && x.owner ≠ .launch m.wave.launch then m.trapAt .protection p
  else match m.checkRange p 0x4000 { windows := [.global], rd := true } with
    | .error m => m
    | .ok (ss, m) => (m.onFrag fun f => { f with taken := p, range := ss }).cfetchStart seg ln

/-- `CFETCH` (R218, R427). -/
def execCfetch (seg : BitVec 4) (ln : BitVec 1) (a : BitVec 6) (s : State) : Host.Outcome State Fault Refusal :=
  s.run fun m => m.cfetch seg.toNat (ln = 1) a

/-- Is a command a fetch of a segment of a core? -/
def fetches (k seg : Nat) (c : Cmd) : Bool :=
  match c.body with
  | .cfetch k' s' _ => k' = k && s' = seg
  | _ => false

/-- The oldest fetch of a segment ends: the segment holds its 16 KiB and is LANDED, or ERROR when a byte was
poisoned (R218). The fetch reads what the cluster's engines see (R220, R269). A segment that its launch no longer holds stays as it
is; the end of the launch that holds it now is due then. -/
def Dev.cfetchDone (m : Dev) (k seg : Nat) : Dev :=
  match m.cmds.filter (fetches k seg) with
  | [] => m
  | c :: later =>
    match c.body with
    | .cfetch _ _ ss =>
      let x := m.core k
      let g := x.segs.getD seg {}
      let m' :=
        if g.st = .inflight && later = [] then
          let bs := m.engineBytes (k / 13) c.ctx ss
          let g := { g with st := if bs.any (·.2) then .error else .landed, code := Cells.putBytes [] 0 (bs.map (·.1)) }
          m.setCore k { x with segs := setAt {} x.segs seg g }
        else m
      let m' := m'.finishCmds [c.id]
      if later = [] then m' else m'.push (.cfetchComplete k seg)
    | _ => m

/-- `CFETCH_COMPLETE` (R218). -/
def execCfetchComplete (core segment : Nat) (s : State) : Host.Outcome State Fault Refusal :=
  s.run fun m => m.stash.cfetchDone core segment

/-! ## CPY (R335-R339, R495) -/

/-- Receiver `i` of a slice descriptor. -/
def rcvOf (w i : Nat) : Nat := fld w (55 - 4 * i) (52 - 4 * i)

/-- Does a slice descriptor keep R335? -/
def sliceOk (d : List Byte) : Bool :=
  let dst := dwordOf d 1
  let w := dwordOf d 2
  let n := fld w 59 56
  fld w 6 0 = 0 && fld (dwordOf d 3) 31 0 ≠ 0 && n ≤ 12 &&
  ((List.range 12).all fun i => if i < n then rcvOf w i ≤ 11 else rcvOf w i = 0) &&
  (n = 0 || fld dst 63 20 = 0)

/-- Has the loaded wave supplied an unstarted slice of copy `cid` (R336)? -/
def Dev.suppliedSlice (m : Dev) (cid : Nat) : Bool :=
  m.cmds.any fun c => c.wave = m.wave.uid && match c.body with
    | .copy _ _ x _ _ _ _ _ _ _ n => x = cid && n = 0
    | _ => false

/-- The parties of a copy: those of its first slice, or the members of the gang now (R336). -/
def Dev.partiesFor (m : Dev) (cid : Nat) : Dev :=
  let cl := m.wave.clusterNo
  let g := m.wave.gang
  if m.copyParties.any fun p => p.cluster = cl && p.gang = g && p.cid = cid && (g.isSome || p.parties.contains m.wave.uid)
  then m
  else
    let ps := match g with
      | none => [m.wave.uid]
      | some x => (KMap.get { launch := 0, members := [] } (m.cluster cl).gangs x).members
    { m with copyParties := m.copyParties ++ [{ cluster := cl, gang := g, cid, parties := ps }] }

def Dev.cpy (m : Dev) (a : BitVec 6) : Dev :=
  let p := (m.s a).toNat
  match m.readDesc p 32 32 [.own] with
  | .error m => m
  | .ok (d, m) =>
    let src := dwordOf d 0
    let dst := dwordOf d 1
    let w := dwordOf d 2
    let se := w.testBit 7
    let n := fld w 59 56
    let len := fld (dwordOf d 3) 31 0
    let total := if se then alignUp len 8 + 8 else len
    if !sliceOk d || m.suppliedSlice (fld w 63 60) then m.trapCheck .protection p else
    match m.checkRange src len { windows := engineWindows, rd := true } with
    | .error m => m
    | .ok (ss, m) =>
      match m.checkIf (n = 0) dst total { windows := engineWindows, wr := true } with
      | .error m => m
      | .ok (ds, m) =>
        let rcv := ((List.range n).map (rcvOf w)).eraseDups.map fun (c : Nat) => (c, none)
        let m := m.irrev.partiesFor (fld w 63 60)
        let m := m.join (pagesOf src len ++ (if n = 0 then pagesOf dst total else []))
          (.copy m.wave.clusterNo m.wave.gang (fld w 63 60) ss ds (fld dst 19 0) rcv se
            (BitVec.ofNat 32 (fld (dwordOf d 3) 63 32)) len 0)
        m.startCopies.advance

/-- `CPY` (R335, R336, R495). -/
def execCpy (a : BitVec 6) (s : State) : Host.Outcome State Fault Refusal := s.run fun m => m.cpy a

/-- A slice of a started copy, with what it read. -/
structure Slice where
  ctx   : Nat
  cluster : Nat
  cid   : Nat
  dst   : List Span
  off   : Nat
  rcv   : List (Nat × Option Nat)
  se    : Bool
  stamp : Word
  len   : Nat
  data  : List (Byte × Bool)
deriving DecidableEq, Repr

/-- The slice of a command, with its source read now; none unless it belongs to copy `n`. -/
def Dev.sliceData (m : Dev) (n : Nat) (c : Cmd) : Option Slice :=
  match c.body with
  | .copy cl _ cid src dst off rcv se stamp len k =>
    if k = n then some { ctx := c.ctx, cluster := cl, cid, dst, off, rcv, se, stamp, len, data := m.engineBytes cl c.ctx src }
    else none
  | _ => none

/-- Write bytes at a receiver's landing, each that R222 lets be written; was every one (R337)? -/
def Dev.land (m : Dev) (ctx core off : Nat) (bs : List (Byte × Bool)) : Dev × Bool :=
  if m.reachable ctx core off bs.length then (m.writeSpans [{ loc := .arr core off, len := bs.length }] bs, true)
  else
    (((List.range bs.length).zip bs).foldl (fun m (x : Nat × (Byte × Bool)) =>
      if m.reachable ctx core (off + x.1) 1 then m.writeSpans [{ loc := .arr core (off + x.1), len := 1 }] [x.2]
      else m) m, false)

/-- The payload of a slice; was every byte written (R337, R338)? -/
def Dev.copyPayload (m : Dev) (x : Slice) : Dev × Bool :=
  x.rcv.foldl (fun (p : Dev × Bool) (r : Nat × Option Nat) =>
    match r.2 with
    | none => (p.1, false)
    | some b =>
      let (m, ok) := p.1.land x.ctx (13 * x.cluster + r.1) (b + x.off) x.data
      (m, p.2 && ok))
    (if x.rcv = [] then (m.storeEngine x.cluster x.ctx (Span.take x.dst x.len) x.data, m.ownsSpans x.ctx (Span.take x.dst x.len))
     else (m, true))

/-- The stamp word of a slice (R339). -/
def stampWord (v : Word) (err : Bool) (cid : Nat) : List (Byte × Bool) :=
  clean (leBytes 8 (v.toNat * 2 ^ 32 + b2n err * 2 ^ 31 + cid))

/-- The stamps of a slice (R339). -/
def Dev.copyStamp (m : Dev) (err : Bool) (x : Slice) : Dev :=
  if !x.se then m else
  let bs := stampWord x.stamp err x.cid
  let at_ := alignUp x.len 8
  if x.rcv = [] then m.storeEngine x.cluster x.ctx (Span.drop x.dst at_) bs
  else x.rcv.foldl (fun m (r : Nat × Option Nat) =>
    match r.2 with
    | none => m
    | some b => (m.land x.ctx (13 * x.cluster + r.1) (b + x.off + at_) bs).1) m

/-- The number of the copy that a command belongs to, when it has started. -/
def Dev.copyOf (m : Dev) (id : Nat) : Option Nat :=
  (m.cmds.find? fun c => c.id = id).bind fun c => match c.body with
    | .copy _ _ _ _ _ _ _ _ _ _ n => if n = 0 then none else some n
    | _ => none

/-- A started copy is performed: every source byte is read, then every payload byte written, then the stamps (R338,
R339). -/
def Dev.copyDone (m : Dev) (id : Nat) : Dev :=
  match m.copyOf id with
  | none => m
  | some n =>
    let xs := m.cmds.filterMap (m.sliceData n)
    let ids := (m.cmds.filter fun c => (m.sliceData n c).isSome).map fun (c : Cmd) => c.id
    let (m, ok) := xs.foldl (fun (p : Dev × Bool) (x : Slice) =>
      let (m, b) := p.1.copyPayload x
      (m, p.2 && b)) (m, true)
    let err := !ok || xs.any fun x => x.data.any (·.2)
    (xs.foldl (fun m x => m.copyStamp err x) m).finishCmds ids

/-- `COPY_COMPLETE` (R337-R340). -/
def execCopyComplete (id : Nat) (s : State) : Host.Outcome State Fault Refusal :=
  s.run fun m => m.stash.copyDone id

/-! ## GATH and SCADD (R344-R346, R498) -/

/-- Does a descriptor keep R344? -/
def gatherOk (scatter : Bool) (d : List Byte) : Bool :=
  let rowb := fld (dwordOf d 3) 12 0
  let pitch := fld (dwordOf d 4) 51 32
  fld (dwordOf d 0) 63 49 = 0 && fld (dwordOf d 1) 63 32 = 0 && fld (dwordOf d 2) 63 49 = 0 &&
  fld (dwordOf d 3) 31 13 = 0 && fld (dwordOf d 4) 63 52 = 0 && fld (dwordOf d 4) 31 20 = 0 &&
  fld (dwordOf d 5) 63 49 = 0 && fld (dwordOf d 6) 63 34 = 0 && dwordOf d 7 = 0 &&
  fld (dwordOf d 1) 31 0 ≤ 2 ^ 24 && rowb % 4 = 0 && 4 ≤ rowb && rowb ≤ 4096 && rowb ≤ pitch && pitch % 4 = 0 &&
  fld (dwordOf d 4) 19 0 % 4 = 0 && dwordOf d 0 % 4 = 0 && dwordOf d 2 % 4 = 0 && dwordOf d 5 % 8 = 0 &&
  (if scatter then fld (dwordOf d 6) 33 32 ≠ 3 else fld (dwordOf d 6) 33 32 = 0)

/-- The completion record (R346). -/
def recordBytes (dropped : Nat) (stamp : Word) : List (Byte × Bool) := clean (leBytes 8 (dropped * 2 ^ 32 + stamp.toNat))

/-- `GDROP` of a context takes dropped indices, saturating (R346). -/
def Dev.countDrops (m : Dev) (ctx n : Nat) : Dev :=
  if n = 0 then m else { m with gdrop := m.gdrop.set ctx (min (2 ^ 32 - 1) (KMap.get 0 m.gdrop ctx + n)) }

def Dev.gather (m : Dev) (scatter : Bool) (a : BitVec 6) : Dev :=
  let p := (m.s a).toNat
  match m.readDesc p 64 64 engineWindows with
  | .error m => m
  | .ok (d, m) =>
    if !gatherOk scatter d then m.trapCheck .protection p else
    let nidx := fld (dwordOf d 1) 31 0
    let nrows := fld (dwordOf d 3) 63 32
    let rowb := fld (dwordOf d 3) 12 0
    let pitch := fld (dwordOf d 4) 51 32
    let off := fld (dwordOf d 4) 19 0
    let record := dwordOf d 5
    let stamp : Word := BitVec.ofNat 32 (dwordOf d 6)
    match m.checkIf (nidx ≠ 0) (dwordOf d 0) (4 * nidx) { windows := [.global], rd := true } with
    | .error m => m
    | .ok (idx, m) =>
      match m.checkIf (nidx ≠ 0) (0xFE * 2 ^ 56 + off) ((nidx - 1) * pitch + rowb)
          { windows := [.own], rd := scatter, wr := !scatter } with
      | .error m => m
      | .ok (_, m) =>
        match m.checkIf (record ≠ 0) record 8 { windows := [.global], wr := true } with
        | .error m => m
        | .ok (rec, m) =>
          match m.checkIf (nrows ≠ 0) (dwordOf d 2) (nrows * rowb) { windows := [.global], rd := true, wr := scatter } with
          | .error m => m
          | .ok (tab, m) =>
            let m := m.irrev
            let w := m.wave
            if nidx = 0 then (m.storeEngine w.clusterNo w.ctx rec (recordBytes 0 stamp)).advance else
            let pages := pagesOf (dwordOf d 0) (4 * nidx) ++ pagesOf (dwordOf d 2) (nrows * rowb) ++
              (if record = 0 then [] else pagesOf record 8)
            ((m.join pages (.gather scatter w.clusterNo idx tab nidx nrows rowb pitch off w.coreNo w.scrbase rec
              (fld (dwordOf d 6) 33 32) stamp)).push (.gatherComplete w.clusterNo)).advance

/-- `GATH` (R344, R345, R498). -/
def execGath (a : BitVec 6) (s : State) : Host.Outcome State Fault Refusal := s.run fun m => m.gather false a
/-- `SCADD` (R344, R345, R498). -/
def execScadd (a : BitVec 6) (s : State) : Host.Outcome State Fault Refusal := s.run fun m => m.gather true a

/-- The addition of an `SCADD` element (R345, R300): its size and its sum. -/
def etySize (ety : Nat) : Nat := if ety = 0 then 4 else 2
def etyAdd (ety x y : Nat) : Nat := fAdd (if ety = 0 then f32 else if ety = 1 then f16 else b16) 0 x y

/-- Row `i` of a gather of cluster `cl` for a context: the table row or zeros, into the scratchpad row. -/
def Dev.gatherRow (m : Dev) (cl ctx : Nat) (tab : List Span) (rowb : Nat) (row : Option Nat) (dst : Loc) : Dev :=
  let bs := match row with
    | some r => m.engineBytes cl ctx (Span.take (Span.drop tab (r * rowb)) rowb)
    | none => clean (leBytes rowb 0)
  m.storeEngine cl ctx [{ loc := dst, len := rowb }] bs

/-- One element of a scatter-add: added at its home as an atomic, for which its line is brought there (R345); poison of either
is carried (R370). -/
def Dev.scatterElem (m : Dev) (cl ctx ety : Nat) (at_ src : Loc) : Dev :=
  let n := etySize ety
  let x := m.engineBytes cl ctx [{ loc := src, len := n }]
  let m := m.atomicPlace (13 * cl + 12) 3 at_
  let was := m.atomicBytes (13 * cl + 12) at_ n
  let v := etyAdd ety (ofBytes (was.map (·.1))) (ofBytes (x.map (·.1)))
  m.atomicPut (13 * cl + 12) 3 at_ ((leBytes n v).map fun b => (b, (x ++ was).any (·.2)))

/-- A scatter-add row: each of its elements. -/
def Dev.scatterRow (m : Dev) (cl ctx : Nat) (tab : List Span) (rowb ety row : Nat) (src : Loc) : Dev :=
  let n := etySize ety
  (List.range (rowb / n)).foldl (fun m i =>
    match Span.take (Span.drop tab (row * rowb + n * i)) n with
    | [] => m
    | s :: _ => m.scatterElem cl ctx ety s.loc (src.add (n * i))) m

/-- The oldest command of a cluster's gather engine is performed (R345, R346). -/
def Dev.gatherDone (m : Dev) (cluster : Nat) : Dev :=
  let mine (c : Cmd) : Bool := match c.body with
    | .gather _ cl _ _ _ _ _ _ _ _ _ _ _ _ => cl = cluster
    | _ => false
  match m.cmds.filter mine with
  | [] => m
  | c :: later =>
    match c.body with
    | .gather scatter _ idx tab nidx nrows rowb pitch off core scrbase rec ety stamp =>
      let list := (m.engineBytes cluster c.ctx idx).map (·.1)
      let index (i : Nat) : Nat := ofBytes ((list.drop (4 * i)).take 4)
      let live (i : Nat) : Bool := index i < nrows && index i ≠ 0xFFFFFFFF
      let row (i : Nat) : Loc := .arr core (scrbase + off + i * pitch)
      let m := (List.range nidx).foldl (fun m i =>
        if scatter then (if live i then m.scatterRow cluster c.ctx tab rowb ety (index i) (row i) else m)
        else m.gatherRow cluster c.ctx tab rowb (if live i then some (index i) else none) (row i)) m
      let dropped := ((List.range nidx).filter fun i => !live i).length
      let m := (m.storeEngine cluster c.ctx rec (recordBytes dropped stamp)).countDrops c.ctx dropped
      let m := m.finishCmds [c.id]
      if later = [] then m else m.push (.gatherComplete cluster)
    | _ => m

/-- `GATHER_COMPLETE` (R345, R346). -/
def execGatherComplete (cluster : Nat) (s : State) : Host.Outcome State Fault Refusal :=
  s.run fun m => m.stash.gatherDone cluster

/-! ## Peer transfers (R347, R348, R499) -/

/-- The requests of a transfer: a remote range cut at 128-byte lines, as (offset in the range, bytes). -/
def peerPieces (remote : Nat) : Nat → Nat → Nat → List (Nat × Nat)
  | 0, _, _ => []
  | fuel + 1, off, len =>
    if off ≥ len then [] else
    let n := min (len - off) (128 - (remote + off) % 128)
    (off, n) :: peerPieces remote fuel (off + n) len

/-- Send a request of a command of cluster `cl`, with the bytes of a PUT and their poison (R348, R370). -/
def Dev.sendCmdPeer (m : Dev) (cl wave id addr size : Nat) (data : List (Byte × Bool)) : Dev :=
  { m with nextPeer := m.nextPeer + 1 }.sendRequest (cl / 16)
    { id := m.nextPeer, wave, err := 0, addr := BitVec.ofNat 64 addr, size, what := .cmd id,
      data := data.map fun (x : Byte × Bool) => x.1, bad := data.map fun (x : Byte × Bool) => x.2 }

def Dev.peer (m : Dev) (put : Bool) (a : BitVec 6) : Dev :=
  let p := (m.s a).toNat
  if !m.ctxPeer m.wave.ctx then m.trapCheck .protection p else
  match m.readDesc p 32 32 engineWindows with
  | .error m => m
  | .ok (d, m) =>
    let loc := dwordOf d 0
    let remote := dwordOf d 1
    let len := fld (dwordOf d 2) 31 0
    let stamp : Word := BitVec.ofNat 32 (fld (dwordOf d 2) 63 32)
    let se := (dwordOf d 3).testBit 0
    let total := if se then alignUp len 8 + 8 else len
    if fld (dwordOf d 3) 63 1 ≠ 0 || len = 0 then m.trapCheck .protection p
    else if windowOf remote ≠ some .peer || fld remote 55 42 = m.host.nodeid then m.trapCheck .protection remote
    else if remote % 2 ^ 34 + (if put then total else len) > 2 ^ 34 then
      m.trapCheck .windowSpan (remote / 2 ^ 34 * 2 ^ 34 + 2 ^ 34)
    else match m.checkRange loc (if put then len else total) { windows := engineWindows, rd := put, wr := !put } with
      | .error m => m
      | .ok (ss, m) =>
        let m := m.irrev
        let id := m.nextCmd
        let src := if put then m.engineBytes m.wave.clusterNo m.wave.ctx (Span.take ss len) else []
        let m := m.join (pagesOf loc (if put then len else total))
          (.peer put (Span.take ss len) remote len se stamp (if put then [] else Span.drop ss (alignUp len 8)) false false
            (src.any (·.2)))
        let m := (peerPieces remote len 0 len).foldl (fun m (x : Nat × Nat) =>
          m.sendCmdPeer m.wave.clusterNo m.wave.uid id (remote + x.1) x.2 ((src.drop x.1).take x.2)) m
        m.advance

/-- `PEER.PUT` (R347, R348, R499). -/
def execPeerPut (a : BitVec 6) (s : State) : Host.Outcome State Fault Refusal := s.run fun m => m.peer true a
/-- `PEER.GET` (R347, R348, R499). -/
def execPeerGet (a : BitVec 6) (s : State) : Host.Outcome State Fault Refusal := s.run fun m => m.peer false a

/-- Has a command a request that is not answered? -/
def Dev.peerWaits (m : Dev) (id : Nat) : Bool := m.peers.any fun p => p.what = .cmd id

/-- Every request of a transfer has been acknowledged: its stamp follows, as a further request of a PUT, and the
transfer completes; after a NACK or a timeout without a stamp (R348). -/
def Dev.peerDone (m : Dev) (id : Nat) : Dev :=
  if m.peerWaits id then m else
  match m.cmds.find? fun c => c.id = id with
  | none => m
  | some c =>
    match c.body with
    | .peer put loc remote len se stamp stampAt failed answered err =>
      if failed || !se then m.finishCmds [id]
      else if !put then (m.storeEngine c.cluster c.ctx stampAt (stampWord stamp err 0)).finishCmds [id]
      else if answered then m.finishCmds [id]
      else
        (m.modCmd id fun _ => .peer put loc remote len se stamp stampAt false true err).sendCmdPeer c.cluster c.wave id
          (remote + alignUp len 8) 8 (stampWord stamp err 0)
    | _ => m

/-- `PEER_TRANSFER_COMPLETE` (R348). -/
def execPeerTransferComplete (id : Nat) (s : State) : Host.Outcome State Fault Refusal :=
  s.run fun m => m.stash.peerDone id

/-! ## Cluster messages (R50-R56, R500, R501) -/

/-- Byte ranges of a receive buffer: it lies in the cluster window, and may reach into the next core's array. -/
def bufferSpans (core off n : Nat) : List Span :=
  if off + n ≤ 2 ^ 20 then [{ loc := .arr core off, len := n }]
  else [{ loc := .arr core off, len := 2 ^ 20 - off }, { loc := .arr (core + 1) 0, len := off + n - 2 ^ 20 }]

/-- Is every byte of a receive buffer reachable for its context (R222)? -/
def Dev.bufferReachable (m : Dev) (ctx core off : Nat) : Bool :=
  (bufferSpans core off 264).all fun s => match s.loc with
    | .arr k o => m.reachable ctx k o s.len
    | _ => false

/-- Do a receive and a message match (R52)? -/
def matchesMsg (r : Receive) (x : Message) : Bool :=
  r.ctx = x.ctx && (r.source = none || r.source = some (x.die, x.cluster)) && (x.tag ^^^ r.tag) &&& r.mask = 0

/-- The stamp word of a delivery (R54). -/
def msgStamp (r : Receive) (x : Message) : Nat :=
  x.tag.toNat * 2 ^ 48 + x.die % 8 * 2 ^ 45 + x.cluster % 16 * 2 ^ 41 + x.bytes.length * 2 ^ 32 + r.stamp.toNat

/-- MESSAGE-DELIVERY (R54): the payload, then the stamp word. -/
def Dev.deliver (m : Dev) (r : Receive) (x : Message) : Dev :=
  let ss := bufferSpans r.core r.off 264
  (m.writeSpans (Span.take ss x.bytes.length) x.bytes).writeSpans (Span.drop ss 256) (clean (leBytes 8 (msgStamp r x)))

/-- The first receive of a list that can take a message, and the others. -/
def Dev.takeReceive (m : Dev) (x : Message) : List Receive → Option (Receive × List Receive)
  | [] => none
  | r :: t =>
    if !r.suspended && matchesMsg r x && m.bufferReachable r.ctx r.core r.off then some (r, t)
    else (m.takeReceive x t).map fun (y : Receive × List Receive) => (y.1, r :: y.2)

/-- The oldest overflow entry that a receive takes, and the others (R53). -/
def takeMessage (r : Receive) : List Message → Option (Message × List Message)
  | [] => none
  | x :: t =>
    if matchesMsg r x then some (x, t) else (takeMessage r t).map fun (y : Message × List Message) => (y.1, x :: y.2)

/-- The sender of a message is answered: 25 accepted, 26 refused (R50). -/
def Dev.answerMsg (m : Dev) (x : Message) (code : Nat) : Dev :=
  m.modFrag x.wave x.fid fun f => if f.wait = .event && f.phase = 24 then { f with wait := .none, phase := code } else f

/-- The message unit takes the first arrival of a cluster (R53). -/
def Dev.arrival (m : Dev) (cluster : Nat) : Dev :=
  let c := m.cluster cluster
  match c.arriving with
  | [] => m
  | x :: rest =>
    let m := if rest = [] then m else m.push (.messageArrival cluster)
    match m.takeReceive x c.receives with
    | some (r, rs) => ((m.setCluster cluster { c with arriving := rest, receives := rs }).deliver r x).answerMsg x 25
    | none =>
      if c.overflow.length < 64 then
        (m.setCluster cluster { c with arriving := rest, overflow := c.overflow ++ [x] }).answerMsg x 25
      else
        (m.setCluster cluster { c with arriving := rest, ovf := true, refused := min 0xFFFF (c.refused + 1) }).answerMsg x 26

/-- `MESSAGE_ARRIVAL` (R53, R54); it ends P2 (R108). -/
def execMessageArrival (cluster : Nat) (s : State) : Host.Outcome State Fault Refusal :=
  s.rouse fun m => m.stash.arrival cluster

def Dev.msend (m : Dev) (a b : BitVec 6) : Dev :=
  match m.frag.phase with
  | 25 => m.advance
  | 26 => m.trapC .msgOverflow
  | _ =>
    let p := (m.s a).toNat
    let v := (m.s b).toNat
    let len := fld v 40 32
    let off := windowOff p
    let w := m.wave
    let target := 16 * fld v 47 45 + fld v 44 41
    if fld v 31 0 ≠ 0 || len = 0 || len > 256 then m.trapC .protection
    else if windowOf p ≠ some .own || off + len > 1024 * w.scratch then m.trapAt .protection p
    else if !m.launch.dieset.getLsbD (fld v 47 45) || m.cap.clcap target = 0 then m.trapC .protection
    else
      let x : Message := { wave := w.uid, fid := m.frag.fid, ctx := w.ctx, die := w.die, cluster := w.cluster,
                           tag := BitVec.ofNat 16 (fld v 63 48),
                           bytes := m.sourceBytes [{ loc := .arr w.coreNo (w.scrbase + off), len }] }
      let c := m.cluster target
      ((m.irrev.setCluster target { c with arriving := c.arriving ++ [x] }).waitFor .event 24).push (.messageArrival target)

/-- `MSEND` (R50, R51, R500): phase 24 waits for the answer, 25 accepted, 26 refused. -/
def execMsend (a b : BitVec 6) (s : State) : Host.Outcome State Fault Refusal := s.run fun m => m.msend a b

/-- The message unit takes a receive (R53): an overflow entry is delivered at once, or the receive is posted; the
value of `c1`. -/
def Dev.takeMrecv (m : Dev) (cluster : Nat) (r : Receive) : Dev × Bool :=
  let c := m.cluster cluster
  match takeMessage r c.overflow with
  | some (x, rest) => ((m.setCluster cluster { c with overflow := rest }).deliver r x, true)
  | none =>
    if c.receives.length < 64 then (m.setCluster cluster { c with receives := c.receives ++ [r] }, true) else (m, false)

def Dev.mrecv (m : Dev) (a b : BitVec 6) : Dev :=
  let x := (m.s a).toNat
  let v := (m.s b).toNat
  let w := m.wave
  let buf := fld x 23 0
  let any := x.testBit 31
  let core := coreNo w.die w.cluster (buf / 2 ^ 20)
  if fld v 31 0 ≠ 0 || (any && fld x 30 24 ≠ 0) || buf % 8 ≠ 0 || buf + 264 > 0xC00000 then m.trapC .protection
  else if !m.bufferReachable w.ctx core (buf % 2 ^ 20) then m.trapC .protection
  else
    let r : Receive := { wave := w.uid, ctx := w.ctx, source := if any then none else some (fld x 30 28, fld x 27 24),
                         tag := BitVec.ofNat 16 (fld v 63 48), mask := BitVec.ofNat 16 (fld v 47 32), core,
                         off := buf % 2 ^ 20, stamp := BitVec.ofNat 32 (fld x 63 32) }
    let (m, ok) := m.irrev.takeMrecv w.clusterNo r
    (m.setC 1 ok).advance

/-- `MRECV` (R52, R53, R501). -/
def execMrecv (a b : BitVec 6) (s : State) : Host.Outcome State Fault Refusal := s.run fun m => m.mrecv a b

end Sys2Proof.Machine
end

