-- ==== Sys2Proof/Machine/Place.lean ====
section
/-!
DEFINITION. Machine/Place.lean: which core a wave fits on, the state that it starts with, and the placement of waves, gangs,
co-scheduled launches and children (06 R130-R140, R143, R147, R148; 07 R156, R160, R161, R169).
-/
namespace Sys2Proof.Machine

/-! ## Orders (R138) -/

/-- Put a number before those whose key is not smaller. -/
def insertBy (key : Nat → Nat) (x : Nat) : List Nat → List Nat
  | [] => [x]
  | y :: t => if key x ≤ key y then x :: y :: t else y :: insertBy key x t

/-- A list by rising key; equal keys keep their order. -/
def orderBy (key : Nat → Nat) (l : List Nat) : List Nat := l.foldr (insertBy key) []

/-- Waves that are resident on a core. -/
def Dev.residents (m : Dev) (k : Nat) : List Wave := m.allWaves.filter fun w => w.coreNo = k

/-- Does a COSCHED launch of the same or a higher level reserve a die against a launch (R132)? Of two that reserve it at one
level, the one that did so first keeps the other out (log 75). -/
def Dev.blockedDie (m : Dev) (l : Launch) (d : Nat) : Bool :=
  let rs := (m.die d).reserved
  rs.any fun r => r ≠ l.num && (m.launchOf r).any fun x =>
    x.prio > l.prio || (x.prio = l.prio && !(rs.takeWhile fun y => y ≠ r).contains l.num)

/-- Dies of the die set in service on which waves of a launch may be placed for the first time, in the order of
R138. -/
def Dev.dieOrder (m : Dev) (l : Launch) : List Nat :=
  orderBy (fun d => if l.pack then 0 else (m.allWaves.filter fun w => w.launch = l.num && w.die = d).length)
    ((List.range 8).filter fun d => l.dieset.getLsbD d && m.cap.clmask d ≠ 0 && !m.blockedDie l d)

/-- Clusters of a die in service, in the order of R138. -/
def Dev.clusterOrder (m : Dev) (l : Launch) (d : Nat) : List Nat :=
  orderBy (fun c => if l.pack then 0 else (m.allWaves.filter fun w => w.clusterNo = c).length)
    (((List.range 16).map fun c => 16 * d + c).filter fun c => m.cap.clcap c ≠ 0)

/-! ## Does a wave fit on a core (R136, R137)? -/

/-- KiB ranges of a core's array that are taken, for a launch. -/
def Dev.takenKiB (m : Dev) (k n : Nat) : List (Nat × Nat) :=
  (((m.residents k).map fun (w : Wave) => (w.scrbase / 1024, w.scratch)) ++
    (m.heldPlaces k n).map fun (p : Place) => (p.scrbase / 1024, p.scratch)).filterMap fun (x : Nat × Nat) =>
      if x.2 = 0 then none else some (x.1, x.1 + x.2)

/-- The lowest offset at which `n` KiB are free. -/
def lowestGap (ts : List (Nat × Nat)) (n : Nat) : Nat :=
  ((0 :: ts.map (·.2)).filter fun o => ts.all fun t => o + n ≤ t.1 || t.2 ≤ o).foldl min ((ts.map (·.2)).foldl max 0)

/-- Does a wave hold an ACCUM room, or wait to enter one? Its core's L1 does not shrink to nothing (R285). -/
def Wave.accumulates (w : Wave) : Bool :=
  (w.rooms.any fun r => r.mode = 2) || w.frags.any fun f => f.asked.any fun r => r.mode = 2

/-- The KiB offset of an allocation of `n` KiB on core `k`, when R136 allows it. -/
def Dev.scratchFor (m : Dev) (k launch n : Nat) : Option Nat :=
  if n = 0 then some 0 else
  let ts := m.takenKiB k launch
  let o := lowestGap ts n
  let limit := if (m.residents k).any Wave.accumulates then 960 else 1024
  if alignUp ((ts.map (·.2)).foldl max (o + n)) 64 ≤ limit then some o else none

/-- Segments that a launch loads, and those of a context's handler. -/
def Launch.segs (l : Launch) : Nat := l.sseg ||| l.lseg
def Dev.handlerSegs (m : Dev) (ctx : Nat) : Nat := fld (m.ctxDword ctx 0x08) 11 0 ||| fld (m.ctxDword ctx 0x10) 11 0

/-- Segments of core `k` that are held for other launches (R134). -/
def Dev.heldSegs (m : Dev) (k n : Nat) : Nat :=
  (m.holds.filter fun h => h.launch ≠ n && h.places.any fun p => p.core = k && p.gone).foldl
    (fun s h => match m.launchOf h.launch with | some l => s ||| l.segs | none => s) 0

/-- The code segment row of R136, for the launch's segments and those of its context's handler. -/
def Dev.segsFit (m : Dev) (l : Launch) (k : Nat) : Bool :=
  let hs := m.handlerSegs l.ctx
  let held := m.heldSegs k l.num
  (List.range 12).all fun i =>
    let o := ((m.core k).segs.getD i {}).owner
    let free := o = .free && !held.testBit i
    (!l.segs.testBit i || o = .launch l.num || free) && (!hs.testBit i || o = .handler l.ctx || free)

/-- Does a wave fit on a core (R136, R140)? The KiB offset of its allocation. -/
def Dev.fitsCore (m : Dev) (l : Launch) (k : Nat) (w : Wave) : Option Nat :=
  let serves := if w.control then m.cap.clcap (k / 13) ≠ 0 else m.coreInService k
  let slots := (m.residents k).length + (m.heldPlaces k l.num).length
  if serves && slots < (if w.control then 2 else 16) && w.blocks ≤ m.freeBlocksFor k l.num && m.segsFit l k then
    m.scratchFor k l.num w.scratch
  else none

/-- The core of a cluster for a wave, with the KiB offset (R138, R140). -/
def Dev.pickCore (m : Dev) (l : Launch) (cl : Nat) (w : Wave) : Option (Nat × Nat) :=
  let cores := if w.control then [12] else
    orderBy (fun c => if l.pack then 0 else (m.residents (13 * cl + c)).length) (List.range 12)
  cores.findSome? fun c => (m.fitsCore l (13 * cl + c) w).map fun o => (c, o)

/-! ## Taking a place (R137, R161, R218, R239, R249) -/

/-- Load a code segment from a virtual address (R218). -/
def Dev.loadSeg (m : Dev) (k ctx : Nat) (owner : Owner) (lane : Bool) (va i : Nat) : Dev :=
  let c := m.core k
  let s : Seg := match m.engineSpans ctx va 0x4000 true false with
    | .error _ => { st := .error, lane, owner }
    | .ok ss =>
      if (m.poisonSpans ss).any id then { st := .error, lane, owner }
      else { st := .landed, lane, owner, code := Cells.putBytes [] 0 (m.readSpans ss) }
  m.setCore k { c with segs := setAt {} c.segs i s }

/-- Load the free segments that a mask names from an image (R93). -/
def Dev.loadImage (m : Dev) (k ctx : Nat) (owner : Owner) (lane : Bool) (base mask : Nat) : Dev :=
  (List.range 12).foldl (fun m i =>
    if mask.testBit i && ((m.core k).segs.getD i {}).owner = .free then
      m.loadSeg k ctx owner lane (base + 0x4000 * popcount 12 (mask % 2 ^ i)) i
    else m) m

/-- The images of a launch and of its context's handler on a core (R218, R359). -/
def Dev.loadCode (m : Dev) (k : Nat) (l : Launch) : Dev :=
  let h := m.ctxDword l.ctx
  let m := m.loadImage k l.ctx (.launch l.num) false l.sva l.sseg
  let m := m.loadImage k l.ctx (.launch l.num) true l.lva l.lseg
  let m := m.loadImage k l.ctx (.handler l.ctx) false (fld (h 0x08) 48 14 * 2 ^ 14) (fld (h 0x08) 11 0)
  m.loadImage k l.ctx (.handler l.ctx) true (fld (h 0x10) 48 14 * 2 ^ 14) (fld (h 0x10) 11 0)

/-- `n` KiB of an array pass to a wave of a context: those that a wave of another context held are zeroed (R161). -/
def Dev.takeArray (m : Dev) (k ctx o n : Nat) : Dev :=
  let c := m.core k
  let foreign (j : Nat) : Bool := o ≤ j && j < o + n && KMap.get 0 c.arrCtx j ≠ 0 && KMap.get 0 c.arrCtx j ≠ ctx + 1
  m.setCore k { c with
    arr := { bytes := c.arr.bytes.drop fun a => foreign (a / 1024), poison := c.arr.poison.drop fun a => foreign (a / 256) },
    arrCtx := (List.range n).foldl (fun (x : KMap Nat) j => KMap.set x (o + j) (ctx + 1)) c.arrCtx }

/-- `DIEIDX` of a die (R151). -/
def Launch.dieIdx (l : Launch) (d : Nat) : Nat := popcount 8 (l.dieset.toNat % 2 ^ d)

/-- A wave takes its place on core `c` of a cluster: the lowest free slot (R138), its scratchpad, its code; G lines
go, and the L1 changes size. `fresh`: placed anew, not resumed. The number of the wave comes with the machine. -/
def Dev.addWave (m : Dev) (l : Launch) (cl c o : Nat) (fresh : Bool) (w : Wave) : Dev × Nat :=
  let k := 13 * cl + c
  let sets := m.l1Sets k
  let slot := ((List.range 16).find? fun i => !((m.residents k).any fun w => w.slot = i)).getD 0
  let base := if w.scratch = 0 then 0 else 1024 * o
  let uid := if fresh then m.nextUid else w.uid
  let last := (m.core k).issued
  let lastCycle := (m.core k).cycle
  let w := { w with
    uid, die := cl / 16, cluster := cl % 16, core := c, slot, scrbase := base, victim := false, drowsy := false,
    cpybase := if fresh then BitVec.ofNat 20 base else w.cpybase,
    dieidx := if fresh && !w.replay then l.dieIdx (cl / 16) else w.dieidx,
    frags := w.frags.map fun (f : Frag) => { f with last, lastCycle } }
  let m := { m with waves := m.waves ++ [w], nextUid := if fresh then m.nextUid + 1 else m.nextUid }
  let m := (if m.l1Sets k = sets then m else m.resizeL1 k).dropG k
  ((m.takeArray k l.ctx o w.scratch).loadCode k l, uid)

/-- Place the waves of a unit one after another in a cluster, if all fit: their numbers. -/
def Dev.placeIn (m : Dev) (l : Launch) (cl : Nat) (fresh : Bool) : List Wave → Option (Dev × List Nat)
  | [] => some (m, [])
  | w :: t =>
    match m.pickCore l cl w with
    | none => none
    | some (c, o) =>
      let (m, uid) := m.addWave l cl c o fresh w
      (m.placeIn l cl fresh t).map fun (x : Dev × List Nat) => (x.1, uid :: x.2)

/-- A new unit in a cluster: its waves form a gang when they are one (R156). -/
def Dev.placeGroup (m : Dev) (l : Launch) (cl : Nat) (gang : Bool) (ws : List Wave) : Option Dev :=
  match m.placeIn l cl true ws with
  | none => none
  | some (m, uids) =>
    if !gang then some m else
    let x := m.cluster cl
    (freeGang x).map fun g =>
      let m := m.setCluster cl { x with gangs := x.gangs.set g { launch := l.num, members := uids } }
      uids.foldl (fun m u => m.modWave u fun w => { w with gang := some g }) m

/-- A new unit on the die and cluster that R138 chooses. -/
def Dev.placeUnit (m : Dev) (l : Launch) (gang : Bool) (ws : List Wave) : Option Dev :=
  ((m.dieOrder l).flatMap (m.clusterOrder l)).findSome? fun cl => m.placeGroup l cl gang ws

/-! ## Where a wave starts (R139, R143, R160, R161) -/

/-- The role of member `j` of a gang (R139). -/
def Launch.roleAt (l : Launch) (j : Nat) : Nat :=
  if l.rolemap = 0 then 0
  else if j < l.roleCount 0 then 0
  else if j < l.roleCount 0 + l.roleCount 1 then 1
  else if j < l.roleCount 0 + l.roleCount 1 + l.roleCount 2 then 2 else 3

/-- A wave of a launch before it has its place (R135, R160, R161). -/
def Dev.template (m : Dev) (l : Launch) (waveid role : Nat) : Wave :=
  let roles := l.rolemap ≠ 0
  let control := roles && role = 3
  let trec := l.galley.getD waveid [0, 0, 0, 0]
  let lanes := if control then 32 else l.lanes
  let mask := if control then Mask.first 1
    else if l.kind = 1 then Mask.first ((trec.getD 2 0).toNat % 2 ^ 16 * l.lpr) else Mask.first lanes
  let spc := if roles then l.roleSeg role * 2 ^ 14 + l.roleBlk role * 2 ^ 6 else l.eseg * 2 ^ 14 + l.eblk * 2 ^ 6
  let units := if control then 0 else if roles then l.roleWin role else l.basewin
  { launch := l.num, ctx := l.ctx, waveid, core := if control then 12 else 0, wlanes := lanes, tang := l.tang,
    role := if roles then role else 0, trec, scratch := if control then 0 else l.scratch,
    base := { units }, frags := [{ fid := 1, spc, mask }], region := { spc, mask },
    olbase := BitVec.ofNat 64 (fld (m.ctxDword l.ctx 0x48) 48 4 * 16), olcap := BitVec.ofNat 64 (fld (m.ctxDword l.ctx 0x50) 31 0),
    spillbase := l.params.getD 0 0, tstride := l.params.getD 1 0 }

/-- A child before it has its place (R148). -/
def Dev.childTemplate (m : Dev) (l : Launch) (c : Child) : Wave :=
  let w := m.template { l with record := setAt 0 l.record 0 0 } c.waveid 0
  let spc := c.eseg * 2 ^ 14 + c.eblk * 2 ^ 6
  let mask := Mask.first c.lanes
  { w with tang := l.tang, wlanes := c.lanes, scratch := c.scratch, child := true, depth := c.depth, futva := c.futva, trec := c.trec,
           sregs := Cells.put [] 1 c.arg, base := { units := c.basewin }, frags := [{ fid := 1, spc, mask }],
           region := { spc, mask } }

/-! ## Units of a launch (R131, R132, R139, R372) -/

/-- The next unit that is placed anew: a replay, or the next waves in `WAVEID` order; does it form a gang? -/
def Dev.nextNew (m : Dev) (l : Launch) : Option (Bool × List Wave) :=
  match l.replays with
  | (gang, ws) :: _ =>
    some (gang, ws.map fun (x : Nat × Nat × Nat) => { m.template l x.1 x.2.1 with dieidx := x.2.2, replay := true })
  | [] =>
    if l.st ≠ .ready || l.placed ≥ l.waves then none
    else if l.gangSize = 0 then some (false, [m.template l l.placed 0])
    else some (true, (List.range (min l.gangSize (l.waves - l.placed))).map fun j => m.template l (l.placed + j) (l.roleAt j))

/-- The launch once its next new unit has been placed. -/
def Launch.tookUnit (l : Launch) (k : Nat) : Launch :=
  match l.replays with
  | _ :: t => { l with replays := t }
  | [] => { l with placed := l.placed + k, st := if l.placed + k ≥ l.waves then .running else l.st }

/-- Place the next new unit of a launch: how many waves. -/
def Dev.placeNew (m : Dev) (n : Nat) : Option (Dev × Nat) :=
  match m.launchOf n with
  | none => none
  | some l =>
    match m.nextNew l with
    | none => none
    | some (gang, ws) =>
      (m.placeUnit l gang ws).map fun m => (m.modLaunch n fun l => l.tookUnit ws.length, ws.length)

/-- The lowest free die tag (R169). -/
def Die.freeTag (d : Die) : Option Nat := (List.range 7).find? fun t => (d.tags.getD t {}).launch.isNone

/-- Are the tags of a COSCHED launch free (R169)? -/
def Dev.tagsFree (m : Dev) (l : Launch) : Bool :=
  ((List.range 8).all fun d => !l.dieset.getLsbD d || (m.die d).freeTag.isSome) &&
  (popcount 8 l.dieset.toNat ≤ 1 || m.tag7.launch.isNone)

/-- The tags of a COSCHED launch are assigned (R169). -/
def Dev.giveTags (m : Dev) (l : Launch) : Dev :=
  let m := (List.range 8).foldl (fun m d =>
    let x := m.die d
    match x.freeTag with
    | some t => if l.dieset.getLsbD d then m.setDie d { x with tags := setAt {} x.tags t { launch := some l.num } } else m
    | none => m) m
  if popcount 8 l.dieset.toNat > 1 then { m with tag7 := { launch := some l.num } } else m

/-- Place every wave of a launch, if all fit; at most `fuel` units. -/
def Dev.placeAll (m : Dev) (n : Nat) : Nat → Option Dev
  | 0 => some m
  | fuel + 1 =>
    match m.placeNew n with
    | none => none
    | some (m, _) => if (m.launchOf n).any fun l => l.placed ≥ l.waves then some m else m.placeAll n fuel

/-- A COSCHED launch is placed whole (R132, R169). -/
def Dev.placeCosched (m : Dev) (l : Launch) : Option Dev :=
  if !m.tagsFree l then none else (m.placeAll l.num l.waves).map fun m => m.giveTags l

/-! ## Refusals (R37, R132, R140) -/

/-- The device without work, with the units that are in service. -/
def Dev.emptied (m : Dev) (l : Launch) : Dev :=
  { host := m.host, cap := m.cap, mem := m.mem, hostmem := m.hostmem, launches := [{ l with st := .ready, placed := 0 }] }

/-- Is a launch one that can never be placed (R37)? -/
def Dev.refuses (m : Dev) (l : Launch) : Bool :=
  l.dieset.toNat &&& m.cap.diemask = 0 || l.roleCount 3 > 2 ||
  (l.cosched && l.waves ≠ 0 && ((m.emptied l).placeCosched l).isNone)

/-- LAUNCH-REFUSED (R37, R96). -/
def Dev.refuse (m : Dev) (l : Launch) : Dev :=
  (m.dropLaunches [l.num]).post l.ctx 0x02 l.queue l.count (l.dieset.toNat) 0

end Sys2Proof.Machine
end

