-- ==== Sys2Proof/Machine/Launch.lean ====
section
/-!
DEFINITION. Machine/Launch.lean: launch queues and records, dependence counters, galleys, the turns of placement with
pre-emption, and the end of grids and contexts (04 R87-R95; 06 R123-R147; 18 R359, R369).
-/
namespace Sys2Proof.Machine

/-! ## Launch queues (R87, R90, R92) -/

/-- A queue table entry (R87). -/
structure LQ where
  serves : Bool
  ctx    : Nat
  log2n  : Nat
  tail   : Nat
  head   : Nat
  ring   : Nat
deriving DecidableEq, Repr

/-- The place of doubleword `i` of entry `q`. -/
def Dev.lqLoc (m : Dev) (q i : Nat) : Loc := m.phys (m.host.lqtbase + 32 * q + 8 * i)
def Dev.lqDword (m : Dev) (q i : Nat) : Nat := ofBytes (m.bytesAt (m.lqLoc q i) 8)

/-- The entry of a queue; it is served with V = 1, EN = 1 and HALT = 0. A LOG2N of 0, for which R87 states no outcome, is a ring of
one record (MODEL's choice, log 124). -/
def Dev.lq (m : Dev) (q : Nat) : LQ :=
  let d := m.lqDword q 3
  { serves := d.testBit 63 && d.testBit 52 && !d.testBit 51, ctx := fld d 62 57, log2n := fld d 56 53,
    tail := fld (m.lqDword q 2) 48 0, head := fld (m.lqDword q 1) 48 0, ring := fld (m.lqDword q 0) 48 0 }

/-- The engine stops a queue: HALT := 1, and its monitor is gone. -/
def Dev.haltQueue (m : Dev) (q : Nat) : Dev :=
  { m.write (m.lqLoc q 3) (leBytes 8 (m.lqDword q 3 ||| 2 ^ 51)) with
    watch := m.watch.filter fun e => e.2.2 ≠ Instr.lqService q }

/-- QUEUE-FAULT (R92). `head`: the head count that the service read, or 0. -/
def Dev.queueFault (m : Dev) (q : Nat) (x : LQ) (head va : Nat) (c : Cause) : Dev :=
  (m.haltQueue q).post x.ctx 0x07 q head va (causeCode c)

/-! ## Records (R93-R95) -/

/-- A failed check: the offset for DETA, and the doubleword. -/
abbrev BadDword := Nat × Nat

/-- The checks of R93 and R94 on the doublewords of a record, by rising offset. `hs`: the handler's segments. -/
def Launch.bad (l : Launch) (hs : Nat) : Option BadDword :=
  let d := l.r
  let sum := ((List.range 4).map l.roleCount).sum
  let bad0 := fld (d 0) 39 32 ≠ 0 || fld (d 0) 15 0 ≠ 0 || l.kind > 1 || l.gangSize > 12 ||
    l.pinned != (l.dieMask ≠ 0) || (l.rolemap ≠ 0 && (l.gangSize = 0 || sum ≠ l.gangSize))
  let bad1 := fld (d 1) 51 49 ≠ 0 || fld (d 1) 13 12 ≠ 0 || !l.sseg.testBit l.eseg || l.sseg &&& l.lseg ≠ 0 ||
    l.sseg &&& hs ≠ 0
  let bad2 := fld (d 2) 63 49 ≠ 0 || fld (d 2) 13 12 ≠ 0 || l.lseg &&& hs ≠ 0
  let bad3 := if l.kind = 0 then fld (d 3) 63 32 ≠ 0 else fld (d 3) 63 49 ≠ 0 || fld (d 3) 3 0 ≠ 0
  let lanes := fld (d 4) 10 0
  let bad4 := fld (d 4) 63 54 ≠ 0 || fld (d 4) 47 43 ≠ 0 || fld (d 4) 27 11 ≠ 0 || l.scratch > 1024 ||
    (if l.kind = 0 then l.lpr ≠ 0 || lanes < 32 || lanes > 1024 || lanes % 32 ≠ 0 else l.lpr < 1 || l.lpr > 32 || lanes ≠ 0)
  let bad5 := fld (d 5) 63 49 ≠ 0 || fld (d 5) 5 0 ≠ 0 || d 5 = 0
  let bad7 := fld (d 7) 63 49 ≠ 0 || fld (d 7) 1 0 ≠ 0
  (([bad0, bad1, bad2, bad3, bad4, bad5, false, bad7].zip (List.range 8)).find? fun x => x.1).map fun x => (8 * x.2, d x.2)

/-- The checks of R95, R186 and R355 on the parameter block. -/
def Launch.badParam (l : Launch) : Option BadDword :=
  let p := l.p
  let shift := fld (p 0) 63 56
  let bad (i : Nat) : Bool := match i with
    | 0 => fld (p 0) 55 49 ≠ 0 || fld (p 0) 11 0 ≠ 0 || !(shift = 0 || (12 ≤ shift && shift ≤ 36))
    | 1 => l.tang > 0 && (p 1 = 0 || p 1 % 128 ≠ 0)
    | 6 | 7 => p i ≠ 0
    | _ => fld (p i) 63 20 ≠ 0 || fld (p i) 3 0 ≠ 0
  ((List.range 8).find? bad).map fun i => (0x40 + 8 * i, p i)

/-- The place of a counter of a context (R125). -/
def Dev.counterLoc (m : Dev) (ctx va : Nat) (wr : Bool) : Option Loc :=
  if va ≥ 2 ^ 49 then none else
  match walkVerdict (m.homeWalk ctx va) va true wr false with
  | .ok l => some l
  | .error _ => none

/-- WAIT0 and WAIT1 of a record: the addresses of its wait counters (R125). -/
def Dev.waitAddrs (m : Dev) (l : Launch) : List Nat :=
  let base := fld (m.ctxDword l.ctx 0x58) 48 0
  ([fld (l.r 6) 31 0, fld (l.r 6) 63 32].filter fun w => w ≠ 0xFFFFFFFF).map fun w => base + 4 * w

/-- The doublewords of 64 bytes. -/
def dwordsOf (bs : List Byte) : List DWord := (List.range 8).map fun i => BitVec.ofNat 64 (dwordOf bs i)

/-- Everything that is checked when a record is taken (R92, R94, R95, R125): the launch as it joins the table, or the
details of LAUNCH-INVALID. A failing doubleword of the parameter block is reported before a counter that fails, which R96 does not order
(MODEL's choice, log 117). -/
def Dev.checkRecord (m : Dev) (l : Launch) : Except BadDword Launch :=
  match l.bad (m.handlerSegs l.ctx) with
  | some b => .error b
  | none =>
    match m.engineSpans l.ctx (l.r 5) 64 true false with
    | .error _ => .error (0x28, l.r 5)
    | .ok ss =>
      if (m.poisonSpans ss).any id then .error (0x28, l.r 5) else
      let l := { l with params := dwordsOf (m.readSpans ss) }
      match l.badParam with
      | some b => .error b
      | none =>
        let waits := (m.waitAddrs l).map fun a => m.counterLoc l.ctx a false
        let sig := if l.r 7 = 0 then none else m.counterLoc l.ctx (l.r 7) true
        if waits.contains none then .error (0x30, l.r 6)
        else if l.r 7 ≠ 0 && sig.isNone then .error (0x38, l.r 7)
        else .ok { l with
          wait0 := (waits.head?).join, wait1 := ((waits.drop 1).head?).join, signal := sig,
          waves := if l.kind = 0 then fld (l.r 3) 31 0 else 0,
          dieset := BitVec.ofNat 8 (if l.pinned then l.dieMask else m.cap.diemask) }

/-- LAUNCH-INVALID (R94, R96). -/
def Dev.launchInvalid (m : Dev) (l : Launch) (b : BadDword) : Dev := m.post l.ctx 0x01 l.queue l.count b.1 b.2

/-! ## Counters and readiness (R125-R127, R142) -/

/-- The wait counters of a launch. -/
def Launch.waitLocs (l : Launch) : List Loc := l.wait0.toList ++ l.wait1.toList

/-- A galley (R141, R142): the words of the records that are not skipped; none when it is refused. -/
def Dev.readGalley (m : Dev) (l : Launch) : Option (List (List Word)) :=
  let read (va n : Nat) : Option (List Byte) :=
    match m.engineSpans l.ctx va n true false with
    | .error _ => none
    | .ok ss => if (m.poisonSpans ss).any id then none else some (m.readSpans ss)
  match read (l.r 3) 16 with
  | none => none
  | some h =>
    let count := dwordOf h 0
    if count > 2 ^ 24 || dwordOf h 1 ≠ 0 then none
    else if count = 0 then some []
    else match read (l.r 3 + 16) (16 * count) with
      | none => none
      | some bs =>
        let word (i j : Nat) : Nat := ofBytes ((bs.drop (16 * i + 4 * j)).take 4)
        if (List.range count).any fun i => word i 2 % 2 ^ 16 > 32 then none
        else some (((List.range count).filter fun i => word i 2 % 2 ^ 16 ≠ 0).map fun i =>
          (List.range 4).map fun j => BitVec.ofNat 32 (word i j))

/-- A launch becomes READY (R124, R37): its galley is read, it may be refused; a grid of no waves ends at once (R94). -/
def Dev.becomeReady (m : Dev) (l : Launch) : Dev :=
  let galley := if l.kind = 1 then m.readGalley l else some []
  match galley with
  | none => (m.dropLaunches [l.num]).launchInvalid l (0x18, l.r 3)
  | some g =>
    let l := { l with st := .ready, galley := g, waves := if l.kind = 1 then g.length else l.waves }
    let m := m.modLaunch l.num fun _ => l
    let m := { m with watch := m.watch.filter fun e => e.2.2 ≠ Instr.counterTrigger l.num }
    if m.refuses l then m.refuse l
    else if l.waves = 0 then (m.modLaunch l.num fun l => { l with st := .running }).push (.gridEnd l.num)
    else m.push .placementTurn

/-- COUNTER_TRIGGER (R126): the counters are read again; poison refuses the launch (R92). The publication of a wait counter
makes a service of the launch's queue due (R90). -/
def Dev.counterTrigger (m : Dev) (n : Nat) : Dev :=
  match m.launchOf n with
  | none => m
  | some l =>
    if l.st ≠ .waiting then m else
    let m := m.push (.lqService l.queue)
    if l.waitLocs.any fun a => m.anyPoison a 4 then (m.dropLaunches [n]).launchInvalid l (0x30, l.r 6)
    else if l.waitLocs.all fun a => sextN 32 (ofBytes (m.bytesAt a 4)) ≤ 0 then m.becomeReady l else m

/-- A launch joins the table: its counters are armed and then read (R91, R126). -/
def Dev.takeLaunch (m : Dev) (l : Launch) : Dev :=
  let m := { m with launches := m.launches ++ [l], nextLaunch := m.nextLaunch + 1,
                    watch := m.watch ++ l.waitLocs.map fun a => (a, 4, Instr.counterTrigger l.num) }
  m.counterTrigger l.num

/-- `COUNTER_TRIGGER` (R126). -/
def execCounterTrigger (launch : Nat) (s : State) : Host.Outcome State Fault Refusal :=
  if s.runs then s.run fun m => m.stash.counterTrigger launch else .next s

/-! ## A service (R90, R123) -/

/-- Take at most `n` records from count `c` on, while the launch table has room (R123). `h`: the head that the
service read; `hl`: the place of the head word. -/
def Dev.takeRecords (m : Dev) (q : Nat) (x : LQ) (h : Nat) (hl : Loc) : Nat → Nat → Dev
  | 0, _ => m
  | n + 1, c =>
    if m.launches.length ≥ Config.launchEntries then m else
    let va := x.ring + 64 * (c % 2 ^ x.log2n)
    match m.engineSpans x.ctx va 64 true false with
    | .error e => m.queueFault q x h va e
    | .ok ss =>
      if (m.poisonSpans ss).any id then m.queueFault q x h va .poison else
      let l : Launch := { num := m.nextLaunch, queue := q, count := c, ctx := x.ctx, record := dwordsOf (m.readSpans ss) }
      let m := match m.checkRecord l with
        | .error b => m.launchInvalid l b
        | .ok l => m.takeLaunch l
      (m.write hl (leBytes 8 ((c + 1) % 2 ^ 64))).takeRecords q x h hl n (c + 1)

/-- A service of a queue (R90): the monitor is armed before the words are read. An entry of a context with V = 0 does
not translate. TAILVA, HEADVA and RINGVA off the alignment of R87, for which it states no outcome, are used as they are (MODEL's
choice, log 124). -/
def Dev.lqService (m : Dev) (q : Nat) : Dev :=
  let x := m.lq q
  let m := { m with watch := m.watch.filter fun e => e.2.2 ≠ Instr.lqService q }
  if !x.serves then m
  else if !m.ctxValid x.ctx then m.queueFault q x 0 x.tail .pageFault
  else match m.engineLoc x.ctx x.tail 8 true false with
    | .error e => m.queueFault q x 0 x.tail e
    | .ok tl =>
      let m := { m with watch := m.watch ++ [(tl, 8, Instr.lqService q)] }
      match m.engineLoc x.ctx x.head 8 true true with
      | .error e => m.queueFault q x 0 x.head e
      | .ok hl =>
        let t := ofBytes (m.bytesAt tl 8)
        let h := ofBytes (m.bytesAt hl 8)
        if t < h || t > h + 2 ^ x.log2n then (m.haltQueue q).post x.ctx 0x03 q h h t
        else m.takeRecords q x h hl (t - h) h

/-- Is the launch engine at work (R105, R111)? -/
def State.launches (s : State) : Bool := s.runs && s.sec.life ≠ .decommissioned && s.sec.burning.isNone

/-- `LQ_SERVICE` (R90); the tail word that brings it ends P2 (R108). -/
def execLqService (queue : Nat) (s : State) : Host.Outcome State Fault Refusal :=
  if s.launches && queue < 64 then s.rouse fun m => m.stash.lqService queue else .next s

/-! ## Saved units (R138, R325) -/

/-- The saved waves that are resumed with one of them: its gang, or itself. -/
def Dev.savedUnit (m : Dev) (x : SavedWave) : List SavedWave :=
  match x.wave.gang with
  | none => [x]
  | some g => m.savedWaves.filter fun y => y.wave.gang = some g && y.wave.clusterNo = x.wave.clusterNo

/-- Must a saved unit return to the cluster that it left (R55, R138, R325)? A gang of which a member is still there must,
as well. -/
def Dev.bound (m : Dev) (xs : List SavedWave) : Bool :=
  xs.any fun x => x.wave.control || (m.cluster x.wave.clusterNo).receives.any (fun r => r.wave = x.wave.uid) ||
    x.wave.gang.any fun g => ((m.cluster x.wave.clusterNo).gangs.find? fun e => e.1 = g).any fun e =>
      e.2.members.any fun u => (m.waveOf u).isSome

/-- The clusters where a saved unit may be resumed, in the order of R138. -/
def Dev.resumeClusters (m : Dev) (l : Launch) (xs : List SavedWave) : List Nat :=
  match xs with
  | [] => []
  | x :: _ => if m.bound xs then [x.wave.clusterNo] else m.clusterOrder l x.wave.die

/-- A gang moves to another cluster with its role queues: a free id there, and queues of the same numbers (R138). -/
def Dev.moveGang (m : Dev) (xs : List SavedWave) (cl : Nat) : Option (Dev × Option Nat) :=
  match xs.head?.bind fun x => x.wave.gang.map fun g => (x.wave.clusterNo, g) with
  | none => some (m, none)
  | some (c0, g) =>
    if c0 = cl then some (m, some g) else
    let a := m.cluster c0
    let b := m.cluster cl
    match freeGang b, a.gangs.find? fun e => e.1 = g with
    | some g', some e =>
      let mine (i : Nat) : Bool := (a.queues.getD i {}).gang = some g
      if (List.range 4).any fun i => mine i && (b.queues.getD i {}).gang.isSome then none else
      let queues := (List.range 4).map fun i => if mine i then { a.queues.getD i {} with gang := some g' } else b.queues.getD i {}
      let m := m.setCluster c0 { a with gangs := a.gangs.erase g, queues := a.queues.map fun q => if q.gang = some g then {} else q }
      some (m.setCluster cl { b with gangs := b.gangs.set g' e.2, queues }, some g')
    | _, _ => none

/-- Is a saved unit whole: has every victim of its gang left its place (R138)? -/
def Dev.unitWhole (m : Dev) (x : SavedWave) : Bool :=
  match x.wave.gang with
  | none => true
  | some g => !m.allWaves.any fun w => w.victim && w.gang = some g && w.clusterNo = x.wave.clusterNo

/-- Place a saved unit again, if it fits (R138). -/
def Dev.placeSaved (m : Dev) (l : Launch) (xs : List SavedWave) : Option Dev :=
  (m.resumeClusters l xs).findSome? fun cl =>
    match m.moveGang xs cl with
    | none => none
    | some (m, g) => (m.placeIn l cl false (xs.map fun x => { x.wave with gang := g })).map fun x => x.1

/-! ## Pre-emption (R133, R134) -/

/-- May a wave be a victim (R133)? -/
def Dev.mayFall (m : Dev) (w : Wave) : Bool :=
  !w.victim && !w.leaving && w.rooms = [] && (m.launchOf w.launch).any fun l => l.prio = 0 && !l.cosched

/-- The groups of victims of a cluster, from the highest `WAVEID` down: a gang falls whole. -/
def Dev.fallGroups (m : Dev) (cl : Nat) : List (List Wave) :=
  let ws := m.allWaves.filter fun w => w.clusterNo = cl
  let order := (orderBy (fun i => 2 ^ 64 - (ws.getD i {}).waveid) (List.range ws.length)).map fun i => ws.getD i {}
  (order.map fun (w : Wave) => if w.gang.isNone then [w] else ws.filter fun x => x.gang = w.gang).filter fun g => g.all m.mayFall

/-- The device as it is once waves have gone from their places. -/
def Dev.without (m : Dev) (ws : List Wave) : Dev :=
  ws.foldl (fun m (w : Wave) => (m.dropWave w.uid).freeSegments w.coreNo) m

/-- Can the next unit of a launch be placed in a cluster? A COSCHED launch must fit whole. -/
def Dev.unitFits (m : Dev) (l : Launch) (cl : Nat) : Bool :=
  if l.cosched && l.replays = [] then (m.placeCosched l).isSome
  else match m.nextNew l with
    | none => false
    | some (gang, ws) => (m.placeGroup l cl gang ws).isSome

/-- The victims of a cluster that free enough for the unit. -/
def Dev.victimsIn (m : Dev) (l : Launch) (cl : Nat) : List (List Wave) → List Wave → Option (List Wave)
  | gs, chosen =>
    if (m.without chosen).unitFits l cl then some chosen
    else match gs with
      | [] => none
      | g :: t => m.victimsIn l cl t (chosen ++ g.filter fun w => !chosen.contains w)

/-- The shortest of several lists, the first among equals. -/
def shortest : List (List Wave) → Option (List Wave)
  | [] => none
  | x :: t => match shortest t with
    | some y => some (if y.length < x.length then y else x)
    | none => some x

/-- What a victim holds. -/
def placeOfWave (w : Wave) : Place :=
  { wave := w.uid, core := w.coreNo, blocks := w.blocks, scrbase := w.scrbase, scratch := w.scratch }

/-- The demands of a wave that waits in `RENTER` are withdrawn before anything else happens (R282, R288). -/
def Dev.withdrawRooms (m : Dev) (w : Wave) : Dev :=
  w.frags.foldl (fun m (f : Frag) =>
    if entering f then f.asked.toList.foldl (fun m (r : Room) => m.pushNext (.tunWithdraw r.place w.uid)) m else m) m

/-- PREEMPT-VICTIM-SELECT (R133): the unit of a level-3 launch fits nowhere. What the victims free is held for it. -/
def Dev.preempt (m : Dev) (l : Launch) : Dev :=
  let clusters := (m.dieOrder { l with record := setAt 0 l.record 0 (BitVec.ofNat 64 (l.r 0) ||| (1#64 <<< 54)) }).flatMap fun d =>
    ((List.range 16).map fun c => 16 * d + c).filter fun c => m.cap.clcap c ≠ 0
  match shortest (clusters.filterMap fun cl => m.victimsIn l cl (m.fallGroups cl) []) with
  | none => m
  | some vs =>
    let m := vs.foldl (fun m (w : Wave) => (m.modWave w.uid fun w => { w with victim := true }).withdrawRooms w) m
    { m with holds := m.holds ++ [{ launch := l.num, places := vs.map placeOfWave }] }

/-- Does a launch wait for victims that have not gone yet (R134)? -/
def Dev.waitsVictims (m : Dev) (n : Nat) : Bool :=
  m.holds.any fun h => h.launch = n && h.places.any fun p => !p.gone

/-! ## Turns (R130-R132, R147) -/

/-- Is there something of a launch to place? -/
def Dev.unplaced (m : Dev) (l : Launch) : Bool :=
  l.st = .ready || l.replays ≠ [] || m.savedWaves.any fun s => s.wave.launch = l.num

/-- What a launch placed at its turn: how many waves, and whether the turn stops here until WAVE_RESUME has placed them. -/
structure Placed where
  waves : Nat
  stops : Bool := false
deriving DecidableEq, Repr

/-- Place the next unit of a launch (R131). A resumed unit goes first: its WAVE_RESUME is the next event. -/
def Dev.placeNext (m : Dev) (l : Launch) : Option (Dev × Placed) :=
  match m.savedWaves.find? fun s => s.wave.launch = l.num && m.unitWhole s with
  | some x =>
    let xs := m.savedUnit x
    (m.placeSaved l xs).map fun _ => (m.pushNext (.waveResume x.wave.uid), { waves := xs.length, stops := true })
  | none =>
    if l.cosched && l.replays = [] then (m.placeCosched l).map fun m => (m, { waves := 32 })
    else (m.placeNew l.num).map fun (x : Dev × Nat) => (x.1, { waves := x.2 })

/-- The turn of a launch goes on: units until 32 waves are placed, or one fits nowhere (R131). -/
def Dev.placeMore (m : Dev) (n : Nat) : Nat → Nat → Dev
  | 0, _ => m
  | fuel + 1, left =>
    if left = 0 then m else
    match m.launchOf n with
    | none => m
    | some l =>
      match m.placeNext l with
      | none => m
      | some (m, p) =>
        if p.stops then { m with turnLeft := some (n, left - p.waves) } else m.placeMore n fuel (left - p.waves)

/-- A unit of a launch has been placed: its reservation and hold are over (R132, R134), and it is the one served. -/
def Dev.placedUnit (m : Dev) (l : Launch) : Dev :=
  let m := { m with
    served := setAt 0 m.served l.prio l.queue,
    holds := m.holds.filter fun h => h.launch ≠ l.num,
    dies := m.dies.map fun (d : Die) => { d with reserved := d.reserved.filter fun n => n ≠ l.num } }
  (m.cores.foldl (fun m (x : Nat × Core) => m.askBlocks x.1) m).checkGrid l.num

/-- The turn of one launch; none when its unit fits nowhere. -/
def Dev.tryLaunch (m : Dev) (l : Launch) : Option Dev :=
  if m.waitsVictims l.num then none else
  if (m.placeNext l).isNone then none else some ((m.placeMore l.num 33 32).placedUnit l)

/-- COSCHED-RESERVE (R132): the launch reserves its dies, behind those that have reserved them before. -/
def Dev.reserve (m : Dev) (l : Launch) : Dev :=
  { m with dies := ((List.range 8).zip m.dies).map fun (x : Nat × Die) =>
      if l.dieset.getLsbD x.1 && !x.2.reserved.contains l.num then { x.2 with reserved := x.2.reserved ++ [l.num] } else x.2 }

/-- The unit of a launch fits nowhere at its turn (R132, R133). A hold whose victims have gone without room for the unit
gives way to a new choice. -/
def Dev.fitsNowhere (m : Dev) (l : Launch) : Dev :=
  let m := if l.cosched && l.st = .ready then m.reserve l else m
  if l.prio ≠ 3 || m.waitsVictims l.num || (m.nextNew l).isNone then m
  else Dev.preempt { m with holds := m.holds.filter fun h => h.launch ≠ l.num } l

/-- Launches of a level with something to place, in the order of R130. -/
def Dev.levelOrder (m : Dev) (p : Nat) : List Nat :=
  let ls := m.launches.filter fun l => l.prio = p && m.unplaced l
  let key (n : Nat) : Nat := match m.launchOf n with
    | some l => ((l.queue + 63 - m.served.getD p 63) % 64) * 2 ^ 64 + l.count
    | none => 0
  orderBy key (ls.map fun (l : Launch) => l.num)

/-- The first launch of a list that can place has its turn. -/
def Dev.tryLaunches (m : Dev) : List Nat → Dev × Bool
  | [] => (m, false)
  | n :: t =>
    match m.launchOf n with
    | none => m.tryLaunches t
    | some l =>
      match m.tryLaunch l with
      | some m => (m, true)
      | none => (m.fitsNowhere l).tryLaunches t

/-- Place a child (R147): its parent's cluster, the parent's die, the other dies of the die set. -/
def Dev.placeChild (m : Dev) (d : Nat) (c : Child) : Option Dev :=
  match m.launchOf c.launch with
  | none => none
  | some l =>
    let w := m.childTemplate l c
    let home := 16 * d + c.cluster
    let dies := m.dieOrder l
    let here := if dies.contains d then home :: (m.clusterOrder l d).filter fun x => x ≠ home else []
    let there := (dies.filter fun x => x ≠ d).flatMap (m.clusterOrder l)
    (here ++ there).findSome? fun cl => m.placeGroup l cl false [w]

/-- The priority level of a child: that of its launch (R147). -/
def Dev.childLevel (m : Dev) (c : Child) : Option Nat := (m.launchOf c.launch).map Launch.prio

/-- The first child of a level in a die's queue is placed, if it fits. -/
def Dev.firstChild (m : Dev) (d p : Nat) : Option Dev :=
  match (m.die d).spawns.find? fun c => m.childLevel c = some p with
  | none => none
  | some c =>
    (m.placeChild d c).map fun m =>
      let t := (m.die d).spawns.erase c
      let m := m.setDie d { m.die d with spawns := t }
      if t = [] then m else m.push (.childPlacement d)

/-- The turn of a level: its children first (R147), then its launches. -/
def Dev.levelTurn (m : Dev) (p : Nat) : Dev × Bool :=
  match (List.range 8).findSome? fun d => m.firstChild d p with
  | some m => (m, true)
  | none => m.tryLaunches (m.levelOrder p)

/-- The turn goes to the highest of several levels that can place (R130). -/
def Dev.levelTurns (m : Dev) : List Nat → Dev × Bool
  | [] => (m, false)
  | p :: t =>
    match m.levelTurn p with
    | (m, true) => (m, true)
    | (m, false) => m.levelTurns t

/-- PLACEMENT_TURN (R130, R131): a turn that a resumed unit has interrupted goes on; another turn follows one that placed
something. -/
def Dev.placementTurn (m : Dev) : Dev :=
  match m.turnLeft with
  | some (n, left) => ({ m with turnLeft := none }.placeMore n 32 left).push .placementTurn
  | none =>
    match m.levelTurns [3, 2, 1, 0] with
    | (m, true) => m.push .placementTurn
    | (m, false) => m

/-- `PLACEMENT_TURN` (R130). -/
def execPlacementTurn (s : State) : Host.Outcome State Fault Refusal :=
  if s.launches then s.run fun m => m.stash.placementTurn else .next s

/-- The next child of a die, by level: before it comes what higher levels can place. -/
def Dev.childTurn (m : Dev) (d : Nat) : List Nat → Dev
  | [] => m
  | p :: t =>
    match m.firstChild d p with
    | some m => m
    | none =>
      if !(m.die d).spawns.any fun c => (m.childLevel c).any fun q => q < p then m else
      match m.levelTurn p with
      | (m, true) => (m.push .placementTurn).push (.childPlacement d)
      | (m, false) => m.childTurn d t

/-- `CHILD_PLACEMENT` (R147): the next child of a die is placed, once a turn that goes on has ended. -/
def Dev.childPlacement (m : Dev) (d : Nat) : Dev :=
  match m.turnLeft with
  | some _ => m.placementTurn.push (.childPlacement d)
  | none => m.childTurn d [3, 2, 1, 0]

/-- `CHILD_PLACEMENT` (R147). -/
def execChildPlacement (die : Nat) (s : State) : Host.Outcome State Fault Refusal :=
  if s.launches then s.run fun m => m.stash.childPlacement die else .next s

/-! ## The end of a grid (R128) and of a context (R369) -/

/-- GRID-END-FLUSH (R128): every pending store of every core reaches its home. -/
def Dev.gridFlush (m : Dev) : Dev :=
  let m := (m.cores.map fun (x : Nat × Core) => x.1).foldl (fun m k => m.releaseDie k) m
  (List.range 8).foldl (fun m d => m.drainDie d) m

/-- The signal of a grid: −1 at the home atomic unit; a poisoned counter stays as it is (R92, R128). -/
def Dev.gridSignal (m : Dev) (l : Launch) : Dev :=
  match l.signal with
  | none => m
  | some a =>
    if l.noSignal then m
    else if m.anyPoison a 4 then m.launchInvalid l (0x38, l.r 7)
    else
      let v := (ofBytes (m.bytesAt a 4) + 2 ^ 32 - 1) % 2 ^ 32
      m.write a (leBytes 4 v)

/-- GRID_END (R124, R128): nothing of the launch runs any more; it leaves the table. -/
def Dev.gridEnd (m : Dev) (n : Nat) : Dev :=
  match m.launchOf n with
  | none => m
  | some l => if m.launchIdle n then (m.gridFlush.gridSignal l).dropLaunches [n] else m

/-- `GRID_END` (R128). -/
def execGridEnd (launch : Nat) (s : State) : Host.Outcome State Fault Refusal := s.run fun m => m.stash.gridEnd launch

/-- The host writes V := 0 in the entry of a context (R359, R369). -/
def Dev.hostEnds (m : Dev) (ctx : Nat) : Dev :=
  let v := m.ctxDword ctx 0
  let m := if v ≥ 2 ^ 63 then m.write (m.phys (m.host.ctxbase + 128 * ctx)) (leBytes 8 (v % 2 ^ 63)) else m
  (m.clearContext ctx).post ctx 0x06 0 0 0 0

/-- `CONTEXT_END_BY_HOST` (R359, R369): V is 0, by this event or by the host's store before it. -/
def execContextEndByHost (ctx : Nat) (s : State) : Host.Outcome State Fault Refusal :=
  if s.runs && ctx < 64 then s.run fun m => m.stash.hostEnds ctx else .next s

end Sys2Proof.Machine
end

