-- ==== Sys2Proof/Machine/HostSide.lean ====
section
/-!
DEFINITION. Machine/HostSide.lean: host registers and the management interface, bias flips, host accesses, the salvage window,
the debugger, and data errors (01 R27; 03 R71, R72; 04 R76-R84; 05 R106, R107, R111, R116-R121; 08 R195; 11 R524).
-/
namespace Sys2Proof.Machine

/-! ## Registers by mailbox offset (R79, R117, R359) -/

def stateCode : PkgState → Nat
  | .resetHold => 0 | .wiping => 1 | .running => 2 | .fatal => 3 | .salvage => 4
def powerCode : PowerState → Nat
  | .p0 => 0 | .p1 => 1 | .p2 => 2 | .d3hot => 3 | .off => 0

/-- `PKGSTAT` (R117). -/
def State.pkgstat (s : State) : Nat :=
  stateCode s.pkg.stat + lifeCode s.sec.life * 8 + levelCode s.level * 2 ^ 6 + powerCode s.pwr.state * 2 ^ 8

/-- `MGTEVT` with what waves and engines have raised (R117). -/
def State.mgtevt (s : State) : DWord := s.pkg.mgtevt ||| s.dev.events

/-- `ALERT_N` is driven low (R27). -/
def State.alertLow (s : State) : Bool := s.mgtevt ≠ 0

/-- Offsets of the model for what the spec gives none: `PEERERR`, and the capability registers by their system register
number (log 34). -/
def peererrOffset : Nat := 0x10000
def capOffset : Nat := 0x10100

/-- A capability register by its system register number (R36, R515). -/
def Capability.reg (c : Capability) (n : Nat) : Option Nat :=
  if n = 0x100 then some c.capsum
  else if 0x108 ≤ n && n < 0x110 then some (c.diecap (n - 0x108))
  else if 0x180 ≤ n && n < 0x200 then some (c.clcap (n - 0x180)) else none

/-- A host register as it reads; none where the offset names none. -/
def State.hostReg (s : State) (off : Nat) : Option Nat :=
  let h := s.dev.host
  match off with
  | 0x00 => some h.nodeid
  | 0x08 => some h.impbase
  | 0x10 => some (b2n h.impsync)
  | 0x18 => some h.biasbase
  | 0x20 => some h.biasreq.toNat
  | 0x28 => some h.biasack
  | 0x30 => some h.biasseq.toNat
  | 0x38 => some h.lqtbase
  | 0x40 => some s.pkgstat
  | 0x48 => some 0
  | 0x50 => some (b2n (s.pkg.stat = .salvage))
  | 0x58 => some s.pkg.wipestat.toNat
  | 0x60 => some (s.pwr.limit * 2 ^ 32 + s.pwr.freq)
  | 0x68 => some h.ctxbase
  | 0x70 => some (fld (Config.nonceValue s.sec.nonces).toNat 63 0)
  | 0x78 => some (fld (Config.nonceValue s.sec.nonces).toNat 127 64)
  | 0x200 => some s.mgtevt.toNat
  | 0x208 => some (b2n h.lqsync)
  | _ =>
    if 0x80 ≤ off && off < 0x148 && off % 8 = 0 then some (s.pkg.syn.getD ((off - 0x80) / 8) 0).toNat
    else if off = peererrOffset then some s.pkg.peererr.toNat
    else if capOffset ≤ off then s.dev.cap.reg (off - capOffset) else none

/-- Event bits are cleared by writing 1 (R117). -/
def State.clearEvents (s : State) (v : DWord) : State :=
  { s with pkg := { s.pkg with mgtevt := s.mgtevt &&& ~~~v }, dev := { s.dev with events := 0 } }

/-! ## The management interface (R27) -/

/-- The SMBus address of the interface: 0x58 plus the straps (R27). -/
def Power.smbusAddr (p : Power) : BitVec 7 := 0x58 + p.miSel.setWidth 7

/-- Does the interface take a message to an address: it is the package's, which is not OFF (R27)? -/
def State.mgmtTakes (s : State) (addr : BitVec 7) : Bool := s.pwr.state ≠ .off && addr = s.pwr.smbusAddr

/-- `MCTP_CONTROL` (R27): the answer is the MCTP standards' (log 9). -/
def execMctpControl (command : SmbusRef) (s : State) : Host.Outcome State Fault Refusal :=
  if s.mgmtTakes command.addr then .next (s.answered (.data [Config.replyByte command.num] false)) else .next s

/-- `MGMT_READ` (R27). -/
def execMgmtRead (reg : SmbusRef) (s : State) : Host.Outcome State Fault Refusal :=
  if !s.mgmtTakes reg.addr then .next s
  else match s.hostReg reg.num with
    | some v => .next (s.answered (.data (leBytes 8 v) false))
    | none => .next (s.answered .error)

/-- `MGMT_WRITE` (R27): `PWRCAP`, `RSTCTL` and `MGTEVT`; any other is answered with an error. The interface is in service in
D3hot too, so a reset by `RSTCTL` leaves that state (R112). -/
def execMgmtWrite (reg : SmbusRef) (value : DWord) (s : State) : Host.Outcome State Fault Refusal :=
  if !s.mgmtTakes reg.addr then .next s
  else if reg.num = 0x60 then .next (s.writePwrcap value.toNat)
  else if reg.num = 0x48 then (if value.getLsbD 0 then .next (s.packageReset 1) else .next s)
  else if reg.num = 0x200 then .next (s.clearEvents value)
  else .next (s.answered .error)

/-! ## Host registers (R79, R117) -/

/-- Queues that are served when the table changes its place. -/
def Dev.recheckQueues (m : Dev) : Dev :=
  let m := { m with watch := m.watch.filter fun e => match e.2.2 with | .lqService _ => false | _ => true }
  (List.range 64).foldl (fun m q => if (m.lq q).serves then m.push (.lqService q) else m) m

/-- A write of a register of the device part without behaviour of its own. An `IMPBASE` that is not 8 KiB aligned, to which R69
gives no result, is stored and used as it is (MODEL's choice, log 107), and so are a `BIASBASE`, a `BIASACK` and an `LQTBASE` off
the alignment that R79 states. -/
def Dev.hostRegWrite (m : Dev) (off : Nat) (v : DWord) : Dev :=
  let n := v.toNat
  match off with
  | 0x00 => { m with host := { m.host with nodeid := n % 2 ^ 14 } }
  | 0x08 => { m with host := { m.host with impbase := n } }
  | 0x18 => { m with host := { m.host with biasbase := n } }
  | 0x28 => { m with host := { m.host with biasack := n } }
  | 0x38 => { m with host := { m.host with lqtbase := n } }.recheckQueues
  | 0x68 => { m with host := { m.host with ctxbase := n } }
  | _ => m

/-- `HOST_REGISTER_WRITE` (R79, R117, R359): V of a syndrome and of `PEERERR` clears when 1 is written to it (R72, R118);
a read-only register keeps its value. Any such write counts as a host access that ends P2 (R108; MODEL's choice, log 130). -/
def execHostRegisterWrite (offset : Nat) (value : DWord) (s : State) : Host.Outcome State Fault Refusal :=
  if !s.pwr.on then .next s
  else
    let s := s.wake
    if 0x80 ≤ offset && offset < 0x148 && offset % 8 = 0 then
      let i := (offset - 0x80) / 8
      let x := s.pkg.syn.getD i 0
      let x' := if value.getLsbD 63 then x &&& 0x7FFFFFFFFFFFFFFF#64 else x
      .next { s with pkg := { s.pkg with syn := setAt 0 s.pkg.syn i x' } }
    else if offset = peererrOffset then
      let x := s.pkg.peererr
      .next { s with pkg := { s.pkg with peererr := if value.getLsbD 63 then x &&& 0x7FFFFFFFFFFFFFFF#64 else x } }
    else .next { s with dev := s.dev.hostRegWrite offset value }

/-- `SALVCTL_OPEN` (R117, R119, R120): the window opens in FATAL, unless the hub die failed, and closes. -/
def execSalvctlOpen (value : DWord) (s : State) : Host.Outcome State Fault Refusal :=
  let open_ := value.getLsbD 0
  if s.pkg.stat = .fatal && open_ && !s.pkg.hubFailed then .next { s with pkg := { s.pkg with stat := .salvage } }
  else if s.pkg.stat = .salvage && !open_ then .next { s with pkg := { s.pkg with stat := .fatal } }
  else .next s

/-- `MGTEVT_CLEAR` (R117): it does not end P2 (R108; MODEL's choice, log 130). -/
def execMgtevtClear (value : DWord) (s : State) : Host.Outcome State Fault Refusal :=
  if s.pwr.state = .off then .next s else .next (s.clearEvents value)

/-- `IMPCTL_SYNC` (R71): each check is one step here, so none is under way and the bit reads 0. -/
def execImpctlSync (value : DWord) (s : State) : Host.Outcome State Fault Refusal :=
  if s.pwr.on && value.getLsbD 0 then
    .next (State.wake { s with dev := { s.dev with host := { s.dev.host with impsync := false } } })
  else .next s

/-- `LQSYNC_SYNC` (R79, R87): each service is one step here, so none is under way and the bit reads 0. -/
def execLqsyncSync (value : DWord) (s : State) : Host.Outcome State Fault Refusal :=
  if s.pwr.on && value.getLsbD 0 then
    .next (State.wake { s with dev := { s.dev with host := { s.dev.host with lqsync := false } } })
  else .next s

/-! ## Bias flips (R80-R84) -/

def biasGo (r : DWord) : Bool := r.getLsbD 63
def biasFirst (r : DWord) : Nat := fld r.toNat 47 24
def biasPages (r : DWord) : Nat := fld r.toNat 23 8 + 1
def biasPin (r : DWord) : Nat := fld r.toNat 7 4
/-- The fields of `BIASREQ` that software writes, GO apart (R82). -/
def biasFields (r : DWord) : DWord := r &&& 0x4000FFFFFFFFFFF0#64

/-- Does a line lie in a range of pages, under any PIN? -/
def lineInPages (first n num : Nat) : Bool := first ≤ lineIndex num / 512 && lineIndex num / 512 < first + n

/-- The lines of a range of pages of which a core or an atomic unit holds a tracked copy. -/
def Dev.trackedIn (m : Dev) (first n : Nat) : List Nat :=
  ((m.cores.flatMap fun (x : Nat × Core) => (x.2.l1.filter fun (l : Line) => l.st.tracked).map fun (l : Line) => l.num) ++
    m.dies.flatMap fun (d : Die) => d.atomics.map fun (l : MLine) => l.num).eraseDups.filter (lineInPages first n)

/-- Every tracked device copy of the lines of a range of pages is recalled, dirty data written back (R83 step 3). -/
def Dev.recallPages (m : Dev) (first n : Nat) : Dev := (m.trackedIn first n).foldl Dev.recall m

/-- Steps 3 and 4 of a flip (R83); before one to device bias the host has invalidated its lines of the pages (step 1). -/
def Dev.startFlip (m : Dev) (r : DWord) : Dev :=
  let bias := r.getLsbD 62
  let entry := BitVec.ofNat 8 (b2n bias * 128 + biasPin r)
  let m := if bias then { m with hostHeld := m.hostHeld.filter fun l => !lineInPages (biasFirst r) (biasPages r) l }
    else m.recallPages (biasFirst r) (biasPages r)
  ({ m with host := { m.host with biasreq := biasFields r ||| (1#64 <<< 63) } }.write
    (.dev (m.host.biasbase + biasFirst r)) (List.replicate (biasPages r) entry)).push .biasFlipComplete

/-- A write of `BIASREQ` (R82). -/
def Dev.biasWrite (m : Dev) (r : DWord) : Dev :=
  let old := m.host.biasreq
  if biasGo old then m
  else if !biasGo r then { m with host := { m.host with biasreq := biasFields r ||| (old &&& (1#64 <<< 61)) } }
  else if biasFirst r + biasPages r > 2 ^ 24 || !pinOk (biasPin r) then
    { m with host := { m.host with biasreq := biasFields r ||| (1#64 <<< 61) } }
  else m.startFlip r

/-- A write of `BIASREQ` while the package does not run: the fields are stored, a request that names no pages or PIN is an
error, and no flip runs (MODEL's choice, log 115). -/
def Dev.biasStore (m : Dev) (r : DWord) : Dev :=
  if biasGo m.host.biasreq then m
  else if biasGo r && !(biasFirst r + biasPages r > 2 ^ 24 || !pinOk (biasPin r)) then
    { m with host := { m.host with biasreq := biasFields r } }
  else m.biasWrite r

/-- `BIASREQ_GO` (R82, R83): the mailbox takes the write whenever it is in service (R116). -/
def execBiasreqGo (value : DWord) (s : State) : Host.Outcome State Fault Refusal :=
  if !s.pwr.on then .next s
  else if s.runs then .next (State.wake { s with dev := s.dev.stash.biasWrite value })
  else .next { s with dev := s.dev.biasStore value }

/-- Step 6 of a flip (R83). -/
def Dev.endFlip (m : Dev) : Dev :=
  if !biasGo m.host.biasreq then m else
  let n := m.host.biasseq + 1
  { m with host := { m.host with biasseq := n, biasreq := biasFields m.host.biasreq } }.write (.host m.host.biasack) (leBytes 8 n.toNat)

/-- `BIAS_FLIP_COMPLETE` (R83). -/
def execBiasFlipComplete (s : State) : Host.Outcome State Fault Refusal :=
  if s.runs then s.run fun m => m.stash.endFlip else .next s

/-! ## Host accesses (R76-R81, R116, R120, R121) -/

/-- Are host accesses blocked (R116)? -/
def State.blocked (s : State) : Bool :=
  s.pwr.on && (s.pkg.stat = .resetHold || s.pkg.stat = .wiping || s.pkg.stat = .fatal || s.sec.life = .decommissioned)

/-- A blocked access (R116). -/
def State.blockedAccess (s : State) (a : HostAccess) : State :=
  if a.write then s else s.answered (.data (List.replicate a.size 0) true)

/-- Does an access touch a page that a flip holds (R83, R84)? -/
def Dev.inFlip (m : Dev) (a n : Nat) : Bool :=
  let r := m.host.biasreq
  biasGo r && a < 65536 * (biasFirst r + biasPages r) && 65536 * biasFirst r < a + n

/-- An answer with data; what a poisoned read returns beside the indication is not stated: no bytes. -/
def readAnswer (bs : List Byte) (poison : Bool) : Reply := .data (if poison then [] else bs) poison

/-- Does a range of physical addresses hold the byte with EN and HALT of a queue entry (R87)? -/
def Dev.writesEn (m : Dev) (q a n : Nat) : Bool :=
  let e := m.host.lqtbase + 32 * q + 30
  a ≤ e && e < a + n

/-- What a host write of a queue entry does to it (R87): HALT stays, and clears when EN is written 0; EN newly set is a
trigger (R90). `old`: the entry's last doubleword before. -/
def Dev.afterQueueWrite (m : Dev) (q old : Nat) : Dev :=
  let new := m.lqDword q 3
  let halt := new.testBit 52 && old.testBit 51
  let fixed := (new - b2n (new.testBit 51) * 2 ^ 51) + b2n halt * 2 ^ 51
  let m := if fixed = new then m else m.write (m.lqLoc q 3) (leBytes 8 fixed)
  if new.testBit 52 && !old.testBit 52 then m.push (.lqService q) else m

/-- A write by physical address; bytes for the bias table, which only the hub writes, are discarded (R80). -/
def Dev.physWrite (m : Dev) (a : Nat) (bs : List Byte) : Dev :=
  let tab := m.host.biasbase
  let inTab (i : Nat) : Bool := tab ≤ a + i && a + i < tab + 2 ^ 24
  if (List.range bs.length).any inTab then
    ((List.range bs.length).zip bs).foldl (fun m (x : Nat × Byte) =>
      if inTab x.1 then m else m.write (m.phys (a + x.1)) [x.2]) m
  else m.writeSpans (m.physSpans a bs.length) (clean bs)

/-- A host write of device memory with its effects on the queue table (R87) and the context table (R359). -/
def Dev.hostWrite (m : Dev) (a : Nat) (bs : List Byte) : Dev :=
  let queues := (List.range 64).map fun q => m.lqDword q 3
  let valid := (List.range 64).map m.ctxValid
  let m := m.physWrite a bs
  let m := ((List.range 64).zip queues).foldl (fun m (x : Nat × Nat) =>
    if m.writesEn x.1 a bs.length then m.afterQueueWrite x.1 x.2 else m) m
  ((List.range 64).zip valid).foldl (fun m (x : Nat × Bool) =>
    if x.2 && !m.ctxValid x.1 then m.push (.contextEndByHost x.1) else m) m

/-- The lines that a range touches at its homes. -/
def linesOf (ss : List Span) : List Nat :=
  ss.flatMap fun s => match s.loc with
    | .dev pa => (List.range ((pa + s.len - 1) / 128 + 1 - pa / 128)).map fun i => pa / 128 + i
    | _ => []

/-- Under host bias the host may cache the lines of a range that it has reached through CXL, and the home agents record it
(R81, R248). -/
def Dev.hostTakes (m : Dev) (ss : List Span) : Dev :=
  { m with hostHeld := (m.hostHeld ++ (linesOf ss).filter fun l => m.biasEntry (lineIndex l / 512) < 128).eraseDups }

/-- A host access to device memory while the package runs (R81): at the home that the PIN of the bias entry gives, coherent
with the device's caches under either bias. `cxl`: through CXL.mem, not by DMA. -/
def State.hostAccess (s : State) (a : HostAccess) (cxl : Bool) (again : Instr) : State :=
  let s := State.wake { s with dev := s.dev.stash }
  let ss := s.dev.physSpans a.addr a.size
  let held (m : Dev) : Dev := if cxl then m.hostTakes ss else m
  if s.dev.inFlip a.addr a.size then { s with dev := (s.dev.push .biasFlipComplete).enqueue again }
  else if a.write then { s with dev := held (s.dev.hostWrite a.addr (a.data.take a.size)) }
  else State.answered { s with dev := held s.dev } (readAnswer (s.dev.readSpans ss) ((s.dev.poisonSpans ss).any id))

/-- Did a die fail since the last reset (R118)? -/
def Pkg.dieFailed (p : Pkg) (d : Nat) : Bool := p.failed.getLsbD d

/-- The memory stack that is the home of a line, by its number (R43, R49). -/
def homeStack (num : Nat) : Nat :=
  if num < Config.memoryBytes / 128 then homeSlice 0 (128 * num) else num / (Config.memoryBytes / 128) - 1

/-- Is a salvage read of a line answered with poison (R121)? -/
def State.salvagePoison (s : State) (line : Nat) : Bool :=
  let m := s.dev
  let dirty := (List.range 8).filter fun d => m.dirtyIn line (fun k => k / 208 = d) ≠ []
  s.pkg.dieFailed (8 + homeStack line) || m.anyPoison (.dev (128 * line)) 128 ||
  (dirty ≠ [] && dirty.all s.pkg.dieFailed)

/-- A read in the salvage window (R121). -/
def State.salvage (s : State) (addr size : Nat) : State :=
  let ss := s.dev.physSpans addr size
  s.answered (readAnswer (s.dev.readSpans ss) ((linesOf ss).any s.salvagePoison))

/-- A host access by either path (R76, R116, R120): `cxl`: by link 0; `again` when it is held. -/
def State.hostPath (s : State) (a : HostAccess) (cxl : Bool) (again : Instr) : State :=
  if !s.pwr.on || a.addr + a.size > Config.memoryBytes || a.size = 0 then s
  else if s.blocked then s.blockedAccess a
  else if s.pkg.stat = .salvage then (if a.write then s else s.salvage a.addr a.size)
  else s.hostAccess a cxl again

/-- `HOST_CXL_ACCESS` (R76, R77, R81). -/
def execHostCxlAccess (a : HostAccess) (s : State) : Host.Outcome State Fault Refusal :=
  if s.pkg.cxlUp then .next (s.hostPath a true (.hostCxlAccess a)) else .next s

/-- `HOST_DMA` (R76, R77); the salvage window takes it with link 0 down only (R120). With link 0 up it gets no answer there, of
which R120 does not speak (MODEL's choice, log 133). -/
def execHostDma (a : HostAccess) (s : State) : Host.Outcome State Fault Refusal :=
  if s.pkg.stat = .salvage && s.pkg.cxlUp && !s.blocked then .next s else .next (s.hostPath a false (.hostDma a))

/-- `HOST_ACCESS_BLOCKED` (R116). -/
def execHostAccessBlocked (a : HostAccess) (s : State) : Host.Outcome State Fault Refusal :=
  if s.blocked then .next (s.blockedAccess a) else .next s

/-- `SALVAGE_READ` (R120, R121): a host read in the salvage window, which DECOMMISSIONED blocks (R116). -/
def execSalvageRead (addr size : Nat) (s : State) : Host.Outcome State Fault Refusal :=
  if s.pwr.on && s.pkg.stat = .salvage && size ≠ 0 && addr + size ≤ Config.memoryBytes then
    .next (if s.blocked then s.blockedAccess { addr, size, write := false, data := [] } else s.salvage addr size)
  else .next s

/-! ## The debugger (R106, R107, R111, R195) -/

/-- Does the debug level reach a wave? -/
def State.reaches (s : State) (uid : Nat) : Option Wave :=
  (s.dev.stash.waveOf uid).filter fun w => s.runs && s.halts w.ctx

/-- `DEBUG_HALT_REQUEST` (R111). -/
def execDebugHaltRequest (wave : Nat) (s : State) : Host.Outcome State Fault Refusal :=
  match s.reaches wave with
  | none => .next s
  | some _ => s.run fun m => m.stash.modWave wave fun w => { w with halted := true }

/-- `DEBUG_RESUME` (R111, R512). -/
def execDebugResume (wave : Nat) (s : State) : Host.Outcome State Fault Refusal :=
  match s.reaches wave with
  | none => .next s
  | some _ => s.run fun m => m.stash.modWave wave fun w => { w with halted := false }

/-- A lane register as the debugger reads it: a gated one reads zero with NOTALLOC (1), a dead one zero with DEAD (2);
a held result is not seen (R193, R195). -/
def Wave.debugLane (w : Wave) (reg tangent lane : Nat) : Reply :=
  if w.control || reg ≥ 128 || tangent > w.tang || lane ≥ w.wlanes || !w.inWindow reg then .debugValue 0 1
  else if w.isDead reg then .debugValue 0 2
  else .debugValue ((w.vget reg tangent lane).setWidth 64) 0

/-- A field of a translation register (R230). -/
def XReg.part (x : XReg) (i : Nat) : Nat :=
  match i with
  | 0 => x.base.toNat
  | 1 => x.frame.toNat
  | 2 => x.limit.toNat
  | _ => x.attr.toNat

/-- Registers of the debugger from here on are those of `Dev.debugUnits`. -/
def debugMore : Nat := 0x10000

/-- What no system register reaches (R106, R179, R360, R361), by the model's number (log 35): the wave's own `s48`-`s63` while it
is in the handler; KF and LFADDR of a lane; four doublewords of each element of an accumulator, and the doublewords of a plate, of
the cluster of the wave. Another context's unit reads as not allocated, unless `all`. -/
def Dev.debugUnits (m : Dev) (w : Wave) (n lane : Nat) (all : Bool) : Reply :=
  let cl := w.clusterNo
  let mine (owned : Bool) (tag : Nat) : Bool := all || (owned && tag = w.ctx)
  if n < 16 then .debugValue (w.bank.get (48 + n)) 0
  else if n = 16 then .debugValue (BitVec.ofNat 64 (b2n (Mask.has w.trap.kf lane))) 0
  else if n = 17 then .debugValue (w.trap.lfaddr.get lane) 0
  else if 32 ≤ n && n < 64 then
    let a := m.acc cl ((n - 32) / 4)
    if mine a.owned a.tag then .debugValue ((a.elems.get lane).extractLsb' (64 * (n % 4)) 64) 0 else .debugValue 0 1
  else if 64 ≤ n && n < 80 then
    let p := m.plate cl (n - 64)
    if mine p.owned p.tag then .debugValue (BitVec.ofNat 64 (ofBytes (p.bytes.getBytes (8 * lane) 8))) 0 else .debugValue 0 1
  else .debugValue 0 1

/-- A register by the model's number (log 35): lane registers from 0, scalars from 128, predicates (a lane's bit) from 192,
conditions from 200, the fields of the translation registers from 208, system registers from 256, and from `debugMore` the
registers that no system register reaches. `all`: FULL, which reads units of other contexts too. -/
def Dev.debugRead (m : Dev) (w : Wave) (reg tangent lane : Nat) (all : Bool) : Reply :=
  if debugMore ≤ reg then m.debugUnits w (reg - debugMore) lane all
  else if reg < 128 then w.debugLane reg tangent lane
  else if reg < 192 then .debugValue (w.sget (BitVec.ofNat 6 (reg - 128))) 0
  else if reg < 200 then
    let k := if reg = 192 then (w.frags.head?.map fun (f : Frag) => f.mask).getD 0 else w.kregs.getD (reg - 192) 0
    .debugValue (BitVec.ofNat 64 (b2n (Mask.has k lane))) 0
  else if reg < 208 then .debugValue (BitVec.ofNat 64 (b2n (w.cget (BitVec.ofNat 3 (reg - 200))))) 0
  else if reg < 240 then .debugValue (BitVec.ofNat 64 ((w.xregs.getD ((reg - 208) / 4) {}).part ((reg - 208) % 4))) 0
  else
    let m := { m with wave := w, frag := w.frags.headD {} }
    match (if reg < 256 then none else (m.userReg (reg - 256)).or (m.superReg (reg - 256))) with
    | some v => .debugValue (BitVec.ofNat 64 v) 0
    | none => .debugValue 0 1

/-- Registers of the debugger from here on are the syndromes, which FULL reaches in every state of the package (R111). -/
def debugSyn : Nat := 0x20000

/-- `DEBUG_REGISTER_READ` (R107, R111, R195, R202): a drowsy wave wakes; no flag is set. -/
def execDebugRegisterRead (wave reg tangent lane : Nat) (s : State) : Host.Outcome State Fault Refusal :=
  if debugSyn ≤ reg then
    .next (s.answered (if s.pwr.on && s.level = .full && reg - debugSyn < 25
      then .debugValue (s.pkg.syn.getD (reg - debugSyn) 0) 0 else .error))
  else match s.reaches wave with
  | none => .next (s.answered .error)
  | some w =>
    let m := s.dev.stash
    .next (State.answered { s with dev := m.modWave wave fun w => { w with drowsy := false } } (m.debugRead w reg tangent lane (s.level = .full)))

/-- Where FULL finds the cores' arrays and code memories (log 35). -/
def debugArrays : Nat := 2 ^ 40
def debugCodes : Nat := 2 ^ 40 + 2 ^ 32
/-- Cores and control cores of the package. -/
def coreCount : Nat := 1664

/-- The places of an access of FULL to memory or an array. -/
def Dev.fullSpans (m : Dev) (a n : Nat) : Option (List Span) :=
  let o := a - debugArrays
  if a + n ≤ Config.memoryBytes then some (m.physSpans a n)
  else if debugArrays ≤ a && o / 2 ^ 20 < coreCount && o % 2 ^ 20 + n ≤ 2 ^ 20 then some [{ loc := .arr (o / 2 ^ 20) (o % 2 ^ 20), len := n }]
  else none

/-- The core, segment and offset of an access of FULL to code memory. -/
def fullCode (a n : Nat) : Option (Nat × Nat × Nat) :=
  let o := a - debugCodes
  let k := o / 2 ^ 18
  let g := o % 2 ^ 18 / 2 ^ 14
  if debugCodes ≤ a && k < coreCount && g < 12 && o % 2 ^ 14 + n ≤ 2 ^ 14 then some (k, g, o % 2 ^ 14) else none

/-- An access of FULL to code memory. -/
def State.debugCode (s : State) (a : HostAccess) (x : Nat × Nat × Nat) : State :=
  let c := s.dev.core x.1
  let g := c.segs.getD x.2.1 {}
  if a.write then
    { s with dev := s.dev.setCore x.1 { c with segs := setAt {} c.segs x.2.1 { g with code := g.code.putBytes x.2.2 (a.data.take a.size) } } }
  else s.answered (.data (g.code.getBytes x.2.2 a.size) false)

/-- The places of a debugger access (R106): through the page tables of the context of APP, or physical under FULL. -/
def State.debugSpans (s : State) (ctx : Nat) (a : HostAccess) : Option (List Span) :=
  match s.level with
  | .none => none
  | .full => s.dev.fullSpans a.addr a.size
  | .app =>
    if ctx ≠ s.sec.appCtx || a.addr + a.size > 2 ^ 49 then none
    else match s.dev.engineSpans ctx a.addr a.size (!a.write) a.write with
      | .ok ss => some ss
      | .error _ => none

/-- Does FULL reach the salvage window: the package is in FATAL, or the window is open (R111)? A failure of the hub die leaves
none (R119). -/
def State.fullSalvage (s : State) (a : HostAccess) : Bool :=
  s.pwr.on && s.level = .full && (s.pkg.stat = .fatal || s.pkg.stat = .salvage) && !s.pkg.hubFailed &&
    a.addr + a.size ≤ Config.memoryBytes

/-- `DEBUG_MEMORY_ACCESS` (R106, R107, R111): an access that the level does not reach is answered with an error. A write of FULL
into the bias table is discarded (R80), and so is one in the salvage window (R120). -/
def execDebugMemoryAccess (ctx : Nat) (a : HostAccess) (s : State) : Host.Outcome State Fault Refusal :=
  if a.size = 0 then .next (s.answered .error)
  else if s.fullSalvage a then .next (if a.write then s else s.salvage a.addr a.size)
  else if !s.runs then .next (s.answered .error)
  else match (if s.level = .full then fullCode a.addr a.size else none), s.debugSpans ctx a with
    | some x, _ => .next (s.debugCode a x)
    | none, none => .next (s.answered .error)
    | none, some ss =>
      let m := s.dev.stash
      let bs := a.data.take a.size
      if a.write then
        .next { s with dev := if s.level = .full && a.addr + a.size ≤ Config.memoryBytes then m.physWrite a.addr bs else m.writeSpans ss (clean bs) }
      else .next (State.answered { s with dev := m } (readAnswer (m.readSpans ss) ((m.poisonSpans ss).any id)))

/-! ## Data errors (R118, R524) -/

/-- Poison the word of a line that holds a byte. -/
def poisonWord (p : Word) (pa : Nat) : Word := p ||| (1#32 <<< (pa % 128 / 4))

/-- A word of memory at a home becomes poisoned. -/
def Dev.poisonMemory (m : Dev) (pa : Nat) : Dev :=
  if pa < devBytes then { m with mem := { m.mem with poison := m.mem.poison.put (pa / 4) 1 } } else m

/-- The word of an L1 line that holds a byte becomes poisoned. Of a dirty line it is dirty from then on, so that the poison goes
where its bytes go; of a clean one only the copy is poisoned. -/
def Dev.poisonLine (m : Dev) (k pa : Nat) (l : Line) : Dev :=
  let p := poisonWord l.poison pa
  let base := pa % 128 / 4 * 4
  let word := (List.range 4).map fun i => m.byteAt (.dev (pa / 128 * 128 + base + i))
  let new := if l.st.dirty
    then { l with poison := p, mask := l.mask ||| bmRange base 4, data := l.data.putBytes base word }
    else { l with poison := p }
  let c := m.core k
  m.setCore k { c with l1 := c.l1.map fun x => if x = l then new else x }

/-- An uncorrectable data error poisons its word (R118, R524). -/
def Dev.dataError (m : Dev) (p : PoisonPlace) : Dev :=
  match p with
  | .memory pa => m.poisonMemory pa
  | .array k off =>
    let c := m.core k
    if off < 2 ^ 20 && k < 1664 then m.setCore k { c with arr := { c.arr with poison := c.arr.poison.put (off / 4) 1 } } else m
  | .pending k pa =>
    match m.line k (pa / 128) with
    | none => m
    | some l => m.poisonLine k pa l
  | .mergeBuffer d pa =>
    let x := m.die d
    m.setDie d { x with merge := x.merge.map fun (l : MLine) => if l.num = pa / 128 then { l with poison := poisonWord l.poison pa } else l }

/-- `UNCORRECTABLE_DATA_ERROR` (R524). -/
def execUncorrectableDataError (p : PoisonPlace) (s : State) : Host.Outcome State Fault Refusal :=
  if s.pwr.on then s.run fun m => m.stash.dataError p else .next s

end Sys2Proof.Machine
end

