-- ==== Sys2Proof/Machine/Links.lean ====
section
/-!
DEFINITION. Machine/Links.lean: the Cassen ports: flits, replay, retraining, key agreement and rollover (03 R57-R64;
05 R100, R101, R118).
-/
namespace Sys2Proof.Machine

/-! ## Ports -/

def State.port (s : State) (p : Nat) : Port := s.dev.port p
def State.setPort (s : State) (p : Nat) (x : Port) : State := { s with dev := s.dev.setPort p x }
/-- A port sends what it can. -/
def State.pump (s : State) (p : Nat) : State := { s with dev := s.dev.pump p }
/-- A message of a rollover is sent on a port (R62). -/
def State.tell (s : State) (p : Nat) (l : FlitLoad) : State := { s with dev := s.dev.postFlit p l }

/-- Is port `p` in service in a running package (R32, R118)? -/
def State.portServes (s : State) (p : Nat) : Bool := s.runs && p < 24 && s.dev.cap.ports.getLsbD p

/-- Are both directions keyed, so that flits may be carried (R100)? -/
def Port.keyed (p : Port) : Bool :=
  (p.send.slot p.send.epoch).isSome && (p.recv.slot0.isSome || p.recv.slot1.isSome)

/-! ## Flits (R58-R60, R63) -/

/-- Is a sequence number acknowledged by another: not after it, modulo 2^12? -/
def acked (ack q : BitVec 12) : Bool := (ack - q).toNat < 2048

/-- Does the replay buffer still hold a flit of the old epoch (R62 step 3)? -/
def SendDir.holdsOld (x : SendDir) : Bool := x.buffer.any fun b => b.epoch ≠ x.epoch

/-- Is the tag of a flit right: its errors can be corrected and it was made under the key of its epoch's slot (R59,
R63)? -/
def Port.accepts (p : Port) (f : Flit) : Bool := f.correctable && p.recv.slot f.epoch = some f.key

/-- A flit that passes: the expected one is taken; its acknowledgement empties the replay buffer. -/
def Port.take (p : Port) (f : Flit) : Port :=
  let recv := if f.seqNo = p.recv.expected then
      { p.recv with expected := p.recv.expected + 1, epoch := f.epoch, asked := p.recv.asked.erase f.seqNo }
    else p.recv
  { p with recv, send := { p.send with buffer := p.send.buffer.filter fun b => !acked f.ackNo b.seqNo } }

/-- PORT-RETRAIN (R60): the port stops and retrains, with a management alert. -/
def State.stopPort (s : State) (p : Nat) : State :=
  (s.setPort p { s.port p with up := false, training := true }).alert 4

/-- OLD-EPOCH-DRAINED becomes due once no old flit is left (R62). -/
def State.checkDrain (s : State) (p : Nat) : State :=
  let x := (s.port p).send
  if x.roll = .draining && !x.holdsOld then { s with dev := s.dev.push (.oldEpochDrained p) } else s

/-- `FLIT_RECEIVE` (R59, R60): a flit that cannot be corrected or fails its tag is discarded with a replay request; a
resent flit that fails again stops the port. A resent flit that cannot be corrected counts as one that fails again, of which R60
does not speak (MODEL's choice, log 38). -/
def execFlitReceive (port : Nat) (f : Flit) (s : State) : Host.Outcome State Fault Refusal :=
  let p := s.port port
  if !s.portServes port || !p.up then .next s
  else if p.accepts f then .next (((s.setPort port (p.take f)).pump port).checkDrain port)
  else if p.recv.asked.contains f.seqNo then .next (s.stopPort port)
  else .next ((s.setPort port { p with recv := { p.recv with asked := p.recv.asked ++ [f.seqNo] } }).answered (.replay port f.seqNo))

/-- `REPLAY_REQUEST` (R59): that flit and every later one are resent in order, unchanged. -/
def execReplayRequest (port : Nat) (seqNo : BitVec 12) (s : State) : Host.Outcome State Fault Refusal :=
  let p := s.port port
  if !s.portServes port || !p.up then .next s
  else .next (s.answered (.resent port ((p.send.buffer.filter fun b => acked b.seqNo seqNo).map fun b => b.bytes port)))

/-- `PORT_RETRAIN_DONE` (R60): the port carries traffic again once it is keyed; requests in flight complete, or time
out when the port was away for longer than 2 ms. -/
def execPortRetrainDone (port : Nat) (within2ms : Bool) (s : State) : Host.Outcome State Fault Refusal :=
  let p := s.port port
  if !s.portServes port || !p.training then .next s
  else
    let late := s.dev.peers.filter fun x => x.left && x.port = some port
    let s := (s.setPort port { p with training := false, up := p.keyed, recv := { p.recv with asked := [] } }).pump port
    if within2ms then .next s
    else .next { s with dev := late.foldl (fun m (x : PeerOut) => m.push (.peerTimeout x.id)) s.dev }

/-! ## Keys (R62-R64, R100, R101) -/

/-- May this package agree a key with a peer whose share is signed by its identity key, or by a test key (R101)? -/
def Security.agrees (x : Security) (testKey : Bool) : Bool := x.signs && (!testKey || x.life = .manufacture)

/-- The start of a rollover at the sender (R63, R64). -/
def State.startRollover (s : State) (port count : Nat) : State :=
  let p := s.port port
  if !s.portServes port || !p.up || p.send.roll ≠ .idle then s
  else s.setPort port { p with send := { p.send with roll := .agreeing, counter := max p.send.counter count } }

/-- `ROLLOVER_COUNT_REACHED` (R64): 2^39 flits under one key. -/
def execRolloverCountReached (port : Nat) (s : State) : Host.Outcome State Fault Refusal :=
  .next (s.startRollover port (2 ^ 39))

/-- `ROLLOVER_TIMER_EXPIRED` (R64). -/
def execRolloverTimerExpired (port : Nat) (s : State) : Host.Outcome State Fault Refusal := .next (s.startRollover port 0)

/-- A key is agreed for the direction that this package sends: the first one is epoch 0 (R100); at a rollover the new
key waits in the other slot for KEY-READY (R62). -/
def SendDir.agree (x : SendDir) (k : Nat) : SendDir :=
  if x.slot0.isNone && x.slot1.isNone then { x with slot0 := some k, epoch := false, counter := 0, hold := false, roll := .idle }
  else if x.roll = .agreeing then { x.setSlot (!x.epoch) (some k) with roll := .awaitReady } else x

/-- A key is agreed for the direction that this package receives: it is installed in the idle slot (R62 step 1, R100). When the
agreement was started again and none is idle (R64), that is the slot of the epoch which the sender does not use (log 39). -/
def RecvDir.agree (x : RecvDir) (k : Nat) : RecvDir :=
  match x.slot0, x.slot1 with
  | none, none => { x with slot0 := some k }
  | some _, none => { x with slot1 := some k, rolling := true }
  | none, some _ => { x with slot0 := some k, rolling := true }
  | some _, some _ => { x.setSlot (!x.epoch) (some k) with rolling := true }

/-- `KEY_AGREEMENT_COMPLETE` (R62 step 1, R100, R101): the key of one direction, named by its number. A receiver that takes a
later key sends KEY-READY. -/
def execKeyAgreementComplete (port : Nat) (outgoing testKey : Bool) (s : State) : Host.Outcome State Fault Refusal :=
  let p := s.port port
  if !s.portServes port || p.training || !s.sec.agrees testKey then .next s
  else
    let k := p.agreed
    let p := if outgoing then { p with agreed := k + 1, send := p.send.agree k }
      else { p with agreed := k + 1, recv := p.recv.agree k }
    let s := (s.setPort port { p with up := p.keyed }).pump port
    .next (if !outgoing && p.recv.rolling then s.tell port .keyReady else s)

/-- `KEY_READY` (R62 step 2): new flits carry the new epoch, under the new key's counter. -/
def execKeyReady (port : Nat) (s : State) : Host.Outcome State Fault Refusal :=
  let p := s.port port
  if !s.portServes port || p.send.roll ≠ .awaitReady then .next s
  else
    let send := { p.send with epoch := !p.send.epoch, counter := 0, roll := .draining }
    .next (((s.setPort port { p with send }).pump port).checkDrain port)

/-- `OLD_EPOCH_DRAINED` (R62 steps 3 and 4): KEY-RETIRE is sent. -/
def execOldEpochDrained (port : Nat) (s : State) : Host.Outcome State Fault Refusal :=
  let p := s.port port
  if !s.portServes port || p.send.roll ≠ .draining || p.send.holdsOld then .next s
  else .next ((s.setPort port { p with send := { p.send with roll := .awaitDone } }).tell port .keyRetire)

/-- `KEY_RETIRE` (R62 step 5): the older key is erased, and KEY-DONE is sent. -/
def execKeyRetire (port : Nat) (s : State) : Host.Outcome State Fault Refusal :=
  let p := s.port port
  match p.recv.slot0, p.recv.slot1 with
  | some a, some b =>
    if !s.portServes port || !p.recv.rolling then .next s
    else .next ((s.setPort port { p with recv := { p.recv.setSlot (a > b) none with rolling := false } }).tell port .keyDone)
  | _, _ => .next s

/-- `KEY_DONE` (R62 step 6): the old key is erased; the hold of R61 ends. -/
def execKeyDone (port : Nat) (s : State) : Host.Outcome State Fault Refusal :=
  let p := s.port port
  if !s.portServes port || p.send.roll ≠ .awaitDone then .next s
  else
    let send := { p.send.setSlot (!p.send.epoch) none with roll := .idle, failures := 0, hold := false }
    .next ((s.setPort port { p with send }).pump port)

/-- A port that has lost its keys: it retrains, and what it still has to send, the rollover's messages apart, waits for the
first key of the next agreement (R60, R64). -/
def Port.unkeyed (p : Port) : Port :=
  { training := true, agreed := p.agreed,
    send := { waiting := ((p.send.buffer.map fun b => b.load) ++ p.send.waiting).filter fun l => !l.ofRollover } }

/-- A wait of a rollover has expired (R64): the agreement starts again; at the third failure the port stops, loses its
keys and retrains. -/
def State.keyFailure (s : State) (port : Nat) : State :=
  let p := s.port port
  if p.send.failures + 1 < 3 then
    s.setPort port { p with send := { p.send with failures := p.send.failures + 1, roll := .agreeing } }
  else (s.setPort port p.unkeyed).alert 4

/-- `KEY_READY_TIMEOUT` (R64). -/
def execKeyReadyTimeout (port : Nat) (s : State) : Host.Outcome State Fault Refusal :=
  if s.portServes port && (s.port port).send.roll = .awaitReady then .next (s.keyFailure port) else .next s

/-- `KEY_DONE_TIMEOUT` (R64). -/
def execKeyDoneTimeout (port : Nat) (s : State) : Host.Outcome State Fault Refusal :=
  if s.portServes port && (s.port port).send.roll = .awaitDone then .next (s.keyFailure port) else .next s

end Sys2Proof.Machine
end

