-- ==== Sys2Proof/Machine/Peers.lean ====
section
/-!
DEFINITION. Machine/Peers.lean: inbound peer requests against the import table, and the answers to the package's own
requests (03 R69-R75; 16 R348; 08 R192).
-/
namespace Sys2Proof.Machine

/-! ## The target's side (R69-R72) -/

/-- Doubleword `i` of an import table entry (R69). -/
def Dev.impDword (m : Dev) (idx i : Nat) : Nat := ofBytes (m.bytesAt (m.phys (m.host.impbase + 32 * idx + 8 * i)) 8)

/-- The rights that a request needs: PERM bit, RD, WR. -/
def peerRights : PeerKind → Nat × Bool × Bool
  | .load => (0, true, false)
  | .store _ => (1, false, true)
  | .atomic _ _ _ => (2, true, true)

/-- The checks of R70 in order: the places of the range, or the code of the NACK. -/
def Dev.checkPeer (m : Dev) (r : PeerReq) : Except Nat (List Span) :=
  let d := m.impDword r.impidx
  let (perm, rd, wr) := peerRights r.kind
  let ctx := fld (d 3) 59 54
  let srchi := fld (d 3) 53 40
  let srclo := fld (d 3) 39 26
  let reserved := fld (d 3) 25 0 = 0 && fld (d 2) 63 35 = 0 && fld (d 1) 63 0 = 0 && fld (d 0) 63 49 = 0 && fld (d 0) 15 0 = 0
  if !((d 3).testBit 63 && reserved) then .error 1
  else if !(srclo ≤ r.source && r.source ≤ srchi) then .error 2
  else if r.offset + r.size > fld (d 2) 34 0 then .error 3
  else if !(fld (d 3) 62 60).testBit perm then .error 4
  else if !m.ctxValid ctx then .error 5
  else match m.engineSpans ctx (fld (d 0) 48 16 * 65536 + r.offset) r.size rd wr with
    | .error _ => .error 6
    | .ok ss => if rd && (m.poisonSpans ss).any id then .error 7 else .ok ss

/-- A request that passed is performed at device scope: its answer and the machine (R70). -/
def Dev.performPeer (m : Dev) (r : PeerReq) (ss : List Span) : List Byte × Dev :=
  let old := m.readSpans ss
  match r.kind with
  | .load => (old, m)
  | .store bs => ([], m.writeSpans ss (bs.take r.size))
  | .atomic fn b c =>
    match atomOp fn r.size (ofBytes old) b.toNat c.toNat with
    | some v => (old, m.writeSpans ss (clean (leBytes r.size v)))
    | none => (old, m)

/-- PEERERR-RECORD (R72). -/
def State.peerNack (s : State) (r : PeerReq) (code : Nat) : State :=
  let v := 2 ^ 63 + code * 2 ^ 59 + r.source % 2 ^ 14 * 2 ^ 45 + r.impidx % 256 * 2 ^ 37 + r.offset % 2 ^ 34
  let err := if s.pkg.peererr.getLsbD 63 then s.pkg.peererr else BitVec.ofNat 64 v
  (State.answered (State.alert { s with pkg := { s.pkg with peererr := err } } 3) (.peerNack code)).tell r.port (.answer code [])

/-- `PEER_REQUEST` (R70, R72), on a port that carries traffic (R100, R101); the answer leaves by that port. It ends P2 as a host
access does (R108; MODEL's choice, log 130). -/
def execPeerRequest (r : PeerReq) (s : State) : Host.Outcome State Fault Refusal :=
  if !s.portServes r.port || !(s.port r.port).up then .next s
  else
    let s := State.wake { s with dev := s.dev.stash }
    match s.dev.checkPeer r with
    | .error code => .next (s.peerNack r code)
    | .ok ss =>
      let (bs, m) := s.dev.performPeer r ss
      .next ((State.answered { s with dev := m } (.peerDone bs)).tell r.port (.answer 0 bs))

/-! ## The initiator's side (R73-R75, R192) -/

/-- Record an error in `ASYNCERR` (R74, R75). -/
def Wave.asyncError (w : Wave) (cause code : Nat) (addr : DWord) : Wave :=
  if w.asyncerr.getLsbD 63 then
    let more := min 127 (fld w.asyncerr.toNat 62 56 + 1)
    { w with asyncerr := (w.asyncerr &&& 0x80FFFFFFFFFFFFFF#64) ||| BitVec.ofNat 64 (more * 2 ^ 56) }
  else
    let a := addr.toNat
    { w with asyncAddr := addr,
             asyncerr := BitVec.ofNat 64 (2 ^ 63 + cause * 2 ^ 48 + code % 16 * 2 ^ 44 + fld a 55 42 * 2 ^ 30 + fld a 41 34 * 2 ^ 22) }

/-- The code of the cause of a NACK (R73), and of a time-out. -/
def nackCause (code : Nat) : Cause := if code = 7 then .poison else .peerFault

/-- A transfer has failed, or not written a byte (R348). -/
def CmdBody.flag (failed err : Bool) : CmdBody → CmdBody
  | .peer put l rm n se st sa f an e => .peer put l rm n se st sa (f || failed) an (e || err)
  | b => b

/-- The end of a peer request: its bytes, or the cause and code of an error (R73, R74). -/
def Dev.endPeer (m : Dev) (id : Nat) (r : Except (Cause × Nat) (List Byte)) : Dev :=
  match m.peers.find? fun p => p.id = id with
  | none => m
  | some p =>
    let m := { m with peers := m.peers.filter fun x => x.id ≠ id }
    match p.what with
    | .load lo hi tang lane plain =>
      let v := match r with | .ok bs => ofBytes bs | .error _ => 0
      let mark := match r with
        | .ok _ => none
        | .error (c, _) => some { reg := 0, tang, lane, err := p.err, cause := c, addr := p.addr : Mark }
      let put (m : Dev) (dest : Option Late) (v : Nat) : Dev := match dest with
        | some d => m.lateWord p.wave d tang lane plain (BitVec.ofNat 32 v) mark
        | none => m
      put (put m lo v) hi (v / 2 ^ 32)
    | .store =>
      match r with
      | .ok _ => m
      | .error (c, code) => m.modWave p.wave fun w => w.asyncError (causeCode c) code p.addr
    | .cmd cid =>
      let m := match r with
        | .error (c, code) =>
          (m.modCmd cid fun b => b.flag true false).modWave p.wave fun w => w.asyncError (causeCode c) code p.addr
        | .ok bs =>
          match m.cmds.find? fun c => c.id = cid with
          | some { body := .peer false loc remote _ _ _ _ _ _ _, cluster, ctx, .. } =>
            let ss := Span.take (Span.drop loc (p.addr.toNat - remote)) p.size
            (m.modCmd cid fun b => b.flag false (!m.ownsSpans ctx ss)).storeEngine cluster ctx ss (clean (bs.take p.size))
          | _ => m
      if m.peerWaits cid then m else m.push (.peerTransferComplete cid)

/-- Has a request left its port, so that it may time out (R74)? -/
def Dev.sentOut (m : Dev) (id : Nat) : Bool := m.peers.any fun p => p.id = id && p.left

/-- May a request be answered: it has left, and its port carries traffic (R60, R100)? -/
def Dev.answerable (m : Dev) (id : Nat) : Bool :=
  m.peers.any fun p => p.id = id && p.left && p.port.any fun x => (m.port x).up

/-- `PEER_RESPONSE` (R73, R74): code 0 acknowledges; a request that has ended already takes no answer. -/
def execPeerResponse (id code : Nat) (data : List Byte) (s : State) : Host.Outcome State Fault Refusal :=
  if s.dev.answerable id then s.run fun m => m.stash.endPeer id (if code = 0 then .ok data else .error (nackCause code, code))
  else .next s

/-- `PEER_TIMEOUT` (R74). -/
def execPeerTimeout (id : Nat) (s : State) : Host.Outcome State Fault Refusal :=
  if s.dev.sentOut id then s.run fun m => m.stash.endPeer id (.error (.peerTimeout, 0)) else .next s

end Sys2Proof.Machine
end

