-- ==== Sys2Proof/Machine/Save.lean ====
section
/-!
DEFINITION. Machine/Save.lean: saving and resuming pre-empted waves (18 R365-R368; 02 R55), parity errors (08 R200), and
units that are retired, with replay (01 R32-R37; 18 R372, R373).
-/
namespace Sys2Proof.Machine

/-! ## The save area (R366) -/

/-- SHIFT and VA of the save area of a context, and its slots. -/
def Dev.saveShift (m : Dev) (ctx : Nat) : Nat := fld (m.ctxDword ctx 0x18) 63 56
def Dev.saveVa (m : Dev) (ctx : Nat) : Nat := fld (m.ctxDword ctx 0x18) 48 0
def Dev.saveSlots (m : Dev) (ctx : Nat) : Nat := fld (m.ctxDword ctx 0x20) 14 0

/-- The place of byte `b` of the bitmap. -/
def Dev.bitmapLoc (m : Dev) (ctx b : Nat) : Except Cause Loc := m.engineLoc ctx (m.saveVa ctx + b) 1 true true

/-- Is a slot in use? A bitmap byte that does not translate is an error. -/
def Dev.slotUsed (m : Dev) (ctx i : Nat) : Except Cause Bool :=
  match m.bitmapLoc ctx (i / 8) with
  | .ok l => .ok ((m.byteAt l).getLsbD (i % 8))
  | .error c => .error c

/-- The lowest free slot among `n` from slot `i` on; none when there is none. -/
def Dev.freeSlot (m : Dev) (ctx : Nat) : Nat → Nat → Except Cause (Option Nat)
  | 0, _ => .ok none
  | n + 1, i =>
    match m.slotUsed ctx i with
    | .error c => .error c
    | .ok true => m.freeSlot ctx n (i + 1)
    | .ok false => .ok (some i)

/-- Set or clear the bit of a slot. -/
def Dev.markSlot (m : Dev) (ctx i : Nat) (b : Bool) : Dev :=
  match m.bitmapLoc ctx (i / 8) with
  | .error _ => m
  | .ok l =>
    let v := (m.byteAt l).toNat
    let v' := if b then v ||| 2 ^ (i % 8) else v - (if v.testBit (i % 8) then 2 ^ (i % 8) else 0)
    m.write l [BitVec.ofNat 8 v']

/-- Doublewords, one after another. -/
def dwords (xs : List Nat) : List Byte := xs.flatMap (leBytes 8)

/-- The bytes of `n` doublewords of a scalar file from register `r` on. -/
def sregBytes (c : Cells 64) (r n : Nat) : List Byte := dwords ((List.range n).map fun i => (c.get (r + i)).toNat)

/-- A part of a record fills its place: what the place has beyond its contents is zero. -/
def padTo (n : Nat) (bs : List Byte) : List Byte := (bs ++ leBytes n 0).take n

/-- The windows of a wave from the outermost to the innermost. -/
def Wave.windows (w : Wave) : List Win := w.base :: w.stack.reverse

/-- The entry of a window in the record: its size, whether it is spilt, and its number from below in the spill area. -/
def Wave.winEntry (w : Wave) (x : Win) : Nat :=
  match x.spilt with
  | none => x.units
  | some off => x.units + 16 + 32 * (w.stack.filter fun y => y.spilt.any fun o => o < off).length

/-- The register blocks that a wave holds: its globals and its windows that are not spilt, in window order. -/
def Wave.blockBytes (w : Wave) : List Byte :=
  if w.control then []
  else w.winBytes { w.globals with units := 1 } ++ (w.windows.filter fun x => x.spilt.isNone).flatMap w.winBytes

/-- The number of an operand of a matrix instruction in the record. -/
def MOperand.code : MOperand → Nat
  | .plate p => 2 ^ 63 + p
  | .spad b t r rot => b % 2 ^ 28 + t * 2 ^ 28 + r * 2 ^ 44 + rot * 2 ^ 60

/-- A matrix instruction in the record: its kind with its unit, its count, and its operands. -/
def MOp.code : MOp → List Nat
  | .mma acc a b n => [1 + 256 * acc, n, a.code, b.code]
  | .mld p bSide a => [2 + 256 * p + 2 ^ 16 * b2n bSide, 0, a.code, 0]
  | .mdrain acc d rz => [3 + 256 * acc + 2 ^ 16 * b2n rz, 0, d.code, 0]
  | .mzero acc => [4 + 256 * acc, 0, 0, 0]
  | .msave acc => [5 + 256 * acc, 0, 0, 0]
  | .mrest acc => [6 + 256 * acc, 0, 0, 0]
  | .mcfg => [7, 0, 0, 0]

/-- An entry of the matrix queue in the record (R325): the instruction with what it captured at issue. -/
def MEntry.code (e : MEntry) : List Nat := e.op.code ++ [e.fmt.lo.toNat, e.fmt.hi.toNat, e.tstride.toNat]

/-- The fields that begin a record (R367), of the wave and of its first fragment. -/
def Wave.recordHead (w : Wave) : List Nat :=
  let f := w.frags.headD { fid := 0 }
  [w.sstat, b2n w.super, w.waveid, w.role, (match w.gang with | some g => g | none => 0), f.dualst, w.trap.lrem.toNat,
   f.lpc + 2 ^ 32 * f.lrem]

/-- The trap registers of a record (R367). -/
def TrapRegs.dwords (t : TrapRegs) : List Nat := [t.scause.toNat, t.sepc.toNat, t.lepc.toNat, t.lrem.toNat, t.stval.toNat]

/-- The registers at offset 0x280 of a record (R367). -/
def Wave.recordRegs (w : Wave) : List Nat :=
  let f := w.frags.headD { fid := 0 }
  [w.cregs.toNat, f.fmt.lo.toNat, f.fmt.hi.toNat, w.wavectl.toNat, w.asyncerr.toNat, w.cpybase.toNat, w.olbase.toNat,
   w.olcap.toNat, w.oltag.toNat]

/-- The mask words of a record: the lanes of the wave's fragments. -/
def Wave.allLanes (w : Wave) : Nat := w.frags.foldl (fun n (f : Frag) => n ||| f.mask.toNat) 0

/-- The region record in a save record (R198, R367). -/
def Region.bytes (r : Region) : List Byte :=
  dwords [r.spc + 2 ^ 32 * b2n r.fell, r.lpc + 2 ^ 32 * b2n r.lfell, r.fmt.lo.toNat, r.fmt.hi.toNat,
          r.depth + 2 ^ 32 * r.rollbacks, popcount 1024 r.mask.toNat]

/-- The part of a save record up to the register blocks (R367), of a wave that leaves the matrix queue `mine`. A saved wave
holds no room (R288). The order inside a field is the model's (log 8). -/
def Wave.recordFixed (w : Wave) (mine : List MEntry) : List Byte :=
  padTo 0x40 (dwords w.recordHead) ++ sregBytes w.sregs 0 64 ++ padTo 0x40 (dwords w.trap.dwords) ++
  padTo 0x80 (dwords w.recordRegs) ++ dwords (w.xregs.map fun x => x.base.toNat) ++
  padTo 0x80 (leBytes 96 0 ++ dwords [(match w.monitor with | some (p, _) => p.toNat | none => 0), w.batchNum.toNat,
                                      w.openBatch.length]) ++
  padTo 0x400 ((w.splits.filter fun x => !x.serial).flatMap Split.entry) ++
  padTo 0x200 (w.windows.flatMap fun x => leBytes 2 (w.winEntry x)) ++
  padTo 0x200 (if w.control then dwords (w.mxcfg.toNat :: mine.flatMap MEntry.code) else []) ++
  (if w.super then sregBytes w.bank 48 16 else leBytes 0x80 0) ++ padTo 0x40 w.region.bytes ++ leBytes 0x380 0 ++
  ((List.range 7).flatMap fun k => leBytes 128 (w.kregs.getD (k + 1) 0).toNat) ++ leBytes 128 w.allLanes

/-- The save record of a wave (R367): the fixed part, the register blocks and the scratchpad. -/
def saveRecord (w : Wave) (mine : List MEntry) (scratch : List Byte) : List Byte :=
  w.recordFixed mine ++ w.blockBytes ++ scratch

/-! ## WAVE_SAVE (R366) -/

/-- A fragment at its pre-emption point: its wait is withdrawn, its instruction starts anew (R365). -/
def withdrawn (f : Frag) : Frag :=
  { f with wait := .none, phase := 0, instr := none, desc := [], deadline := none, asked := none }

/-- The waits of a wave are withdrawn: from barriers, the block queue, rooms (R288), CLEARs, and `MDRAIN` and `MREST` in the
matrix queue. -/
def Dev.withdrawWaits (m : Dev) (w : Wave) : Dev :=
  let m := (barriersOf w).foldl (fun m b => m.setArrivals b ((m.arrivals b).filter fun u => u ≠ w.uid)) m
  let c := m.core w.coreNo
  let m := m.setCore w.coreNo { c with queue := c.queue.filter fun q => q.1 ≠ w.uid }
  let m := (m.tuns.foldl (fun m (t : Tun) => m.setTun { t with clears := t.clears.filter fun x => x.1 ≠ w.uid }) m).withdrawEnters
    w.uid w.frags
  let x := m.cluster w.clusterNo
  let held (e : MEntry) : Bool := e.wave = w.uid && match e.op with
    | .mdrain _ _ _ | .mrest _ => true
    | _ => false
  m.setCluster w.clusterNo { x with mqueue := x.mqueue.filter fun e => !held e }

/-- The lookahead windows of every fragment close (R193). -/
def Wave.closeHeld (w : Wave) : Wave :=
  let w := w.frags.foldl (fun (w : Wave) (f : Frag) => f.held.foldl (fun (w : Wave) h => w.commitHeld w.wlanes h) w) w
  { w with frags := w.frags.map fun (f : Frag) => { f with held := [] } }

/-- Steps completed of the oldest held instruction, when it is an `MMA` (R325). -/
def doneOf (q : List MEntry) : Nat :=
  match q with
  | [] => 0
  | e :: _ => match e.op with | .mma _ _ _ _ => e.done | _ => 0

/-- The matrix instructions of a wave that are not complete (R325). -/
def Dev.heldMatrix (m : Dev) (w : Wave) : List MEntry := (m.cluster w.clusterNo).mqueue.filter fun e => e.wave = w.uid

/-- A wave as it is saved, with its held matrix instructions (R325, R365). -/
def Wave.asSaved (w : Wave) (mine : List MEntry) : Wave :=
  { w with frags := w.frags.map withdrawn, victim := false, drowsy := false, mheld := mine.length, mdone := doneOf mine }

/-- Steps 4 and 5 of a save, in a slot whose places are `ss` (R366): the wave leaves its place. -/
def Dev.saveTo (m : Dev) (w : Wave) (mine : List MEntry) (slotNo : Nat) (ss : List Span) (record : List Byte)
    (scratch : List (Byte × Bool)) : Dev :=
  let x := m.cluster w.clusterNo
  let m := m.setCluster w.clusterNo { x with
    mqueue := x.mqueue.filter fun e => e.wave ≠ w.uid,
    receives := x.receives.map fun (r : Receive) => if r.wave = w.uid then { r with suspended := true } else r }
  let tail := record.length - scratch.length
  let m := m.writeSpans ss (clean (record.take tail) ++ scratch)
  let saved : SavedWave := { wave := w, queue := mine, slotNo, record }
  let m := { m.markSlot w.ctx slotNo true with
    watch := m.watch.filter fun e => e.2.2 ≠ Instr.monitorTrigger w.uid,
    savedWaves := m.savedWaves ++ [saved] }
  (m.freePlace w).kickMatrix w.clusterNo

/-- WAVE_SAVE (R366): a save without a free slot, a record larger than a slot, or a slot that does not translate ends the
context. -/
def Dev.waveSave (m : Dev) (uid : Nat) : Dev :=
  match m.waveOf uid with
  | none => m
  | some w =>
    if !m.saveReady w then m else
    let w := w.closeHeld
    let m := ((m.modWave uid fun _ => w).withdrawWaits w).release w.coreNo 3
    match m.freeSlot w.ctx (m.saveSlots w.ctx) 1 with
    | .error c => m.endContext w.ctx (causeCode c) w
    | .ok none => m.endContext w.ctx 0 w
    | .ok (some i) =>
      let alloc : List Span := if w.scratch = 0 then [] else [{ loc := .arr w.coreNo w.scrbase, len := 1024 * w.scratch }]
      let scratch := m.sourceBytes alloc
      let mine := m.heldMatrix w
      let w := w.asSaved mine
      let record := saveRecord w mine (scratch.map (·.1))
      if record.length > 2 ^ m.saveShift w.ctx then m.endContext w.ctx 0 w else
      match m.engineSpans w.ctx (m.saveVa w.ctx + i * 2 ^ m.saveShift w.ctx) record.length false true with
      | .error c => m.endContext w.ctx (causeCode c) w
      | .ok ss => m.saveTo w mine i ss record scratch

/-- `WAVE_SAVE` (R366). -/
def execWaveSave (wave : Nat) (s : State) : Host.Outcome State Fault Refusal :=
  if s.runs then s.run fun m => m.stash.waveSave wave else .next s

/-! ## WAVE_RESUME (R138, R368) -/

/-- The receives of a resumed wave become active again in posting order, their buffers moved with the wave's
allocation when they lie in it; each first takes the oldest overflow entry that matches (R55), unless its buffer is not
reachable, when nothing is written to it (R501). `old`: the wave as it was saved. -/
def Dev.wakeReceives (m : Dev) (old w : Wave) : Dev :=
  let x := m.cluster w.clusterNo
  let moved (r : Receive) : Receive :=
    if r.core = old.coreNo && old.scrbase ≤ r.off && r.off + 264 ≤ old.scrbase + 1024 * old.scratch then
      { r with core := w.coreNo, off := r.off - old.scrbase + w.scrbase }
    else r
  let m := m.setCluster w.clusterNo { x with receives := x.receives.map fun (r : Receive) =>
    if r.wave = w.uid && r.suspended then moved r else r }
  (List.range x.receives.length).foldl (fun m _ =>
    let x := m.cluster w.clusterNo
    match x.receives.find? fun r => r.wave = w.uid && r.suspended with
    | none => m
    | some r =>
      let live := { r with suspended := false }
      match (if m.bufferReachable live.ctx live.core live.off then takeMessage live x.overflow else none) with
      | some (msg, rest) =>
        (m.setCluster w.clusterNo { x with overflow := rest, receives := x.receives.erase r }).deliver live msg
      | none => m.setCluster w.clusterNo { x with receives := x.receives.map fun y => if y = r then live else y }) m

/-- The monitor is armed again on its word, wherever that lies now (R368). -/
def Dev.rearm (m : Dev) : Dev :=
  match m.wave.monitor with
  | none => m
  | some (p, old) =>
    let (v, m) := m.check p.toNat 8 { windows := scalarWindows, rd := true, align := 8 }
    let loc := match v with
      | .ok (x :: _) => x.loc
      | _ => old
    { m with wave := { m.wave with monitor := some (p, loc) }, watch := m.watch ++ [(loc, 8, Instr.monitorTrigger m.wave.uid)] }

/-- `XLAT` is repeated for every translation register (R233). -/
def Dev.rexlat (m : Dev) : Dev :=
  let r := m.wave.xregs.foldl (fun (a : List XReg × Dev) (x : XReg) =>
    let (y, m) := a.2.xlat x.base
    (a.1 ++ [y], m)) ([], m)
  r.2.onWave fun w => { w with xregs := r.1 }

/-- The record of a saved wave is read, and its slot is free (R368); a record that has changed ends the context (R367). -/
def Dev.restore (m : Dev) (x : SavedWave) : Dev :=
  match m.waveOf x.wave.uid with
  | none => m
  | some w =>
    match m.engineSpans w.ctx (m.saveVa w.ctx + x.slotNo * 2 ^ m.saveShift w.ctx) x.record.length true false with
    | .error c => m.endContext w.ctx (causeCode c) w
    | .ok ss =>
      if m.readSpans ss ≠ x.record then m.endContext w.ctx 0 w else
      let m := m.markSlot w.ctx x.slotNo false
      let n := 1024 * w.scratch
      let m := if n = 0 then m
        else m.writeSpans [{ loc := .arr w.coreNo w.scrbase, len := n }] (m.sourceBytes (Span.drop ss (x.record.length - n)))
      let m := ((m.load w.uid 0).rearm.rexlat).stash
      let m := m.wakeReceives x.wave w
      let c := m.cluster w.clusterNo
      let m := m.setCluster w.clusterNo { c with mqueue := c.mqueue ++ x.queue }
      (m.modWave w.uid fun w => { w with mheld := 0, mdone := 0 }).kickMatrix w.clusterNo

/-- WAVE_RESUME (R138, R368): the unit of a saved wave is placed whole, once every victim of its gang has left its place, if it
fits, and restored. -/
def Dev.waveResume (m : Dev) (uid : Nat) : Dev :=
  match m.savedWaves.find? fun x => x.wave.uid = uid with
  | none => m
  | some x =>
    if !m.unitWhole x then m else
    let xs := m.savedUnit x
    match m.launchOf x.wave.launch with
    | none => m
    | some l =>
      match m.placeSaved l xs with
      | none => m
      | some m =>
        let m := { m with savedWaves := m.savedWaves.filter fun y => !(xs.any fun z => z.wave.uid = y.wave.uid) }
        xs.foldl Dev.restore m

/-- `WAVE_RESUME` (R368). -/
def execWaveResume (wave : Nat) (s : State) : Host.Outcome State Fault Refusal :=
  if s.launches then s.run fun m => m.stash.waveResume wave else .next s

/-! ## Parity errors (R198, R200) -/

/-- A rollback to the region record (R200): one fragment goes on, without the splits and windows opened since. Held
results go with the fragments. -/
def Dev.rollback (m : Dev) : Dev :=
  let w := m.wave
  let r := w.region
  { m with
    wave := { w with
      frags := [], splits := [], stack := w.stack.drop (w.stack.length - r.depth),
      region := { r with rollbacks := r.rollbacks + 1 }, wavectl := w.wavectl ||| 0x20 },
    frag := { fid := m.frag.fid, spc := r.spc, fell := r.fell, lpc := r.lpc, lfell := r.lfell, mask := r.mask, fmt := r.fmt,
              last := m.frag.last, lastCycle := m.frag.lastCycle } }

/-- The window that a rollback makes current is filled when it is spilt (R185): at once, or the fragment waits for blocks; an
area that no longer translates traps with PAGE-FAULT. -/
def Dev.fillCurrent (m : Dev) : Dev :=
  let w := m.wave
  match w.cur.spilt with
  | none => m
  | some off =>
    match m.engineSpans w.ctx (w.spillArea + off) (w.spillBytes w.cur.units) true false with
    | .error _ => m.trapAt .pageFault w.spillArea
    | .ok _ =>
      let n := w.cur.units * w.unitBlocks
      match m.wantBlocks n false with
      | .error m => m.waitFor (.fill n) 19
      | .ok m => m.onWave Wave.fillCur

/-- What the loaded fragment does next. The current window of a wave that is still spilt is filled before a fragment of it
issues; one in the handler of the fill's own trap issues as it is (R185, log 122). -/
def Dev.fetchFilled (m : Dev) : Option Instr × Dev :=
  if m.wave.cur.spilt.isSome && !m.wave.super && m.frag.phase = 0 then (none, m.fillCurrent) else m.fetch

/-- PARITY_ERROR (R200): PARITY-FATAL ends the context, as any error in SUPER mode does (R363, R492), whichever fragment of
the wave is in the handler. -/
def Dev.parityError (m : Dev) (uid fid : Nat) : Dev :=
  let m := m.load uid fid
  if m.frag.fid = 0 then m.stash
  else if m.wave.super || m.wave.handler.isSome || m.wave.wavectl.getLsbD 1 || m.wave.region.rollbacks ≥ 2 then m.stash.endContext m.wave.ctx 0x51 m.wave
  else
    let c := m.core m.wave.coreNo
    let m := (m.setCore m.wave.coreNo { c with queue := c.queue.filter fun q => q.1 ≠ uid }).withdrawEnters uid m.frags
    m.rollback.blocksFreed.fillCurrent.stash

/-- `PARITY_ERROR` (R200). -/
def execParityError (wave frag : Nat) (s : State) : Host.Outcome State Fault Refusal :=
  if s.runs then s.run fun m => m.parityError wave frag else .next s

/-! ## Retirement of units (R32, R33, R37, R372, R373) -/

/-- The waves that end with a wave: its gang, or itself. -/
def Dev.fellows (m : Dev) (w : Wave) : List Wave :=
  match w.gang with
  | none => [w]
  | some g => m.allWaves.filter fun x => x.gang = some g && x.clusterNo = w.clusterNo

/-- The saved waves of the gang of a wave. -/
def Dev.savedFellows (m : Dev) (w : Wave) : List SavedWave :=
  match w.gang with
  | none => []
  | some g => m.savedWaves.filter fun x => x.wave.gang = some g && x.wave.clusterNo = w.clusterNo

/-- A saved wave ends: its save slot is free. -/
def Dev.dropSaved (m : Dev) (x : SavedWave) : Dev :=
  (m.killSaved x).markSlot x.wave.ctx x.slotNo false

/-- Is a unit of waves replayed (R372)? -/
def Dev.replays (m : Dev) (ws : List Wave) : Bool :=
  ws.all fun w => !w.child && !w.everirr && (m.launchOf w.launch).any Launch.replayable

/-- The waves of a unit end, the saved ones first. -/
def Dev.endUnit (m : Dev) (ws : List Wave) (ss : List SavedWave) : Dev :=
  let m := { m with savedWaves := m.savedWaves.filter fun x => !ss.any fun y => y.wave.uid = x.wave.uid }
  ws.foldl (fun m (x : Wave) => m.killWave x.uid) (ss.foldl Dev.dropSaved m)

/-- A wave ends by a recoverable failure, with the resident and the saved members of its gang: they are to be placed afresh,
or RECOVERY-REFUSED is posted for each (R372, R373). -/
def Dev.waveFails (m : Dev) (uid : Nat) : Dev :=
  match m.waveOf uid with
  | none => m
  | some w =>
    let ws := m.fellows w
    let ss := m.savedFellows w
    let all := ws ++ ss.map fun x => x.wave
    if m.replays all then
      let group := all.map fun (x : Wave) => (x.waveid, x.role, x.dieidx)
      let m := m.modLaunch w.launch fun l => { l with replays := l.replays ++ [(w.gang.isSome, group)] }
      (m.endUnit ws ss).pushPlace
    else
      let m := m.modLaunch w.launch fun l => { l with noSignal := true }
      (all.foldl (fun m (x : Wave) => m.postWave x 0x05 (m.identity x) 0) m).endUnit ws ss

/-- Launches with unplaced waves are checked again (R37). -/
def Dev.recheck (m : Dev) : Dev :=
  (m.launches.filter fun l => l.st = .ready && l.placed < l.waves).foldl (fun m (l : Launch) =>
    if m.refuses l then m.refuse l else m) m

/-- The core masks after a retirement (R32): a cluster with fewer than 4 cores is retired whole. -/
def Capability.retire (c : Capability) (cl : Nat) (lost : BitVec 12) : Capability :=
  let left := c.cores.getD cl 0 &&& ~~~lost
  { c with cores := setAt 0 c.cores cl (if popcount 12 left.toNat < 4 then 0 else left), replace := true }

/-- The waves whose core a retirement takes. -/
def Dev.onLost (m : Dev) (c : Capability) : List Wave :=
  m.allWaves.filter fun w => if w.control then c.clcap w.clusterNo = 0 else !(c.cores.getD w.clusterNo 0).getLsbD w.core

/-- RETIRE_UNIT (R33): nothing is placed on the unit any more, its waves end, and the capability registers change. -/
def Dev.retireCores (m : Dev) (cl : Nat) (lost : BitVec 12) : Dev :=
  let c := m.cap.retire cl lost
  let ws := m.onLost c
  (ws.foldl (fun (m : Dev) (w : Wave) => m.waveFails w.uid) { m with cap := c }).recheck

/-- A retirement, its management event, and the fatal error when a die has no cluster left (R32). The spec gives the KIND,
UNIT and ADDR of that error's syndrome nowhere: KIND is open, UNIT is the number of the retired cluster and ADDR is 0
(DESIGN CHOICE, log 14). -/
def State.retire (s : State) (die cl : Nat) (lost : BitVec 12) : State :=
  let s := State.alert { s with dev := s.dev.stash.retireCores (16 * die + cl) lost } 0
  if s.dev.cap.clmask die = 0 then s.fatal die Config.lostDieKind cl 0 else s

/-- `RETIRE_UNIT` (R32, R33). -/
def execRetireUnit (u : UnitRef) (s : State) : Host.Outcome State Fault Refusal :=
  if !s.pwr.on then .next s else
  match u with
  | .core d c n =>
    if d < 8 && c < 16 && n < 12 && (s.dev.cap.cores.getD (16 * d + c) 0).getLsbD n then .next (s.retire d c (1#12 <<< n)) else .next s
  | .cluster d c =>
    if d < 8 && c < 16 && s.dev.cap.clcap (16 * d + c) ≠ 0 then .next (s.retire d c 0xFFF) else .next s

/-- `HBM_CHANNEL_REPAIR` (R32): the spare channel takes the place; with the spare in use it is a fatal error. The spec does
not say what the failure of an unused spare (channel 32) does: it makes the spare count as in use (DESIGN CHOICE,
log 14). -/
def execHbmChannelRepair (stack channel : Nat) (s : State) : Host.Outcome State Fault Refusal :=
  if !s.pwr.on || stack ≥ 16 || channel > 32 then .next s
  else if s.dev.cap.spares.getLsbD stack then .next (s.fatal (8 + stack) 2 channel 0)
  else
    let cap := { s.dev.cap with spares := s.dev.cap.spares ||| (1#16 <<< stack), replace := true }
    .next (State.alert { s with dev := { s.dev with cap } } 0)

/-- The die that a peer request comes from: that of its wave, or of its command's engine. -/
def Dev.requestDie (m : Dev) (r : PeerOut) : Nat :=
  match r.what with
  | .cmd id => ((m.cmds.find? fun c => c.id = id).map fun c => c.cluster / 16).getD 0
  | _ => ((m.waveOf r.wave).map fun w => w.die).getD 0

/-- A port is out of service: its requests that have not left take another (R68), those in flight time out (R74). -/
def Dev.retirePort (m : Dev) (p : Nat) : Dev :=
  let mine := m.peers.filter fun r => r.port = some p
  let m := { m.setPort p {} with peers := m.peers.filter fun r => r.left || r.port ≠ some p }
  let m := (mine.filter fun r => !r.left).foldl (fun m (r : PeerOut) => m.sendRequest (m.requestDie r) r) m
  (mine.filter fun r => r.left).foldl (fun m (r : PeerOut) => m.push (.peerTimeout r.id)) m

/-- `LINK_LANE_RETIRE` (R32): the port runs on 2 lanes; at the second failure it is retired. -/
def execLinkLaneRetire (port : Nat) (s : State) : Host.Outcome State Fault Refusal :=
  if !s.pwr.on || port ≥ 24 || !s.dev.cap.ports.getLsbD port then .next s
  else
    let c := s.dev.cap
    let b : BitVec 24 := 1#24 <<< port
    if c.half.getLsbD port then
      let cap := { c with ports := c.ports &&& ~~~b, half := c.half &&& ~~~b, replace := true }
      .next (State.alert { s with dev := { s.dev with cap }.retirePort port } 0)
    else .next (State.alert { s with dev := { s.dev with cap := { c with half := c.half ||| b, replace := true } } } 0)

end Sys2Proof.Machine
end

