-- ==== Sys2Proof/Machine/Dispatch.lean ====
section
/-!
DEFINITION. Machine/Dispatch.lean: the meaning of every constructor of `Instr`, one direct call each.
-/
namespace Sys2Proof.Machine

/-- What an instruction or an event does. -/
def exec (i : Instr) (s : State) : Host.Outcome State Fault Refusal :=
  match i with
  | .powerOn aonFirst rstHeld boot => Sys2Proof.Machine.execPowerOn aonFirst rstHeld boot s
  | .rstNPulse pulse => Sys2Proof.Machine.execRstNPulse pulse s
  | .pcieFundamentalReset link => Sys2Proof.Machine.execPcieFundamentalReset link s
  | .wipeComplete ms verified => Sys2Proof.Machine.execWipeComplete ms verified s
  | .supplyOutOfBand domain => Sys2Proof.Machine.execSupplyOutOfBand domain s
  | .sensorAt95c die sensor => Sys2Proof.Machine.execSensorAt95c die sensor s
  | .sensorAt110c die sensor => Sys2Proof.Machine.execSensorAt110c die sensor s
  | .powerWindowEnd meanWatts hottest => Sys2Proof.Machine.execPowerWindowEnd meanWatts hottest s
  | .p2Entry => Sys2Proof.Machine.execP2Entry s
  | .p2Exit => Sys2Proof.Machine.execP2Exit s
  | .d3hotEntry => Sys2Proof.Machine.execD3hotEntry s
  | .d3hotExit => Sys2Proof.Machine.execD3hotExit s
  | .mctpControl command => Sys2Proof.Machine.execMctpControl command s
  | .mgmtRead reg => Sys2Proof.Machine.execMgmtRead reg s
  | .mgmtWrite reg value => Sys2Proof.Machine.execMgmtWrite reg value s
  | .hostRegisterWrite offset value => Sys2Proof.Machine.execHostRegisterWrite offset value s
  | .rstctlReset value => Sys2Proof.Machine.execRstctlReset value s
  | .salvctlOpen value => Sys2Proof.Machine.execSalvctlOpen value s
  | .pwrcapWrite value => Sys2Proof.Machine.execPwrcapWrite value s
  | .mgtevtClear value => Sys2Proof.Machine.execMgtevtClear value s
  | .impctlSync value => Sys2Proof.Machine.execImpctlSync value s
  | .lqsyncSync value => Sys2Proof.Machine.execLqsyncSync value s
  | .biasreqGo value => Sys2Proof.Machine.execBiasreqGo value s
  | .biasFlipComplete => Sys2Proof.Machine.execBiasFlipComplete s
  | .debugUnlock r => Sys2Proof.Machine.execDebugUnlock r s
  | .lifecycleChange r => Sys2Proof.Machine.execLifecycleChange r s
  | .lifecycleBurnDone => Sys2Proof.Machine.execLifecycleBurnDone s
  | .getVersion => Sys2Proof.Machine.execGetVersion s
  | .getCapabilities => Sys2Proof.Machine.execGetCapabilities s
  | .negotiateAlgorithms => Sys2Proof.Machine.execNegotiateAlgorithms s
  | .getDigests => Sys2Proof.Machine.execGetDigests s
  | .getCertificate => Sys2Proof.Machine.execGetCertificate s
  | .challenge => Sys2Proof.Machine.execChallenge s
  | .getMeasurements index signed => Sys2Proof.Machine.execGetMeasurements index signed s
  | .spdmUnsupportedRequest code => Sys2Proof.Machine.execSpdmUnsupportedRequest code s
  | .hostCxlAccess a => Sys2Proof.Machine.execHostCxlAccess a s
  | .hostDma a => Sys2Proof.Machine.execHostDma a s
  | .hostAccessBlocked a => Sys2Proof.Machine.execHostAccessBlocked a s
  | .salvageRead addr size => Sys2Proof.Machine.execSalvageRead addr size s
  | .fatalError die kind unit addr => Sys2Proof.Machine.execFatalError die kind unit addr s
  | .retireUnit u => Sys2Proof.Machine.execRetireUnit u s
  | .hbmChannelRepair stack channel => Sys2Proof.Machine.execHbmChannelRepair stack channel s
  | .linkLaneRetire port => Sys2Proof.Machine.execLinkLaneRetire port s
  | .flitReceive port f => Sys2Proof.Machine.execFlitReceive port f s
  | .replayRequest port seqNo => Sys2Proof.Machine.execReplayRequest port seqNo s
  | .portRetrainDone port within2ms => Sys2Proof.Machine.execPortRetrainDone port within2ms s
  | .rolloverCountReached port => Sys2Proof.Machine.execRolloverCountReached port s
  | .rolloverTimerExpired port => Sys2Proof.Machine.execRolloverTimerExpired port s
  | .keyAgreementComplete port outgoing testKey => Sys2Proof.Machine.execKeyAgreementComplete port outgoing testKey s
  | .keyReady port => Sys2Proof.Machine.execKeyReady port s
  | .oldEpochDrained port => Sys2Proof.Machine.execOldEpochDrained port s
  | .keyRetire port => Sys2Proof.Machine.execKeyRetire port s
  | .keyDone port => Sys2Proof.Machine.execKeyDone port s
  | .keyReadyTimeout port => Sys2Proof.Machine.execKeyReadyTimeout port s
  | .keyDoneTimeout port => Sys2Proof.Machine.execKeyDoneTimeout port s
  | .peerRequest r => Sys2Proof.Machine.execPeerRequest r s
  | .peerResponse id code data => Sys2Proof.Machine.execPeerResponse id code data s
  | .peerTimeout id => Sys2Proof.Machine.execPeerTimeout id s
  | .lqService queue => Sys2Proof.Machine.execLqService queue s
  | .counterTrigger launch => Sys2Proof.Machine.execCounterTrigger launch s
  | .placementTurn => Sys2Proof.Machine.execPlacementTurn s
  | .childPlacement die => Sys2Proof.Machine.execChildPlacement die s
  | .waveSave wave => Sys2Proof.Machine.execWaveSave wave s
  | .waveResume wave => Sys2Proof.Machine.execWaveResume wave s
  | .waveRetire wave => Sys2Proof.Machine.execWaveRetire wave s
  | .trackerDrain core entry => Sys2Proof.Machine.execTrackerDrain core entry s
  | .gridEnd launch => Sys2Proof.Machine.execGridEnd launch s
  | .contextEndByHost ctx => Sys2Proof.Machine.execContextEndByHost ctx s
  | .parityError wave frag => Sys2Proof.Machine.execParityError wave frag s
  | .claimDeadlockBreak core => Sys2Proof.Machine.execClaimDeadlockBreak core s
  | .blockGrant core => Sys2Proof.Machine.execBlockGrant core s
  | .drowsyTimeout wave => Sys2Proof.Machine.execDrowsyTimeout wave s
  | .gLineExpiry core line => Sys2Proof.Machine.execGLineExpiry core line s
  | .messageArrival cluster => Sys2Proof.Machine.execMessageArrival cluster s
  | .tunEnter desc mode wave frag => Sys2Proof.Machine.execTunEnter desc mode wave frag s
  | .tunLeave desc wave => Sys2Proof.Machine.execTunLeave desc wave s
  | .tunKill desc => Sys2Proof.Machine.execTunKill desc s
  | .tunWithdraw desc wave => Sys2Proof.Machine.execTunWithdraw desc wave s
  | .tunClear desc wave frag => Sys2Proof.Machine.execTunClear desc wave frag s
  | .monitorTrigger wave => Sys2Proof.Machine.execMonitorTrigger wave s
  | .mwaitTimeout wave frag => Sys2Proof.Machine.execMwaitTimeout wave frag s
  | .barrierPhaseComplete b => Sys2Proof.Machine.execBarrierPhaseComplete b s
  | .copyComplete id => Sys2Proof.Machine.execCopyComplete id s
  | .gatherComplete cluster => Sys2Proof.Machine.execGatherComplete cluster s
  | .peerTransferComplete id => Sys2Proof.Machine.execPeerTransferComplete id s
  | .cfetchComplete core segment => Sys2Proof.Machine.execCfetchComplete core segment s
  | .mmaStep cluster => Sys2Proof.Machine.execMmaStep cluster s
  | .matrixExecute cluster => Sys2Proof.Machine.execMatrixExecute cluster s
  | .debugHaltRequest wave => Sys2Proof.Machine.execDebugHaltRequest wave s
  | .debugRegisterRead wave reg tangent lane => Sys2Proof.Machine.execDebugRegisterRead wave reg tangent lane s
  | .powerRemoval aonLast => Sys2Proof.Machine.execPowerRemoval aonLast s
  | .uncorrectableDataError p => Sys2Proof.Machine.execUncorrectableDataError p s
  | .debugResume wave => Sys2Proof.Machine.execDebugResume wave s
  | .debugMemoryAccess ctx a => Sys2Proof.Machine.execDebugMemoryAccess ctx a s
  | .memoryAccessPerformed die line => Sys2Proof.Machine.execMemoryAccessPerformed die line s
  | .trapz x => Sys2Proof.Machine.execTrapz x s
  | .salu d a b w op => Sys2Proof.Machine.execSalu d a b w op s
  | .addi d a imm => Sys2Proof.Machine.execAddi d a imm s
  | .andi d a imm => Sys2Proof.Machine.execAndi d a imm s
  | .ori d a imm => Sys2Proof.Machine.execOri d a imm s
  | .xori d a imm => Sys2Proof.Machine.execXori d a imm s
  | .shli d a sh => Sys2Proof.Machine.execShli d a sh s
  | .shri d a sh => Sys2Proof.Machine.execShri d a sh s
  | .sari d a sh => Sys2Proof.Machine.execSari d a sh s
  | .movh d imm => Sys2Proof.Machine.execMovh d imm s
  | .cmp c a b cond => Sys2Proof.Machine.execCmp c a b cond s
  | .cmpi cond c a imm => Sys2Proof.Machine.execCmpi cond c a imm s
  | .sel d a b c => Sys2Proof.Machine.execSel d a b c s
  | .sld d a sz off => Sys2Proof.Machine.execSld d a sz off s
  | .sst d a sz off => Sys2Proof.Machine.execSst d a sz off s
  | .samo d a b ar scope op => Sys2Proof.Machine.execSamo d a b ar scope op s
  | .br off => Sys2Proof.Machine.execBr off s
  | .bc c n off => Sys2Proof.Machine.execBc c n off s
  | .call ws off => Sys2Proof.Machine.execCall ws off s
  | .callr a ws => Sys2Proof.Machine.execCallr a ws s
  | .ret a => Sys2Proof.Machine.execRet a s
  | .jr a => Sys2Proof.Machine.execJr a s
  | .jseg seg blk => Sys2Proof.Machine.execJseg seg blk s
  | .jsegReg a => Sys2Proof.Machine.execJsegReg a s
  | .cfetch seg ln a => Sys2Proof.Machine.execCfetch seg ln a s
  | .lpc seg blk => Sys2Proof.Machine.execLpc seg blk s
  | .lpcReg a => Sys2Proof.Machine.execLpcReg a s
  | .lissue n => Sys2Proof.Machine.execLissue n s
  | .dual k n => Sys2Proof.Machine.execDual k n s
  | .fmt sel a imm => Sys2Proof.Machine.execFmt sel a imm s
  | .xlat x a => Sys2Proof.Machine.execXlat x a s
  | .split k n t r => Sys2Proof.Machine.execSplit k n t r s
  | .gjoin d a => Sys2Proof.Machine.execGjoin d a s
  | .rolesw r => Sys2Proof.Machine.execRolesw r s
  | .claim d a => Sys2Proof.Machine.execClaim d a s
  | .yield d a => Sys2Proof.Machine.execYield d a s
  | .spawn a => Sys2Proof.Machine.execSpawn a s
  | .exitK k => Sys2Proof.Machine.execExitK k s
  | .bar t => Sys2Proof.Machine.execBar t s
  | .renter a mode => Sys2Proof.Machine.execRenter a mode s
  | .rleave a => Sys2Proof.Machine.execRleave a s
  | .rclr a => Sys2Proof.Machine.execRclr a s
  | .cpy a => Sys2Proof.Machine.execCpy a s
  | .cbatch d => Sys2Proof.Machine.execCbatch d s
  | .cwait a => Sys2Proof.Machine.execCwait a s
  | .mon a => Sys2Proof.Machine.execMon a s
  | .mwait a b cond => Sys2Proof.Machine.execMwait a b cond s
  | .fence scope kind => Sys2Proof.Machine.execFence scope kind s
  | .fenceX scope kind cla clb => Sys2Proof.Machine.execFenceX scope kind cla clb s
  | .gath a => Sys2Proof.Machine.execGath a s
  | .scadd a => Sys2Proof.Machine.execScadd a s
  | .peerPut a => Sys2Proof.Machine.execPeerPut a s
  | .peerGet a => Sys2Proof.Machine.execPeerGet a s
  | .msend a b => Sys2Proof.Machine.execMsend a b s
  | .mrecv a b => Sys2Proof.Machine.execMrecv a b s
  | .qput a b => Sys2Proof.Machine.execQput a b s
  | .qtake d a => Sys2Proof.Machine.execQtake d a s
  | .qinit d a => Sys2Proof.Machine.execQinit d a s
  | .mma mop a b acc bs as => Sys2Proof.Machine.execMma mop a b acc bs as s
  | .mld plate a b opnd => Sys2Proof.Machine.execMld plate a b opnd s
  | .mdrain a b acc rz => Sys2Proof.Machine.execMdrain a b acc rz s
  | .mzero acc => Sys2Proof.Machine.execMzero acc s
  | .msave acc => Sys2Proof.Machine.execMsave acc s
  | .mrest acc => Sys2Proof.Machine.execMrest acc s
  | .mcfg a => Sys2Proof.Machine.execMcfg a s
  | .trap imm => Sys2Proof.Machine.execTrap imm s
  | .mfsr d reg => Sys2Proof.Machine.execMfsr d reg s
  | .mtsr d reg => Sys2Proof.Machine.execMtsr d reg s
  | .tlbinv a => Sys2Proof.Machine.execTlbinv a s
  | .spec d sel => Sys2Proof.Machine.execSpec d sel s
  | .iadd f => Sys2Proof.Machine.execIadd f s
  | .isub f => Sys2Proof.Machine.execIsub f s
  | .imul f => Sys2Proof.Machine.execImul f s
  | .imulh f => Sys2Proof.Machine.execImulh f s
  | .imad f => Sys2Proof.Machine.execImad f s
  | .iabs f => Sys2Proof.Machine.execIabs f s
  | .ineg f => Sys2Proof.Machine.execIneg f s
  | .imin f => Sys2Proof.Machine.execImin f s
  | .imax f => Sys2Proof.Machine.execImax f s
  | .and f => Sys2Proof.Machine.execAnd f s
  | .or f => Sys2Proof.Machine.execOr f s
  | .xor f => Sys2Proof.Machine.execXor f s
  | .not f => Sys2Proof.Machine.execNot f s
  | .shl f => Sys2Proof.Machine.execShl f s
  | .shr f => Sys2Proof.Machine.execShr f s
  | .sar f => Sys2Proof.Machine.execSar f s
  | .rot f => Sys2Proof.Machine.execRot f s
  | .bfx f => Sys2Proof.Machine.execBfx f s
  | .bfi f => Sys2Proof.Machine.execBfi f s
  | .popc f => Sys2Proof.Machine.execPopc f s
  | .clz f => Sys2Proof.Machine.execClz f s
  | .brev f => Sys2Proof.Machine.execBrev f s
  | .icmp f => Sys2Proof.Machine.execIcmp f s
  | .isel f => Sys2Proof.Machine.execIsel f s
  | .fadd f => Sys2Proof.Machine.execFadd f s
  | .fsub f => Sys2Proof.Machine.execFsub f s
  | .fmul f => Sys2Proof.Machine.execFmul f s
  | .ffma f => Sys2Proof.Machine.execFfma f s
  | .fmin f => Sys2Proof.Machine.execFmin f s
  | .fmax f => Sys2Proof.Machine.execFmax f s
  | .fmaxm f => Sys2Proof.Machine.execFmaxm f s
  | .fabs f => Sys2Proof.Machine.execFabs f s
  | .fneg f => Sys2Proof.Machine.execFneg f s
  | .fcmp f => Sys2Proof.Machine.execFcmp f s
  | .frcp f => Sys2Proof.Machine.execFrcp f s
  | .frsq f => Sys2Proof.Machine.execFrsq f s
  | .fsqrt f => Sys2Proof.Machine.execFsqrt f s
  | .fdiv f => Sys2Proof.Machine.execFdiv f s
  | .fexp2 f => Sys2Proof.Machine.execFexp2 f s
  | .flog2 f => Sys2Proof.Machine.execFlog2 f s
  | .fsin f => Sys2Proof.Machine.execFsin f s
  | .fcos f => Sys2Proof.Machine.execFcos f s
  | .fclass f => Sys2Proof.Machine.execFclass f s
  | .cvt f => Sys2Proof.Machine.execCvt f s
  | .pack f => Sys2Proof.Machine.execPack f s
  | .unpack f => Sys2Proof.Machine.execUnpack f s
  | .lmul f => Sys2Proof.Machine.execLmul f s
  | .lsum f => Sys2Proof.Machine.execLsum f s
  | .mov f => Sys2Proof.Machine.execMov f s
  | .movi f => Sys2Proof.Machine.execMovi f s
  | .laneSel f => Sys2Proof.Machine.execLaneSel f s
  | .shfl f => Sys2Proof.Machine.execShfl f s
  | .bcast f => Sys2Proof.Machine.execBcast f s
  | .vote f => Sys2Proof.Machine.execVote f s
  | .reduce f => Sys2Proof.Machine.execReduce f s
  | .reduceV f => Sys2Proof.Machine.execReduceV f s
  | .scan f => Sys2Proof.Machine.execScan f s
  | .laneSpec f => Sys2Proof.Machine.execLaneSpec f s
  | .slc f => Sys2Proof.Machine.execSlc f s
  | .ld f => Sys2Proof.Machine.execLd f s
  | .st f => Sys2Proof.Machine.execSt f s
  | .atom f => Sys2Proof.Machine.execAtom f s
  | .pref f => Sys2Proof.Machine.execPref f s
  | .plw f => Sys2Proof.Machine.execPlw f s
  | .rpush f => Sys2Proof.Machine.execRpush f s
  | .rpop f => Sys2Proof.Machine.execRpop f s
  | .kand f => Sys2Proof.Machine.execKand f s
  | .kor f => Sys2Proof.Machine.execKor f s
  | .kxor f => Sys2Proof.Machine.execKxor f s
  | .knot f => Sys2Proof.Machine.execKnot f s
  | .kmov f => Sys2Proof.Machine.execKmov f s
  | .kget f => Sys2Proof.Machine.execKget f s
  | .fuse => Sys2Proof.Machine.execFuse s
  | .gleave => Sys2Proof.Machine.execGleave s
  | .barG => Sys2Proof.Machine.execBarG s
  | .tail => Sys2Proof.Machine.execTail s
  | .exit => Sys2Proof.Machine.execExit s
  | .region => Sys2Proof.Machine.execRegion s
  | .mwaitm => Sys2Proof.Machine.execMwaitm s
  | .brk => Sys2Proof.Machine.execBrk s
  | .rte => Sys2Proof.Machine.execRte s
  | .l1flush => Sys2Proof.Machine.execL1flush s
  | .halt => Sys2Proof.Machine.execHalt s
  | .nop => Sys2Proof.Machine.execNop s

end Sys2Proof.Machine
end

