-- ==== Sys2Proof/Machine/Step.lean ====
section
/-!
DEFINITION. Machine/Step.lean: one step of the package: an event, or one instruction of one fragment
(07 R177; 95_what_each_step_holds); and the placement of one instruction for the very next step.
-/
namespace Sys2Proof.Machine

/-- Do cores issue: the package runs, in P0 or P1 (R108, R112)? -/
def State.live (s : State) : Bool := s.pkg.stat = .running && (s.pwr.state = .p0 || s.pwr.state = .p1)

/-- Is the package in P2 (R108)? -/
def State.asleep (s : State) : Bool := s.pkg.stat = .running && s.pwr.state = .p2

/-- One step: whose turn it is, then what it does: an event; the accesses that the fragment's last instruction has left; or an
instruction. A turn that names no event changes nothing else. -/
def step (s : State) : Host.Outcome State Fault Refusal :=
  match s.dev.turn s.live s.asleep with
  | .idle m => .next (s.withDev m)
  | .event i m => if isEvent i then exec i (s.withDev m) else .next (s.withDev m)
  | .wave m =>
    if m.frag.todo ≠ [] then .next (s.withDev m.goOn) else
    match m.fetchFilled with
    | (some i, m) => exec i (s.withDev m)
    | (none, m) => .next (s.withDev m)

/-- Code bytes of a segment from a block on. -/
def codeAt (blk : Nat) (bs : List Byte) : Cells 8 := Cells.putBytes [] (64 * blk) bs

/-- The machine with one instruction where the next step fetches: a wave of launch 1 whose next instruction it is
(log 20). A scalar word stands at block 0 of scalar segment 0, on core 0, or on the control core when its OP is
that of a matrix instruction; a lane instruction stands in slot 0 of block 0 of lane segment 1, at the lane PC
of a fragment whose LISSUE has one instruction left. -/
def State.withFetchWord (s : State) (nbits w : Nat) : State :=
  let scalar := decide (nbits ≤ 32)
  let core := if scalar && 0x30 ≤ w / 2 ^ 26 % 64 && w / 2 ^ 26 % 64 ≤ 0x37 then 12 else 0
  let word := if scalar then w else 0x64400000
  let s0 : Seg := { st := .landed, lane := false, owner := .launch 1, code := codeAt 0 (leBytes 4 word) }
  let s1 : Seg := { st := .landed, lane := true, owner := .launch 1,
                    code := codeAt 0 (leBytes 4 0x12000000 ++ leBytes 12 w) }
  let frag : Frag := { fid := 1, mask := Mask.first 32, lpc := 2 ^ 14, lrem := if scalar then 0 else 1 }
  let wave : Wave := { uid := 1, launch := 1, core, wlanes := 32, frags := [frag] }
  let launch : Launch := { num := 1, st := .running }
  { s with
    pwr := { s.pwr with state := .p0 }
    pkg := { s.pkg with stat := .running }
    dev := { s.dev with
      launches := [launch], nextLaunch := 2, waves := [wave], wave := {}, frag := {}, nextUid := 2,
      agenda := [], turns := [], host := { s.dev.host with biasreq := 0 },
      cores := s.dev.cores.set core { s.dev.core core with segs := s0 :: s1 :: List.replicate 10 {} } } }

end Sys2Proof.Machine
end

