-- ==== Sys2Proof/Safety.lean ====
section
/-!
DEFINITION. Safety.lean: the terms in which claims about the machine are made: what an instruction leaves alone,
what it writes, what trap entry leaves, and the states in which an instruction has its own effect. They speak of
registers, bytes and fields through the machine's accessors, not of how a meaning computes them.
-/
namespace Sys2Proof.Machine

/-! ## Outcomes -/

/-- The instruction answers a next state that differs from `s` in the device part alone, and `P` holds of that part. -/
def Runs (i : Instr) (s : State) (P : Dev → Prop) : Prop := ∃ m', exec i s = .next (s.withDev m') ∧ P m'

/-! ## Frames -/

/-- Every place holds the byte, and the poison, that it held. -/
def SameMemory (m m' : Dev) : Prop := (∀ l, m'.byteAt l = m.byteAt l) ∧ ∀ l, m'.poisonAt l = m.poisonAt l

/-- Nothing but the loaded wave and its loaded fragment differs; memory is as it was. -/
def Kept (m m' : Dev) : Prop := m' = { m with wave := m'.wave, frag := m'.frag } ∧ SameMemory m m'

/-- The instruction is over: the fragment goes on at the next word, and nothing else of it changes. -/
def NextWord (m m' : Dev) : Prop := m'.frag = nextWord m.frag

/-- The fragment goes on at the byte offset `t` of code memory, and nothing else changes. -/
def Jumped (m m' : Dev) (t : Nat) : Prop :=
  Kept m m' ∧ m'.wave = m.wave ∧ m'.frag = { m.frag with spc := t, fell := false, phase := 0, wait := .none }

/-- The fragment goes on at the next word, and nothing else changes. -/
def Passed (m m' : Dev) : Prop := Kept m m' ∧ m'.wave = m.wave ∧ NextWord m m'

/-- Of the wave only scalar registers differ: `d` holds `v` (nothing is written for `s0`), the others what they held. -/
def ScalarIs (m m' : Dev) (d : BitVec 6) (v : DWord) : Prop :=
  m'.wave = { m.wave with sregs := m'.wave.sregs } ∧ ∀ r, m'.s r = if r = d ∧ r ≠ 0 then v else m.s r

/-- Scalar register `d` takes `v`, the fragment goes on at the next word, and nothing else changes. -/
def WroteS (m m' : Dev) (d : BitVec 6) (v : DWord) : Prop := Kept m m' ∧ NextWord m m' ∧ ScalarIs m m' d v

/-- Of the wave only conditions differ: `c` is `b` (nothing is written for `c0`), the others are what they were. -/
def CondIs (m m' : Dev) (c : BitVec 3) (b : Bool) : Prop :=
  m'.wave = { m.wave with cregs := m'.wave.cregs } ∧ ∀ x, m'.c x = if x = c ∧ x ≠ 0 then b else m.c x

/-- Condition `c` takes `b`, the fragment goes on at the next word, and nothing else changes. -/
def WroteC (m m' : Dev) (c : BitVec 3) (b : Bool) : Prop := Kept m m' ∧ NextWord m m' ∧ CondIs m m' c b

/-- Of the loaded wave the scalar file holds `v` in `d`, bit `b` in `c1`, and what they held otherwise. -/
def AnswerIs (m m' : Dev) (d : BitVec 6) (v : DWord) (b : Bool) : Prop :=
  (∀ r, m'.s r = if r = d ∧ r ≠ 0 then v else m.s r) ∧ ∀ x, m'.c x = if x = 1 then b else m.c x

/-! ## Traps (R360, R361) -/

/-- The registers that a trap leaves: cause code, scalar and lane PC and the count of lane instructions left, `STVAL`, `KF`
and the failing address of each lane. `lane`: the trap is that of a lane instruction. -/
def TrapRegsAre (b m' : Dev) (c : Cause) (stval : Nat) (kf : Mask) (lf : Nat → DWord) : Prop :=
  let lane := decide (b.frag.lrem > 0)
  let t := m'.wave.trap
  t.scause = BitVec.ofNat 64 (causeCode c) ∧ t.sepc = BitVec.ofNat 64 b.frag.spc ∧
  t.lepc = (if lane then BitVec.ofNat 64 b.frag.lpc else 0) ∧ t.lrem = (if lane then BitVec.ofNat 64 b.frag.lrem else 0) ∧
  t.stval = BitVec.ofNat 64 stval ∧ t.kf = kf ∧
  ∀ l, t.lfaddr.get l = if Mask.has kf l then lf l else 0

/-- The handler's copies of `s48`-`s63` (R361); `s0`-`s47` are shared. -/
def HandlerScalars (b m' : Dev) : Prop :=
  let c := b.wave.ctx
  (∀ r : BitVec 6, r.toNat < 48 → m'.s r = b.s r) ∧
  m'.s 48 = BitVec.ofNat 64 (fld (b.ctxDword c 0x60) 48 0) ∧ m'.s 49 = BitVec.ofNat 64 (fld (b.ctxDword c 0x28) 48 0) ∧
  m'.s 50 = BitVec.ofNat 64 (fld (b.ctxDword c 0x18) 48 0) ∧ m'.s 51 = BitVec.ofNat 64 (c % 64) ∧
  ∀ r : BitVec 6, 52 ≤ r.toNat → m'.s r = 0

/-- The trap with cause `c` was taken by the loaded fragment of `b`, whose lookahead windows are closed: the registers
of R360 are written, the wave is in SUPER mode and was in USER mode, the fragment stands at the handler's entry
with `KF` as its mask and no `DUAL` prefix, and the scalars that the handler has of its own stand ready. Memory,
every other wave and everything else of the device are as they were. -/
def TrapTaken (b m' : Dev) (c : Cause) (stval : Nat) (kf : Mask) (lf : Nat → DWord) : Prop :=
  let entry := b.ctxDword b.wave.ctx 0x08
  Kept b m' ∧ TrapRegsAre b m' c stval kf lf ∧ HandlerScalars b m' ∧
  m'.wave.super = true ∧ m'.wave.psuper = false ∧ m'.wave.handler = some b.frag.fid ∧ m'.wave.saved = b.frag.mask ∧
  m'.frag = { b.frag with mask := kf, spc := fld entry 63 60 * 2 ^ 14 + fld entry 59 52 * 2 ^ 6, fell := false,
                          lrem := 0, dualK := 0, dualRem := 0, phase := 0, wait := .none, instr := none,
                          reissue := none, resumed := false, lepcBad := false, taken := 0,
                          range := [], inHandler := true } ∧
  m'.wave.cregs = b.wave.cregs ∧ m'.wave.kregs = b.wave.kregs ∧ m'.wave.xregs = b.wave.xregs ∧
  m'.wave.wavectl = b.wave.wavectl ∧ m'.wave.frags = b.wave.frags ∧ m'.wave.splits = b.wave.splits ∧
  m'.wave.rooms = b.wave.rooms

/-- A trap of the scalar word that the loaded fragment issues: `KF` is its active mask (R360). -/
def ScalarTrap (m m' : Dev) (c : Cause) (stval : Nat) (lf : Nat → DWord) : Prop :=
  TrapTaken m.closeWindows m' c stval m.frag.mask lf

/-- A trap of the wave with cause `c` is delivered (R363), and no fragment of the wave is in the handler (log 16). -/
def Delivers (m : Dev) (c : Cause) : Prop := m.delivered c = true ∧ m.wave.handler = none

/-- The fragment issues a scalar word outside a handler's reissue (R214, R235), in a wave whose trap with cause `c` is
delivered. -/
def ScalarTraps (m : Dev) (c : Cause) : Prop := Delivers m c ∧ m.frag.lrem = 0 ∧ m.frag.reissue = none

/-! ## Code (R205, R211) -/

/-- The code pointer `t` names a block of LANDED code of the required kind that belongs to the launch, or in SUPER mode to
the handler (R211). -/
def CodeAt (m : Dev) (t : Nat) (lane : Bool) : Prop :=
  t % 64 = 0 ∧ t < 2 ^ 18 ∧ t / 2 ^ 14 ≤ 11 ∧
  ∃ g, (m.core m.wave.coreNo).segs[t / 2 ^ 14]? = some g ∧ g.st = .landed ∧ g.lane = lane ∧
    g.owner = (if m.wave.super = true then Owner.handler m.wave.ctx else Owner.launch m.wave.launch)

/-- Block number `t` of code memory lies in the segment of the word that issues (R211). -/
def InSegment (m : Dev) (t : Int) : Prop := 0 ≤ t ∧ t.toNat / 256 = m.frag.spc / 64 / 256

/-- The block `off` blocks after the one that holds the word that issues. -/
def blockAfter (m : Dev) (off : BitVec 22) : Int := (m.frag.spc / 64 : Nat) + off.toInt

/-! ## Register blocks (R184, R189) -/

/-- A request of `n` blocks is granted at once: so many have been granted, or no request is before it and the blocks are
free. -/
def BlocksReady (m : Dev) (n : Nat) : Prop :=
  m.frag.phase ≠ 21 ∧
  (n ≤ grantedTo m.frag ∨
    ((m.core m.wave.coreNo).queue = [] ∧ n ≤ m.freeBlocks m.wave.coreNo))

/-- Nothing but the loaded wave and fragment, and the list of events due, differs; memory is as it was. -/
def KeptButEvents (m m' : Dev) : Prop :=
  m' = { m with wave := m'.wave, frag := m'.frag, agenda := m'.agenda } ∧ SameMemory m m'

/-! ## Memory -/

/-- A memory access may also change which lines the L1s, the die merge buffers and the host hold, take a choice and make events
due; bytes are said apart. -/
def AccessOnly (m m' : Dev) : Prop :=
  m' = { m with wave := m'.wave, frag := m'.frag, mem := m'.mem, hostmem := m'.hostmem, hostHeld := m'.hostHeld,
                cores := m'.cores, dies := m'.dies, choices := m'.choices, agenda := m'.agenda } ∧
  (∀ k, m'.core k = { m.core k with l1 := (m'.core k).l1, arr := (m'.core k).arr }) ∧
  ∀ d, m'.die d = { m.die d with merge := (m'.die d).merge, atomics := (m'.die d).atomics }

/-- The bytes `bs` stand from the place `l` on, and every other place holds the byte that it held. -/
def StoredAt (m m' : Dev) (l : Loc) (bs : List Byte) : Prop :=
  (∀ i b, bs[i]? = some b → m'.byteAt (l.add i) = b) ∧
  ∀ x, (∀ i, i < bs.length → x ≠ l.add i) → m'.byteAt x = m.byteAt x

/-- The place is a home of device memory, whose bytes exist (R24, R49), or another place. -/
def Exists (l : Loc) (n : Nat) : Prop := ∀ pa, l = .dev pa → pa + n ≤ devBytes

/-- Core `k` and its die hold no pending bytes of the line of a place: no P line of the core, and on its miss path no P line
that the cluster probe finds and none in the die merge buffer (R242, R245, R247). An array and host memory have none. -/
def NoPending (m : Dev) (k : Nat) (l : Loc) : Prop :=
  ∀ pa, l = .dev pa →
    (∀ x, m.line k (pa / 128) = some x → x.st ≠ .p) ∧ m.missLayers k (pa / 128) false = []

/-- No word of `n` bytes at a place is poisoned: in memory, in the array, or in the tracked copy of core `k` (R524). -/
def Clean (m : Dev) (k : Nat) (l : Loc) (n : Nat) : Prop :=
  (∀ i, i < n → m.poisonAt (l.add i) = false) ∧
  ∀ pa x i, l = .dev pa → m.line k (pa / 128) = some x → i < n → x.poison.getLsbD ((pa % 128 + i) / 4) = false

/-- A checked access that goes to memory at a place (R225, R284). -/
def MemoryAt (a : Access) (l : Loc) : Prop := a.use = .memory ∧ a.loc = some l

/-! ## Clusters, waves and events -/

/-- Nothing but the loaded wave and fragment, cluster `c` and the list of events due differs. -/
def ClusterOnly (m m' : Dev) (c : Nat) : Prop :=
  m' = { m with wave := m'.wave, frag := m'.frag, clusters := m'.clusters, agenda := m'.agenda } ∧ SameMemory m m' ∧
  ∀ k, k ≠ c → m'.cluster k = m.cluster k

/-- The core holds no G line, and nothing else of any core differs (R249). -/
def DroppedG (m m' : Dev) (k : Nat) : Prop :=
  ∀ j, m'.core j = if j = k then { m.core j with l1 := (m.core j).l1.filter fun x => decide (x.st ≠ .g) } else m.core j

/-- Only the loaded wave and fragment, and what an acquire drops (R264), differ. -/
def AcquiredOnly (m m' : Dev) : Prop :=
  m' = { m with wave := m'.wave, frag := m'.frag, cores := m'.cores } ∧ SameMemory m m' ∧ DroppedG m m' m.wave.coreNo

/-- A fragment that waits until an event ends the wait, in a phase of its instruction. -/
def waiting (f : Frag) (phase : Nat) : Frag := { f with wait := .event, phase }

/-- The event is due. -/
def Due (m : Dev) (i : Instr) : Prop := i ∈ m.agenda

/-- `b` is the machine `m` once blocks that had been granted to the loaded fragment, if any, are free: the next request for
blocks of the core is looked at again, and nothing but events that are due differs (R189). -/
def GrantEnds (m b : Dev) : Prop :=
  b = { m with agenda := b.agenda } ∧ (grantedTo m.frag = 0 → b = m) ∧
  (grantedTo m.frag ≠ 0 → (m.core m.wave.coreNo).queue ≠ [] → Due b (.blockGrant m.wave.coreNo))

/-- No wave with the number is resident. -/
def Gone (m : Dev) (uid : Nat) : Prop := ∀ w ∈ m.allWaves, w.uid ≠ uid

/-- Some gang record of a cluster has the number. -/
def gangAt (m : Dev) (c g : Nat) : Option Gang := ((m.cluster c).gangs.find? fun e => e.1 = g).map fun e => e.2

/-- The address in every lane of a wave. -/
def inLanes (n a : Nat) (l : Nat) : DWord := if l < n then BitVec.ofNat 64 a else 0

/-! ## Lane instructions (R153, R182, R192-R195, R433) -/

/-- The registers that a lane instruction reads. -/
def laneSources (opc : Nat) (f : LaneF) : List Nat := srcA opc f ++ srcB opc f ++ srcC opc f

/-- A lane instruction has its own effect: the wave has lanes and at most three tangents, some lane is effective, no
lookahead window is open, every register named is in the window and waits for no peer, and every source is live and
without a poison mark. -/
def LaneReady (m : Dev) (opc : Nat) (f : LaneF) : Prop :=
  m.wave.core ≠ 12 ∧ m.wave.tang ≤ 3 ∧ m.effOf f.kp.toNat f.kn.toNat ≠ 0 ∧ m.frag.held = [] ∧
  (∀ r ∈ laneSources opc f ++ destV opc f, m.wave.inWindow r = true ∧ m.peerPending r = false) ∧
  ∀ r ∈ laneSources opc f, m.wave.isDead r = false ∧ m.wave.marksOf r (BitVec.allOnes 1024) = []

/-- The lanes in which it works (R153). -/
def lanesOf (m : Dev) (f : LaneF) : Mask := m.effOf f.kp.toNat f.kn.toNat

/-- The registers whose last-read bits are set (R194). -/
def endedReads (opc : Nat) (f : LaneF) : List Nat :=
  (if f.lr.getLsbD 2 = true then srcA opc f else []) ++ (if f.lr.getLsbD 1 = true then srcB opc f else []) ++
  (if f.lr.getLsbD 0 = true then srcC opc f else [])

/-- The fragment after a lane instruction that leaves the windows `hs` open: the next lane instruction of its `LISSUE` is
due, or after the last one the next word (R214, R215); the `DUAL` prefix counts one down (R350). -/
def afterLane (m : Dev) (hs : List Held) : Frag :=
  (Dev.laneDone { m with frag := { m.frag with held := hs, dualRem := m.frag.dualRem - (if m.frag.dualRem = 0 then 0 else 1) } }).frag

/-- Word `hi` of tangent `t` (0: the value) of lane `l` of a result. -/
def resultWord (val : Nat → Nat → Nat) (hi t l : Nat) : Word := BitVec.ofNat 32 (val t l >>> (32 * hi))

/-- The number of the next lookahead window, after one has opened if LA is not 0. -/
def nextWindow (m : Dev) (f : LaneF) : Nat := m.wave.nextHold + if f.la = 0 then 0 else 1

/-- Of the wave only lane registers differ, and of its windows only the globals and the current one. -/
def WindowOnly (m m' : Dev) (f : LaneF) : Prop :=
  m'.wave = { m.wave with globals := m'.wave.globals, base := m'.wave.base, stack := m'.wave.stack,
                          nextHold := nextWindow m f } ∧
  m'.wave.stack.tail = m.wave.stack.tail ∧ m'.wave.stack.length = m.wave.stack.length ∧
  (m.wave.stack ≠ [] → m'.wave.base = m.wave.base) ∧ m'.wave.cur.units = m.wave.cur.units

/-- The lane registers after an instruction whose result is `val` in the lanes `k`: at once (LA = 0), nowhere while its
window is open. `late`: lanes whose result is still to come from a peer; `keep`: the shadows of the destination stay (R357). The last-read sources read zero and are dead, but for
the destination, which is live, and keeps its words in the lanes of the result while its window is open (R192, R194). Every other
word is what it was. -/
def RegistersAre (m m' : Dev) (opc : Nat) (f : LaneF) (k : Mask) (val : Nat → Nat → Nat) (late : Mask := 0)
    (keep : Bool := false) : Prop :=
  let now (r : Nat) : Prop := f.la = 0 ∧ r ∈ destV opc f ∧ k ≠ 0
  let written (r : Nat) : Prop := r ∈ destV opc f ∧ k ||| late ≠ 0
  (∀ r t l, r < 128 → t ≤ m.wave.tang → l < 1024 →
    (now r → Mask.has k l = true → m'.wave.vget r t l = resultWord val (r - f.vd.toNat) t l) ∧
    (¬ (now r ∧ Mask.has k l = true) →
      m'.wave.vget r t l =
        if r ∈ endedReads opc f ∧ ¬ ((f.la ≠ 0 ∨ keep = true) ∧ written r ∧ Mask.has (k ||| late) l = true) then 0 else m.wave.vget r t l)) ∧
  ∀ r, r < 128 → (now r → m'.wave.isDead r = false) ∧ (r ∈ endedReads opc f → written r → m'.wave.isDead r = false) ∧
    (¬ now r → ¬ (r ∈ endedReads opc f ∧ written r) →
      m'.wave.isDead r = (decide (r ∈ endedReads opc f) || m.wave.isDead r))

/-- The lookahead windows that the instruction opens (R192): one for each register of its destination; one that keeps the
shadows holds none. -/
def WindowsAre (m : Dev) (opc : Nat) (f : LaneF) (k : Mask) (val : Nat → Nat → Nat) (hs : List Held) (keep : Bool := false) :
    Prop :=
  (f.la = 0 → hs = []) ∧
  (f.la ≠ 0 → hs.length = (destV opc f).length ∧ ∀ i h, hs[i]? = some h →
    h = { left := f.la.toNat, reg := m.wave.peerReg (f.vd.toNat + i), hold := m.wave.nextHold, keep, lanes := k,
          vals := h.vals } ∧
    ∀ t l, t ≤ (if keep then 0 else m.wave.tang) → Mask.has k l = true → h.vals.get (4 * l + t) = resultWord val i t l)

/-- A lane instruction with a register destination leaves the result `val` (tangent, lane) in the lanes `k`, and changes
nothing else. -/
def LaneWritesIn (m m' : Dev) (opc : Nat) (f : LaneF) (k : Mask) (val : Nat → Nat → Nat) (late : Mask := 0)
    (keep : Bool := false) : Prop :=
  Kept m m' ∧ WindowOnly m m' f ∧ RegistersAre m m' opc f k val late keep ∧
  ∃ hs, WindowsAre m opc f k val hs keep ∧ m'.frag = afterLane m hs

/-- The same in every effective lane. -/
def LaneWrites (m m' : Dev) (opc : Nat) (f : LaneF) (val : Nat → Nat → Nat) : Prop :=
  LaneWritesIn m m' opc f (lanesOf m f) val

/-- The bits of predicate `kd` are `b` in the lanes `k` and what they were elsewhere; a write to `k0` is discarded. No
other predicate changes. -/
def PredicatesAre (m m' : Dev) (kd : Nat) (k : Mask) (b : Nat → Bool) : Prop :=
  ∀ j, 0 < j → j < 8 → ∀ l, l < 1024 → Mask.has (m'.k j) l = if j = kd ∧ Mask.has k l = true then b l else Mask.has (m.k j) l

/-- A lane instruction without a register destination is over: its last-read sources are dead; predicates and scalars are
said apart, and nothing else changes. -/
def LaneOver (m m' : Dev) (opc : Nat) (f : LaneF) : Prop :=
  Kept m m' ∧ m'.wave = { m.wave with globals := m'.wave.globals, base := m'.wave.base, stack := m'.wave.stack,
                                      kregs := m'.wave.kregs, sregs := m'.wave.sregs, nextHold := nextWindow m f } ∧
  RegistersAre m m' opc f 0 (fun _ _ => 0)

/-- A lane instruction leaves the bits `b` in the effective lanes (those of `k`) of predicate `kd`, and changes nothing
else. -/
def LanePredicate (m m' : Dev) (opc : Nat) (f : LaneF) (kd : Nat) (k : Mask) (b : Nat → Bool) : Prop :=
  LaneOver m m' opc f ∧ m'.frag = afterLane m [] ∧ m'.wave.sregs = m.wave.sregs ∧ PredicatesAre m m' kd k b

/-- A lane instruction leaves `v` in scalar register `d` when LA is 0, and else opens a window for it (R192, R386); it
changes nothing else. -/
def LaneScalar (m m' : Dev) (opc : Nat) (f : LaneF) (d : BitVec 6) (v : DWord) : Prop :=
  LaneOver m m' opc f ∧ m'.wave.kregs = m.wave.kregs ∧
  (f.la = 0 → m'.frag = afterLane m [] ∧ ∀ r, m'.s r = if r = d ∧ r ≠ 0 then v else m.s r) ∧
  (f.la ≠ 0 → m'.wave.sregs = m.wave.sregs ∧
    m'.frag = afterLane m [{ left := f.la.toNat, scalar := true, reg := d.toNat, sval := v }])

/-- A trap of the lane instruction that the loaded fragment issues, in a wave with no open window (R360, R374). -/
def LaneTrap (m m' : Dev) (c : Cause) (stval : Nat) (kf : Mask) (lf : Nat → DWord) : Prop :=
  TrapTaken m.closeWindows m' c stval kf lf

/-! ## The package's invariant -/

/-- THR and FREQ lie in 8 to 16, the limit is at most 3,600 W, the windows at the floor are counted to 100, and in P0 the
clock is not capped (R108, R109). -/
def Power.Ok (p : Power) : Prop :=
  8 ≤ p.thr ∧ p.thr ≤ 16 ∧ 8 ≤ p.freq ∧ p.freq ≤ 16 ∧ p.limit ≤ 3600 ∧ p.floorWin ≤ 100 ∧
  (p.state = .p0 → p.freq = 16 ∧ p.thr = 16)

/-- The debug level is one that R106 and R111 permit in the life cycle and the power state. -/
def State.DebugOk (s : State) : Prop :=
  (s.sec.level = .app → s.sec.life = .provisioned ∨ s.sec.life = .deployed ∨ s.sec.life = .returned) ∧
  (s.sec.level = .full → s.sec.life = .manufacture ∨ s.sec.life = .returned) ∧
  (s.pwr.state = .d3hot ∨ s.pwr.state = .off → s.sec.level = .none)

/-- A package that runs, or did until a fatal error, has passed the boot ROM and its last wipe (R98, R115); one whose hub die
failed is in FATAL or held in reset, without a salvage window (R119). -/
def Pkg.Ok (p : Pkg) (imagesOk : Bool) : Prop :=
  (p.stat = .running → p.wipeErr = false ∧ imagesOk = true) ∧ (p.hubFailed = true → p.stat = .fatal ∨ p.stat = .resetHold) ∧
  p.syn.length = 25

/-- The invariant that every step keeps. -/
def State.Ok (s : State) : Prop := s.pwr.Ok ∧ s.DebugOk ∧ s.pkg.Ok s.sec.imagesOk

end Sys2Proof.Machine
end

