-- ==== Sys2Proof/Certificates/Slice0/Obligations.lean ====
section
/-!
DEFINITION. Certificates/Slice0/Obligations.lean: the statements for the provers, each with the rules of spec/ that it
formalises. The value functions beside them say in numbers what a rule says in words; they are not the meanings.
-/
open Sys2Proof Sys2Proof.Machine

namespace Sys2Proof.Claims

/-! ## Values of scalar instructions -/

/-- The table of R412: `n`-bit operands, u(x) as `toNat`, s(x) as `toInt`; shifts and rotations by B modulo `n`. -/
def aluValue (n op : Nat) (a b : BitVec n) : BitVec n :=
  let k := b.toNat % n
  match op with
  | 0 => BitVec.ofNat n (a.toNat + b.toNat)
  | 1 => BitVec.ofInt n ((a.toNat : Int) - b.toNat)
  | 2 => a &&& b
  | 3 => a ||| b
  | 4 => a ^^^ b
  | 5 => BitVec.ofNat n (a.toNat * 2 ^ k)
  | 6 => BitVec.ofNat n (a.toNat / 2 ^ k)
  | 7 => BitVec.ofInt n (a.toInt / 2 ^ k)
  | 8 => BitVec.ofNat n (a.toNat * b.toNat)
  | 9 => BitVec.ofNat n (a.toNat * b.toNat / 2 ^ n)
  | 10 => BitVec.ofInt n (a.toInt * b.toInt / 2 ^ n)
  | 11 => BitVec.ofNat n (a.toNat / b.toNat)
  | 12 => BitVec.ofInt n (a.toInt.tdiv b.toInt)
  | 13 => BitVec.ofNat n (a.toNat - b.toNat * (a.toNat / b.toNat))
  | 14 => BitVec.ofInt n (a.toInt - b.toInt * a.toInt.tdiv b.toInt)
  | 15 => BitVec.ofInt n (min a.toInt b.toInt)
  | 16 => BitVec.ofInt n (max a.toInt b.toInt)
  | 17 => BitVec.ofNat n (min a.toNat b.toNat)
  | 18 => BitVec.ofNat n (max a.toNat b.toNat)
  | 19 => BitVec.ofNat n (if a = 0 then n else n - 1 - a.toNat.log2)
  | 20 => BitVec.ofNat n ((List.range n).filter fun i => a.getLsbD i).length
  | 21 => a &&& ~~~b
  | _ => a <<< k ||| a >>> (n - k)

/-- Is the operation one that divides (R413)? -/
def divides (op : Nat) : Bool := 11 ≤ op && op ≤ 14

/-- What `SALU` writes (R412): with W the low words, and the 32-bit result sign-extended. -/
def saluWrites (op : Nat) (w : BitVec 1) (a b : DWord) : DWord :=
  if w = 1 then (aluValue 32 op (a.setWidth 32) (b.setWidth 32)).signExtend 64 else aluValue 64 op a b

/-- The divisor that `SALU` uses is zero (R413). -/
def zeroDivisor (w : BitVec 1) (b : DWord) : Bool := if w = 1 then b.setWidth 32 = 0#32 else b = 0#64

/-- The conditions of R416 on 64-bit operands. -/
def condHolds (cond : BitVec 3) (a b : DWord) : Prop :=
  match cond.toNat with
  | 0 => a = b
  | 1 => a ≠ b
  | 2 => a.toInt < b.toInt
  | 3 => a.toInt ≥ b.toInt
  | 4 => a.toNat < b.toNat
  | 5 => a.toNat ≥ b.toNat
  | 6 => ∃ i, a.getLsbD i = true ∧ b.getLsbD i = true
  | _ => ¬ ∃ i, a.getLsbD i = true ∧ b.getLsbD i = true

/-- The value check of R431 for a field of `FMT`. -/
def fmtValueOk (sel : Nat) (v : DWord) : Prop :=
  match sel with
  | 0 | 1 | 2 | 3 => v.toNat ≤ 15
  | 4 | 5 => -128 ≤ v.toInt ∧ v.toInt ≤ 127
  | 6 => True
  | 7 => v.toNat ≤ 2
  | _ => 1 ≤ v.toNat ∧ v.toNat ≤ 4

/-- `FMT` with one field written (R431); a write of DFMT sets the ACCRANGE of R309. -/
def fmtWith (x : FmtReg) (sel : Nat) (v : DWord) : FmtReg :=
  match sel with
  | 0 => { x with afmt := BitVec.ofNat 4 v.toNat }
  | 1 => { x with bfmt := BitVec.ofNat 4 v.toNat }
  | 2 => { x with cfmt := BitVec.ofNat 4 v.toNat }
  | 3 => { x with dfmt := BitVec.ofNat 4 v.toNat, accrange := BitVec.ofNat 8 (accRangeOf v.toNat) }
  | 4 => { x with ascale := BitVec.ofInt 8 v.toInt }
  | 5 => { x with bscale := BitVec.ofInt 8 v.toInt }
  | 6 => { x with oscale := BitVec.ofNat 32 v.toNat }
  | 7 => { x with ovfmode := BitVec.ofNat 2 v.toNat }
  | _ => { x with rows := BitVec.ofNat 2 (v.toNat - 1) }

end Sys2Proof.Claims

open Sys2Proof.Claims

/-- R412, R413: every `SALU` whose divisor is not zero writes the value of the table to sD, 64 bits wide or as a
sign-extended 32-bit result, goes on at the next word and changes nothing else; a division by zero traps with
DIVIDE-BY-ZERO, `STVAL` holds the word, and no register is written. -/
def Obligations.ScalarAluWritesTheTable : Prop :=
  (∀ (s : State) (d a b : BitVec 6) (w : BitVec 1) (op : BitVec 6), op.toNat ≤ 22 →
    ¬ (divides op.toNat = true ∧ zeroDivisor w (s.dev.s b) = true) →
    Runs (.salu d a b w op) s fun m' => WroteS s.dev m' d (saluWrites op.toNat w (s.dev.s a) (s.dev.s b))) ∧
  (∀ (s : State) (d a b : BitVec 6) (w : BitVec 1) (op : BitVec 6), divides op.toNat = true →
    zeroDivisor w (s.dev.s b) = true → ScalarTraps s.dev .divideByZero →
    Runs (.salu d a b w op) s fun m' => ScalarTrap s.dev m' .divideByZero (s.dev.codeBytes s.dev.frag.spc 4) fun _ => 0)

/-- R414, R415, R417: the immediate forms, `MOVH` and `SEL` write what their rules give and change nothing else. R416: `CMP`
and `CMPI` write cD := 1 exactly when the condition holds on all 64 bits, and change nothing else. -/
def Obligations.ScalarImmediatesAndComparisonsWrite : Prop :=
  (∀ (s : State) (d a b sh : BitVec 6) (imm : BitVec 14) (hi : BitVec 20) (c : BitVec 3),
    let x := s.dev.s a
    Runs (.addi d a imm) s (fun m' => WroteS s.dev m' d (BitVec.ofInt 64 (x.toNat + imm.toInt))) ∧
    Runs (.andi d a imm) s (fun m' => WroteS s.dev m' d (x &&& BitVec.ofInt 64 imm.toInt)) ∧
    Runs (.ori d a imm) s (fun m' => WroteS s.dev m' d (x ||| BitVec.ofInt 64 imm.toInt)) ∧
    Runs (.xori d a imm) s (fun m' => WroteS s.dev m' d (x ^^^ BitVec.ofInt 64 imm.toInt)) ∧
    Runs (.shli d a sh) s (fun m' => WroteS s.dev m' d (BitVec.ofNat 64 (x.toNat * 2 ^ sh.toNat))) ∧
    Runs (.shri d a sh) s (fun m' => WroteS s.dev m' d (BitVec.ofNat 64 (x.toNat / 2 ^ sh.toNat))) ∧
    Runs (.sari d a sh) s (fun m' => WroteS s.dev m' d (BitVec.ofInt 64 (x.toInt / 2 ^ sh.toNat))) ∧
    Runs (.movh d hi) s (fun m' => WroteS s.dev m' d (BitVec.ofInt 64 (hi.toInt * 2 ^ 12))) ∧
    Runs (.sel d a b c) s (fun m' => WroteS s.dev m' d (if s.dev.c c = true then x else s.dev.s b))) ∧
  (∀ (s : State) (c cond : BitVec 3) (a b : BitVec 6) (imm : BitVec 14),
    Runs (.cmp c a b cond) s (fun m' => ∃ v, WroteC s.dev m' c v ∧ (v = true ↔ condHolds cond (s.dev.s a) (s.dev.s b))) ∧
    Runs (.cmpi cond c a imm) s
      (fun m' => ∃ v, WroteC s.dev m' c v ∧ (v = true ↔ condHolds cond (s.dev.s a) (BitVec.ofInt 64 imm.toInt))))

/-- R422, R425, R426: a branch that is taken, and a jump to LANDED scalar code of its launch (or, in SUPER mode, of the
handler), go to the block and change nothing else; a branch not taken goes on. R211, R422-R426, R428: a transfer to a bad
target traps and changes nothing but what trap entry changes: SEG-MISS for an offset that leaves the segment, ALIGN-BRANCH for
a code pointer with bits [63:18] or [5:0], else SEG-MISS for a pointer that names no code of the required kind that belongs to
the wave, of the register forms and of the immediate forms of `JSEG` and `LPC`; a `CALLR` or `RET` that goes on after a wait has
passed this check (R219). R423, R424, R183: a call in the last block of a segment traps with SEG-MISS; one that finds 255 windows,
and a return that finds none, with WINDOW-STATE; blocks that one of these had been granted are free then (R189). -/
def Obligations.TransfersGoToTheBlockOrTrap : Prop :=
  (∀ (s : State) (off : BitVec 22) (c : BitVec 3) (n : BitVec 1) (a : BitVec 6) (seg : BitVec 4) (blk : BitVec 8),
    let m := s.dev
    let t := blockAfter m off
    (InSegment m t →
      Runs (.br off) s (fun m' => Jumped m m' (64 * t.toNat)) ∧
      (m.c c ≠ decide (n = 1) → Runs (.bc c n off) s fun m' => Jumped m m' (64 * t.toNat))) ∧
    (m.c c = decide (n = 1) → Runs (.bc c n off) s fun m' => Passed m m') ∧
    (CodeAt m (m.s a).toNat false →
      Runs (.jr a) s (fun m' => Jumped m m' (m.s a).toNat) ∧ Runs (.jsegReg a) s fun m' => Jumped m m' (m.s a).toNat) ∧
    (CodeAt m (seg.toNat * 2 ^ 14 + blk.toNat * 2 ^ 6) false →
      Runs (.jseg seg blk) s fun m' => Jumped m m' (seg.toNat * 2 ^ 14 + blk.toNat * 2 ^ 6))) ∧
  ((∀ (s : State) (off : BitVec 22) (c : BitVec 3) (n : BitVec 1) (a : BitVec 6) (ws : BitVec 4),
    let m := s.dev
    let t := (m.s a).toNat
    let traps (i : Instr) (k : Cause) : Prop := Runs i s fun m' => ScalarTrap m m' k 0 fun _ => 0
    (¬ InSegment m (blockAfter m off) → ScalarTraps m .segMiss →
      traps (.br off) .segMiss ∧ traps (.call ws off) .segMiss ∧
      (m.c c ≠ decide (n = 1) → traps (.bc c n off) .segMiss)) ∧
    ((t % 64 ≠ 0 ∨ 2 ^ 18 ≤ t) → ScalarTraps m .alignBranch →
      traps (.jr a) .alignBranch ∧ traps (.jsegReg a) .alignBranch ∧ traps (.lpcReg a) .alignBranch ∧
      (m.frag.phase = 0 → traps (.callr a ws) .alignBranch ∧ traps (.ret a) .alignBranch)) ∧
    (t % 64 = 0 → t < 2 ^ 18 → ScalarTraps m .segMiss →
      (¬ CodeAt m t false → traps (.jr a) .segMiss ∧ traps (.jsegReg a) .segMiss ∧
        (m.frag.phase = 0 → traps (.callr a ws) .segMiss ∧ traps (.ret a) .segMiss)) ∧
      (¬ CodeAt m t true → traps (.lpcReg a) .segMiss))) ∧
  (∀ (s : State) (seg : BitVec 4) (blk : BitVec 8),
    let m := s.dev
    let t := seg.toNat * 2 ^ 14 + blk.toNat * 2 ^ 6
    ScalarTraps m .segMiss →
      (¬ CodeAt m t false → Runs (.jseg seg blk) s fun m' => ScalarTrap m m' .segMiss 0 fun _ => 0) ∧
      (¬ CodeAt m t true → Runs (.lpc seg blk) s fun m' => ScalarTrap m m' .segMiss 0 fun _ => 0)) ∧
  (∀ (s : State) (ws : BitVec 4) (off : BitVec 22) (a : BitVec 6),
    let m := s.dev
    let traps (i : Instr) (k : Cause) : Prop := Runs i s fun m' => ScalarTrap m m' k 0 fun _ => 0
    (m.frag.spc / 64 % 256 = 255 → ScalarTraps m .segMiss →
      (InSegment m (blockAfter m off) → traps (.call ws off) .segMiss) ∧
      (CodeAt m (m.s a).toNat false → traps (.callr a ws) .segMiss)) ∧
    let ends (i : Instr) : Prop := Runs i s fun m' => ∃ b, GrantEnds m b ∧ ScalarTrap b m' .windowState 0 fun _ => 0
    (m.frag.spc / 64 % 256 ≠ 255 → 255 ≤ m.wave.stack.length → ScalarTraps m .windowState →
      (InSegment m (blockAfter m off) → ends (.call ws off)) ∧ (CodeAt m (m.s a).toNat false → ends (.callr a ws))) ∧
    (CodeAt m (m.s a).toNat false → m.wave.stack = [] → ScalarTraps m .windowState → ends (.ret a))))

namespace Sys2Proof.Claims

/-- A call to the byte offset `t` with a window of `u` units (R423), in that order: a window of zeros is pushed (`p`), `lk` names
the block after the call, the lookahead windows close (`b`), the `DUAL` prefix ends. A request for blocks that waits may become
due, since the caller's window can be spilt now (R185). -/
def Called (m m' : Dev) (u t : Nat) : Prop :=
  ∃ (p : Dev) (x : Win),
    p = { m with wave := { m.wave with stack := x :: m.wave.stack, sregs := p.wave.sregs, nextWin := m.wave.nextWin + 1 } } ∧
    x.id = m.wave.nextWin ∧ x.units = u ∧ x.dead = 0 ∧ x.marks = [] ∧ x.spilt = none ∧ (∀ k, x.cells.get k = 0) ∧
    (∀ r, p.s r = if r = 63 then BitVec.ofNat 64 (64 * (m.frag.spc / 64 + 1)) else m.s r) ∧
    let b := p.closeWindows
    KeptButEvents b m' ∧ m'.wave = b.wave ∧
    m'.frag = { b.frag with spc := t, fell := false, phase := 0, wait := .none, dualK := 0, dualRem := 0, taken := m'.frag.taken }

end Sys2Proof.Claims

/-- R423, R183, R213: `CALL` and `CALLR` with a good target, outside the last block of a segment, with fewer than 255
windows and their blocks at hand, push a window of zeros and go to the target; `lk` takes the pointer of the next block; the
lookahead windows close after that. A `CALLR` that goes on after its wait for blocks goes to the target that it took and checked
when it issued. On a control core the window holds no registers. -/
def Obligations.CallPushesAWindow : Prop :=
  ∀ (s : State) (ws : BitVec 4) (off : BitVec 22) (a : BitVec 6),
    let m := s.dev
    let units := if m.wave.control = true then 0 else ws.toNat
    m.frag.spc / 64 % 256 ≠ 255 → m.wave.stack.length < 255 →
    BlocksReady m (ws.toNat * m.wave.unitBlocks) →
    (InSegment m (blockAfter m off) →
      Runs (.call ws off) s fun m' => Called m m' units (64 * (blockAfter m off).toNat)) ∧
    (m.frag.phase = 0 → CodeAt m (m.s a).toNat false → Runs (.callr a ws) s fun m' => Called m m' units (m.s a).toNat) ∧
    (m.frag.phase ≠ 0 → Runs (.callr a ws) s fun m' => Called m m' units m.frag.taken)

/-- R424, R183, R199: `RET` with a call window active, and the window below it not spilt, pops the window and goes to the
block named by sA, as it was when the `RET` issued; below the depth that `REGION` recorded it is irrevocable; the lookahead windows
close after that. The windows below are as they were. -/
def Obligations.ReturnPopsTheWindow : Prop :=
  ∀ (s : State) (a : BitVec 6),
    let m := s.dev
    let deep := decide (m.wave.stack.length - 1 < m.wave.region.depth)
    let b := ({ m with wave := { m.wave with
      stack := m.wave.stack.tail, wavectl := if deep = true then m.wave.wavectl ||| 2 else m.wave.wavectl,
      everirr := m.wave.everirr || deep } } : Dev).closeWindows
    let t := if m.frag.phase = 0 then (m.s a).toNat else m.frag.taken
    (m.frag.phase = 0 → CodeAt m t false) → m.wave.stack ≠ [] → (∀ x, m.wave.stack[1]? = some x → x.spilt = none) →
    Runs (.ret a) s fun m' =>
      KeptButEvents b m' ∧ m'.wave = b.wave ∧
      m'.frag = { b.frag with spc := t, fell := false, phase := 0, wait := .none, dualK := 0, dualRem := 0, taken := t }

/-- R428, R429, R430, R522: `LPC` to LANDED lane code sets the lane PC to slot 0 of the block; `LISSUE` of a wave with
lanes makes its lane instructions due and moves nothing; `DUAL` with K = 0 or K = TANG sets `DUALST`, on a control core
nothing; `NOP` goes on.
R431: `FMT` writes the chosen field of the issuing fragment's `FMT` when the value passes its check, and otherwise traps
with RESERVED-FIELD. Nothing else changes. -/
def Obligations.LaneStreamAndFormatWordsSetTheFragment : Prop :=
  (∀ (s : State) (a : BitVec 6) (seg : BitVec 4) (blk : BitVec 8) (n : BitVec 4) (k : BitVec 2),
    let m := s.dev
    let t := seg.toNat * 2 ^ 14 + blk.toNat * 2 ^ 6
    let only (i : Instr) (f : Frag) : Prop := Runs i s fun m' => Kept m m' ∧ m'.wave = m.wave ∧ m'.frag = f
    (CodeAt m t true → only (.lpc seg blk) (nextWord { m.frag with lpc := t, lfell := false })) ∧
    (CodeAt m (m.s a).toNat true → only (.lpcReg a) (nextWord { m.frag with lpc := (m.s a).toNat, lfell := false })) ∧
    (m.wave.core ≠ 12 → only (.lissue n) { m.frag with lrem := n.toNat }) ∧
    (m.wave.core = 12 → ScalarTraps m .noLanes →
      Runs (.lissue n) s fun m' => ScalarTrap m m' .noLanes 0 fun _ => 0) ∧
    ((k = 0 ∨ k.toNat = m.wave.tang) →
      (m.wave.core ≠ 12 → only (.dual k n) (nextWord { m.frag with dualK := k, dualRem := n })) ∧
      (m.wave.core = 12 → only (.dual k n) (nextWord m.frag))) ∧
    (k ≠ 0 → k.toNat ≠ m.wave.tang → ScalarTraps m .reservedField →
      Runs (.dual k n) s fun m' => ScalarTrap m m' .reservedField (m.codeBytes m.frag.spc 4) fun _ => 0) ∧
    only .nop (nextWord m.frag)) ∧
  (∀ (s : State) (sel : BitVec 4) (a : BitVec 6) (imm : BitVec 14), sel.toNat ≤ 8 →
    let m := s.dev
    let v : DWord := m.s a + BitVec.ofInt 64 imm.toInt
    (fmtValueOk sel.toNat v →
      Runs (.fmt sel a imm) s fun m' =>
        Kept m m' ∧ m'.wave = m.wave ∧ m'.frag = nextWord { m.frag with fmt := fmtWith m.frag.fmt sel.toNat v }) ∧
    (¬ fmtValueOk sel.toNat v → ScalarTraps m .reservedField →
      Runs (.fmt sel a imm) s fun m' => ScalarTrap m m' .reservedField (m.codeBytes m.frag.spc 4) fun _ => 0))

/-! ## Scalar memory -/

/-- R418, R419, R463: `SLD` at an address whose checks (R225, R284) pass, of memory without pending or poisoned bytes,
writes the bytes, zero-extended, to sD; no byte of memory changes. R418, R264: `SST` at an address whose checks pass, of memory
without pending bytes, leaves the low bytes of sD at the place that the check found and every other byte as it was; no
register changes. -/
def Obligations.ScalarLoadsAndStores : Prop :=
  (∀ (s : State) (d a : BitVec 6) (sz : BitVec 2) (off : BitVec 12) (acc : Access) (l : Loc) (m₁ : Dev),
    let addr := (s.dev.s a + (BitVec.ofInt 64 off.toInt) * BitVec.ofNat 64 (2 ^ sz.toNat)).toNat
    let n := 2 ^ sz.toNat
    s.dev.scalarAccess addr n .load = (.ok acc, m₁) → MemoryAt acc l → NoPending m₁ m₁.wave.coreNo l →
    Clean m₁ m₁.wave.coreNo l n →
    Runs (.sld d a sz off) s fun m' =>
      AccessOnly m₁ m' ∧ SameMemory m₁ m' ∧ NextWord m₁ m' ∧
      ScalarIs m₁ m' d (BitVec.ofNat 64 (ofBytes (m₁.bytesAt l n)))) ∧
  (∀ (s : State) (d a : BitVec 6) (sz : BitVec 2) (off : BitVec 12) (acc : Access) (l : Loc) (m₁ : Dev),
    let addr := (s.dev.s a + (BitVec.ofInt 64 off.toInt) * BitVec.ofNat 64 (2 ^ sz.toNat)).toNat
    let n := 2 ^ sz.toNat
    s.dev.scalarAccess addr n .store = (.ok acc, m₁) → MemoryAt acc l → Exists l n → NoPending m₁ m₁.wave.coreNo l →
    (∀ pa, l = .dev pa → pa % n = 0) →
    Runs (.sst d a sz off) s fun m' =>
      AccessOnly m₁ m' ∧ StoredAt m₁ m' l (leBytes n (s.dev.s d).toNat) ∧ NextWord m₁ m' ∧ m'.wave = m₁.wave)

/-- R419, R463: an `SLD`, `SST` or `SAMO` that fails a check traps with the cause of the check, and an `SLD` of a poisoned
byte with POISON; `LFADDR` holds the address of the access in every lane of `KF`.
The model's own choices that this rests on: log 33. -/
def Obligations.FailedScalarAccessTraps : Prop :=
  (∀ (s : State) (d a : BitVec 6) (sz : BitVec 2) (off : BitVec 12) (acc : Access) (l : Loc) (m₁ : Dev) (i : Nat),
    let addr := (s.dev.s a + (BitVec.ofInt 64 off.toInt) * BitVec.ofNat 64 (2 ^ sz.toNat)).toNat
    s.dev.scalarAccess addr (2 ^ sz.toNat) .load = (.ok acc, m₁) → MemoryAt acc l → NoPending m₁ m₁.wave.coreNo l →
    i < 2 ^ sz.toNat → m₁.poisonAt (l.add i) = true → ScalarTraps m₁ .poison →
    Runs (.sld d a sz off) s fun m' => ∃ m₂, AccessOnly m₁ m₂ ∧ SameMemory m₁ m₂ ∧ m₂.wave = m₁.wave ∧ m₂.frag = m₁.frag ∧
      ScalarTrap m₂ m' .poison 0 (inLanes m₁.wave.wlanes addr)) ∧
  ∀ (s : State) (d a b : BitVec 6) (sz : BitVec 2) (off : BitVec 12) (ar : BitVec 1) (scope op : BitVec 3)
    (x : Fail) (m₁ : Dev),
    let addr := (s.dev.s a + (BitVec.ofInt 64 off.toInt) * BitVec.ofNat 64 (2 ^ sz.toNat)).toNat
    let n := 2 ^ sz.toNat
    let traps (i : Instr) (ea : Nat) : Prop :=
      Runs i s fun m' => ScalarTrap m₁ m' x.cause 0 (inLanes m₁.wave.wlanes ea)
    ScalarTraps m₁ x.cause →
    (s.dev.scalarAccess addr n .load = (.error x, m₁) → traps (.sld d a sz off) addr) ∧
    (s.dev.scalarAccess addr n .store = (.error x, m₁) → traps (.sst d a sz off) addr) ∧
    (s.dev.scalarAccess (s.dev.s a).toNat 8 .atomic = (.error x, m₁) →
      traps (.samo d a b ar scope op) (s.dev.s a).toNat)

namespace Sys2Proof.Claims

/-- What the operations of R420 leave in memory: signed minimum and maximum; `CAS` against `c`. -/
def amoNew (op : Nat) (old b c : DWord) : DWord :=
  match op with
  | 0 => BitVec.ofNat 64 (old.toNat + b.toNat)
  | 1 => old &&& b
  | 2 => old ||| b
  | 3 => old ^^^ b
  | 4 => BitVec.ofInt 64 (min old.toInt b.toInt)
  | 5 => BitVec.ofInt 64 (max old.toInt b.toInt)
  | 6 => b
  | _ => if old = c then b else old

end Sys2Proof.Claims

/-- R420, R421: `SAMO` at an address whose checks pass, on memory without pending or poisoned bytes, returns the old
doubleword in sD, leaves the new one at the place, and sets `IRREV` and `EVERIRR`; every other byte is as the release of
the `.AR` form leaves it, which is as it was for the relaxed form. The release is made at `.SYS` on a page of host memory
(R255). -/
def Obligations.ScalarAtomicIsOneUpdate : Prop :=
  ∀ (s : State) (d a b : BitVec 6) (ar : BitVec 1) (scope op : BitVec 3) (acc : Access) (l : Loc) (m₁ : Dev),
    s.dev.scalarAccess (s.dev.s a).toNat 8 .atomic = (.ok acc, m₁) → MemoryAt acc l → Exists l 8 →
    let sc := match l with | .host _ => 4 | _ => scope.toNat
    (ar = 1 → sc = 4 → m₁.busyPeers m₁.wave.uid = false) →
    let k := m₁.wave.coreNo
    let m₂ := if ar = 1 then m₁.irrev.release k sc else m₁.irrev
    let old : DWord := BitVec.ofNat 64 (ofBytes (m₂.bytesAt l 8))
    NoPending m₂ k l → (∀ i, i < 8 → m₂.poisonAt (l.add i) = false) →
    Runs (.samo d a b ar scope op) s fun m' =>
      AccessOnly m₂ m' ∧ StoredAt m₂ m' l (leBytes 8 (amoNew op.toNat old (m₁.s b) (m₁.s d)).toNat) ∧
      NextWord m₁ m' ∧
      ScalarIs { m₁ with wave := { m₁.wave with wavectl := m₁.wave.wavectl ||| 2, everirr := true } } m' d old

/-- R231, R432: `XLAT` of a pointer whose page translates with RD (and USER in USER mode) writes BASE, FRAME, LIMIT and
ATTR of the page to xN; of any other global pointer, LIMIT 0. Nothing else of the wave changes. -/
def Obligations.XlatWritesTheRegister : Prop :=
  ∀ (s : State) (x : BitVec 3) (a : BitVec 6),
    let m := s.dev
    let p := (m.s a).toNat
    let w := m.coreWalk m.wave.coreNo m.wave.ctx p
    let wrote (r : XReg) : Prop := Runs (.xlat x a) s fun m' =>
      m' = { w.2 with wave := { m.wave with xregs := setAt {} m.wave.xregs x.toNat r }, frag := nextWord m.frag }
    p < 2 ^ 49 →
    (∀ pte size, w.1 = .leaf pte size → rightsOk pte true false (!m.wave.super) = true →
      wrote { base := m.s a, limit := BitVec.ofNat 32 (size - p % size),
              frame := BitVec.ofNat 52 (fld pte 51 12 * 4096 + p % size), attr := BitVec.ofNat 12 pte }) ∧
    ((∀ pte size, w.1 = .leaf pte size → rightsOk pte true false (!m.wave.super) = false) →
      wrote { base := m.s a })

/-! ## Gangs, role queues, barriers, windows -/

namespace Sys2Proof.Claims

/-- The loaded wave of `m` is now in gang `g`, whose record is `x`; the other gangs are as they were (R158). -/
def Joined (m m' : Dev) (d : BitVec 6) (g : Nat) (x : Gang) : Prop :=
  let c := m.wave.clusterNo
  ClusterOnly m m' c ∧ NextWord m m' ∧
  m'.cluster c = { m.cluster c with gangs := (m'.cluster c).gangs } ∧
  (∀ h, gangAt m' c h = if h = g then some x else gangAt m c h) ∧
  m'.wave = { m.wave with gang := some g, sregs := m'.wave.sregs } ∧
  ∀ r, m'.s r = if r = d ∧ r ≠ 0 then BitVec.ofNat 64 g else m.s r

/-- Queue `q` of the loaded wave's cluster is `x`; the other queues are as they were. -/
def QueueIs (m m' : Dev) (q : Nat) (x : RoleQueue) : Prop :=
  let c := m.wave.clusterNo
  m'.cluster c = { m.cluster c with queues := (m'.cluster c).queues } ∧
  ∀ h, (m'.cluster c).queues.getD h {} = if h = q then x else (m.cluster c).queues.getD h {}

/-- The wave's gang holds role queue `q`, which is `x` (R164). -/
def Holds (m : Dev) (q : Nat) (x : RoleQueue) : Prop :=
  q ≤ 3 ∧ m.wave.gang ≠ none ∧ (m.cluster m.wave.clusterNo).queues.getD q {} = x ∧ x.gang = m.wave.gang

/-- An unstarted slice of a copy that the wave has supplied (R336). -/
def unstartedSlice (m : Dev) (uid : Nat) : Prop :=
  ∃ x ∈ m.cmds, x.wave = uid ∧ ∃ cl g cid a b ln rc se st len, x.body = .copy cl g cid a b ln rc se st len 0

end Sys2Proof.Claims

/-- R158, R159, R484: `GJOIN` with 0x100 takes the lowest free gang id of the cluster and makes the wave its one member;
with the id of a gang of its launch that has room it adds the wave; sD takes the id. `GLEAVE` takes the wave out; the last
member dissolves the gang and frees its role queues. R158, R159: who is in a gang, or a spawned child, or names no
gang of its launch, traps with PROTECTION at `GJOIN`; a full gang, and a cluster without a free id, with GANG-FULL; `GLEAVE`
outside a gang with PROTECTION. R164, R502: the role-queue instructions trap with QUEUE-MISUSE in no gang, for a queue that
the gang does not hold, and for a depth outside 1 to 16. -/
def Obligations.GangsFormAndDissolve : Prop :=
  (∀ (s : State) (d a : BitVec 6) (g : Nat) (e : Gang),
    let m := s.dev
    let c := m.wave.clusterNo
    let rest := e.members.filter fun u => decide (u ≠ m.wave.uid)
    (m.wave.gang = none → m.wave.child = false → g < 256 →
      ((m.s a).toNat = 0x100 → gangAt m c g = none → (∀ h, h < g → gangAt m c h ≠ none) →
        Runs (.gjoin d a) s fun m' => Joined m m' d g { launch := m.wave.launch, members := [m.wave.uid] }) ∧
      ((m.s a).toNat = g → gangAt m c g = some e → e.launch = m.wave.launch → e.members.length < 12 →
        Runs (.gjoin d a) s fun m' => Joined m m' d g { e with members := e.members ++ [m.wave.uid] })) ∧
    (m.wave.gang = some g → gangAt m c g = some e → m.copyParties = [] → ¬ unstartedSlice m m.wave.uid →
      Runs .gleave s fun m' =>
        ClusterOnly m m' c ∧ NextWord m m' ∧ m'.wave = { m.wave with gang := none } ∧
        m'.cluster c = { m.cluster c with gangs := (m'.cluster c).gangs, queues := (m'.cluster c).queues } ∧
        (∀ h, gangAt m' c h = if h ≠ g then gangAt m c h else if rest = [] then none else
          some { e with members := rest, arrived := e.arrived.filter fun u => decide (u ≠ m.wave.uid) }) ∧
        (m'.cluster c).queues = (m.cluster c).queues.map fun q => if rest = [] ∧ q.gang = some g then {} else q)) ∧
  ((∀ (s : State) (d a : BitVec 6) (e : Gang),
    let m := s.dev
    let c := m.wave.clusterNo
    let n := (m.s a).toNat
    let traps (i : Instr) (k : Cause) : Prop := Runs i s fun m' => ScalarTrap m m' k 0 fun _ => 0
    (ScalarTraps m .protection →
      ((m.wave.gang ≠ none ∨ m.wave.child = true ∨ 0x100 < n) → traps (.gjoin d a) .protection) ∧
      (n < 0x100 → gangAt m c n = none → traps (.gjoin d a) .protection) ∧
      (n < 0x100 → gangAt m c n = some e → e.launch ≠ m.wave.launch → traps (.gjoin d a) .protection) ∧
      (m.wave.gang = none → traps .gleave .protection)) ∧
    (ScalarTraps m .gangFull → m.wave.gang = none → m.wave.child = false →
      (n < 0x100 → gangAt m c n = some e → e.launch = m.wave.launch → 12 ≤ e.members.length →
        traps (.gjoin d a) .gangFull) ∧
      (n = 0x100 → (∀ h, h < 256 → gangAt m c h ≠ none) → traps (.gjoin d a) .gangFull))) ∧
  (∀ (s : State) (d a b : BitVec 6),
    let m := s.dev
    let n := (m.s a).toNat
    let traps (i : Instr) : Prop := Runs i s fun m' => ScalarTrap m m' .queueMisuse 0 fun _ => 0
    ScalarTraps m .queueMisuse →
    ((m.wave.gang = none ∨ n = 0 ∨ 16 < n) → traps (.qinit d a)) ∧
    ((m.wave.gang = none ∨ 3 < n ∨ ((m.cluster m.wave.clusterNo).queues.getD n {}).gang ≠ m.wave.gang) →
      traps (.qput a b) ∧ traps (.qtake d a))))

/-- R163, R164, R502: `QINIT` takes the lowest free queue of the cluster, or clears `c1` when none is free; `QPUT` appends
sB unless the queue is full, `QTAKE` takes the oldest value unless it is empty; otherwise they wait and have done
nothing. Nothing else changes, but for what the release of `QPUT` at `.CL` covers, and the G lines that `QTAKE` drops as an
acquire. -/
def Obligations.RoleQueuesAreFifo : Prop :=
  ∀ (s : State) (d a b : BitVec 6) (q : Nat) (x : RoleQueue),
    let m := s.dev
    let c := m.wave.clusterNo
    let n := (m.s a).toNat
    (m.wave.gang ≠ none → 1 ≤ n → n ≤ 16 →
      (q < 4 → ((m.cluster c).queues.getD q {}).gang = none →
        (∀ h, h < q → ((m.cluster c).queues.getD h {}).gang ≠ none) →
        Runs (.qinit d a) s fun m' => ClusterOnly m m' c ∧ NextWord m m' ∧ AnswerIs m m' d (BitVec.ofNat 64 q) true ∧
          QueueIs m m' q { gang := m.wave.gang, depth := n, vals := [] } ∧
          m'.wave = { m.wave with sregs := m'.wave.sregs, cregs := m'.wave.cregs }) ∧
      ((∀ h, h < 4 → ((m.cluster c).queues.getD h {}).gang ≠ none) →
        Runs (.qinit d a) s fun m' => Kept m m' ∧ NextWord m m' ∧ AnswerIs m m' d 0 false ∧
          m'.wave = { m.wave with sregs := m'.wave.sregs, cregs := m'.wave.cregs })) ∧
    (n = q → Holds m q x →
      (x.vals.length < x.depth →
        Runs (.qput a b) s fun m' => ClusterOnly (m.release m.wave.coreNo 1) m' c ∧ SameMemory m m' ∧ NextWord m m' ∧
          QueueIs m m' q { x with vals := x.vals ++ [m.s b] } ∧
          m'.wave = { m.wave with wavectl := m.wave.wavectl ||| 2, everirr := true }) ∧
      (x.depth ≤ x.vals.length →
        Runs (.qput a b) s fun m' => Kept (m.release m.wave.coreNo 1) m' ∧ SameMemory m m' ∧ m'.wave = m.wave ∧
          m'.frag = { m.frag with wait := .queueFull q, phase := 0 }) ∧
      (∀ v t, x.vals = v :: t →
        Runs (.qtake d a) s fun m' => NextWord m m' ∧ QueueIs m m' q { x with vals := t } ∧
          (∀ k, k ≠ c → m'.cluster k = m.cluster k) ∧ SameMemory m m' ∧ DroppedG m m' m.wave.coreNo ∧
          m' = { m with wave := m'.wave, frag := m'.frag, clusters := m'.clusters, cores := m'.cores } ∧
          ScalarIs { m with wave := { m.wave with wavectl := m.wave.wavectl ||| 2, everirr := true } } m' d v) ∧
      (x.vals = [] →
        Runs (.qtake d a) s fun m' => Kept m m' ∧ m'.wave = m.wave ∧ m'.frag = { m.frag with wait := .queueEmpty q, phase := 0 }))

/-- R171, R172, R173, R485, R491: `BAR.G` of a member, and `BAR` of a die tag or of tag 7 of its launch, arrive at the open
phase once the release before them is done, and wait; the release of the barrier is due when every party has arrived;
after it they drop the G lines and go on. Any other `BAR` or `BAR.G` traps with PROTECTION. When every party has arrived,
all waiting waves are released together and the next phase opens with no arrivals; while a party is missing nothing happens.
The model's own choices that this rests on: log 24, log 46. -/
def Obligations.BarriersWaitForEveryParty : Prop :=
  (∀ (s : State) (t : BitVec 3) (m₁ : Dev),
    let m := s.dev
    let c := m.wave.clusterNo
    let arrived (m₁ : Dev) (b : BarrierRef) (m' : Dev) : Prop :=
      m' = { m₁ with frag := m'.frag, clusters := m'.clusters, dies := m'.dies, tag7 := m'.tag7, agenda := m'.agenda } ∧
      SameMemory m₁ m' ∧
      m'.arrivals b = (if m₁.wave.uid ∈ m₁.arrivals b then m₁.arrivals b else m₁.arrivals b ++ [m₁.wave.uid]) ∧
      m'.frag = waiting m₁.frag (barPhase b) ∧
      ((∀ u ∈ m₁.parties b, u ∈ m'.arrivals b) → Due m' (.barrierPhaseComplete b))
    let onDie := m.diebar m.wave % 16 = 8 + t.toNat
    let onPackage := 128 ≤ m.diebar m.wave ∧ t = 7
    (∀ g, m.wave.gang = some g → gangAt m c g ≠ none → m.frag.phase ≠ 15 →
      Runs .barG s fun m' => arrived (m.release m.wave.coreNo 1) (.gang c g) m' ∧ SameMemory m m') ∧
    (∀ g, m.wave.gang = some g → m.frag.phase = 15 →
      Runs .barG s fun m' => AcquiredOnly m m' ∧ m'.wave = m.wave ∧ NextWord m m') ∧
    (m.wave.gang = none → ScalarTraps m .protection → Runs .barG s fun m' => ScalarTrap m m' .protection 0 fun _ => 0) ∧
    (m.frag.phase ≠ 11 → m.frag.phase ≠ 13 →
      (t ≠ 7 → onDie → m.releaseWait 2 = .ok m₁ → Runs (.bar t) s (arrived m₁ (.die m₁.wave.die t.toNat))) ∧
      (onPackage → m.releaseWait 3 = .ok m₁ → Runs (.bar t) s (arrived m₁ .package))) ∧
    ((onDie ∨ onPackage) → (m.frag.phase = 11 ∨ m.frag.phase = 13) →
      Runs (.bar t) s fun m' => AcquiredOnly m m' ∧ m'.wave = m.wave ∧ NextWord m m') ∧
    (¬ onDie → ¬ onPackage → ScalarTraps m .protection →
      Runs (.bar t) s fun m' => ScalarTrap m m' .protection 0 fun _ => 0)) ∧
  (∀ (s : State) (b : BarrierRef),
    let m := s.dev.stash
    let us := m.arrivals b
    let freed (f : Frag) : Frag :=
      if f.wait = .event ∧ f.phase = barPhase b then { f with wait := .none, phase := barPhase b + 1 } else f
    0 ∉ us →
    (us ≠ [] → (∀ u ∈ m.parties b, u ∈ us) →
      Runs (.barrierPhaseComplete b) s fun m' =>
        m' = { m with waves := m'.waves, clusters := m'.clusters, dies := m'.dies, tag7 := m'.tag7 } ∧ m'.arrivals b = [] ∧
        m'.waves = m.waves.map fun w => if w.uid ∈ us then { w with frags := w.frags.map freed } else w) ∧
    ((us = [] ∨ ∃ u ∈ m.parties b, u ∉ us) → Runs (.barrierPhaseComplete b) s fun m' => m' = m))

namespace Sys2Proof.Claims

/-- The base window of `v` units has not the register (R182). -/
def lostReg (v n : Nat) : Bool := decide (8 + 8 * v ≤ n) && decide (n < 128)

/-- A fragment without the results that it holds, or is still to be given, for registers which the window of `v` units has
not. -/
def withoutLost (v : Nat) (f : Frag) : Frag :=
  let kept (x : Option Late) : Option Late := x.filter fun d => !lostReg v d.name
  { f with held := f.held.filter fun h => h.scalar || !lostReg v h.reg,
           todo := f.todo.map fun p => { p with lo := kept p.lo, hi := kept p.hi } }

end Sys2Proof.Claims

/-- R188, R487, R190: `CLAIM` and `YIELD` resize the base window when no call window is active: sD takes the new size and
`c1` is set; the registers that remain keep their values, those that are new read zero, and no result is still to come for one
that is gone. A size above 15 (or any on a control core), a `YIELD` of more
than there is, and a wait that R190 failed answer 0 and clear `c1`, and change nothing else. With a call window active
they trap with WINDOW-STATE. `CLAIM` takes the number of units when it issues, and keeps it over a wait. -/
def Obligations.ClaimAndYieldResize : Prop :=
  ∀ (s : State) (d a : BitVec 6),
    let m := s.dev
    let n := (m.s a).toNat
    let c := if m.frag.phase = 0 then n else m.frag.taken
    let u := m.wave.base.units
    let issued : Frag := { m.frag with taken := c }
    let resized (f : Frag) (v : Nat) (m' : Dev) : Prop :=
      m' = { m with wave := m'.wave, frag := m'.frag, peers := m'.peers, agenda := m'.agenda } ∧ SameMemory m m' ∧
      m'.frag = nextWord (withoutLost v f) ∧ AnswerIs m m' d (BitVec.ofNat 64 v) true ∧
      m'.wave = { m.wave with sregs := m'.wave.sregs, cregs := m'.wave.cregs, base := m'.wave.base,
                              frags := m.wave.frags.map (withoutLost v) } ∧
      (∀ n, m'.nameWaits m.wave.uid n = (m.nameWaits m.wave.uid n && !lostReg v n)) ∧
      (∀ p ∈ m.peers, p.wave ≠ m.wave.uid → p ∈ m'.peers) ∧ m'.wave.base.units = v ∧
      ∀ r t l, t < 4 → l < 1024 → m'.wave.base.cells.get (cellKey r t l) =
        if r < 8 * min u v then m.wave.base.cells.get (cellKey r t l) else 0
    let refused (m : Dev) (f : Frag) (m' : Dev) : Prop :=
      Kept m m' ∧ m'.frag = nextWord f ∧ AnswerIs m m' d 0 false ∧
      m'.wave = { m.wave with sregs := m'.wave.sregs, cregs := m'.wave.cregs }
    (m.wave.stack = [] →
      (u + c ≤ 15 → (m.wave.core = 12 → c = 0) → BlocksReady m (c * m.wave.unitBlocks) →
        Runs (.claim d a) s (resized issued (u + c))) ∧
      ((15 < u + c ∨ (m.wave.core = 12 ∧ c ≠ 0) ∨ m.frag.phase = 21) →
        Runs (.claim d a) s fun m' => ∃ b, GrantEnds m b ∧ refused b issued m') ∧
      (n ≤ u → Runs (.yield d a) s (resized m.frag (u - n))) ∧
      (u < n → Runs (.yield d a) s (refused m m.frag))) ∧
    (m.wave.stack ≠ [] → ScalarTraps m .windowState →
      Runs (.claim d a) s (fun m' => ∃ b, GrantEnds m b ∧ ScalarTrap b m' .windowState 0 fun _ => 0) ∧
      Runs (.yield d a) s (fun m' => ScalarTrap m m' .windowState 0 fun _ => 0))

/-- R162, R486: `ROLESW` of a launch with roles, outside call windows and with nothing outstanding, resizes the base window
to the role's, sets `ROLE` and `c1` and goes to the role's entry block; without roles, in a child, or across role 3 it
traps with PROTECTION. -/
def Obligations.RoleSwitchGoesToTheEntry : Prop :=
  ∀ (s : State) (r : BitVec 4),
    let m := s.dev
    let l := m.launch
    let b := m.closeWindows
    let u := if m.wave.core = 12 then 0 else l.roleWin r.toNat
    let across := (m.wave.role = 3 ∧ r ≠ 3) ∨ (m.wave.role ≠ 3 ∧ r = 3)
    (l.rolemap ≠ 0 → m.wave.child = false → ¬ across → m.wave.stack = [] →
      m.busyCmds m.wave.uid = false → m.busyPeers m.wave.uid = false → m.busyMatrix m.wave = false →
      (u ≤ m.wave.base.units ∨ BlocksReady m ((u - m.wave.base.units) * m.wave.unitBlocks)) →
      Runs (.rolesw r) s fun m' =>
        KeptButEvents b m' ∧ m'.wave.base.units = u ∧ m'.wave.role = r.toNat ∧ m'.c 1 = true ∧
        m'.wave = { b.wave with base := m'.wave.base, role := m'.wave.role, cregs := m'.wave.cregs,
                                frags := b.wave.frags.map (withoutLost u) } ∧
        m'.frag = { withoutLost u b.frag with
                      spc := l.roleSeg r.toNat * 2 ^ 14 + l.roleBlk r.toNat * 2 ^ 6, fell := false, phase := 0,
                      wait := .none, dualK := 0, dualRem := 0 }) ∧
    ((l.rolemap = 0 ∨ m.wave.child = true ∨ across) → ScalarTraps m .protection →
      Runs (.rolesw r) s fun m' => ScalarTrap m m' .protection 0 fun _ => 0) ∧
    (l.rolemap ≠ 0 → m.wave.child = false → ¬ across → m.wave.stack ≠ [] → ScalarTraps m .windowState →
      Runs (.rolesw r) s fun m' => ∃ b, GrantEnds m b ∧ ScalarTrap b m' .windowState 0 fun _ => 0)

/-! ## Splits, retirement, children -/

/-- R165, R482: `SPLIT` with a free table entry and both targets in the segment opens a split that records the rejoin and
`FMT`. When both sides have lanes, the loaded fragment goes on as the taken side at the target, and the fall-through side,
with the other lanes, at the next word; a side without lanes counts as arrived.
The model's own choices that this rests on: log 94. -/
def Obligations.SplitDividesTheLanes : Prop :=
  ∀ (s : State) (k : BitVec 3) (n : BitVec 1) (t r : BitVec 11),
    let m := s.dev
    let b := m.closeWindows
    let at_ (off : BitVec 11) : Int := (m.frag.spc / 64 : Nat) + off.toInt
    let T := m.frag.mask &&& (if n = 1 then ~~~(m.k k.toNat) else m.k k.toNat)
    let F := m.frag.mask &&& ~~~T
    let id := m.wave.nextSplit
    let f₀ : Frag := { b.frag with dualK := 0, dualRem := 0 }
    let taken : Frag := { f₀ with mask := T, spc := 64 * (at_ t).toNat, fell := false, phase := 0, wait := .none,
                                  path := (id, true) :: f₀.path }
    let fall : Frag := { nextWord f₀ with mask := F, path := (id, false) :: f₀.path }
    let opened (tin fin : Option Mask) (m' : Dev) : Prop :=
      Kept b m' ∧ m'.wave = { b.wave with nextSplit := id + 1, splits := m'.wave.splits, frags := m'.wave.frags,
                                          nextFid := m'.wave.nextFid } ∧
      m'.wave.splits = { id, rejoin := 64 * (at_ r).toNat, fmt := m.frag.fmt, takenIn := tin, fallIn := fin } :: b.wave.splits
    (m.wave.core = 12 → k = 0) → InSegment m (at_ t) → InSegment m (at_ r) → m.wave.splitsHeld false < 16 →
    (T ≠ 0 → F ≠ 0 → Runs (.split k n t r) s fun m' => opened none none m' ∧ m'.frag = taken ∧
      m'.wave.frags = { fall with fid := m.wave.nextFid } :: b.wave.frags ∧ m'.wave.nextFid = m.wave.nextFid + 1) ∧
    (T = 0 → Runs (.split k n t r) s fun m' => opened (some 0) none m' ∧ m'.frag = fall ∧
      m'.wave.frags = b.wave.frags ∧ m'.wave.nextFid = b.wave.nextFid) ∧
    (T ≠ 0 → F = 0 → Runs (.split k n t r) s fun m' => opened none (some 0) m' ∧ m'.frag = taken ∧
      m'.wave.frags = b.wave.frags ∧ m'.wave.nextFid = b.wave.nextFid)

/-- R167, R483: `FUSE` without an open split, or in another block than its rejoin, goes on at the next word; in the rejoin
block, with the sibling not there, the fragment waits and its lanes are noted; with the sibling there, both sets of lanes
go on together, with the split's `FMT`, and the split is closed.
The model's own choices that this rests on: log 95. -/
def Obligations.FuseRejoinsTheSides : Prop :=
  ∀ (s : State) (id : Nat) (taken : Bool) (x : Split) (rest : List (Nat × Bool)),
    let m := s.dev
    let b := m.closeWindows
    let f₀ : Frag := { b.frag with dualK := 0, dualRem := 0 }
    let other := if taken = true then x.fallIn else x.takenIn
    (m.frag.path = [] → Runs .fuse s fun m' => Kept b m' ∧ m'.wave = b.wave ∧ m'.frag = nextWord f₀) ∧
    (m.frag.path = (id, taken) :: rest → m.wave.splits.find? (fun y => y.id = id) = some x →
      (x.rejoin ≠ m.frag.spc / 64 * 64 →
        Runs .fuse s fun m' => Kept b m' ∧ m'.wave = b.wave ∧ m'.frag = nextWord f₀) ∧
      (x.rejoin = m.frag.spc / 64 * 64 → other = none → x.fallAt = none →
        Runs .fuse s fun m' => Kept b m' ∧ m'.frag = { f₀ with wait := .sibling, phase := 0 } ∧
          m'.wave = { b.wave with splits := b.wave.splits.map fun y => if y.id = id then
            (if taken = true then { y with takenIn := some m.frag.mask, fallAt := none }
             else { y with fallIn := some m.frag.mask }) else y }) ∧
      (x.rejoin = m.frag.spc / 64 * 64 → rest = [] → ∀ k, other = some k →
        Runs .fuse s fun m' => Kept b m' ∧
          m'.frag = nextWord { f₀ with mask := m.frag.mask ||| k, fmt := x.fmt, path := [] } ∧
          m'.wave = { b.wave with splits := b.wave.splits.filter fun y => decide (y.id ≠ id),
                                  frags := b.wave.frags.filter fun f => decide (f.path.head? ≠ some (id, !taken)) }))

namespace Sys2Proof.Claims

/-- No error of R73 or R74 is pending for the loaded wave. -/
def NoPendingError (m : Dev) : Prop := m.wave.allMarks = [] ∧ m.wave.asyncerr.getLsbD 63 = false

/-- Nothing of the wave is under way (R174). -/
def Quiet (m : Dev) : Prop :=
  m.busyCmds m.wave.uid = false ∧ m.busyPeers m.wave.uid = false ∧ m.busyMatrix m.wave = false

end Sys2Proof.Claims

/-- R174, R489: `EXIT` and `EXIT.K` in USER mode without a pending error: without a lane to remove the fragment goes on
unchanged; while it keeps lanes it goes on without those removed; when the wave has none left and nothing of it is
outstanding, the wave is left without fragments and its retirement is due. With something outstanding it waits. -/
def Obligations.ExitRemovesLanes : Prop :=
  ∀ (s : State) (k : BitVec 6) (i : Instr) (X : Mask),
    let m := s.dev
    let b := m.closeWindows
    let f₀ : Frag := { b.frag with dualK := 0, dualRem := 0 }
    (i = .exit ∧ X = m.frag.mask ∨ i = .exitK k ∧ k.toNat ≤ 7 ∧ (m.wave.core = 12 → k = 0) ∧ X = m.frag.mask &&& m.k k.toNat) →
    m.wave.super = false → m.frag.fid ≠ 0 → NoPendingError b →
    (X = 0 → m.lanesLeft ≠ 0 → Runs i s fun m' => Kept b m' ∧ m'.wave = b.wave ∧ m'.frag = nextWord f₀) ∧
    (X ≠ 0 → m.frag.mask &&& ~~~X ≠ 0 →
      Runs i s fun m' => Kept b m' ∧ m'.wave = b.wave ∧ m'.frag = nextWord { f₀ with mask := m.frag.mask &&& ~~~X }) ∧
    (X = m.frag.mask → X ≠ 0 → m.wave.frags = [] → m.wave.splits = [] → Quiet m →
      Runs i s fun m' => KeptButEvents b m' ∧ m'.frag = {} ∧ Due m' (.waveRetire m.wave.uid) ∧
        m'.wave = { b.wave with leaving := true, frags := [], splits := [] }) ∧
    (X = m.frag.mask → m.wave.frags = [] → m.wave.splits = [] → ¬ Quiet m →
      Runs i s fun m' => Kept b m' ∧ m'.wave = b.wave ∧ m'.frag = { f₀ with wait := .commands, phase := 8 })

/-- R175, R176, R490, R489: `TAIL` of a wave with one fragment, no room, no peer request or `PEER` command, no pending error
and a tracker entry free retires the wave at once; a wave that has lost its last lane retires when its retirement is due. No such wave
is resident after it, and its posted receives are cancelled. In SUPER mode `TAIL` and `EXIT` trap with PROTECTION. A tracker
entry whose engine commands and matrix instructions are complete is freed, and a child's future word is written then (R148); one
that still waits stays.
The model's own choices that this rests on: log 41. -/
def Obligations.RetirementRemovesTheWave : Prop :=
  (∀ (s : State) (w : Wave),
    let m := s.dev
    let b := m.stash
    (m.wave.uid ≠ 0 → m.wave.super = false → m.wave.frags = [] → m.wave.splits = [] → m.wave.rooms = [] →
      (∀ p ∈ m.peers, p.wave ≠ m.wave.uid) → (∀ c ∈ m.cmds, c.wave = m.wave.uid → c.isPeer = false) →
      NoPendingError m.closeWindows → (m.core m.wave.coreNo).trackerUse < 8 → (∀ x ∈ m.waves, x.uid ≠ m.wave.uid) →
      Runs .tail s fun m' => Gone m' m.wave.uid ∧
        ∀ r ∈ (m'.cluster m.wave.clusterNo).receives, r.wave ≠ m.wave.uid) ∧
    (b.waveOf w.uid = some w → w.leaving = true →
      Runs (.waveRetire w.uid) s fun m' => Gone m' w.uid ∧
        ∀ r ∈ (m'.cluster w.clusterNo).receives, r.wave ≠ w.uid) ∧
    (b.waveOf w.uid = some w → w.leaving = false → Runs (.waveRetire w.uid) s fun m' => m' = b) ∧
    (m.wave.super = true →
      Runs .tail s (fun m' => m' = m.trapC .protection) ∧ Runs .exit s (fun m' => m' = m.trapC .protection))) ∧
  (∀ (s : State) (k i : Nat) (t : Tracked),
    let m := s.dev.stash
    let freed := m.setCore k { m.core k with tracker := (m.core k).tracker.eraseIdx i }
    (m.core k).tracker[i]? = some t →
    (m.trackerDone t = true → t.futva = 0 →
      Runs (.trackerDrain k i) s fun m' => m' = { freed with agenda := m'.agenda }) ∧
    (m.trackerDone t = true → t.futva ≠ 0 → ∀ l, Exists l 8 →
      walkVerdict ((freed.release k 3).homeWalk t.ctx t.futva) t.futva false true false = .ok l →
      Runs (.trackerDrain k i) s fun m' => StoredAt (freed.release k 3) m' l
        (leBytes 8 (2 ^ 63 + if t.killed = true then 2 ^ 62 else t.result))) ∧
    (m.trackerDone t = false → Runs (.trackerDrain k i) s fun m' => m' = m))

namespace Sys2Proof.Claims

/-- The child that the loaded wave's descriptor `d` describes (R145, R148). -/
def childOf (m : Dev) (d : List Byte) : Child :=
  { launch := m.wave.launch, parent := m.wave.uid, ctx := m.wave.ctx, cluster := m.wave.cluster, depth := m.wave.depth + 1,
    waveid := m.launch.waves + m.launch.children, eseg := fld (dwordOf d 0) 59 56, eblk := fld (dwordOf d 0) 55 48,
    scratch := fld (dwordOf d 0) 42 32, basewin := fld (dwordOf d 0) 19 16, lanes := fld (dwordOf d 0) 10 0,
    arg := BitVec.ofNat 64 (dwordOf d 1), futva := fld (dwordOf d 2) 48 0, trec := m.wave.trec }

/-- The child of `d` is in the queue of the wave's die, `IRREV` is set, and the fragment goes on. -/
def ChildQueued (m m' : Dev) (d : List Byte) : Prop :=
  m' = { m with wave := m'.wave, frag := m'.frag, dies := m'.dies, launches := m'.launches, agenda := m'.agenda } ∧
  SameMemory m m' ∧ m'.frag = nextWord { m.frag with desc := [] } ∧
  m'.wave = { m.wave with wavectl := m.wave.wavectl ||| 2, everirr := true } ∧
  (∀ j, m'.die j = if j = m.wave.die then { m.die j with spawns := (m.die j).spawns ++ [childOf m d] } else m.die j) ∧
  m'.launches = m.launches.map (fun x => if x.num = m.wave.launch then { x with children := x.children + 1 } else x) ∧
  Due m' (.childPlacement m.wave.die)

/-- The child of `d` waits for an entry of the queue (R145, R480). -/
def ChildWaits (m m' : Dev) (d : List Byte) : Prop :=
  Kept m m' ∧ m'.wave = m.wave ∧ m'.frag = { m.frag with desc := d, wait := .spawnRoom, phase := 18 }

end Sys2Proof.Claims

/-- R145, R147, R488: `SPAWN` above depth 3 traps with SPAWN-DEPTH; with a descriptor that keeps R145 and R146, a future
word that may be written (or none), its release done and an entry free, it queues the child of the descriptor on its die,
sets `IRREV` and goes on; without a free entry it waits. The descriptor is read once: what goes on after either wait is
the child of the descriptor that was read. -/
def Obligations.SpawnQueuesTheChild : Prop :=
  ∀ (s : State) (a : BitVec 6) (d : List Byte) (m₁ m₂ m₃ : Dev),
    let m := s.dev
    let fut := fld (dwordOf d 2) 48 0
    let ends (m : Dev) : Prop :=
      ((m.die m.wave.die).spawns.length < 256 → Runs (.spawn a) s fun m' => ChildQueued m m' d) ∧
      (256 ≤ (m.die m.wave.die).spawns.length → Runs (.spawn a) s fun m' => ChildWaits m m' d)
    (m.frag.phase ≠ 17 → m.frag.phase ≠ 18 →
      (4 ≤ m.wave.depth → ScalarTraps m .spawnDepth →
        Runs (.spawn a) s fun m' => ScalarTrap m m' .spawnDepth 0 fun _ => 0) ∧
      (m.wave.depth < 4 → m.readDesc (m.s a).toNat 32 32 [.global] = .ok (d, m₁) →
        (childOk m₁.launch m₁.wave.tang d = false → ScalarTraps m₁ .spawnNofit →
          Runs (.spawn a) s fun m' => ScalarTrap m₁ m' .spawnNofit 0 fun _ => 0) ∧
        (childOk m₁.launch m₁.wave.tang d = true →
          (fut = 0 ∧ m₂ = m₁ ∨ fut ≠ 0 ∧ ∃ ss, m₁.checkRange fut 8 { windows := [.global], wr := true, align := 8 } = .ok (ss, m₂)) →
          (m₂.releaseWait 3 17 = .ok m₃ → ends m₃) ∧
          (m₂.releaseWait 3 17 = .error m₃ → Runs (.spawn a) s fun m' => m' = { m₃ with frag := { m₃.frag with desc := d } })))) ∧
    ((m.frag.phase = 17 ∨ m.frag.phase = 18) → m.frag.desc = d → ends m)

/-! ## Rooms -/

namespace Sys2Proof.Claims

/-- The wave `uid` is resident in `m` with a fragment `fid` that is `f`. -/
def HasFrag (m : Dev) (uid fid : Nat) (f : Frag) : Prop :=
  uid ≠ 0 ∧ ∃ w, m.waveOf uid = some w ∧ w.frags.find? (fun x => x.fid = fid) = some f

/-- A fragment's request about a region is pending in a phase: `RENTER` 1, `RLEAVE` 5, `RCLR` 6. -/
def Asks (m : Dev) (uid fid phase : Nat) (r : Room) : Prop :=
  ∃ f, HasFrag m uid fid f ∧ f.wait = .event ∧ f.phase = phase ∧ f.asked = some r

/-- The waves of `m` with fragment `fid` of wave `uid` put through `g`, and the wave through `h`. -/
def wavesWith (m : Dev) (uid fid : Nat) (h : Wave → Wave) (g : Frag → Frag) : List Wave :=
  m.waves.map fun w => if w.uid = uid then h { w with frags := w.frags.map fun f => if f.fid = fid then g f else f } else w

/-- The answer of the tun ends the wait (R279, R281). -/
def answered (phase : Nat) (f : Frag) : Frag := { f with wait := .none, phase }

/-- The wave has entered the room (R279): it stands in the table, and the wave is irrevocable. -/
def entered (r : Room) (w : Wave) : Wave :=
  { w with rooms := w.rooms ++ [r], wavectl := w.wavectl ||| 2, everirr := true }

/-- The descriptor lies in device memory (R275, R277). -/
def DescAt (place : Nat) : Prop := place + 64 ≤ devBytes

/-- The state words of the descriptor at `place` are `t`; no byte outside them differs between `m` and `m'` (R277, R523). -/
def TunIs (m m' : Dev) (place : Nat) (t : TunWords) : Prop :=
  m'.tunWords place = t ∧ ∀ l, (∀ i, 0x28 ≤ i → i < 0x40 → l ≠ .dev (place + i)) → m'.byteAt l = m.byteAt l

end Sys2Proof.Claims

/-- R279, R493: `RENTER` whose checks pass asks the tun and waits; once it is admitted it drops the core's G lines and goes
on; once it is refused it traps with REGION-POISONED. While another fragment of its wave is in `RENTER` it waits. Its checks
trap in their order: PROTECTION outside the global window, MISALIGNED off 64 bytes, ROOM-LIMIT with four rooms, ROOM-ORDER
below a held descriptor. `RLEAVE` of a room not held traps with ROOM-NOT-HELD.
The model's own choices that this rests on: log 21, log 44. -/
def Obligations.RoomEntryAsksTheTun : Prop :=
  (∀ (s : State) (a : BitVec 6) (mode : BitVec 3) (r : Room) (m₁ : Dev),
    let m := s.dev
    (m.frag.phase = 0 → (∀ f ∈ m.wave.frags, ¬ (f.wait = .event ∧ f.phase = 1)) →
      m.roomAsked (m.s a).toNat mode.toNat = .ok (r, m₁) →
      Runs (.renter a mode) s fun m' => KeptButEvents m₁ m' ∧ m'.wave = m₁.wave ∧
        m'.frag = waiting { m₁.frag with asked := some r } 1 ∧
        Due m' (.tunEnter r.place mode.toNat m₁.wave.uid m₁.frag.fid)) ∧
    (m.frag.phase = 0 → (∃ f ∈ m.wave.frags, f.wait = .event ∧ f.phase = 1) →
      Runs (.renter a mode) s fun m' => Kept m m' ∧ m'.wave = m.wave ∧ m'.frag = { m.frag with wait := .room, phase := 0 }) ∧
    (m.frag.phase = 2 → Runs (.renter a mode) s fun m' => AcquiredOnly m m' ∧ m'.wave = m.wave ∧ NextWord m m') ∧
    (m.frag.phase = 3 → ScalarTraps m .regionPoisoned →
      Runs (.renter a mode) s fun m' => ScalarTrap m m' .regionPoisoned 0 fun _ => 0)) ∧
  (∀ (s : State) (a : BitVec 6) (mode : BitVec 3),
    let m := s.dev
    let p := (m.s a).toNat
    let traps (i : Instr) (k : Cause) (lf : Nat → DWord) : Prop := Runs i s fun m' => ScalarTrap m m' k 0 lf
    m.frag.phase = 0 →
    ((∀ f ∈ m.wave.frags, ¬ (f.wait = .event ∧ f.phase = 1)) →
      (2 ^ 56 ≤ p → ScalarTraps m .protection → traps (.renter a mode) .protection (inLanes m.wave.wlanes p)) ∧
      (p < 2 ^ 56 → p % 64 ≠ 0 → ScalarTraps m .misaligned →
        traps (.renter a mode) .misaligned (inLanes m.wave.wlanes p)) ∧
      (p < 2 ^ 56 → p % 64 = 0 → 4 ≤ m.wave.rooms.length → ScalarTraps m .roomLimit →
        traps (.renter a mode) .roomLimit fun _ => 0) ∧
      (p < 2 ^ 56 → p % 64 = 0 → m.wave.rooms.length < 4 → (∃ r ∈ m.wave.rooms, p ≤ r.desc) → ScalarTraps m .roomOrder →
        traps (.renter a mode) .roomOrder fun _ => 0)) ∧
    ((∀ r ∈ m.wave.rooms, r.desc ≠ p) → ScalarTraps m .roomNotHeld → traps (.rleave a) .roomNotHeld fun _ => 0))

/-- R282, ENTER: the tun opens a CLOSED region in the mode asked for, admits one more wave of the open mode, and otherwise
lets the wave wait, drains the region and notes the demand; a poisoned region refuses. An admitted wave has the room. R283: a
request that finds the waiting list of the slice full waits outside it, and is no demand. -/
def Obligations.TunEnterFollowsTheTable : Prop :=
  ∀ (s : State) (place uid fid : Nat) (r : Room),
    let m := s.dev.stash
    let t := m.tunWords place
    let x := r.mode
    let runs (P : Dev → Prop) : Prop := Runs (.tunEnter place x uid fid) s P
    DescAt place → x < 5 → Asks m uid fid 1 r → r.place = place →
    (∀ w ∈ (m.tun place).waiting ++ (m.tun place).routed, ¬ (w.1 = uid ∧ w.2.1 = fid)) →
    (t.poison = true → runs fun m' => SameMemory m m' ∧
      m'.waves = wavesWith m uid fid id fun f => answered 3 { f with asked := none }) ∧
    (t.poison = false → t.phase = .closed → t.demand = [] → runs fun m' =>
      TunIs m m' place { t with phase := .open, mode := x, occ := 1, opens := (t.opens + 1) % 2 ^ 64 } ∧
      m'.waves = wavesWith m uid fid (entered r) fun f => answered 2 { f with asked := none }) ∧
    (t.poison = false → t.phase = .open → t.mode = x → t.demand = [] → runs fun m' =>
      TunIs m m' place { t with occ := (t.occ + 1) % 2 ^ 32 } ∧
      m'.waves = wavesWith m uid fid (entered r) fun f => answered 2 { f with asked := none }) ∧
    (t.poison = false → (t.phase = .open ∧ t.mode ≠ x ∨ t.phase = .draining) → 4096 ≤ m.sliceWaiting (tunSlice place) →
      runs fun m' => SameMemory m m' ∧ m'.waves = m.waves ∧ (m'.tun place).waiting = (m.tun place).waiting ∧
        (m'.tun place).routed = (m.tun place).routed ++ [(uid, fid, x)]) ∧
    (t.poison = false → t.phase = .open → t.mode ≠ x → t.demand = [] → m.sliceWaiting (tunSlice place) < 4096 → runs fun m' =>
      TunIs m m' place { t with phase := .draining, demand := [x] } ∧ m'.waves = m.waves ∧
      (m'.tun place).waiting = (m.tun place).waiting ++ [(uid, fid, x)]) ∧
    (t.poison = false → t.phase = .draining → t.demand.length ≤ 4 → m.sliceWaiting (tunSlice place) < 4096 → runs fun m' =>
      TunIs m m' place { t with demand := if x ∈ t.demand then t.demand else t.demand ++ [x] } ∧ m'.waves = m.waves ∧
      (m'.tun place).waiting = (m.tun place).waiting ++ [(uid, fid, x)])

namespace Sys2Proof.Claims

/-- A wave whose fragments on the list `cs` (wave, fragment) are told that their CLEAR is done (R282). -/
def cleared (cs : List (Nat × Nat)) (w : Wave) : Wave :=
  { w with frags := w.frags.map fun f => if (w.uid, f.fid) ∈ cs then answered 7 f else f }

/-- A wave after the waiters `ins` (wave, fragment, mode) have been admitted with the rooms that their fragments ask for in `b`
(R279, R282). -/
def admitted (b : Dev) (ins : List (Nat × Nat × Nat)) (w : Wave) : Wave :=
  match ins.find? fun y => y.1 = w.uid with
  | none => w
  | some y =>
    let asked := (b.fragOf y.1 fun f => f.fid = y.2.1).bind (·.asked)
    { w with rooms := w.rooms ++ asked.toList, wavectl := w.wavectl ||| 2, everirr := true,
             frags := w.frags.map fun f => if f.fid = y.2.1 then answered 2 { f with asked := none } else f }

/-- A shadow line of a room of the loaded wave (R285). -/
def shadowOf (m : Dev) (room : Nat) (l : Line) : Bool := l.st = .shadow && l.wave = m.wave.uid && l.room = room

end Sys2Proof.Claims

/-- R280, R282 LEAVE: `RLEAVE` of a room waits until no peer access of its wave is outstanding, is irrevocable, releases at
`.DEV`, waits while a line of its release is on its way, takes the entry out of the table and sends LEAVE. R285: in an ACCUM room
the wave's shadow lines of the region leave the L1, and each element of a shadow line is added to the element in memory (shown
for one line, of device memory without pending or poisoned bytes). The tun counts the occupant out; after the last it closes an
OPEN region, which takes the CLEARs that it held; a DRAINING one goes to the first demanded mode that has waiters and admits all of
them, or closes when none has. The answer ends the wait, of a sender that is still there. -/
def Obligations.RoomsAreLeft : Prop :=
  ∀ (s : State) (a : BitVec 6) (r : Room) (m₁ : Dev) (place uid : Nat) (f : Frag),
    let m := s.dev
    let b := m.stash
    let t := b.tunWords place
    let u := b.tun place
    let k := m.wave.coreNo
    let left (m' : Dev) : Prop :=
      (∀ p, m'.tun p = if p = r.place then { m₁.tun p with leaves := (m₁.tun p).leaves ++ [m₁.wave.uid] } else m₁.tun p) ∧
      m'.wave = { m₁.wave with rooms := m₁.wave.rooms.filter fun x => decide (x.desc ≠ r.desc) } ∧
      m'.frag = waiting { m₁.frag with asked := some r } 5 ∧ Due m' (.tunLeave r.place m₁.wave.uid)
    (m.wave.rooms.find? (fun x => x.desc = (m.s a).toNat) = some r →
      (m.frag.phase = 0 → m.busyPeers m.wave.uid = true → Runs (.rleave a) s fun m' =>
        Kept m m' ∧ m'.wave = m.irrev.wave ∧ m'.frag = { m.frag with wait := .peers, phase := 0 }) ∧
      (m.frag.phase = 0 → m.busyPeers m.wave.uid = false → m₁ = m.irrev.releaseStart k 3 → m₁.draining m₁.wave.die = true →
        Runs (.rleave a) s fun m' => m' = { m₁ with frag := { m₁.frag with wait := .drain, phase := 4 } }) ∧
      ((m.frag.phase = 4 ∧ m₁ = m ∨
        m.frag.phase = 0 ∧ m.busyPeers m.wave.uid = false ∧ m₁ = m.irrev.releaseStart k 3 ∧ m₁.draining m₁.wave.die = false) →
        (r.mode ≠ 2 → Runs (.rleave a) s fun m' =>
          m' = { m₁ with wave := m'.wave, frag := m'.frag, tuns := m'.tuns, agenda := m'.agenda } ∧ SameMemory m₁ m' ∧
          left m') ∧
        (r.mode = 2 → ∀ l : Line, (m₁.core k).l1.filter (shadowOf m r.desc) = [l] → 128 * (l.num + 1) ≤ devBytes →
          l.num < hostLine → NoPending m₁ k (.dev (128 * l.num)) → l.poison = 0 →
          (∀ i, i < 128 → m₁.poisonAt (.dev (128 * l.num + i)) = false) →
          let sz := if l.atype = 2 then 8 else if l.atype = 3 then 2 else 4
          Runs (.rleave a) s fun m' =>
            m' = { m₁ with wave := m'.wave, frag := m'.frag, tuns := m'.tuns, agenda := m'.agenda, mem := m'.mem,
                           hostHeld := m'.hostHeld, cores := m'.cores, dies := m'.dies } ∧ left m' ∧
            (∀ x ∈ (m'.core k).l1, shadowOf m r.desc x = false) ∧
            (∀ i, i < 128 / sz → m'.bytesAt (.dev (128 * l.num + sz * i)) sz =
              leBytes sz (atypeAdd l.atype (ofBytes (m₁.bytesAt (.dev (128 * l.num + sz * i)) sz))
                (ofBytes (l.data.getBytes (sz * i) sz)))) ∧
            ∀ x, (∀ i, i < 128 → x ≠ .dev (128 * l.num + i)) → m'.byteAt x = m₁.byteAt x))) ∧
    (m.frag.phase = 7 → Runs (.rleave a) s (fun m' => Passed m m') ∧ Runs (.rclr a) s fun m' => Passed m m') ∧
    (DescAt place → uid ∈ u.leaves → uid ≠ 0 → (∀ c ∈ u.clears, c.1 ≠ 0) →
      let told (ws : List Wave) (m' : Dev) : Prop :=
        (b.fragOf uid (asks place 5) = some f →
          m'.waves = wavesWith { b with waves := ws } uid f.fid id fun f => answered 7 { f with asked := none }) ∧
        (b.fragOf uid (asks place 5) = none → m'.waves = ws)
      let closes (m' : Dev) : Prop :=
        TunIs b m' place { opens := t.opens, poison := t.poison && decide (u.clears = []) } ∧ (m'.tun place).clears = [] ∧
        told (b.waves.map (cleared u.clears)) m'
      (t.phase = .closed → Runs (.tunLeave place uid) s fun m' => SameMemory b m' ∧ told b.waves m') ∧
      (t.phase ≠ .closed → t.demand.length ≤ 5 → 2 ≤ t.occ →
        Runs (.tunLeave place uid) s fun m' => TunIs b m' place { t with occ := t.occ - 1 } ∧ told b.waves m') ∧
      (t.phase = .open → t.demand = [] → t.occ = 1 → Runs (.tunLeave place uid) s closes) ∧
      (t.phase = .draining → t.demand.length ≤ 5 → t.occ = 1 →
        (∀ (pre : List Nat) (x : Nat) (q : List Nat), t.demand = pre ++ x :: q → (∀ y ∈ u.waiting, y.2.2 ∉ pre) →
          let ins := u.waiting.filter fun y => decide (y.2.2 = x)
          ins ≠ [] → ins.length < 2 ^ 32 → (ins.map (·.1)).Nodup → (∀ y ∈ ins, y.1 ≠ 0) →
          Runs (.tunLeave place uid) s fun m' =>
            TunIs b m' place { t with mode := x, demand := q, occ := ins.length, opens := (t.opens + 1) % 2 ^ 64,
                                      phase := if q = [] then .open else .draining } ∧
            (m'.tun place).waiting = u.waiting.filter (fun y => decide (y.2.2 ≠ x)) ∧
            told (b.waves.map (admitted b ins)) m') ∧
        ((∀ y ∈ u.waiting, y.2.2 ∉ t.demand) → Runs (.tunLeave place uid) s closes)))

/-- R281, R282 CLEAR, KILL, WITHDRAW: `RCLR` whose checks pass asks the tun and waits; CLEAR of a region that is not poisoned,
or is CLOSED, is answered and leaves no poison, and is held while the region is open; KILL poisons the region, empties the demand
queue, counts an occupant out, and answers REFUSED to every wave that waits, whose set is empty then; after the last occupant the
region is CLOSED and takes the CLEARs that it held. WITHDRAW takes a victim out of the waiting set, and its `RENTER` starts anew.
A kill, a withdrawal or a CLEAR that nothing asks for changes nothing.
The model's own choices that this rests on: log 10. -/
def Obligations.TunClearKillAndWithdraw : Prop :=
  ∀ (s : State) (a : BitVec 6) (place uid fid : Nat) (r : Room) (bs : List Byte) (m₁ : Dev) (w : Wave),
    let m := s.dev
    let b := m.stash
    let t := b.tunWords place
    let u := b.tun place
    (m.frag.phase = 0 → (m.s a).toNat < 2 ^ 56 → (m.s a).toNat % 64 = 0 → (∀ x ∈ m.wave.rooms, x.desc ≠ (m.s a).toNat) →
      m.readRoomDesc (m.s a).toNat = .ok (bs, place, m₁) → descOk (dwordOf bs) = true →
      Runs (.rclr a) s fun m' => KeptButEvents m₁ m' ∧
        m'.wave = { m₁.wave with wavectl := m₁.wave.wavectl ||| 2, everirr := true } ∧
        m'.frag = waiting { m₁.frag with asked := some (roomOf (m.s a).toNat place 0 (dwordOf bs)) } 6 ∧
        Due m' (.tunClear place m₁.wave.uid m₁.frag.fid)) ∧
    (DescAt place → Asks b uid fid 6 r → r.place = place → (uid, fid) ∉ u.clears →
      (t.poison = false → Runs (.tunClear place uid fid) s fun m' => SameMemory b m' ∧
        m'.waves = wavesWith b uid fid id (answered 7)) ∧
      (t.poison = true → t.phase = .closed → t.demand = [] → t.mode = 0 → Runs (.tunClear place uid fid) s fun m' =>
        TunIs b m' place { t with poison := false } ∧ m'.waves = wavesWith b uid fid id (answered 7)) ∧
      (t.poison = true → t.phase ≠ .closed → Runs (.tunClear place uid fid) s fun m' => SameMemory b m' ∧
        m'.waves = b.waves ∧ (m'.tun place).clears = u.clears ++ [(uid, fid)])) ∧
    (DescAt place → 0 < u.kills → t.phase ≠ .closed → (∀ x ∈ u.waiting, x.1 ≠ 0) → (∀ c ∈ u.clears, c.1 ≠ 0) →
      let refused (w : Wave) : Wave := { w with frags := w.frags.map fun f =>
        if ∃ x ∈ u.waiting, x.1 = w.uid ∧ x.2.1 = f.fid then answered 3 { f with asked := none } else f }
      (2 ≤ t.occ → Runs (.tunKill place) s fun m' =>
        TunIs b m' place { t with poison := true, demand := [], occ := t.occ - 1, phase := .open } ∧
        (m'.tun place).waiting = [] ∧ m'.waves = b.waves.map refused) ∧
      (t.occ = 1 → Runs (.tunKill place) s fun m' =>
        TunIs b m' place { opens := t.opens, poison := decide (u.clears = []) } ∧
        (m'.tun place).waiting = [] ∧ (m'.tun place).clears = [] ∧
        m'.waves = (b.waves.map refused).map (cleared u.clears))) ∧
    (u.kills = 0 → Runs (.tunKill place) s fun m' => m' = b) ∧
    ((∀ x, b.waveOf uid = some x → x.victim = false) → Runs (.tunWithdraw place uid) s fun m' => m' = b) ∧
    (b.fragOf uid (fun f => f.fid = fid && asks place 6 f) = none → Runs (.tunClear place uid fid) s fun m' => m' = b) ∧
    (w.uid ≠ 0 → b.waveOf w.uid = some w → w.victim = true → Runs (.tunWithdraw place w.uid) s fun m' => SameMemory b m' ∧
      (m'.tun place).waiting = u.waiting.filter (fun x => decide (x.1 ≠ w.uid)) ∧
      m'.waves = b.waves.map fun x => if x.uid = w.uid then { x with frags := x.frags.map fun f =>
        if f.wait = .event ∧ f.phase = 1 ∧ (∃ y, f.asked = some y ∧ y.place = place) then
          { f with wait := .none, phase := 0, asked := none, instr := none } else f } else x)

/-! ## Fences, batches, monitors, drains -/

/-- R264, R271, R272, R494: `FENCE` and `FENCE.X` without an outstanding peer request or a pending error: an acquire drops the
core's G lines; a release goes on once its lines are home; both go on at the next word. With a peer request out they wait.
R73, R74, R341: a `FENCE` or `CWAIT` of a wave whose `ASYNCERR.V` is set, with no poison mark, traps with the cause
that `ASYNCERR` names, and `STVAL` holds the failing address recorded with it.
The model's own choices that this rests on: log 24, log 31. -/
def Obligations.FencesReleaseAndAcquire : Prop :=
  (∀ (s : State) (scope : BitVec 3) (kind : BitVec 2) (cla clb : BitVec 6) (i : Instr) (m₁ : Dev),
    let m := s.dev
    let lanes := i = .fence scope kind ∨ i = .fenceX scope kind cla clb ∧ cla.getLsbD 0 = true
    (lanes ∨ i = .fenceX scope kind cla clb) →
    (m.busyPeers m.wave.uid = false → NoPendingError m →
      (kind ≠ 0 ∧ lanes ∧ m.releaseWait scope.toNat = .ok m₁ ∨ (kind = 0 ∨ ¬ lanes) ∧ m₁ = m) →
      (kind = 1 → Runs i s fun m' => Passed m₁ m') ∧
      (kind ≠ 1 → Runs i s fun m' => AcquiredOnly m₁ m' ∧ m'.wave = m₁.wave ∧ NextWord m₁ m')) ∧
    (m.busyPeers m.wave.uid = true →
      Runs i s fun m' => Kept m m' ∧ m'.wave = m.wave ∧ m'.frag = { m.frag with wait := .peers, phase := 0 })) ∧
  (∀ (s : State) (scope : BitVec 3) (kind : BitVec 2) (a : BitVec 6),
    let m := s.dev
    let k := asyncCause (fld m.wave.asyncerr.toNat 55 48)
    m.wave.allMarks = [] → m.wave.asyncerr.getLsbD 63 = true → ScalarTraps m k →
    (m.busyPeers m.wave.uid = false →
      Runs (.fence scope kind) s fun m' => ScalarTrap m m' k m.wave.asyncAddr.toNat fun _ => 0) ∧
    Runs (.cwait a) s fun m' => ScalarTrap m m' k m.wave.asyncAddr.toNat fun _ => 0)

/-- R264, R246, R247: after a release at `.DEV` or `.SYS` the merge buffer of the die is empty; after one at `.DIE` or wider
no core of the cluster holds a P line, when each P line is the line that its core finds under its number. R246, R247, R249: a
line of a die merge buffer that is taken home leaves the buffer, and its masked bytes stand at the home; no other byte changes.
R265: a line that the die's atomic unit holds leaves it so, and no byte changes.
A G line that has stood for 65,536 cycles is dropped, and no other line.
The model's own choices that this rests on: log 24. -/
def Obligations.PendingLinesGoHome : Prop :=
  (∀ (m : Dev) (k sc : Nat), 2 ≤ sc → (m.cores.map fun x => x.1).Nodup →
    (∀ j, ∀ l ∈ (m.core j).l1, l.st = .p → m.line j l.num = some l) →
    (∀ j, j / 13 = k / 13 → ∀ l ∈ ((m.release k sc).core j).l1, l.st ≠ .p) ∧
    (3 ≤ sc → ((m.release k sc).die (k / 208)).merge = [])) ∧
  (∀ (s : State) (d num k : Nat) (x : MLine),
    let m := s.dev.stash
    ((m.die d).merge.find? (fun y => y.num = num) = some x → d < 8 → 128 * num + 128 ≤ devBytes →
      Runs (.memoryAccessPerformed d num) s fun m' =>
        (∀ y ∈ (m'.die d).merge, y.num ≠ num) ∧
        (∀ i, i < 128 → x.mask.getLsbD i = true → m'.byteAt (.dev (128 * num + i)) = x.data.get i) ∧
        ∀ l, (∀ i, i < 128 → x.mask.getLsbD i = true → l ≠ .dev (128 * num + i)) → m'.byteAt l = m.byteAt l) ∧
    ((∀ y ∈ (m.die d).merge, y.num ≠ num) → (∃ y ∈ (m.die d).atomics, y.num = num) → d < 8 → 128 * num + 128 ≤ devBytes →
      Runs (.memoryAccessPerformed d num) s fun m' =>
        (∀ e ∈ m'.dies, ∀ y ∈ e.atomics, y.num ≠ num) ∧ ∀ l, m'.byteAt l = m.byteAt l) ∧
    Runs (.gLineExpiry k num) s fun m' => SameMemory m m' ∧ m' = { m with cores := m'.cores } ∧
      ∀ j, m'.core j = if j = k then { m.core j with l1 := (m.core j).l1.filter fun y =>
        !(decide (y.num = num) && decide (y.st = .g) && decide (y.filled + 65536 ≤ (m.core k).cycle.toNat)) } else m.core j)

/-- R340, R341, R496: `CBATCH` closes the open batch under the next number, which sD takes, unless 64 batches are
incomplete and it would be one more, when it waits; `CWAIT` goes on as an acquire once the batches up to sA are complete
and no peer request of a lane access is outstanding, and waits until then. -/
def Obligations.BatchesAreCountedAndAwaited : Prop :=
  ∀ (s : State) (d a : BitVec 6),
    let m := s.dev
    let w := m.wave
    let full := m.running w.openBatch = true ∧ 64 ≤ m.incomplete w
    (¬ full → Runs (.cbatch d) s fun m' => Kept m m' ∧ NextWord m m' ∧
      m'.wave = { w with batchNum := w.batchNum + 1, openBatch := [], closed := m'.wave.closed, sregs := m'.wave.sregs } ∧
      (∀ r, m'.s r = if r = d ∧ r ≠ 0 then BitVec.ofNat 64 (w.batchNum + 1).toNat else m.s r) ∧
      ∀ x, x ∈ m'.wave.closed ↔ (x ∈ w.closed ∧ m.running x.cmds = true) ∨
        (x = { num := w.batchNum + 1, cmds := w.openBatch } ∧ m.running w.openBatch = true)) ∧
    (full → Runs (.cbatch d) s fun m' => Kept m m' ∧ m'.wave = w ∧ m'.frag = { m.frag with wait := .batchRoom, phase := 0 }) ∧
    (NoPendingError m → m.waitsBatch w (BitVec.ofNat 32 (m.s a).toNat) = false →
      (m.busyPeers w.uid = false → Runs (.cwait a) s fun m' => AcquiredOnly m m' ∧ m'.wave = w ∧ NextWord m m') ∧
      (m.busyPeers w.uid = true →
        Runs (.cwait a) s fun m' => Kept m m' ∧ m'.wave = w ∧ m'.frag = { m.frag with wait := .peers, phase := 0 })) ∧
    (NoPendingError m → m.waitsBatch w (BitVec.ofNat 32 (m.s a).toNat) = true →
      Runs (.cwait a) s fun m' => Kept m m' ∧ m'.wave = w ∧
        m'.frag = { m.frag with wait := .batches (BitVec.ofNat 32 (m.s a).toNat), phase := 0 })

namespace Sys2Proof.Claims

/-- The condition of `MWAIT` on the word (R333, R343). -/
def mwaitHolds (cond : BitVec 2) (w b : DWord) : Prop :=
  match cond.toNat with
  | 0 => w = b
  | 1 => w ≠ b
  | _ => b.toInt ≤ w.toInt

/-- What an event that wakes the package leaves: in P2 its exit is due (R108). -/
def roused (s : State) (m : Dev) : Dev := if s.pwr.state = .p2 then m.push .p2Exit else m

/-- A trigger ends the wait, and `MWAIT` reads the word again. -/
def triggered (f : Frag) : Frag := if inMwait f = true then { f with wait := .none, phase := 22 } else f

/-- The core cycle at which a wait of sA cycles ends. -/
def after (m : Dev) (a : BitVec 6) : Nat := (m.core m.wave.coreNo).cycle.toNat + (m.s a).toNat

end Sys2Proof.Claims

/-- R342, R343, R497: `MON` of a word whose check passes arms the monitor on its place; `MWAIT` arms it where the tables have
the word now (R519), reads it and goes on with `c1` set when the condition holds, else waits, with a deadline when sA is not
zero; a trigger lets it read again; its time out clears `c1`, and does not come in P2, where the counter stands (R516).
Without a monitor `MWAIT` traps with PROTECTION.
The model's own choices that this rests on: log 21, log 42. -/
def Obligations.MonitorsWakeTheWait : Prop :=
  ∀ (s : State) (a b : BitVec 6) (cond : BitVec 2) (sp : Span) (m₁ m₂ : Dev) (p : DWord) (l : Loc) (bs : List (Byte × Bool))
    (uid fid t : Nat) (w : Wave) (f : Frag),
    let m := s.dev
    let c := m.stash
    let word : DWord := BitVec.ofNat 64 (ofBytes (bs.map fun x => x.1))
    (m.checkRange (m.s a).toNat 8 { windows := scalarWindows, rd := true, align := 8 } = .ok ([sp], m₁) →
      Runs (.mon a) s fun m' =>
        m' = { m₁ with wave := { m₁.wave with monitor := some (m.s a, sp.loc) }, frag := nextWord m₁.frag,
                       watch := m'.watch } ∧
        (sp.loc, 8, .monitorTrigger m₁.wave.uid) ∈ m'.watch) ∧
    (m.wave.monitor = none → ScalarTraps m .protection →
      Runs (.mwait a b cond) s fun m' => ScalarTrap m m' .protection 0 fun _ => 0) ∧
    (m.wave.monitor = some (p, l) → m.frag.phase ≠ 23 →
      m.checkRange p.toNat 8 { windows := scalarWindows, rd := true, align := 8 } = .ok ([sp], m₁) →
      (m₁.arm p sp.loc).acquire.loadAt { addr := p.toNat, loc := some sp.loc, use := .memory } 8 true = (bs, m₂) →
      (∀ x ∈ bs, x.2 = false) →
      (mwaitHolds cond word (m₂.s b) → Runs (.mwait a b cond) s fun m' => Kept m₂ m' ∧
        m'.wave = { m₂.wave with cregs := m'.wave.cregs } ∧ (∀ x, m'.c x = if x = 1 then true else m₂.c x) ∧
        m'.frag = nextWord { m₂.frag with deadline := none }) ∧
      (¬ mwaitHolds cond word (m₂.s b) → m.frag.phase ≠ 22 → (m₂.s a).toNat = 0 → Runs (.mwait a b cond) s fun m' =>
        Kept m₂ m' ∧ m'.wave = m₂.wave ∧ m'.frag = { m₂.frag with deadline := none, wait := .monitor none, phase := 23 }) ∧
      (¬ mwaitHolds cond word (m₂.s b) → m.frag.phase ≠ 22 → (m₂.s a).toNat ≠ 0 → Runs (.mwait a b cond) s fun m' =>
        Kept m₂ m' ∧ m'.wave = m₂.wave ∧
        m'.frag = { m₂.frag with deadline := some (after m₂ a), wait := .monitor (some (after m₂ a)), phase := 23 })) ∧
    (m.wave.monitor = some (p, l) → m.frag.phase = 23 → Runs (.mwait a b cond) s fun m' => Kept m m' ∧
      m'.wave = { m.wave with cregs := m'.wave.cregs } ∧ (∀ x, m'.c x = if x = 1 then false else m.c x) ∧
      m'.frag = nextWord { m.frag with deadline := none }) ∧
    (uid ≠ 0 → Runs (.monitorTrigger uid) s fun m' =>
      m' = roused s { c with waves := c.waves.map fun x => if x.uid = uid then { x with frags := x.frags.map triggered } else x }) ∧
    (s.pwr.state = .p2 → Runs (.mwaitTimeout uid fid) s fun m' => m' = m) ∧
    (s.pwr.state ≠ .p2 → uid ≠ 0 → c.waveOf uid = some w →
      c.fragOf uid (fun f => decide (f.fid = fid) && inMwait f) = some f → f.deadline = some t → t < 2 ^ 64 → Runs (.mwaitTimeout uid fid) s fun m' =>
        m'.waves = wavesWith c uid fid id (answered 23) ∧ t ≤ (m'.core w.coreNo).cycle.toNat ∧ SameMemory c m')

/-! ## Traps, returns, system registers -/

namespace Sys2Proof.Claims

/-- The codes that `TRAP` posts in SUPER mode (R513): bit 19, bits [18:8] zero, a code that software may post. -/
def postsEntry (imm : BitVec 20) : Prop :=
  imm.getLsbD 19 = true ∧ imm.toNat / 256 % 2048 = 0 ∧
  (imm.toNat % 256 = 0x04 ∨ imm.toNat % 256 = 0x08 ∨ 0x80 ≤ imm.toNat % 256)

/-- Register 48 and above of the wave before the trap, and the others as the handler leaves them (R361, R362). -/
def ScalarsRestored (m m' : Dev) : Prop :=
  ∀ r : BitVec 6, r ≠ 0 → m'.s r = if r.toNat < 48 then m.s r else m.wave.bank.get r.toNat

/-- The fragment that `RTE` lets go on: the mask and `DUALST` of before the trap, at `SEPC` (R362); a `LEPC` that names no
slot is noted for the fetch that traps on it (R215). -/
def returned (m : Dev) : Frag :=
  { m.frag with mask := m.wave.saved, spc := m.wave.trap.sepc.toNat, fell := false, phase := 0, wait := .none,
                resumed := true, lrem := 0, dualK := m.wave.savedK, dualRem := m.wave.savedRem, reissue := none, slots := [],
                inHandler := false,
                lepcBad := let p := m.wave.trap.lepc.toNat
                           decide (2 ^ 18 ≤ p) || decide (p % 4 ≠ 0) || decide (4 < p / 4 % 16) }

end Sys2Proof.Claims

/-- R512, R513, R210: `TRAP` and `TRAPZ` trap with SOFTWARE and POOL-EXEC; in SUPER mode `TRAP` posts the codes of R513 and goes
on. `BRK` halts the wave at the next word under a debug level that may halt its context, and else traps with BREAKPOINT.
R522: `HALT` in SUPER mode kills the wave, and its launch leaves without its signal; in USER mode it traps, as `RTE` does. -/
def Obligations.TrapWordsTrapPostAndHalt : Prop :=
  ∀ (s : State) (imm : BitVec 20) (x : BitVec 26),
    let m := s.dev
    (ScalarTraps m .software → Runs (.trap imm) s fun m' => ScalarTrap m m' .software imm.toNat fun _ => 0) ∧
    (ScalarTraps m .poolExec → Runs (.trapz x) s fun m' => ScalarTrap m m' .poolExec x.toNat fun _ => 0) ∧
    (m.wave.super = true → postsEntry imm → Runs (.trap imm) s fun m' => NextWord m m' ∧ m'.wave = m.wave ∧
      ∃ a, m' = { m.postWave m.wave (imm.toNat % 256) a (m.identity m.wave) with frag := m'.frag } ∧
        ∀ l, l < 1024 → Mask.has m.frag.mask l = true → (∀ k, k < l → Mask.has m.frag.mask k = false) →
          a = (m.wave.trap.lfaddr.get l).toNat) ∧
    (s.halts m.wave.ctx = true → Runs .brk s fun m' =>
      Kept m m' ∧ NextWord m m' ∧ m'.wave = { m.wave with halted := true }) ∧
    (s.halts m.wave.ctx = false → ScalarTraps m .breakpoint →
      Runs .brk s fun m' => ScalarTrap m m' .breakpoint 0 fun _ => 0) ∧
    (m.wave.super = true → m.wave.uid ≠ 0 → (∀ w ∈ m.waves, w.uid ≠ m.wave.uid) → Runs .halt s fun m' =>
      Gone m' m.wave.uid ∧ ∀ l ∈ m'.launches, l.num = m.wave.launch → l.noSignal = true) ∧
    (ScalarTraps m .protection →
      Runs .halt s (fun m' => ScalarTrap m m' .protection 0 fun _ => 0) ∧
      Runs .rte s fun m' => ScalarTrap m m' .protection 0 fun _ => 0)

/-- R362, R518, R350: `RTE` in SUPER mode restores the mode, `s48`-`s63`, the mask and `DUALST` and goes to `SEPC`; after a trap
of a lane instruction whose `LEPC` and `LREM` stand, that instruction is issued again in the lanes of `KF`; one that the
handler counted out (`LREM` = 0) is over. R198, R492: `REGION` in USER mode outside a split records the next word and ends
irrevocability; inside a split it is irrevocable; in SUPER mode it changes nothing.
The model's own choices that this rests on: log 29, log 85. -/
def Obligations.ReturnAndRegionSetTheFragment : Prop :=
  ∀ (s : State),
    let m := s.dev
    let b := m.closeWindows
    let t := m.wave.trap
    let back (f : Frag) : Prop := Runs .rte s fun m' => Kept m m' ∧ m'.frag = f ∧ ScalarsRestored m m' ∧
      m'.wave = { m.wave with sregs := m'.wave.sregs, bank := [], super := m.wave.psuper, handler := none,
                              frags := m.wave.frags.map fun x => { x with inHandler := false } }
    (m.wave.super = true → (∀ e ∈ m.wave.bank, 48 ≤ e.1) →
      (m.wave.trapLane = false → t.lrem = 0 → back (returned m)) ∧
      (m.wave.trapLane = true → t.lrem ≠ 0 → t.lepc.toNat = m.wave.trapLpc → back { returned m with
        lpc := t.lepc.toNat, lfell := false, lrem := t.lrem.toNat, reissue := some t.kf, slots := m.frag.slots }) ∧
      (m.wave.trapLane = true → t.lrem = 0 → t.sepc.toNat = m.wave.trapSpc → back (nextWord { returned m with
        lpc := t.lepc.toNat, lfell := false,
        dualRem := if m.wave.savedRem ≠ 0 then m.wave.savedRem - 1 else m.wave.savedRem }))) ∧
    (m.wave.super = false → m.wave.splits = [] → Runs .region s fun m' => Kept b m' ∧ NextWord b m' ∧
      m'.wave = { b.wave with
        wavectl := b.wave.wavectl &&& ~~~2#64,
        region := { spc := m.frag.spc + 4, fell := m'.frag.fell, lpc := m.frag.lpc, lfell := m.frag.lfell, mask := m.frag.mask,
                    fmt := m.frag.fmt, depth := m.wave.stack.length, rollbacks := 0 } }) ∧
    (m.wave.super = false → m.wave.splits ≠ [] → Runs .region s fun m' => Kept b m' ∧ NextWord b m' ∧
      m'.wave = { b.wave with wavectl := b.wave.wavectl ||| 2 }) ∧
    (m.wave.super = true → Runs .region s fun m' => Passed b m')

namespace Sys2Proof.Claims

/-- The system registers that every mode reads (R515), by number. -/
def userRegisters (m : Dev) : List (Nat × Nat) :=
  let w := m.wave
  [(0x000, w.die), (0x001, w.dieidx), (0x002, w.cluster), (0x003, w.core), (0x004, w.waveid), (0x006, 2 * w.die),
   (0x007, 2 * w.die + 1), (0x00E, w.wlanes), (0x010, w.role), (0x020, w.wavectl.toNat), (0x024, w.cpybase.toNat),
   (0x027, w.tstride.toNat), (0x028, w.spillbase.toNat), (0x02A, w.mxcfg.toNat)] ++
  [(0x02B, (m.core w.coreNo).cycle.toNat), (0x032, w.olbase.toNat), (0x033, w.olcap.toNat), (0x034, w.oltag.toNat),
   (0x011, match w.gang with | some g => 0x100 + g % 256 | none => 0),
   (0x021, b2n w.super + 2 * b2n w.psuper + 256 * b2n w.replay + 512 * b2n w.everirr + 1024 * (w.ctx % 64)),
   (0x023, if w.core = 12 then 0 else w.scrbase), (0x050, KMap.get 0 m.gdrop w.ctx)]

/-- Those that SUPER mode alone reads. -/
def superRegisters (m : Dev) : List (Nat × Nat) :=
  let t := m.wave.trap
  [(0x025, m.wave.asyncerr.toNat), (0x040, t.scause.toNat), (0x041, t.sepc.toNat), (0x042, t.lepc.toNat),
   (0x043, t.lrem.toNat), (0x044, t.stval.toNat)]

/-- The word whose fields begin at the bits of a list and hold its values; all other bits are 0. -/
def fieldsWord (fs : List (Nat × Nat)) : Nat := (fs.map fun x => x.2 * 2 ^ x.1).sum

/-- `ST` of a segment as the loaded wave's launch sees it (R217). -/
def segmentSeen (m : Dev) (x : Seg) : Nat :=
  match x.owner with
  | .free => 0
  | .handler _ => 4
  | .launch n => if n ≠ m.wave.launch then 4 else match x.st with | .free => 0 | .inflight => 1 | .landed => 2 | .error => 3

/-- The registers of several fields that every mode reads: `DIEBAR` (R170), `SEGSTAT` (R217), `DUALST` (R351), `MSTEP` (R325),
`FMTLO` and `FMTHI` (R307): the low bit and the value of each field. -/
def fieldRegisters (m : Dev) : List (Nat × List (Nat × Nat)) :=
  let w := m.wave
  let f := m.frag
  let x := f.fmt
  let segs := (m.core w.coreNo).segs
  let tag := (List.range 7).find? fun i => decide (((m.die w.die).tags.getD i {}).launch = some w.launch)
  [(0x012, [(7, b2n (m.tag7.launch = some w.launch)), (3, b2n tag.isSome), (0, tag.getD 0)]),
   (0x022, (List.range 12).flatMap fun i => [(4 * i + 3, b2n (segs.getD i {}).lane), (4 * i, segmentSeen m (segs.getD i {}))]),
   (0x026, if f.dualRem = 0 then [] else [(4, f.dualK.toNat), (0, f.dualRem.toNat)]),
   (0x029, [(32, w.mheld % 2 ^ 4), (0, w.mdone % 2 ^ 32)]),
   (0x030, [(32, x.oscale.toNat), (24, x.ascale.toNat), (16, x.bscale.toNat), (12, x.afmt.toNat), (8, x.bfmt.toNat),
            (4, x.cfmt.toNat), (0, x.dfmt.toNat)]),
   (0x031, [(8, x.accrange.toNat), (2, x.rows.toNat), (0, x.ovfmode.toNat)])]

/-- Those that SUPER mode alone reads: `MSGSTAT` (R56), `CAPSUM`, `DIECAP` and `CLCAP` (R36). Every memory stack is in
service. -/
def superFieldRegisters (m : Dev) : List (Nat × List (Nat × Nat)) :=
  let x := m.cluster m.wave.clusterNo
  let c := m.cap
  let cores (i : Nat) : BitVec 12 := c.cores.getD i 0
  let served (i : Nat) : Bool := decide (cores i ≠ 0)
  [(0x051, [(23, min x.refused 0xFFFF), (16, x.receives.length), (9, x.overflow.length), (0, b2n x.ovf)]),
   (0x100, [(60, b2n c.replace), (44, 0xFFFF)] ++
     ((List.range 8).map fun d => (36 + d, b2n ((List.range 16).any fun i => served (16 * d + i)))) ++
     [(28, ((List.range 128).filter served).length),
      (16, ((List.range 128).map fun i => ((List.range 12).filter fun j => (cores i).getLsbD j).length).sum),
      (11, ((List.range 24).filter fun i => c.ports.getLsbD i).length)])] ++
  ((List.range 8).map fun d => (0x108 + d,
    [(48, (c.ports.extractLsb' (3 * d) 3).toNat), (16, (c.half.extractLsb' (3 * d) 3).toNat),
     (0, (c.spares.extractLsb' (2 * d) 2).toNat)] ++
    (List.range 16).map fun i => (32 + i, b2n (served (16 * d + i))))) ++
  (List.range 128).map fun i => (0x180 + i, [(0, (cores i).toNat)])

/-- What a strong load of core `k` gets of byte `i` of a line (R243, R245, R248). -/
def strongSees (m : Dev) (k num i : Nat) : Byte := (m.under (m.viewLayers k num false) num i).1

/-- Of a line of device memory core `k` may hold one copy; no other core of its cluster holds it pending, the die merge buffer
holds none of it, and at most one copy is dirty. -/
def OneCopy (m : Dev) (k num : Nat) : Prop :=
  (m.cores.map fun x => x.1).Nodup ∧ 128 * num + 128 ≤ devBytes ∧ m.missLayers k num false = [] ∧ (m.dirty num).length ≤ 1 ∧
  ((m.core k).l1.filter fun x => decide (x.num = num) && decide (x.st ≠ .shadow)).length ≤ 1

/-- What a write of `v` leaves in the wave: of `WAVECTL` it writes DRT and clears bits 2 to 6 (R197). -/
def userWrites (w : Wave) (v : DWord) : List (Nat × Wave) :=
  [(0x020, { w with wavectl := (w.wavectl &&& ~~~0x80#64 &&& ~~~(v &&& 0x7C#64)) ||| (v &&& 0x80#64) }),
   (0x024, { w with cpybase := BitVec.ofNat 20 v.toNat }),
   (0x032, { w with olbase := BitVec.ofNat 64 (v.toNat % 2 ^ 49 / 16 * 16) }),
   (0x033, { w with olcap := BitVec.ofNat 64 (v.toNat % 2 ^ 32) }), (0x034, { w with oltag := v })]
def superWrites (w : Wave) (v : DWord) : List (Nat × Wave) :=
  [(0x025, { w with asyncerr := if v.getLsbD 63 then BitVec.ofNat 64 (w.asyncerr.toNat % 2 ^ 56) else w.asyncerr }),
   (0x041, { w with trap := { w.trap with sepc := v } }), (0x042, { w with trap := { w.trap with lepc := v } }),
   (0x043, { w with trap := { w.trap with lrem := v } })]

end Sys2Proof.Claims

/-- R515, R517, R521: `MFSR` reads a register of the table in a mode that may, into sD; `SPEC` reads a placement value; `MTSR`
writes the writable bits and nothing else. A number that the mode does not read or write traps with RESERVED-FIELD, and a
USER write of `GDROP` with PROTECTION. R229, R519, R520: `TLBINV` in SUPER mode, once its release is done and no engine
command holds a translation of the region, leaves no cached translation of the context that touches the region, and LIMIT 0
in each translation register of its waves whose BASE lies there; in USER mode it traps. `L1FLUSH` leaves the core without
lines, ACCUM shadows apart, and keeps the pending and dirty bytes: of a line of which it holds the one copy that is newer than
memory the core reads every byte as before.
The model's own choices that this rests on: log 22, log 56 to log 59. -/
def Obligations.SystemWordsReadWriteAndDrop : Prop :=
  (∀ (s : State) (d a : BitVec 6) (n : BitVec 12) (v : Nat) (w : Wave),
    let m := s.dev
    (((n.toNat, v) ∈ userRegisters m ∨ (m.wave.super = true ∧ (n.toNat, v) ∈ superRegisters m)) →
      Runs (.mfsr d n) s fun m' => WroteS m m' d (BitVec.ofNat 64 v)) ∧
    (∀ fs, ((n.toNat, fs) ∈ fieldRegisters m ∨ (m.wave.super = true ∧ (n.toNat, fs) ∈ superFieldRegisters m)) →
      Runs (.mfsr d n) s fun m' => WroteS m m' d (BitVec.ofNat 64 (fieldsWord fs))) ∧
    (m.sysRead n.toNat = none → ScalarTraps m .reservedField →
      Runs (.mfsr d n) s fun m' => ScalarTrap m m' .reservedField (m.codeBytes m.frag.spc 4) fun _ => 0) ∧
    (m.wave.super = false → ((n.toNat, v) ∈ superRegisters m ∨ n.toNat ∈ (superFieldRegisters m).map fun x => x.1) →
      m.sysRead n.toNat = none) ∧
    (((n.toNat, w) ∈ userWrites m.wave (m.s a) ∨ (m.wave.super = true ∧ (n.toNat, w) ∈ superWrites m.wave (m.s a))) →
      Runs (.mtsr a n) s fun m' => Kept m m' ∧ NextWord m m' ∧ m'.wave = w) ∧
    (m.wave.super = true → n = 0x050#12 → Runs (.mtsr a n) s fun m' =>
      m' = { m with gdrop := m.gdrop.set m.wave.ctx ((m.s a).toNat % 2 ^ 32), frag := nextWord m.frag }) ∧
    (m.wave.super = true → n = 0x051#12 → Runs (.mtsr a n) s fun m' =>
      ClusterOnly m m' m.wave.clusterNo ∧ NextWord m m' ∧ m'.wave = m.wave ∧
      m'.cluster m.wave.clusterNo = { m.cluster m.wave.clusterNo with
        ovf := (m.cluster m.wave.clusterNo).ovf && !(m.s a).getLsbD 0 }) ∧
    (ScalarTraps m .protection → n = 0x050#12 → Runs (.mtsr a n) s fun m' => ScalarTrap m m' .protection 0 fun _ => 0) ∧
    (n ≠ 0x050#12 → m.sysWrite n.toNat (m.s a) = none → ScalarTraps m .reservedField →
      Runs (.mtsr a n) s fun m' => ScalarTrap m m' .reservedField (m.codeBytes m.frag.spc 4) fun _ => 0) ∧
    ((n.toNat, v) ∈ (userRegisters m).take 8 → Runs (.spec d n) s fun m' => WroteS m m' d (BitVec.ofNat 64 v)) ∧
    (∀ i, i < 4 → n.toNat = 8 + i → Runs (.spec d n) s fun m' =>
      WroteS m m' d (BitVec.ofNat 64 (m.wave.trec.getD i 0).toNat))) ∧
  (∀ (s : State) (a : BitVec 6) (m₁ : Dev),
    let m := s.dev
    let v := (m.s a).toNat
    let start := (tlbRegion v).1
    let stop := start + (tlbRegion v).2
    (m.wave.super = true → fld v 63 49 = 0 → fld v 15 2 = 0 → m.releaseWait 3 = .ok m₁ →
      m₁.pagesHeld m₁.wave.ctx start (stop - start) = false →
      Runs (.tlbinv a) s fun m' =>
        m' = { m₁ with wave := m'.wave, frag := m'.frag, waves := m'.waves, cores := m'.cores, agenda := m'.agenda } ∧
        SameMemory m₁ m' ∧ NextWord m₁ m' ∧
        (∀ k, ∀ t ∈ (m'.core k).tlb, t.ctx = m₁.wave.ctx → t.page * t.size ≥ stop ∨ (t.page + 1) * t.size ≤ start) ∧
        (∀ w ∈ m'.wave :: m'.waves, w.ctx = m₁.wave.ctx → ∀ x ∈ w.xregs,
          start ≤ x.base.toNat → x.base.toNat < stop → x.limit = 0)) ∧
    (ScalarTraps m .protection → Runs (.tlbinv a) s fun m' => ScalarTrap m m' .protection 0 fun _ => 0) ∧
    (m.busyPeers m.wave.uid = false → Runs .l1flush s fun m' =>
      NextWord m m' ∧ m'.wave = m.wave ∧ (∀ l ∈ (m'.core m.wave.coreNo).l1, l.st = .shadow) ∧
      ∀ num i, OneCopy m m.wave.coreNo num → i < 128 → strongSees m' m.wave.coreNo num i = strongSees m m.wave.coreNo num i))

/-! ## Lane instructions -/

namespace Sys2Proof.Claims

/-- The tables of R438 and R439 by opcode, on elements of `n` bits; SGN chooses the reading where the table does. -/
def laneIntValue {n : Nat} (opc : Nat) (sgn : Bool) (a b c : BitVec n) : BitVec n :=
  let k := b.toNat % n
  match opc with
  | 0x001 => a + b
  | 0x002 => a - b
  | 0x003 => a * b
  | 0x004 => if sgn then BitVec.ofInt n (a.toInt * b.toInt / 2 ^ n) else BitVec.ofNat n (a.toNat * b.toNat / 2 ^ n)
  | 0x005 => a * b + c
  | 0x006 => BitVec.ofNat n a.toInt.natAbs
  | 0x007 => -a
  | 0x008 => if sgn then BitVec.ofInt n (min a.toInt b.toInt) else BitVec.ofNat n (min a.toNat b.toNat)
  | 0x009 => if sgn then BitVec.ofInt n (max a.toInt b.toInt) else BitVec.ofNat n (max a.toNat b.toNat)
  | 0x00A => a &&& b
  | 0x00B => a ||| b
  | 0x00C => a ^^^ b
  | 0x00D => ~~~a
  | 0x00E => BitVec.ofNat n (a.toNat * 2 ^ k)
  | 0x00F => BitVec.ofNat n (a.toNat / 2 ^ k)
  | 0x010 => BitVec.ofInt n (a.toInt / 2 ^ k)
  | _ => a <<< k ||| a >>> (n - k)

/-- The Integer class of R438 and R439, with its opcodes. -/
def laneIntegers (f : LaneF) : List (Nat × Instr) :=
  [(0x001, .iadd f), (0x002, .isub f), (0x003, .imul f), (0x004, .imulh f), (0x005, .imad f), (0x006, .iabs f),
   (0x007, .ineg f), (0x008, .imin f), (0x009, .imax f), (0x00A, .and f), (0x00B, .or f), (0x00C, .xor f), (0x00D, .not f),
   (0x00E, .shl f), (0x00F, .shr f), (0x010, .sar f), (0x011, .rot f)]

/-- R440 and R441 by opcode: POS in IMM[4:0], WIDTH in IMM[10:5]. -/
def laneBitValue (opc : Nat) (f : LaneF) (a b : BitVec 32) : BitVec 32 :=
  let pos := f.imm.toNat % 32
  let width := f.imm.toNat / 32 % 64
  match opc with
  | 0x012 => if f.mode.getLsbD 0 then (a.extractLsb' pos width).signExtend 32 else (a.extractLsb' pos width).setWidth 32
  | 0x013 => BitVec.ofBoolListLE ((List.range 32).map fun i =>
      if pos ≤ i ∧ i < pos + width then b.getLsbD (i - pos) else a.getLsbD i)
  | 0x014 => BitVec.ofNat 32 ((List.range 32).filter fun i => a.getLsbD i).length
  | 0x015 => BitVec.ofNat 32 (if a = 0 then 32 else 31 - a.toNat.log2)
  | _ => a.reverse

def laneBitInstrs (f : LaneF) : List (Nat × Instr) :=
  [(0x012, .bfx f), (0x013, .bfi f), (0x014, .popc f), (0x015, .clz f), (0x016, .brev f)]

/-- Bits of an element, and of a lane or pair, of an Integer-class instruction (R437). -/
def intWidth (f : LaneF) : Nat := if f.mode.getLsbD 1 then 64 else if f.ty = 13 then 16 else if f.ty = 5 then 8 else 32
def intLane (f : LaneF) : Nat := if f.mode.getLsbD 1 then 64 else 32

/-- Element `j` of `n` bits. -/
def elemBits (n x j : Nat) : BitVec n := BitVec.ofNat n (x / 2 ^ (n * j))

end Sys2Proof.Claims

/-- R433, R437-R441, R192, R194: the integer, bitwise, bit-field and count instructions compute every element of every
effective lane from the elements of their operands and write it, with zero tangents, at once or after their lookahead window;
last-read sources die; nothing else changes. -/
def Obligations.LaneIntegersWriteTheTable : Prop :=
  ∀ (s : State) (f : LaneF) (opc : Nat) (i : Instr),
    let m := s.dev
    ((opc, i) ∈ laneIntegers f → LaneReady m opc f → Runs i s fun m' => ∃ val, LaneWrites m m' opc f val ∧
      ∀ l, Mask.has (lanesOf m f) l = true → (∀ t, t ≠ 0 → val t l = 0) ∧ ∀ j, j < intLane f / intWidth f →
        let x := m.laneIn opc f l
        elemBits (intWidth f) (val 0 l) j = laneIntValue opc (f.mode.getLsbD 0) (elemBits _ x.a j) (elemBits _ x.b j)
          (elemBits _ x.c j)) ∧
    ((opc, i) ∈ laneBitInstrs f → (opc ≤ 0x013 → 1 ≤ f.imm.toNat / 32 % 64 ∧ f.imm.toNat % 32 + f.imm.toNat / 32 % 64 ≤ 32) →
      LaneReady m opc f → Runs i s fun m' => ∃ val, LaneWrites m m' opc f val ∧
      ∀ l, Mask.has (lanesOf m f) l = true → (∀ t, t ≠ 0 → val t l = 0) ∧
        let x := m.laneIn opc f l
        elemBits 32 (val 0 l) 0 = laneBitValue opc f (elemBits 32 x.a 0) (elemBits 32 x.b 0))

namespace Sys2Proof.Claims

/-- The value of an element of a Float-class instruction (R445, R446, R448), of the operations that R296-R304 define. -/
def laneFloatValue (opc : Nat) (ff : FFmt) (rm a b c : Nat) : Nat :=
  match opc with
  | 0x040 => ff.round rm ((ff.decode a).addS (rm = 3) (ff.decode b))
  | 0x041 => ff.round rm ((ff.decode a).addS (rm = 3) (ff.decode b).neg)
  | 0x042 => ff.round rm ((ff.decode a).mul (ff.decode b))
  | 0x043 => ff.round rm (((ff.decode a).mul (ff.decode b)).addS (rm = 3) (ff.decode c))
  | 0x044 => fMinMax ff false a b
  | 0x045 => fMinMax ff true a b
  | 0x046 => fMaxM ff a b
  | 0x047 => fAbs ff a
  | 0x048 => fNeg ff a
  | 0x04A => f32Div rm (.fin false 1 0) (ff.decode a)
  | 0x04B => f32Rsqrt rm (ff.decode a)
  | 0x04C => f32Sqrt rm (ff.decode a)
  | 0x04D => f32Div rm (ff.decode a) (ff.decode b)
  | 0x04E => f32Exp2 rm (ff.decode a)
  | 0x04F => f32Log2 rm (ff.decode a)
  | 0x050 => f32SinCos false rm (ff.decode a)
  | _ => f32SinCos true rm (ff.decode a)

/-- The tangent of R354 by opcode, in F32 steps. -/
def laneTangent (opc : Nat) (x : TanIn) : Nat :=
  match opc with
  | 0x040 => tAdd x.ta x.tb
  | 0x041 => tSub x.ta x.tb
  | 0x042 => tAdd (tMul x.a x.tb) (tMul x.b x.ta)
  | 0x043 => tAdd (tAdd (tMul x.a x.tb) (tMul x.b x.ta)) x.tc
  | 0x044 => tanMinMax false x
  | 0x045 => tanMinMax true x
  | 0x046 => match pickMinMax true (f32.decode x.a).abs (f32.decode x.b).abs with
    | 0 => tanAbs x.a x.ta
    | 1 => tanAbs x.b x.tb
    | _ => canonicalNan 0
  | 0x047 => tanAbs x.a x.ta
  | 0x048 => tNeg x.ta
  | 0x04A => tNeg (tMul (tMul x.y x.y) x.ta)
  | 0x04B => tNeg (tMul (tMul (tMul x.y x.y) (tMul tHalf x.y)) x.ta)
  | 0x04C => tDiv (tMul tHalf x.ta) x.y
  | 0x04D => tDiv (tSub x.ta (tMul x.y x.tb)) x.b
  | 0x04E => tMul (tMul x.y tLn2) x.ta
  | 0x04F => tDiv x.ta (tMul x.a tLn2)
  | 0x050 => tMul (f32SinCos true 0 (f32.decode x.a)) x.ta
  | _ => tNeg (tMul (f32SinCos false 0 (f32.decode x.a)) x.ta)

def laneFloats (f : LaneF) : List (Nat × Instr) :=
  [(0x040, .fadd f), (0x041, .fsub f), (0x042, .fmul f), (0x043, .ffma f), (0x044, .fmin f), (0x045, .fmax f),
   (0x046, .fmaxm f), (0x047, .fabs f), (0x048, .fneg f), (0x04A, .frcp f), (0x04B, .frsq f), (0x04C, .fsqrt f),
   (0x04D, .fdiv f), (0x04E, .fexp2 f), (0x04F, .flog2 f), (0x050, .fsin f), (0x051, .fcos f)]

end Sys2Proof.Claims

/-- R444-R449, R353, R354, R349: the floating-point instructions compute every element of every effective lane in the format of
TY, saturated when SAT is set, and of a dual instruction each tangent as R354 gives it (zero where SAT changed the value); of
one that is not dual the tangents are zero. `FCLASS` writes the class of each element. `FCMP` writes its condition on element
0 to kD. Nothing else changes.
The model's own choices that this rests on: log 11, log 27. -/
def Obligations.LaneFloatsWriteTheTable : Prop :=
  ∀ (s : State) (f : LaneF) (opc : Nat) (i : Instr),
    let m := s.dev
    let ff := floatTy f
    let w := if f.ty = 0 then 32 else 16
    ((opc, i) ∈ laneFloats f → LaneReady m opc f → Runs i s fun m' => ∃ val, LaneWrites m m' opc f val ∧
      ∀ l, Mask.has (lanesOf m f) l = true → ∀ j, j < 32 / w →
        let x := m.laneIn opc f l
        let y := laneFloatValue opc ff (f.mode.toNat % 4) (elem w x.a j) (elem w x.b j) (elem w x.c j)
        let sat := f.mode.getLsbD 2
        elem w (val 0 l) j = (if sat then satFloat ff y else y) % 2 ^ w ∧
        (∀ t z, x.t[t]? = some z → elem w (val (t + 1) l) j =
          (if sat && satChanges ff y then 0 else unwiden f (laneTangent opc
            { a := widen f (elem w x.a j), b := widen f (elem w x.b j), c := widen f (elem w x.c j),
              ta := widen f (elem w z.1 j), tb := widen f (elem w z.2.1 j), tc := widen f (elem w z.2.2 j),
              y := widen f y })) % 2 ^ w) ∧
        ∀ t, (if m.frag.dualRem ≠ 0 ∧ m.frag.dualK = 0 ∨ m.wave.tang = 0 then 0 else m.wave.tang) < t → val t l = 0) ∧
    (LaneReady m 0x052 f → Runs (.fclass f) s fun m' => ∃ val, LaneWrites m m' 0x052 f val ∧
      ∀ l, Mask.has (lanesOf m f) l = true → (∀ t, t ≠ 0 → val t l = 0) ∧ ∀ j, j < 32 / w →
        elem w (val 0 l) j = fClass ff (elem w (m.laneIn 0x052 f l).a j) % 2 ^ w) ∧
    (LaneReady m 0x049 f → Runs (.fcmp f) s fun m' => LanePredicate m m' 0x049 f (f.vd.toNat % 8) (lanesOf m f) fun l =>
      fCond (f.vc.toNat % 8) (ff.decode (elem w (m.laneIn 0x049 f l).a 0)) (ff.decode (elem w (m.laneIn 0x049 f l).b 0)))

namespace Sys2Proof.Claims

/-- `CVT`, `PACK` and `UNPACK` by opcode (R451, R453, R454). -/
def conversions (f : LaneF) : List (Nat × Instr) := [(0x080, .cvt f), (0x081, .pack f), (0x082, .unpack f)]

/-- The format of the source element and its position in the lane: SFC and SPOS of `CVT`; F32 for `PACK`; TY and SPOS of
`UNPACK`. -/
def convSource (opc : Nat) (f : LaneF) : Nat × Nat :=
  match opc with
  | 0x080 => (f.imm.toNat / 1024 % 16, f.imm.toNat % 32)
  | 0x081 => (0, 0)
  | _ => (f.ty.toNat, f.imm.toNat % 32)

/-- The bits of the source element. -/
def convBits (opc : Nat) (f : LaneF) (a : Nat) : Nat :=
  a / 2 ^ (convSource opc f).2 % 2 ^ fmtBits (convSource opc f).1

/-- Is the source of `CVT` a 32-bit integer (SINT), its destination one (DINT)? -/
def fromInt32 (opc : Nat) (f : LaneF) : Bool := opc = 0x080 && f.imm.getLsbD 14
def toInt32 (opc : Nat) (f : LaneF) : Bool := opc = 0x080 && f.imm.getLsbD 15

/-- A 32-bit integer, signed as ISGN says, as an exact value. -/
def int32Num (sgn : Bool) (a : BitVec 32) : Machine.Num :=
  let v : Int := if sgn then a.toInt else a.toNat
  .fin (decide (v < 0)) v.natAbs 0

/-- The exact value that a lane converts (R291, R293, R295, R451). -/
def convExact (opc : Nat) (f : LaneF) (a : Nat) : Machine.Num :=
  if fromInt32 opc f then int32Num (f.imm.getLsbD 16) (BitVec.ofNat 32 a)
  else decodeFmt (convSource opc f).1 (convBits opc f a)

/-- Destination format, rounding mode and SAT; `UNPACK` goes to F32. -/
def convFormat (opc : Nat) (f : LaneF) : Nat := if opc = 0x082 then 0 else f.ty.toNat
def convRound (opc : Nat) (f : LaneF) : Nat := if opc = 0x082 then 0 else f.mode.toNat % 4
def convSat (opc : Nat) (f : LaneF) : Bool := opc ≠ 0x082 && f.mode.getLsbD 2

/-- Is the conversion narrow (R305)? -/
def convNarrow (opc : Nat) (f : LaneF) : Bool :=
  !toInt32 opc f && decide (3 ≤ convFormat opc f) && decide (convFormat opc f ≤ 12)

/-- A narrow conversion of an exact value: the product with OSCALE, rounded to the format (R305). -/
def convNarrowTo (x : FmtReg) (opc : Nat) (f : LaneF) (sat : Bool) (v : Machine.Num) : Narrow :=
  narrowTo (convFormat opc f) (convRound opc f) sat ((f32.decode x.oscale.toNat).mul v)

/-- The value of a lane that overflows (R305). -/
def convBeyond (x : FmtReg) (opc : Nat) (f : LaneF) (v : Machine.Num) : Option Machine.Num :=
  if convNarrow opc f then
    match convNarrowTo x opc f (convSat opc f) v with
    | .elem _ => none
    | .beyond u => some u
  else none

/-- The element written (R305, R306): of an overflow the saturated element, or zero when it goes to the outlier list. -/
def convElement (x : FmtReg) (opc : Nat) (f : LaneF) (v : Machine.Num) : Nat :=
  let c := convFormat opc f
  let rm := convRound opc f
  if toInt32 opc f then
    wrapN 32 (if f.imm.getLsbD 16 then toIntClamped rm (-2 ^ 31) (2 ^ 31 - 1) v else toIntClamped rm 0 (2 ^ 32 - 1) v)
  else if convNarrow opc f then
    match convNarrowTo x opc f (convSat opc f) v with
    | .elem b => b
    | .beyond u => if x.ovfmode = 1 then zeroElem c else satElem c u
  else match ffmtOf c, convSat opc f with
    | some ff, true => satFloat ff (wideTo c rm v)
    | _, _ => wideTo c rm v

/-- Is a value NaN or outside 0 to 1? -/
def outsideUnit (y : Machine.Num) : Bool := y.isNan || y.lt .zero || Machine.Num.lt (.fin false 1 0) y

/-- Does SAT change the result (R353)? -/
def convCut (x : FmtReg) (opc : Nat) (f : LaneF) (v : Machine.Num) : Bool :=
  let c := convFormat opc f
  convSat opc f && !toInt32 opc f &&
  (if convNarrow opc f then
    match convNarrowTo x opc f false v with
    | .beyond _ => true
    | .elem b => outsideUnit (decodeFmt c b)
  else match ffmtOf c with
    | some ff => outsideUnit (ff.decode (wideTo c (convRound opc f) v))
    | none => false)

/-- The element of a tangent (R354): to nearest even, an overflow saturating. -/
def convTangentElement (x : FmtReg) (opc : Nat) (f : LaneF) (v : Machine.Num) : Nat :=
  let c := convFormat opc f
  if 3 ≤ c ∧ c ≤ 12 then
    match narrowTo c 0 false ((f32.decode x.oscale.toNat).mul v) with
    | .elem b => b
    | .beyond u => satElem c u
  else wideTo c 0 v

/-- Is one side of `CVT` an integer, so that its tangents are zero (R354)? -/
def convInteger (opc : Nat) (f : LaneF) : Bool :=
  opc = 0x080 && (f.imm.getLsbD 14 || f.imm.getLsbD 15 || fmtInteger (convSource opc f).1 || fmtInteger f.ty.toNat)

/-- Where an element stands in the lane: at DPOS among zeros (`CVT`), in place of those bits of B (`PACK`), alone (`UNPACK`). -/
def convPlaced (opc : Nat) (f : LaneF) (b e : Nat) : Nat :=
  match opc with
  | 0x080 => e * 2 ^ (f.imm.toNat / 32 % 32)
  | 0x081 => insertElem f.ty.toNat (f.imm.toNat % 32) b e
  | _ => e

/-- What a conversion writes to lane `l`: the element (t = 0), and tangent `t` (R354). -/
def convVal (m : Dev) (opc : Nat) (f : LaneF) (t l : Nat) : Nat :=
  let x := m.frag.fmt
  let y := m.laneIn opc f l
  let v := convExact opc f y.a
  if t = 0 then convPlaced opc f y.b (convElement x opc f v)
  else match y.t[t - 1]? with
    | none => 0
    | some z =>
      if convInteger opc f then 0
      else if convCut x opc f v || x.ovfmode = 1 && (convBeyond x opc f v).isSome then
        convPlaced opc f z.2.1 (zeroElem (convFormat opc f))
      else convPlaced opc f z.2.1 (convTangentElement x opc f (decodeFmt (convSource opc f).1 (convBits opc f z.1)))

/-- Does a lane read a T2 code that names nothing (R293)? Of `UNPACK`, the tangents are read too. -/
def convBad (m : Dev) (opc : Nat) (f : LaneF) (l : Nat) : Prop :=
  let y := m.laneIn opc f l
  (convSource opc f).1 = 12 ∧ ¬ fromInt32 opc f = true ∧
    (convBits opc f y.a % 4 = 2 ∨ opc = 0x082 ∧ ∃ z ∈ y.t, convBits opc f z.1 % 4 = 2)

/-- The outlier entry of lane `l` (R312, R452): ADDR, VALUE, LANE, BITOFF and FMTC. -/
def outlierEntry (m : Dev) (opc : Nat) (f : LaneF) (l : Nat) (v : Machine.Num) : List Byte :=
  let dpos := if opc = 0x080 then f.imm.toNat / 32 % 32 else f.imm.toNat % 32
  leBytes 8 (f32.round 0 v * 2 ^ 32 + l * 2 ^ 10 + dpos * 2 ^ 4 + f.ty.toNat) ++ leBytes 8 (m.wave.oltag.toNat + 4 * l)

/-- The entries of a conversion, lanes ascending. -/
def outlierEntries (m : Dev) (opc : Nat) (f : LaneF) : List (List Byte) :=
  (Mask.lanes (lanesOf m f) m.wave.wlanes).filterMap fun l =>
    (convBeyond m.frag.fmt opc f (convExact opc f (m.laneIn opc f l).a)).map (outlierEntry m opc f l)

/-- The exact sum of the element products of `LSUM` (R298, R456). -/
def logTotal (f : LaneF) (x : FmtReg) (y : LaneIn) : Machine.Num :=
  let c := f.ty.toNat
  let w := (logElems c).1
  ((List.range (logElems c).2).map fun k => (logProduct c x (elem w y.a k) (elem w y.b k)).num c).foldl (Machine.Num.addS false) .zero

end Sys2Proof.Claims

/-- R305, R306, R450-R456, R293: a conversion with a usable OSCALE writes the element of each effective lane: the exact source
value, times OSCALE when the destination is narrow, rounded to the format; an overflow saturates, or under OVFMODE 1 writes
zero once its entry is appended to the outlier list. A T2 code that names nothing sets `WAVECTL` bit 2. With OVFMODE 2 an
overflow traps with MX-OVERFLOW and `STVAL` names the first such lane; a bad OSCALE traps with FORMAT-INVALID, a list without
room with OUTLIER-FULL. `LMUL` writes the products of the elements of each lane, `LSUM` their exact sum rounded once.
R313: an append counts its entries in `OLCOUNT` and leaves each in its place.
The model's own choices that this rests on: log 33, log 36. -/
def Obligations.LaneConversionsWriteTheirElements : Prop :=
  (∀ (s : State) (f : LaneF) (opc : Nat) (i : Instr) (m₂ : Dev) (b : Dev),
    let m := s.dev
    let x := m.frag.fmt
    let beyond (l : Nat) : Option Machine.Num := convBeyond x opc f (convExact opc f (m.laneIn opc f l).a)
    let has (l : Nat) : Prop := Mask.has (lanesOf m f) l = true
    let scaleOk : Prop := convNarrow opc f = true → ∃ n k e, f32.decode x.oscale.toNat = .fin n k e
    let bad : Prop := ∃ l, has l ∧ convBad m opc f l
    (opc, i) ∈ conversions f → LaneReady m opc f →
    (bad → b = { m with wave := { m.wave with wavectl := m.wave.wavectl ||| 4 } }) → (¬ bad → b = m) →
    (scaleOk → (x.ovfmode = 1 ∨ x.ovfmode = 2 → ∀ l, has l → beyond l = none) →
      Runs i s fun m' => LaneWrites b m' opc f (convVal m opc f)) ∧
    (¬ scaleOk → Delivers m .formatInvalid → Runs i s fun m' => LaneTrap m m' .formatInvalid 0 (lanesOf m f) fun _ => 0) ∧
    (scaleOk → ∀ l, has l → beyond l ≠ none →
      (x.ovfmode = 2 → (∀ k, k < l → has k → beyond k = none) → Delivers b .mxOverflow →
        Runs i s fun m' => LaneTrap b m' .mxOverflow l (lanesOf m f) fun _ => 0) ∧
      (x.ovfmode = 1 → b.appendLane (lanesOf m f) (outlierEntries m opc f) = .ok m₂ →
        Runs i s fun m' => LaneWrites m₂ m' opc f (convVal m opc f)) ∧
      (x.ovfmode = 1 → m.wave.olcap.toNat % 2 ^ 32 = 0 → Delivers b .outlierFull →
        Runs i s fun m' => LaneTrap b m' .outlierFull 0 (lanesOf m f) fun _ => 0))) ∧
  (∀ (s : State) (f : LaneF),
    let m := s.dev
    let x := m.frag.fmt
    let c := f.ty.toNat
    let w := (logElems c).1
    (LaneReady m 0x083 f → Runs (.lmul f) s fun m' => ∃ val, LaneWrites m m' 0x083 f val ∧
      ∀ l, Mask.has (lanesOf m f) l = true → (∀ t, t ≠ 0 → val t l = 0) ∧ val 0 l < 2 ^ (w * (logElems c).2) ∧
        ∀ j, j < (logElems c).2 →
          let y := m.laneIn 0x083 f l
          elem w (val 0 l) j = (logProduct c x (elem w y.a j) (elem w y.b j)).element c % 2 ^ w) ∧
    (LaneReady m 0x084 f → Runs (.lsum f) s fun m' => LaneWrites m m' 0x084 f fun t l =>
      let sum := logTotal f x (m.laneIn 0x084 f l)
      let y := f32.round (f.mode.toNat % 4) (if sum.isZero then .zero else sum)
      if t ≠ 0 then 0 else if f.mode.getLsbD 2 then satFloat f32 y else y)) ∧
  (∀ (m m₁ : Dev) (eff : Mask) (es : List (List Byte)) (pa : Nat),
    let base := m.wave.olbase.toNat
    let cap := m.wave.olcap.toNat % 2 ^ 32
    let len := 16 + 16 * cap
    let k := m₁.wave.coreNo
    let m₂ := m₁.irrev.atomicLine k (pa / 128) 3
    let old := ofBytes ((m₂.atomicBytes k (.dev pa) 8).map fun x => x.1)
    cap ≠ 0 → m.check base len { windows := [.global], wr := true } = (.ok [{ loc := .dev pa, len }], m₁) →
    (∀ l ∈ (m₁.core k).l1, l.st = .p → m₁.line k l.num = some l) →
    pa % 16 = 0 → pa + len ≤ devBytes → (∀ x ∈ m₂.atomicBytes k (.dev pa) 8, x.2 = false) → (∀ e ∈ es, e.length = 16) →
    (old + es.length ≤ cap → ∃ m', m.appendLane eff es = .ok m' ∧ m'.wave = m₁.irrev.wave ∧ m'.frag = m₁.frag ∧
      m'.bytesAt (.dev pa) 8 = leBytes 8 (old + es.length) ∧
      ∀ k e, es[k]? = some e → m'.bytesAt (.dev (pa + 16 + 16 * (old + k))) 16 = e) ∧
    (cap < old + es.length → m.appendLane eff es = .error (m₂.trap { cause := .outlierFull, kf := some eff })))

namespace Sys2Proof.Claims

/-- Register `r` (or the pair from it) of a lane, and its tangents. -/
def laneVal (m : Dev) (r : Nat) (pair : Bool) (t l : Nat) : Nat :=
  (m.wave.vget r t l).toNat + (if pair then (m.wave.vget (r + 1) t l).toNat * 2 ^ 32 else 0)

/-- Does the instruction compute or move tangents (R349)? -/
def movesTangents (m : Dev) : Prop := if m.frag.dualRem ≠ 0 then m.frag.dualK ≠ 0 else m.wave.tang ≠ 0

/-- A value with the tangents `t` when the instruction is dual and there are that many, and zero tangents otherwise. -/
def WithTangents (m : Dev) (val : Nat → Nat → Nat) (src : Nat → Nat → Nat) : Prop :=
  ∀ l t, t ≤ m.wave.tang → (t = 0 ∨ movesTangents m → val t l = src t l) ∧ (t ≠ 0 → ¬ movesTangents m → val t l = 0)

/-- The source lane of `SHFL` (R473) in segments of `n` lanes, of a wave of `w` lanes; the lane itself when the source is
outside its segment or the wave. -/
def shuffled (mode n w l b : Nat) : Nat :=
  let first := l / n * n
  let ok (j : Nat) : Nat := if first ≤ j ∧ j < first + n ∧ j < w then j else l
  match mode with
  | 0 => ok (first + b % n)
  | 1 => if b ≤ l then ok (l - b) else l
  | 2 => ok (l + b)
  | _ => ok (l ^^^ (b % n))

/-- The placement values of a lane (R150, R478); 12 and 13 are the halves of `LFADDR`. -/
def placementWord (m : Dev) (sel l : Nat) : Nat :=
  match sel with
  | 0 => m.wave.die
  | 1 => m.wave.dieidx
  | 2 => m.wave.cluster
  | 3 => m.wave.core
  | 4 => m.wave.waveid
  | 5 => l
  | 6 => 2 * m.wave.die
  | 7 => 2 * m.wave.die + 1
  | 8 | 9 | 10 | 11 => (m.wave.trec.getD (sel - 8) 0).toNat
  | 12 => (m.wave.trap.lfaddr.get l).toNat % 2 ^ 32
  | 13 => (m.wave.trap.lfaddr.get l).toNat / 2 ^ 32
  | _ => m.wave.wlanes

end Sys2Proof.Claims

/-- R472-R474, R443, R478, R150, R479, R354: copies, selections, shuffles and broadcasts move a lane's value with its tangents;
`MOVI` writes IMM and `SPEC` a placement value to every effective lane; `SLC` writes the home slice of the byte that a
translation register covers, or else bit 31 alone outside the global window. A `BCAST` of a lane that the wave does not
have traps with RESERVED-FIELD, a `SPEC` of `LFADDR` in USER mode with PROTECTION. -/
def Obligations.LaneMovesWriteTheirSources : Prop :=
  ∀ (s : State) (f : LaneF) (off : Int) (x : XReg),
    let m := s.dev
    let sel (opc : Nat) (t l : Nat) : Nat :=
      if Mask.has (m.k (f.vc.toNat % 8)) l then laneVal m f.va.toNat (isPair opc f) t l
      else if t = 0 then m.opB opc f l else m.opBt opc f t l
    let src (l : Nat) : Nat := shuffled (f.mode.toNat % 128) (2 ^ (f.imm.toNat % 16)) m.wave.wlanes l (m.opB 0x0A3 f l)
    let writes (i : Instr) (opc : Nat) (g : Nat → Nat → Nat) : Prop :=
      LaneReady m opc f → Runs i s fun m' => ∃ val, LaneWrites m m' opc f val ∧ WithTangents m val g
    let plain (i : Instr) (opc : Nat) (g : Nat → Nat) : Prop :=
      LaneReady m opc f → Runs i s fun m' => LaneWrites m m' opc f fun t l => if t = 0 then g l else 0
    (f.mode.getLsbD 7 = false → writes (.mov f) 0x0A0 (laneVal m f.va.toNat (isPair 0x0A0 f))) ∧
    (f.mode.getLsbD 7 = true → plain (.mov f) 0x0A0 fun l => m.opB 0x0A0 f l) ∧
    plain (.movi f) 0x0A1 (fun _ => f.imm.toNat) ∧
    writes (.laneSel f) 0x0A2 (sel 0x0A2) ∧ writes (.isel f) 0x018 (sel 0x018) ∧
    writes (.shfl f) 0x0A3 (fun t l => laneVal m f.va.toNat false t (src l)) ∧
    (f.imm.toNat < m.wave.wlanes → writes (.bcast f) 0x0A4 fun t _ => laneVal m f.va.toNat false t f.imm.toNat) ∧
    (m.wave.wlanes ≤ f.imm.toNat → Delivers m .reservedField → Runs (.bcast f) s fun m' => ∃ w,
      LaneTrap m m' .reservedField w (lanesOf m f) fun _ => 0) ∧
    (f.imm.toNat ≤ 14 → (f.imm.toNat = 12 ∨ f.imm.toNat = 13 → m.wave.super = true) →
      plain (.laneSpec f) 0x0A9 (placementWord m f.imm.toNat)) ∧
    (f.imm.toNat = 12 ∨ f.imm.toNat = 13 → m.wave.core ≠ 12 → lanesOf m f ≠ 0 → Delivers m .protection →
      Runs (.laneSpec f) s fun m' => LaneTrap m m' .protection 0 (lanesOf m f) fun _ => 0) ∧
    (let y := m.wave.xregs.getD f.xs.toNat {}
     let o (l : Nat) : Int := ((m.wave.vget f.va.toNat 0 l).toNat : Int) + f.imm.toInt
     (∀ l, Mask.has (lanesOf m f) l = true → 0 ≤ o l ∧ o l + 1 ≤ y.limit.toNat) →
      (windowOf y.base.toNat = some .global → plain (.slc f) 0x0AA fun l => slcWord y.attr.toNat (y.frame.toNat + (o l).toNat)) ∧
      (windowOf y.base.toNat ≠ some .global → plain (.slc f) 0x0AA fun _ => 2 ^ 31)) ∧
    (let a := wrapN 64 (x.base.toNat + off)
     ¬ (0 ≤ off ∧ off + 1 ≤ x.limit.toNat) → (windowOf a ≠ some .global → m.slcLane x off = (2 ^ 31, m)) ∧
      (windowOf a = some .global → windowOff a < 2 ^ 49 →
        ∀ pte size m₁, m.coreWalk m.wave.coreNo m.wave.ctx (windowOff a) = (.leaf pte size, m₁) →
          m.slcLane x off = (slcWord pte (fld pte 51 12 * 4096 + windowOff a % size), m₁)))

namespace Sys2Proof.Claims

/-- The conditions of `ICMP` on one element (R442). -/
def laneCond {n : Nat} (cond : Nat) (sgn : Bool) (a b : BitVec n) : Bool :=
  let lt := if sgn then decide (a.toInt < b.toInt) else decide (a.toNat < b.toNat)
  match cond with
  | 0 => decide (a = b)
  | 1 => decide (a ≠ b)
  | 2 => lt
  | 3 => !lt
  | 4 => lt || decide (a = b)
  | _ => !(lt || decide (a = b))

end Sys2Proof.Claims

/-- R442, R457-R459, R475, R386: `ICMP`, the predicate operations, `KMOV` and `VOTE` write kD in their effective lanes only;
`KGET` writes the word of a predicate's effective lanes to sD, zero-extended. Nothing else changes. -/
def Obligations.LanePredicatesAreWritten : Prop :=
  ∀ (s : State) (f : LaneF),
    let m := s.dev
    let ka := m.k (f.va.toNat % 8)
    let kb := m.k (f.vb.toNat % 8)
    let e := lanesOf m f
    let n := intWidth f
    let has (k : Mask) (l : Nat) : Bool := Mask.has k l
    let pred (i : Instr) (opc : Nat) (k : Mask) (b : Nat → Bool) : Prop :=
      LaneReady m opc f → Runs i s fun m' => LanePredicate m m' opc f (f.vd.toNat % 8) k b
    pred (.icmp f) 0x017 e (fun l => laneCond (f.vc.toNat % 8) (f.mode.getLsbD 0) (elemBits n (m.laneIn 0x017 f l).a 0)
      (elemBits n (m.laneIn 0x017 f l).b 0)) ∧
    pred (.kand f) 0x100 e (fun l => has ka l && has kb l) ∧ pred (.kor f) 0x101 e (fun l => has ka l || has kb l) ∧
    pred (.kxor f) 0x102 e (fun l => xor (has ka l) (has kb l)) ∧ pred (.knot f) 0x103 e (fun l => !has ka l) ∧
    pred (.kmov f) 0x104 (e &&& BitVec.ofNat 1024 ((2 ^ 32 - 1) * 2 ^ (32 * f.imm.toNat)))
      (fun l => (m.s (BitVec.ofNat 6 f.vb.toNat)).getLsbD (l % 32)) ∧
    (f.mode.toNat % 128 = 0 → pred (.vote f) 0x0A5 e fun _ => decide (e &&& ka ≠ 0)) ∧
    (f.mode.toNat % 128 = 1 → pred (.vote f) 0x0A5 e fun _ => decide (e &&& ~~~ka = 0)) ∧
    (f.mode.toNat % 128 = 2 → pred (.vote f) 0x0A5 e fun _ => decide (e &&& ka = 0 ∨ e &&& ~~~ka = 0)) ∧
    (LaneReady m 0x105 f → f.la = 0 → Runs (.kget f) s fun m' =>
      LaneScalar m m' 0x105 f (BitVec.ofNat 6 f.vd.toNat) ((ka &&& e).extractLsb' (32 * f.imm.toNat) 32 |>.setWidth 64))

namespace Sys2Proof.Claims

/-- Element `j` of the A operand in the effective lanes that satisfy `p`, ascending. -/
def elementsOf (m : Dev) (f : LaneF) (j : Nat) (p : Nat → Bool) : List Nat :=
  ((List.range m.wave.wlanes).filter fun l => Mask.has (lanesOf m f) l && p l).map fun l =>
    elem (redWidth f) (laneVal m f.va.toNat (f.mode.getLsbD 1) 0 l) j

/-- The functions of R477 on elements of `n` bits, by OP: integers (signed when SGN is set), and floats of the format `ff`. -/
def redInt {n : Nat} (op : Nat) (sgn : Bool) (a b : BitVec n) : BitVec n :=
  match op with
  | 0 => a + b
  | 1 => if sgn then BitVec.ofInt n (min a.toInt b.toInt) else BitVec.ofNat n (min a.toNat b.toNat)
  | 2 => if sgn then BitVec.ofInt n (max a.toInt b.toInt) else BitVec.ofNat n (max a.toNat b.toNat)
  | 3 => a &&& b
  | 4 => a ||| b
  | _ => a ^^^ b
def redFloat (op : Nat) (ff : FFmt) (a b : Nat) : Nat :=
  match op with
  | 0 => ff.round 0 ((ff.decode a).addS false (ff.decode b))
  | 1 => fMinMax ff false a b
  | _ => fMinMax ff true a b

/-- OP of SUB (R476), and one step of the accumulation. -/
def redOp (f : LaneF) : Nat := f.mode.toNat / 16 % 8
def redFn (f : LaneF) (a b : Nat) : Nat :=
  if f.mode.getLsbD 3 then
    (redInt (redOp f) (f.mode.getLsbD 0) (BitVec.ofNat (redWidth f) a) (BitVec.ofNat (redWidth f) b)).toNat
  else redFloat (redOp f) (floatTy f) a b

/-- The identities of R477. -/
def redUnit (f : LaneF) : Nat :=
  let n := redWidth f
  match redOp f, f.mode.getLsbD 3, f.mode.getLsbD 0 with
  | 1, true, true => 2 ^ (n - 1) - 1
  | 1, true, false => 2 ^ n - 1
  | 2, true, true => 2 ^ (n - 1)
  | 3, _, _ => 2 ^ n - 1
  | 1, false, _ => (floatTy f).infBits false
  | 2, false, _ => (floatTy f).infBits true
  | _, _, _ => 0

/-- The accumulation of R477: from the first element on, one step for each next; `none` of nothing. -/
def accumulated (f : LaneF) : List Nat → Option Nat
  | [] => none
  | x :: t => some (t.foldl (redFn f) x)

/-- The same elements, each with its tangent `t` in F32 (R353). -/
def dualsOf (m : Dev) (f : LaneF) (j t : Nat) (p : Nat → Bool) : List (Nat × Nat) :=
  let word (t l : Nat) : Nat := elem (redWidth f) (laneVal m f.va.toNat (f.mode.getLsbD 1) t l) j
  ((List.range m.wave.wlanes).filter fun l => Mask.has (lanesOf m f) l && p l).map fun l => (word 0 l, widen f (word t l))

/-- One step with its tangent, by the row of `FADD`, `FMIN` or `FMAX` (R354). -/
def redDual (f : LaneF) (a b : Nat × Nat) : Nat × Nat :=
  (redFn f a.1 b.1, laneTangent (match redOp f with | 0 => 0x040 | 1 => 0x044 | _ => 0x045)
    { a := widen f a.1, b := widen f b.1, c := 0, ta := a.2, tb := b.2, tc := 0, y := 0 })

/-- The tangent after the accumulation, in F32; of an integer, and of nothing, it is 0 (R354, R477). -/
def accumulatedTangent (f : LaneF) (l : List (Nat × Nat)) : Nat :=
  match l, f.mode.getLsbD 3 with
  | x :: t, false => unwiden f (t.foldl (redDual f) x).2
  | _, _ => 0

end Sys2Proof.Claims

/-- R476, R477, R192, R386, R354: `REDUCE.V` writes to each effective lane, and `REDUCE` to sD (a 32-bit signed integer
sign-extended, any other 32-bit result zero-extended), the accumulation of each element over the effective lanes in ascending
order; `SCAN` writes to each lane that of the lanes up to it, or before it when X is set, where the first lane takes the identity.
The function and the identity are those that R477 gives OP. Of a dual instruction each tangent is accumulated with the elements,
each step by the row of `FADD`, `FMIN` or `FMAX`; it is zero for integers, in the first lane of an exclusive `SCAN`, and of an
instruction that is not dual.
The model's own choices that this rests on: log 26. -/
def Obligations.LaneReductionsAccumulateInOrder : Prop :=
  ∀ (s : State) (f : LaneF),
    let m := s.dev
    let n := redWidth f
    let bits := if f.mode.getLsbD 1 then 64 else 32
    redOp f ≤ 5 → (3 ≤ redOp f → f.mode.getLsbD 3 = true) →
    let writes (i : Instr) (opc : Nat) (from_ : Nat → Nat → Bool) (g : Option Nat → Option Nat) : Prop :=
      LaneReady m opc f → Runs i s fun m' => ∃ val, LaneWrites m m' opc f val ∧ ∀ l, Mask.has (lanesOf m f) l = true →
        (¬ movesTangents m → ∀ t, t ≠ 0 → val t l = 0) ∧ ∀ j, j < bits / n →
          some (elem n (val 0 l) j) = (g (accumulated f (elementsOf m f j (from_ l)))).map (fun v => v % 2 ^ n) ∧
          (movesTangents m → ∀ t, t ≠ 0 → t ≤ m.wave.tang →
            elem n (val t l) j = accumulatedTangent f (dualsOf m f j t (from_ l)) % 2 ^ n)
    writes (.reduceV f) 0x0A7 (fun _ _ => true) id ∧
    (f.mode.getLsbD 2 = false → writes (.scan f) 0x0A8 (fun l k => decide (k ≤ l)) id) ∧
    (f.mode.getLsbD 2 = true → writes (.scan f) 0x0A8 (fun l k => decide (k < l)) fun v => some (v.getD (redUnit f))) ∧
    (LaneReady m 0x0A6 f → Runs (.reduce f) s fun m' => ∃ v : Nat, v < 2 ^ bits ∧
      (∀ j, j < bits / n → some (elem n v j) = (accumulated f (elementsOf m f j fun _ => true)).map fun v => v % 2 ^ n) ∧
      LaneScalar m m' 0x0A6 f (BitVec.ofNat 6 f.vd.toNat)
        (if redIsInt f && f.ty = 0 && f.mode.getLsbD 0 && !f.mode.getLsbD 1 then (BitVec.ofNat 32 v).signExtend 64
         else BitVec.ofNat 64 v))

/-! ## Lane memory -/

namespace Sys2Proof.Claims

/-- The words that a load or an atomic has gathered, as a result by tangent and lane. -/
def gathered (r : Results) (t l : Nat) : Nat := (r.lo.vals.get (4 * l + t)).toNat + (r.hi.vals.get (4 * l + t)).toNat * 2 ^ 32

/-- None of the words gathered is poisoned. -/
def Unmarked (r : Results) : Prop := r.lo.marks = [] ∧ r.hi.marks = []

/-- The checks of every effective lane pass (R225, R284, R356). -/
def ChecksPass (m : Dev) (f : LaneF) (act : Act) (tang : Nat) (off : Nat → Int) (ls : List LaneAcc) (m₁ : Dev) : Prop :=
  m.checkLanes (m.wave.xregs.getD f.xs.toNat {}) (2 ^ sizeCode f) act tang off (Mask.lanes (lanesOf m f) m.wave.wlanes) =
    (([], ls), m₁)

/-- The addresses of a load, a store or a prefetch, and the tangents that move with it (R355, R460). -/
def laneOffset (m : Dev) (f : LaneF) (l : Nat) : Int := ((m.wave.vget f.va.toNat 0 l).toNat : Int) + f.imm.toInt
def movedTangents (m : Dev) : Nat :=
  if (if m.frag.dualRem ≠ 0 then m.frag.dualK ≠ 0 else m.wave.tang ≠ 0) then m.wave.tang else 0

/-- The words that the performed accesses of an instruction have read. -/
def wordsOf (r : Ran) (vd : Nat) : Results := r.done.foldl Results.take (resultsFor vd)

/-- The release of an instruction is made at `.SYS` when an access of it is performed there (R255, R461). -/
def atSys (ls : List LaneAcc) : Prop := ∃ x ∈ ls, ∃ a ∈ x.accs, a.loc = none ∨ ∃ p, a.loc = some (.host p)

/-- No line of core `k` but those of number `num` holds bytes that memory does not show: a fill pushes none out. -/
def QuietL1 (m : Dev) (k num : Nat) : Prop :=
  ∀ x ∈ (m.core k).l1, x.num = num ∧ x.st ≠ .shadow ∨ x.st = .e ∨ x.st = .s ∨ x.st = .g

/-- No core but `k` holds a tracked copy of the line; core `k` has at most one line of the number, and of a tracked one that
is not dirty every byte is the home's. -/
def Alone (m : Dev) (k num : Nat) : Prop :=
  (m.cores.map fun x => x.1).Nodup ∧ (∀ j, j ≠ k → ∀ y ∈ (m.core j).l1, y.num = num → y.st.tracked = false) ∧
  ((m.core k).l1.filter fun y => decide (y.num = num)).length ≤ 1 ∧
  ∀ y ∈ (m.core k).l1, y.num = num → y.st.tracked = true → y.st.dirty = false → y.mask = 0

/-- An access of a lane instruction to a place in memory, of `n` bytes that lie in one line; of an array, one that the context
of the wave has (R13). -/
def PlainPart (m : Dev) (p : Part) (l : Loc) : Prop :=
  MemoryAt p.acc l ∧ NoPending m m.wave.coreNo l ∧ (∀ i, i < p.size → m.ownsArray m.wave.ctx (l.add i) = true) ∧ (p.size = 1 ∨ p.size = 2 ∨ p.size = 4 ∨ p.size = 8) ∧
  ∀ pa, l = .dev pa → pa % p.size = 0

end Sys2Proof.Claims

/-- R464, R460-R463, R355, R356: `LD` whose lanes all pass their checks performs the loads of the lanes in ascending order,
writes their words to the destination, and sends the peer requests of the lanes in the peer window; an acquire then drops the
G lines. A load from memory without pending or poisoned bytes gives its bytes, zero-extended, and changes no byte. R461, R462,
R264: the accesses of a lane instruction are performed in their order when none is in the peer window; those in it are sent,
and of accesses that wait for the responses before them one at a time. The load of a lane reads its primal before its
tangents, the store of a lane writes its tangents before its primal; an `LD.ACQ` and the primal of an `ST.REL` wait for the
accesses before them. R463: a poisoned word is written as 0 with a mark of its own error. R67: a request carries the address,
the size and the data of its access.
The model's own choices that this rests on: log 23, log 32, log 106. -/
def Obligations.LaneLoadsReadMemory : Prop :=
  (∀ (s : State) (f : LaneF) (ls : List LaneAcc) (m₁ m₂ : Dev) (r : Ran),
    let m := s.dev
    let n := 2 ^ sizeCode f
    let m₃ := if strCode f = 2 then m₂.acquire else m₂
    let x := wordsOf r f.vd.toNat
    (LaneReady m 0x0C0 f → ChecksPass m f .load (movedTangents m) (laneOffset m f) ls m₁ →
      m₁.runParts {} (ls.flatMap fun a => m₁.loadParts f n a) = (r, m₂) → Unmarked x →
      Runs (.ld f) s fun m' => ∃ p, LaneWritesIn m₃ p 0x0C0 f x.lo.lanes (gathered x) r.late ∧
        m' = p.sendRan m.wave.uid m.wave.die r) ∧
    ∀ (p : Part) (l : Loc) (strong : Bool) (err : Nat), p.op = .load strong → PlainPart m p l → Clean m m.wave.coreNo l p.size →
      (∀ pa, l = .dev pa → strong = false → QuietL1 m m.wave.coreNo (pa / 128) ∧
        ∀ y, m.line m.wave.coreNo (pa / 128) = some y → y.st ≠ .g) →
      let q := m.perform p err
      SameMemory m q.2 ∧ q.1.v = ofBytes (m.bytesAt l p.size) ∧ q.1.badLo = false ∧ q.1.badHi = false) ∧
  (∀ (m : Dev) (p : Part) (ps : List Part) (uid die err : Nat),
    ((∀ q ∈ ps, q.acc.loc ≠ none) →
      let r := (m.runParts {} ps).1
      r.done.map (fun d => d.part) = ps ∧ r.sent = [] ∧ r.rest = []) ∧
    ((∀ q ∈ ps, q.acc.loc = none ∧ q.waits = false) →
      let r := (m.runParts {} ps).1
      r.sent.map (fun x => x.1) = ps ∧ r.done = [] ∧ r.rest = []) ∧
    (p.acc.loc = none → (∀ q ∈ p :: ps, q.waits = true) →
      let r := (m.runParts {} (p :: ps)).1
      r.sent.map (fun x => x.1) = [p] ∧ r.done = [] ∧ r.rest = ps) ∧
    ∃ q, (m.sendParts uid die [(p, err)]).peers.getLast? = some q ∧ q.wave = uid ∧ q.err = err ∧ q.size = p.size ∧
      q.addr = BitVec.ofNat 64 p.acc.addr ∧ q.data = p.data ∧ q.what = p.peerFor) ∧
  (∀ (m : Dev) (f : LaneF) (n lane : Nat) (a b : Access),
    m.storeParts f n { lane, accs := [a, b] } =
      [{ lane, tang := 1, acc := b, size := n, op := .store (strCode f ≠ 0) (scopeCode f) (leBytes n (m.opBt 0x0C1 f 1 lane)) },
       { lane, tang := 0, acc := a, size := n, waits := strCode f = 3,
         op := .store (strCode f ≠ 0) (scopeCode f) (leBytes n (m.opB 0x0C1 f lane)) }] ∧
    (m.loadParts f n { lane, accs := [a, b] }).map (fun p => (p.acc, p.tang, p.waits)) =
      [(a, 0, decide (strCode f = 2)), (b, 1, decide (strCode f = 2))]) ∧
  ∀ (r : Results) (d : Done), d.badLo = true → d.part.tang < 4 →
    (r.take d).lo.vals.get (4 * d.part.lane + d.part.tang) = 0 ∧
    ∃ k ∈ (r.take d).lo.marks, k.lane = d.part.lane ∧ k.tang = d.part.tang ∧ k.err = d.err ∧ k.cause = .poison ∧
      k.addr = BitVec.ofNat 64 d.part.acc.addr

/-- R465, R264, R356: `ST` whose lanes all pass, after its release, performs the stores of the lanes in ascending order and
sends those in the peer window. A store of a lane leaves the low bytes of its data at its place: at the home for a strong
store of device scope, an array, or a line that the core owns; in the core's L1 for a weak store of a line that it lacks.
The model's own choices that this rests on: log 24, log 25. -/
def Obligations.LaneStoresWriteMemory : Prop :=
  ∀ (s : State) (f : LaneF) (ls : List LaneAcc) (m₁ m₃ : Dev) (r : Ran) (sc : Nat),
    let m := s.dev
    let n := 2 ^ sizeCode f
    let k := m.wave.coreNo
    let m₂ := if strCode f = 3 then m₁.release k sc else m₁
    (LaneReady m 0x0C1 f → ChecksPass m f .store (movedTangents m) (laneOffset m f) ls m₁ →
      (atSys ls → sc = 4) → (¬ atSys ls → sc = scopeCode f) →
      (strCode f = 3 → sc = 4 → m₁.busyPeers m₁.wave.uid = false) →
      m₂.runParts {} (ls.flatMap fun a => m₂.storeParts f n a) = (r, m₃) →
      Runs (.st f) s fun m' => ∃ p, LaneOver m₃ p 0x0C1 f ∧ p.frag = afterLane m₃ [] ∧ p.wave.kregs = m₃.wave.kregs ∧
        p.wave.sregs = m₃.wave.sregs ∧ m' = p.sendRan m.wave.uid m.wave.die r) ∧
    ∀ (p : Part) (l : Loc) (strong : Bool) (bs : List Byte) (err : Nat), p.op = .store strong sc bs → bs.length = p.size →
      PlainPart m p l → Exists l p.size →
      let q := (m.perform p err).2
      (((∀ pa, l ≠ .dev pa) ∨ (strong = true ∧ 3 ≤ sc)) → StoredAt m q l bs) ∧
      (∀ pa y, l = .dev pa → (strong = false ∨ sc < 2) → m.l1Sets k ≠ 0 → m.line k (pa / 128) = some y → y.st.tracked = true →
        Alone m k (pa / 128) → StoredAt m q l bs) ∧
      (∀ pa, l = .dev pa → (strong = false ∨ sc < 2) → m.l1Sets k ≠ 0 → m.line k (pa / 128) = none →
        QuietL1 m k (pa / 128) → Alone m k (pa / 128) →
        SameMemory m q ∧ ∀ i b, bs[i]? = some b → q.strongByte k (pa + i) = b)

namespace Sys2Proof.Claims

/-- The functions of R466 on `n` bits: what memory holds after one, and nothing written by a `CAS` that does not match. -/
def atomValue {n : Nat} (fn : Nat) (old b c : BitVec n) : BitVec n :=
  match fn with
  | 0 => old + b
  | 1 => BitVec.ofNat n (fAdd (if n = 16 then f16 else f32) 0 old.toNat b.toNat)
  | 2 => BitVec.ofInt n (min old.toInt b.toInt)
  | 3 => BitVec.ofInt n (max old.toInt b.toInt)
  | 4 => BitVec.ofNat n (min old.toNat b.toNat)
  | 5 => BitVec.ofNat n (max old.toNat b.toNat)
  | 6 => BitVec.ofNat n (fMinMax f32 true old.toNat b.toNat)
  | 7 => old &&& b
  | 8 => old ||| b
  | 9 => old ^^^ b
  | 10 => b
  | _ => if old = c then b else old

end Sys2Proof.Claims

/-- R466, R467, R357, R250: `ATOM` whose lanes all pass is irrevocable and, after its release and before its acquire, performs the
atomics of the lanes in ascending order and writes the old values; a dual one that is no addition keeps the shadows and sets
`WAVECTL` bit 3. The atomic of a lane has the lane's B operand, and for `CAS` its C operand. On memory without pending or
poisoned bytes it reads the old value and leaves at its place what the function of FN gives, at every scope.
The model's own choices that this rests on: log 54. -/
def Obligations.LaneAtomicsUpdateMemory : Prop :=
  ∀ (s : State) (f : LaneF) (ls : List LaneAcc) (m₁ m₂ m₃ : Dev) (r : Ran) (sc : Nat) (kept : Bool),
    let m := s.dev
    let n := 2 ^ sizeCode f
    let fn := f.imm.toNat % 16
    let k := m.wave.coreNo
    let rel := strCode f = 0 ∨ strCode f = 3
    let keep := movesTangents m ∧ 2 ≤ fn
    let x := wordsOf r f.vd.toNat
    (LaneReady m 0x0C2 f →
      ChecksPass m f .atomic (if fn ≤ 1 then movedTangents m else 0) (fun l => ((m.wave.vget f.va.toNat 0 l).toNat : Int)) ls m₁ →
      (atSys ls → sc = 4) → (¬ atSys ls → sc = scopeCode f) →
      (rel → sc = 4 → m₁.busyPeers m₁.wave.uid = false) → (kept = true ↔ keep) →
      (∀ a, (rel → a = m₁.irrev.release k sc) → (¬ rel → a = m₁.irrev) →
        (keep → m₂ = { a with wave := { a.wave with wavectl := a.wave.wavectl ||| 8 } }) ∧ (¬ keep → m₂ = a)) →
      m₂.runParts {} (ls.flatMap fun a => m₂.atomParts f n a) = (r, m₃) → Unmarked x →
      Runs (.atom f) s fun m' => ∃ p val,
        LaneWritesIn (if strCode f = 0 ∨ strCode f = 2 then m₃.acquire else m₃) p 0x0C2 f x.lo.lanes val r.late kept ∧
        m' = p.sendRan m.wave.uid m.wave.die r ∧
        ∀ t l, t ≤ m.wave.tang → Mask.has x.lo.lanes l = true →
          (keep → t ≠ 0 → val t l = laneVal m f.vd.toNat (decide (n = 8)) t l) ∧
          (¬ keep ∨ t = 0 → val t l = gathered x t l)) ∧
    (∀ (lane : Nat) (a : Access), (m.atomParts f n { lane, accs := [a] }).map (fun p => (p.lane, p.tang, p.acc, p.size, p.op)) =
      [(lane, 0, a, n, .atomic (scopeCode f) fn (m.opB 0x0C2 f lane)
        (if fn = 11 then laneVal m f.vc.toNat (decide (n = 8)) 0 lane else 0) a.loc.toList)]) ∧
    ∀ (p : Part) (l : Loc) (b c err : Nat), n = 2 ∨ n = 4 ∨ n = 8 → p.size = n → fn ≤ 11 → p.op = .atomic sc fn b c [l] →
      p.acc.loc = some l → (∀ i, i < n → m.ownsArray m.wave.ctx (l.add i) = true) → Exists l n → NoPending m k l → (∀ pa, l = .dev pa → pa % n = 0) →
      (∀ i, i < n → m.poisonAt (l.add i) = false) →
      let q := m.perform p err
      let old := BitVec.ofNat (8 * n) (ofBytes (m.bytesAt l n))
      q.1.v = old.toNat ∧ q.1.badLo = false ∧ q.1.badHi = false ∧
        StoredAt m q.2 l (leBytes n (atomValue fn old (BitVec.ofNat (8 * n) b) (BitVec.ofNat (8 * n) c)).toNat)

/-- R468, R469: `PREF` changes no register and goes on, whatever its lanes' checks say. `PLW` of a plate that exists, whose offsets
are words inside it, owns the plates and writes a word for each effective lane, tangents to the shadow plates; one word
changes four bytes of one plate. A plate that does not exist traps with RESERVED-FIELD. R286, R470: `RPUSH` and `RPOP` of a
ring room that the wave holds take slots for their lanes, write kR, and store or load the slots in ascending order of the
lanes. The tun gives the next free (or filled) slots, as many as there are, moves TAIL (or HEAD) on by their number, and kR
says which lanes got one. The slot with a number lies at BASE plus the number times the size; `RPUSH` stores the lane's word or
pair there, and `RPOP` loads it.
The model's own choices that this rests on: log 52, log 55. -/
def Obligations.PrefetchPlateAndRingInstructionsEnd : Prop :=
  (∀ (s : State) (f : LaneF) (m₁ m₂ : Dev) (cl p o v : Nat),
    let m := s.dev
    let k := m.wave.tang
    let plate := f.imm.toNat % 16
    let lanes := (Mask.lanes (lanesOf m f) m.wave.wlanes).map fun l => (l, (m.wave.vget f.va.toNat 0 l).toNat)
    (LaneReady m 0x0C3 f → Runs (.pref f) s fun m' => m'.frag = afterLane m [] ∧ WindowOnly m m' f ∧
      RegistersAre m m' 0x0C3 f 0 (fun _ _ => 0)) ∧
    (LaneReady m 0x0C4 f → plate < plateCount k → (∀ x ∈ lanes, x.2 % 4 = 0 ∧ x.2 < 8192) →
      m.ownPlates m.wave.clusterNo m.wave.ctx m.wave ((List.range (k + 1)).map fun j => plate + j * plateCount k) = .ok m₁ →
      lanes.foldl (fun a (x : Nat × Nat) => (List.range (k + 1)).foldl (fun (a : Dev) j =>
        a.plateWord m.wave.clusterNo (plate + j * plateCount k) x.2
          (if j = 0 then m.opB 0x0C4 f x.1 else if a.dual then m.opBt 0x0C4 f j x.1 else 0)) a) m₁ = m₂ →
      Runs (.plw f) s fun m' => LaneOver m₂ m' 0x0C4 f ∧ m'.frag = afterLane m₂ [] ∧ m'.wave.kregs = m.wave.kregs ∧
        m'.wave.sregs = m.wave.sregs) ∧
    (plateCount k ≤ plate → Delivers m .reservedField → Runs (.plw f) s fun m' => ∃ w,
      LaneTrap m m' .reservedField w (lanesOf m f) fun _ => 0) ∧
    (p < 16 → let q := m.plateWord cl p o v
      (∀ i b, (leBytes 4 v)[i]? = some b → (q.plate cl p).bytes.get (o + i) = b) ∧
      (∀ i, i < o ∨ o + 4 ≤ i → (q.plate cl p).bytes.get i = (m.plate cl p).bytes.get i) ∧
      ∀ d j, (d ≠ cl ∨ j ≠ p) → q.plate d j = m.plate d j)) ∧
  (∀ (s : State) (f : LaneF) (r : Room) (push : Bool) (slots : KMap Nat) (m₁ m₂ : Dev) (res : Results) (ls : List Nat),
    let m := s.dev
    let opc := if push then 0x0C5 else 0x0C6
    let m₃ := if m₂.wave.super then m₂ else { m₂ with frag := { m₂.frag with slots := [] } }
    (LaneReady m opc f → m.frag.reissue = none →
      m.wave.rooms.find? (fun x => x.desc = (m.s (BitVec.ofNat 6 f.vb.toNat)).toNat) = some r →
      r.mode = (if push then 3 else 4) → sizeCode f - 2 = r.slot →
      m.takeSlots f r push (lanesOf m f) = (slots, m₁) →
      slots.foldl (fun (p : (List LaneFail × Results) × Dev) (e : Nat × Nat) =>
        let q := p.2.ringLane f r push p.1.2 e.1 e.2
        ((p.1.1 ++ q.1.1.toList, q.1.2), q.2)) (([], resultsFor f.vd.toNat), m₁) = (([], res), m₂) → Unmarked res →
      (push = true → Runs (.rpush f) s fun m' => LaneOver m₃ m' 0x0C5 f ∧ m'.frag = afterLane m₃ [] ∧
        m'.wave.kregs = m₃.wave.kregs ∧ m'.wave.sregs = m₃.wave.sregs) ∧
      (push = false → Runs (.rpop f) s fun m' => LaneWritesIn m₃ m' 0x0C6 f res.lo.lanes (gathered res))) ∧
    ((m.frag.reissue = none → 0 < f.imm.toNat % 8 → m.takeSlots f r push (lanesOf m f) = (slots, m₁) →
      ∀ l, l < m.wave.wlanes → l < 1024 → Mask.has (lanesOf m f) l = true →
        Mask.has (m₁.k (f.imm.toNat % 8)) l = slots.any fun e => decide (e.1 = l)) ∧
     (DescAt r.place → 0 < r.nslot → ls.Nodup →
      let head := m.descDword r.place 0x18
      let tail := m.descDword r.place 0x20
      let used : Int := (tail : Int) - head
      let free := min ls.length (if push then r.nslot - used else used).toNat
      let q := m.ringSlots r push ls
      tail + ls.length ≤ 2 ^ 64 →
      q.1.length = free ∧ q.2.descDword r.place (if push then 0x20 else 0x18) = ((if push then tail else head) + free) % 2 ^ 64 ∧
      ∀ i l, i < free → ls[i]? = some l → KMap.get r.nslot q.1 l = ((if push then tail else head) + i) % r.nslot))) ∧
  ∀ (m m₁ : Dev) (f : LaneF) (r : Room) (push : Bool) (res : Results) (l slot : Nat) (loc : Loc),
    let n := 2 ^ sizeCode f
    let q := m.ringLane f r push res l slot
    n = 4 ∨ n = 8 → m.check (r.base + n * slot) n { windows := [.global], rd := !push, wr := push, align := n } =
      (.ok [{ loc, len := n }], m₁) →
    Exists loc n → NoPending m₁ m₁.wave.coreNo loc → (∀ pa, loc = .dev pa → pa % n = 0) →
    (push = true → q.1.1 = none ∧ q.1.2 = res ∧ StoredAt m₁ q.2 loc (leBytes n (laneVal m₁ f.va.toNat (decide (n = 8)) 0 l))) ∧
    (push = false → Clean m₁ m₁.wave.coreNo loc n →
      let v := ofBytes (m₁.bytesAt loc n)
      q.1.1 = none ∧ SameMemory m₁ q.2 ∧ q.1.2.lo.vals.get (4 * l) = BitVec.ofNat 32 v ∧ q.1.2.lo.marks = res.lo.marks ∧
        (n = 8 → q.1.2.hi.vals.get (4 * l) = BitVec.ofNat 32 (v / 2 ^ 32)))


/-! ## Engines and messages -/

namespace Sys2Proof.Claims

/-- A command of the loaded wave with a body has joined its open batch (R334, R340), and the fragment goes on. The other
commands, the registers and the bytes of memory are as they were. -/
def Commanded (m m' : Dev) (pages : List Nat) (body : CmdBody) : Prop :=
  let c : Cmd := { id := m.nextCmd, wave := m.wave.uid, ctx := m.wave.ctx, cluster := m.wave.clusterNo, pages, body }
  SameMemory m m' ∧ NextWord m m' ∧ m'.nextCmd = m.nextCmd + 1 ∧
  m'.wave = { m.wave with openBatch := m.wave.openBatch ++ [m.nextCmd], wavectl := m'.wave.wavectl, everirr := m'.wave.everirr } ∧
  m'.cmds = m.cmds ++ [c]

/-- The wave is irrevocable (R197), and its other `WAVECTL` bits are as they were. -/
def Irrevocable (m m' : Dev) : Prop := m'.wave.wavectl = m.wave.wavectl ||| 2 ∧ m'.wave.everirr = true

/-- The command is gone, the others stand. -/
def Completed (m m' : Dev) (id : Nat) : Prop := m'.cmds = m.cmds.filter fun c => decide (c.id ≠ id)

/-- The two checks of a range that may not be asked (R344, R348). -/
def checked (m : Dev) (ask : Bool) (a n : Nat) (k : AccessKind) (ss : List Span) (m' : Dev) : Prop :=
  if ask then m.checkRange a n k = .ok (ss, m') else ss = [] ∧ m' = m

/-- The engines of cluster `cl` see the bytes that memory and the arrays show: the context may touch the array bytes (R13), and
no P line of the cluster or line of its die's merge buffer lies over the others (R269). -/
def PlainFor (m : Dev) (cl ctx : Nat) (l : Loc) (n : Nat) : Prop :=
  ∀ i, i < n → m.ownsArray ctx (l.add i) = true ∧
    ∀ pa, l.add i = .dev pa → m.pendingIn cl none (pa / 128) false = [] ∧ m.buffered (cl / 16) (pa / 128) = []

/-- The context may touch the array bytes of a place (R13). -/
def MayTouch (m : Dev) (ctx : Nat) (l : Loc) (n : Nat) : Prop := ∀ i, i < n → m.ownsArray ctx (l.add i) = true

/-- The doubleword of a stamp (R339). -/
def stampOf (v : Word) (err cid : Nat) : List Byte := leBytes 8 (v.toNat * 2 ^ 32 + err * 2 ^ 31 + cid)

/-- A started slice of a copy, `n`, whose source is one range. -/
def sliceOne (c : Cmd) (cl : Nat) (gang : Option Nat) (cid : Nat) (src : Loc) (dst : List Span) (landing : Nat)
    (rcv : List (Nat × Option Nat)) (se : Bool) (stamp : Word) (len n : Nat) : Prop :=
  c.body = .copy cl gang cid [{ loc := src, len }] dst landing rcv se stamp len n

/-- A peer request but for whether it has left its port. -/
def sentForm (q : PeerOut) : PeerOut := { q with left := false }

/-- An unstarted slice of copy `cid` of a gang. -/
def sliceFor (cl g cid : Nat) (c : Cmd) : Prop :=
  ∃ s d lo rc se st le, c.body = .copy cl (some g) cid s d lo rc se st le 0

/-- The slice has started as copy `n`, its receivers known (R337); other commands are as they were. -/
def startedFrom (m : Dev) (cl g cid n : Nat) (c c' : Cmd) : Prop :=
  (sliceFor cl g cid c → ∀ s d lo rc se st le, c.body = .copy cl (some g) cid s d lo rc se st le 0 →
    c' = { c with body := .copy cl (some g) cid s d lo (rc.map fun r => (r.1, m.receiverBase cl (some g) r.1)) se st le n }) ∧
  (¬ sliceFor cl g cid c → c' = c)

end Sys2Proof.Claims

/-- R218, R333-R337, R340, R344, R347, R348: `CFETCH`, `CPY`, `GATH`, `SCADD`, `PEER.PUT` and `PEER.GET` whose descriptors and
ranges pass start a command that joins the open batch, and go on; a copy of a gang starts with its last party (R336). When it is
performed, a code fetch leaves its 16 KiB LANDED in the segment, or ERROR when a byte was poisoned; a copy leaves the source
bytes at the destination, or at each receiver's landing, and then its stamp, with ERR = 1 when a byte was poisoned or not
written (R337, R339); a gather leaves table rows, or zeros for the indices that it drops, a scatter-add its sums (R345), and then
the record (R346); a transfer ends when its requests are answered, and leaves its stamp (R348), with ERR when a byte was
poisoned or not written. A `CFETCH` whose segment is INFLIGHT waits with the range that it has translated.
The model's own choices that this rests on: log 60 to log 62. -/
def Obligations.EngineCommandsStartAndComplete : Prop :=
  (∀ (s : State) (seg : BitVec 4) (ln : BitVec 1) (a : BitVec 6) (ss : List Span) (m₁ : Dev),
    let m := s.dev
    let p := (m.s a).toNat
    let k := m₁.wave.coreNo
    let x := m.seg seg.toNat
    let taken : Dev := { m₁ with frag := { m₁.frag with taken := p, range := [] } }
    m.frag.phase = 0 → seg.toNat ≤ 11 → p % 2 ^ 14 = 0 → (x.owner = .free ∨ x.owner = .launch m.wave.launch) →
    m.checkRange p 0x4000 { windows := [.global], rd := true } = .ok (ss, m₁) →
    (x.st ≠ .inflight → Runs (.cfetch seg ln a) s fun m' => Commanded taken m' (pagesOf p 0x4000) (.cfetch k seg.toNat ss) ∧
      (m'.core k).segs.getD seg.toNat {} = { x with st := .inflight, lane := decide (ln = 1), owner := .launch m₁.wave.launch } ∧
      Due m' (.cfetchComplete k seg.toNat)) ∧
    (x.st = .inflight → Runs (.cfetch seg ln a) s fun m' =>
      m' = { m₁ with frag := { m₁.frag with taken := p, range := ss, wait := .segment seg.toNat, phase := 1 } })) ∧
  (∀ (s : State) (seg : BitVec 4) (ln : BitVec 1) (a : BitVec 6),
    let m := s.dev
    let k := m.wave.coreNo
    let x := m.seg seg.toNat
    m.frag.phase = 1 → x.st ≠ .inflight →
    Runs (.cfetch seg ln a) s fun m' =>
      Commanded { m with frag := { m.frag with range := [] } } m' (pagesOf m.frag.taken 0x4000) (.cfetch k seg.toNat m.frag.range) ∧
      (m'.core k).segs.getD seg.toNat {} = { x with st := .inflight, lane := decide (ln = 1), owner := .launch m.wave.launch } ∧
      Due m' (.cfetchComplete k seg.toNat)) ∧
  (∀ (s : State) (k seg : Nat) (c : Cmd) (ss : List Span),
    let m := s.dev.stash
    let g := (m.core k).segs.getD seg {}
    m.cmds.filter (fetches k seg) = [c] → c.body = .cfetch k seg ss → g.st = .inflight →
    Runs (.cfetchComplete k seg) s fun m' => Completed m m' c.id ∧ SameMemory m m' ∧
      (let bs := m.engineBytes (k / 13) c.ctx ss
       (m'.core k).segs.getD seg {} = { g with code := Cells.putBytes [] 0 (bs.map fun b => b.1),
                                               st := if ∃ b ∈ bs, b.2 = true then .error else .landed })) ∧
  (∀ (m : Dev) (cl ctx n : Nat) (l : Loc), PlainFor m cl ctx l n →
    m.engineBytes cl ctx [{ loc := l, len := n }] = (List.range n).map fun i => (m.byteAt (l.add i), m.poisonAt (l.add i))) ∧
  (∀ (s : State) (a : BitVec 6) (d : List Byte) (m₁ m₂ m₃ : Dev) (ss ds : List Span),
    let m := s.dev
    let w := dwordOf d 2
    let n := fld w 59 56
    let len := fld (dwordOf d 3) 31 0
    let total := if w.testBit 7 then alignUp len 8 + 8 else len
    let rcv := ((List.range n).map fun i => fld w (55 - 4 * i) (52 - 4 * i)).eraseDups.map fun c => (c, (none : Option Nat))
    let body (k : Nat) : CmdBody := .copy m₃.wave.clusterNo m₃.wave.gang (fld w 63 60) ss ds (fld (dwordOf d 1) 19 0) rcv
      (w.testBit 7) (BitVec.ofNat 32 (fld (dwordOf d 3) 63 32)) len k
    let pages := pagesOf (dwordOf d 0) len ++ (if n = 0 then pagesOf (dwordOf d 1) total else [])
    m.readDesc (m.s a).toNat 32 32 [.own] = .ok (d, m₁) → sliceOk d = true → m₁.suppliedSlice (fld w 63 60) = false →
    m₁.checkRange (dwordOf d 0) len { windows := engineWindows, rd := true } = .ok (ss, m₂) →
    checked m₂ (decide (n = 0)) (dwordOf d 1) total { windows := engineWindows, wr := true } ds m₃ →
    (m₃.wave.gang = none → m₃.copyParties = [] → rcv = [] →
      Runs (.cpy a) s fun m' => Commanded m₃ m' pages (body m₃.nextCopy) ∧ Irrevocable m₃ m' ∧ Due m' (.copyComplete m₃.nextCmd)) ∧
    ∀ g parties, m₃.wave.gang = some g →
      let cl := m₃.wave.clusterNo
      let cid := fld w 63 60
      let c : Cmd := { id := m₃.nextCmd, wave := m₃.wave.uid, ctx := m₃.wave.ctx, cluster := cl, pages, body := body 0 }
      let p : CopyParty := { cluster := cl, gang := some g, cid, parties }
      (m₃.copyParties = [p] ∨ (m₃.copyParties = [] ∧ ∃ x, gangAt m₃ cl g = some x ∧ parties = x.members)) →
      ((∃ u ∈ parties, u ≠ m₃.wave.uid ∧ ∀ x ∈ m₃.cmds, x.wave = u → ¬ sliceFor cl g cid x) →
        Runs (.cpy a) s fun m' => Commanded m₃ m' pages (body 0) ∧ Irrevocable m₃ m' ∧ m'.copyParties = [p]) ∧
      ((∀ u ∈ parties, u ≠ m₃.wave.uid → ∃ x ∈ m₃.cmds, x.wave = u ∧ sliceFor cl g cid x) →
        Runs (.cpy a) s fun m' => SameMemory m₃ m' ∧ NextWord m₃ m' ∧ Irrevocable m₃ m' ∧ m'.copyParties = [] ∧
          m'.cmds.length = m₃.cmds.length + 1 ∧
          (∀ (i : Nat) (x y : Cmd), (m₃.cmds ++ [c])[i]? = some x → m'.cmds[i]? = some y → startedFrom m₃ cl g cid m₃.nextCopy x y) ∧
          ∀ x, (m₃.cmds ++ [c]).find? (fun x => match x.body with
              | .copy cl' g' cid' _ _ _ _ _ _ _ n => decide (cl' = cl ∧ g' = some g ∧ cid' = cid ∧ n = 0)
              | _ => false) = some x → Due m' (.copyComplete x.id))) ∧
  (∀ (s : State) (c : Cmd) (cl : Nat) (gang : Option Nat) (cid landing len n : Nat) (src : Loc) (dst : List Span) (rcv : List (Nat × Option Nat))
      (se : Bool) (stamp : Word),
    let m := s.dev.stash
    let total := if se then alignUp len 8 + 8 else len
    n ≠ 0 → 0 < len → sliceOne c cl gang cid src dst landing rcv se stamp len n →
    m.cmds.filter (fun x => (m.sliceData n x).isSome) = [c] → m.copyOf c.id = some n → PlainFor m cl c.ctx src len →
    (∀ d, rcv = [] → dst = [{ loc := d, len := total }] → Exists d total → MayTouch m c.ctx d total →
      Runs (.copyComplete c.id) s fun m' => Completed m m' c.id ∧
        (∀ i b, (m.bytesAt src len)[i]? = some b → m'.byteAt (d.add i) = b) ∧
        (se = true → ∀ i b, (stampOf stamp (b2n (m.anyPoison src len)) cid)[i]? = some b → m'.byteAt (d.add (alignUp len 8 + i)) = b) ∧
        ∀ l, (∀ i, i < total → l ≠ d.add i) → m'.byteAt l = m.byteAt l) ∧
    (rcv ≠ [] → (rcv.map fun r => r.1).Nodup → (∀ r ∈ rcv, r.1 ≤ 11) →
      (∀ r b, (r, some b) ∈ rcv →
        m.reachable c.ctx (13 * cl + r) (b + landing) len = true ∧
        (se = true → m.reachable c.ctx (13 * cl + r) (b + landing + alignUp len 8) 8 = true)) →
      Runs (.copyComplete c.id) s fun m' => Completed m m' c.id ∧
        (∀ r b, (r, some b) ∈ rcv →
          (∀ i x, (m.bytesAt src len)[i]? = some x → m'.byteAt (.arr (13 * cl + r) (b + landing + i)) = x) ∧
          (se = true → ∀ i x, (stampOf stamp (b2n (m.anyPoison src len || rcv.any fun r => r.2.isNone)) cid)[i]? = some x →
            m'.byteAt (.arr (13 * cl + r) (b + landing + alignUp len 8 + i)) = x)) ∧
        ∀ l, (∀ r b i, (r, some b) ∈ rcv → i < total → l ≠ .arr (13 * cl + r) (b + landing + i)) → m'.byteAt l = m.byteAt l)) ∧
  (∀ (s : State) (a : BitVec 6) (sc : Bool) (d : List Byte) (m₁ m₂ m₃ m₄ m₅ : Dev) (idx sp rec tab : List Span),
    let m := s.dev
    let nidx := fld (dwordOf d 1) 31 0
    let nrows := fld (dwordOf d 3) 63 32
    let rowb := fld (dwordOf d 3) 12 0
    let pitch := fld (dwordOf d 4) 51 32
    let off := fld (dwordOf d 4) 19 0
    let pages := pagesOf (dwordOf d 0) (4 * nidx) ++ pagesOf (dwordOf d 2) (nrows * rowb) ++
      (if dwordOf d 5 = 0 then [] else pagesOf (dwordOf d 5) 8)
    m.readDesc (m.s a).toNat 64 64 engineWindows = .ok (d, m₁) → gatherOk sc d = true → nidx ≠ 0 →
    checked m₁ true (dwordOf d 0) (4 * nidx) { windows := [.global], rd := true } idx m₂ →
    checked m₂ true (0xFE * 2 ^ 56 + off) ((nidx - 1) * pitch + rowb) { windows := [.own], rd := sc, wr := !sc } sp m₃ →
    checked m₃ (decide (dwordOf d 5 ≠ 0)) (dwordOf d 5) 8 { windows := [.global], wr := true } rec m₄ →
    checked m₄ (decide (nrows ≠ 0)) (dwordOf d 2) (nrows * rowb) { windows := [.global], rd := true, wr := sc } tab m₅ →
    Runs (if sc then .scadd a else .gath a) s fun m' => Irrevocable m₅ m' ∧ Due m' (.gatherComplete m₅.wave.clusterNo) ∧
      Commanded m₅ m' pages (.gather sc m₅.wave.clusterNo idx tab nidx nrows rowb pitch off m₅.wave.coreNo m₅.wave.scrbase rec
        (fld (dwordOf d 6) 33 32) (BitVec.ofNat 32 (dwordOf d 6)))) ∧
  (∀ (s : State) (a : BitVec 6) (sc : Bool) (d : List Byte) (m₁ m₂ m₃ : Dev) (r : Nat) (rec tab : List Span),
    let m := s.dev
    let nrows := fld (dwordOf d 3) 63 32
    m.readDesc (m.s a).toNat 64 64 engineWindows = .ok (d, m₁) → gatherOk sc d = true → fld (dwordOf d 1) 31 0 = 0 →
    checked m₁ (decide (dwordOf d 5 ≠ 0)) (dwordOf d 5) 8 { windows := [.global], wr := true } rec m₂ →
    checked m₂ (decide (nrows ≠ 0)) (dwordOf d 2) (nrows * fld (dwordOf d 3) 12 0) { windows := [.global], rd := true, wr := sc } tab m₃ →
    Runs (if sc then .scadd a else .gath a) s fun m' => Irrevocable m₃ m' ∧ NextWord m₃ m' ∧ m'.cmds = m₃.cmds ∧ m'.gdrop = m₃.gdrop ∧
      (rec = [] → SameMemory m₃ m') ∧
      (rec = [{ loc := .dev r, len := 8 }] → r + 8 ≤ devBytes → StoredAt m₃ m' (.dev r) (leBytes 8 (fld (dwordOf d 6) 31 0)))) ∧
  (∀ (s : State) (c : Cmd) (sc : Bool) (cl nidx nrows rowb pitch off core base ety li lt r : Nat) (rec : List Span) (stamp : Word),
    let m := s.dev.stash
    let index (i : Nat) : Nat := ofBytes (m.bytesAt (.dev (li + 4 * i)) 4)
    let live (i : Nat) : Prop := index i < nrows ∧ index i ≠ 0xFFFFFFFF
    let row (i : Nat) : Nat := base + off + i * pitch
    let at_ (i : Nat) : Nat := lt + index i * rowb
    let mine (x : Cmd) : Bool := match x.body with | .gather _ q _ _ _ _ _ _ _ _ _ _ _ _ => decide (q = cl) | _ => false
    let dropped := ((List.range nidx).filter fun i => decide (¬ (index i < nrows ∧ index i ≠ 0xFFFFFFFF))).length
    let recordBytes := leBytes 8 (dropped * 2 ^ 32 + stamp.toNat)
    c.body = .gather sc cl [{ loc := .dev li, len := 4 * nidx }] [{ loc := .dev lt, len := nrows * rowb }] nidx nrows rowb
      pitch off core base rec ety stamp →
    m.cmds.filter mine = [c] → 0 < rowb → rowb % 4 = 0 → rowb ≤ pitch → (∀ i, i < nidx → MayTouch m c.ctx (.arr core (row i)) rowb) →
    PlainFor m cl c.ctx (.dev li) (4 * nidx) → PlainFor m cl c.ctx (.dev lt) (nrows * rowb) →
    lt % 4 = 0 → lt + nrows * rowb ≤ devBytes →
    (rec = [] ∨ (rec = [{ loc := .dev r, len := 8 }] ∧ r + 8 ≤ devBytes ∧ (r + 8 ≤ lt ∨ lt + nrows * rowb ≤ r))) →
    Runs (.gatherComplete cl) s fun m' => Completed m m' c.id ∧
      KMap.get 0 m'.gdrop c.ctx = (if dropped = 0 then KMap.get 0 m.gdrop c.ctx else min (2 ^ 32 - 1) (KMap.get 0 m.gdrop c.ctx + dropped)) ∧
      (rec ≠ [] → ∀ i b, recordBytes[i]? = some b → m'.byteAt (.dev (r + i)) = b) ∧
      (sc = false →
        (∀ i j, i < nidx → j < rowb → (live i → m'.byteAt (.arr core (row i + j)) = m.byteAt (.dev (at_ i + j))) ∧
          (¬ live i → m'.byteAt (.arr core (row i + j)) = 0)) ∧
        ∀ l, (∀ i j, i < nidx → j < rowb → l ≠ .arr core (row i + j)) → (∀ i, rec ≠ [] → i < 8 → l ≠ .dev (r + i)) →
          m'.byteAt l = m.byteAt l) ∧
      (sc = true → (∀ i j, i < j → j < nidx → live i → live j → index i ≠ index j) →
        let n := if ety = 0 then 4 else 2
        let ff := if ety = 0 then f32 else if ety = 1 then f16 else b16
        (∀ i e k b, i < nidx → live i → e < rowb / n →
          (leBytes n (fAdd ff 0 (ofBytes (m.bytesAt (.dev (at_ i + n * e)) n)) (ofBytes (m.bytesAt (.arr core (row i + n * e)) n))))[k]? = some b →
          m'.byteAt (.dev (at_ i + n * e + k)) = b) ∧
        ∀ l, (∀ i j, i < nidx → live i → j < rowb → l ≠ .dev (at_ i + j)) → (∀ i, rec ≠ [] → i < 8 → l ≠ .dev (r + i)) →
          m'.byteAt l = m.byteAt l)) ∧
  (∀ (s : State) (a : BitVec 6) (put : Bool) (d : List Byte) (m₁ m₂ : Dev) (ss : List Span),
    let m := s.dev
    let remote := dwordOf d 1
    let len := fld (dwordOf d 2) 31 0
    let se := (dwordOf d 3).testBit 0
    let total := if se then alignUp len 8 + 8 else len
    let here := if put then len else total
    m.ctxPeer m.wave.ctx = true → m.readDesc (m.s a).toNat 32 32 engineWindows = .ok (d, m₁) →
    fld (dwordOf d 3) 63 1 = 0 → len ≠ 0 → windowOf remote = some .peer → fld remote 55 42 ≠ m₁.host.nodeid →
    remote % 2 ^ 34 + (if put then total else len) ≤ 2 ^ 34 →
    m₁.checkRange (dwordOf d 0) here { windows := engineWindows, rd := put, wr := !put } = .ok (ss, m₂) →
    let bs := if put then m₂.engineBytes m₂.wave.clusterNo m₂.wave.ctx (Span.take ss len) else []
    Runs (if put then .peerPut a else .peerGet a) s fun m' => Irrevocable m₂ m' ∧
      Commanded m₂ m' (pagesOf (dwordOf d 0) here) (.peer put (Span.take ss len) remote len se
        (BitVec.ofNat 32 (fld (dwordOf d 2) 63 32)) (if put then [] else Span.drop ss (alignUp len 8)) false false (bs.any fun b => b.2)) ∧
      ∃ qs, m'.peers.map sentForm = m₂.peers.map sentForm ++ qs ∧ (qs.map fun q => q.size).sum = len ∧
        qs.flatMap (fun q => q.data) = bs.map (fun b => b.1) ∧ qs.flatMap (fun q => q.bad) = bs.map (fun b => b.2) ∧
        ∀ q ∈ qs, q.what = .cmd m₂.nextCmd ∧ q.wave = m₂.wave.uid ∧ q.size ≤ 128 ∧
          q.addr.toNat / 128 = (q.addr.toNat + q.size - 1) / 128) ∧
  (∀ (s : State) (c : Cmd) (put se failed answered err : Bool) (loc at_ : List Span) (remote len : Nat) (stamp : Word),
    let m := s.dev.stash
    c.body = .peer put loc remote len se stamp at_ failed answered err → m.cmds.find? (fun x => x.id = c.id) = some c →
    ((∃ q ∈ m.peers, q.what = .cmd c.id) → Runs (.peerTransferComplete c.id) s fun m' => m' = m) ∧
    ((∀ q ∈ m.peers, q.what ≠ .cmd c.id) →
      ((failed = true ∨ se = false ∨ (put = true ∧ answered = true)) →
        Runs (.peerTransferComplete c.id) s fun m' => Completed m m' c.id ∧ SameMemory m m') ∧
      (∀ l, failed = false → se = true → put = false → at_ = [{ loc := l, len := 8 }] → Exists l 8 → MayTouch m c.ctx l 8 →
        Runs (.peerTransferComplete c.id) s fun m' => Completed m m' c.id ∧ StoredAt m m' l (stampOf stamp (b2n err) 0)) ∧
      (failed = false → se = true → put = true → answered = false →
        Runs (.peerTransferComplete c.id) s fun m' => SameMemory m m' ∧ ∃ q, m'.peers.map sentForm = m.peers.map sentForm ++ [q] ∧ q.what = .cmd c.id ∧
          q.addr.toNat = (remote + alignUp len 8) % 2 ^ 64 ∧ q.data = stampOf stamp (b2n err) 0)))

namespace Sys2Proof.Claims

/-- The message of an `MSEND` (R51): the bytes of the scratchpad with their poison, and the tag of sB. -/
def messageOf (m : Dev) (off len v : Nat) : Message :=
  { wave := m.wave.uid, fid := m.frag.fid, ctx := m.wave.ctx, die := m.wave.die, cluster := m.wave.cluster,
    tag := BitVec.ofNat 16 (fld v 63 48), bytes := m.sourceBytes [{ loc := .arr m.wave.coreNo (m.wave.scrbase + off), len }] }

/-- The receive of an `MRECV` (R52). -/
def receiveOf (m : Dev) (x v : Nat) : Receive :=
  { wave := m.wave.uid, ctx := m.wave.ctx, source := if x.testBit 31 then none else some (fld x 30 28, fld x 27 24),
    tag := BitVec.ofNat 16 (fld v 63 48), mask := BitVec.ofNat 16 (fld v 47 32),
    core := coreNo m.wave.die m.wave.cluster (fld x 23 0 / 2 ^ 20), off := fld x 23 0 % 2 ^ 20,
    stamp := BitVec.ofNat 32 (fld x 63 32) }

/-- A receive takes a message (R52): of its context, from its source or any, with its tag under the mask. -/
def Takes (r : Receive) (x : Message) : Prop :=
  r.ctx = x.ctx ∧ (r.source = none ∨ r.source = some (x.die, x.cluster)) ∧ ∀ i, i < 16 → r.mask.getLsbD i = true → x.tag.getLsbD i = r.tag.getLsbD i

/-- The payload of a message stands in the buffer of a receive, and its stamp word 256 bytes further (R54). -/
def Delivered (m' : Dev) (r : Receive) (x : Message) : Prop :=
  (∀ i b, (x.bytes.map fun y => y.1)[i]? = some b → m'.byteAt (.arr r.core (r.off + i)) = b) ∧
  ∀ i b, (leBytes 8 (x.tag.toNat * 2 ^ 48 + x.die % 8 * 2 ^ 45 + x.cluster % 16 * 2 ^ 41 + x.bytes.length * 2 ^ 32 +
    r.stamp.toNat))[i]? = some b → m'.byteAt (.arr r.core (r.off + 256 + i)) = b

end Sys2Proof.Claims

/-- R50-R54, R500, R501: `MSEND` of bytes of its own scratchpad to a cluster of its launch hands its message to that cluster's
message unit and waits for the answer: accepted it goes on, refused it traps with MSG-OVERFLOW. A message is delivered to
the first receive that takes it, else kept in an overflow entry, else refused. `MRECV` takes the oldest overflow entry that
matches, else is posted, else clears `c1`.
The model's own choices that this rests on: log 63, log 102. -/
def Obligations.MessagesAreDeliveredInOrder : Prop :=
  (∀ (s : State) (a b : BitVec 6),
    let m := s.dev
    let p := (m.s a).toNat
    let v := (m.s b).toNat
    let len := fld v 40 32
    let off := windowOff p
    let target := 16 * fld v 47 45 + fld v 44 41
    let c := m.cluster target
    (m.frag.phase ≠ 25 → m.frag.phase ≠ 26 → fld v 31 0 = 0 → 1 ≤ len → len ≤ 256 → windowOf p = some .own →
      off + len ≤ 1024 * m.wave.scratch → m.launch.dieset.getLsbD (fld v 47 45) = true → m.cap.clcap target ≠ 0 →
      Runs (.msend a b) s fun m' => SameMemory m m' ∧ m'.wave = { m.wave with wavectl := m.wave.wavectl ||| 2, everirr := true } ∧
        m'.frag = waiting m.frag 24 ∧ Due m' (.messageArrival target) ∧
        m'.cluster target = { c with arriving := c.arriving ++ [messageOf m.irrev off len v] } ∧
        ∀ k, k ≠ target → m'.cluster k = m.cluster k) ∧
    (m.frag.phase = 25 → Runs (.msend a b) s fun m' => Passed m m') ∧
    (m.frag.phase = 26 → ScalarTraps m .msgOverflow → Runs (.msend a b) s fun m' => ScalarTrap m m' .msgOverflow 0 fun _ => 0)) ∧
  (∀ (s : State) (k : Nat) (x : Message) (rest : List Message) (before after : List Receive) (r : Receive),
    let m := s.dev.stash
    let c := m.cluster k
    let takes (r : Receive) : Prop := r.suspended = false ∧ Takes r x ∧ m.bufferReachable r.ctx r.core r.off = true
    let answer (code : Nat) (m' : Dev) : Prop := m'.waves = wavesWith m x.wave x.fid id fun f =>
      if f.wait = .event ∧ f.phase = 24 then { f with wait := .none, phase := code } else f
    x.wave ≠ 0 → c.arriving = x :: rest →
    (c.receives = before ++ r :: after → (∀ y ∈ before, ¬ takes y) → takes r → r.off + 264 ≤ 2 ^ 20 → x.bytes.length ≤ 256 →
      Runs (.messageArrival k) s fun m' => m'.cluster k = { c with arriving := rest, receives := before ++ after } ∧
        Delivered m' r x ∧ answer 25 m' ∧
        ∀ l, (∀ i, i < 264 → l ≠ .arr r.core (r.off + i)) → m'.byteAt l = m.byteAt l) ∧
    ((∀ y ∈ c.receives, ¬ takes y) → c.overflow.length < 64 → Runs (.messageArrival k) s fun m' =>
      m'.cluster k = { c with arriving := rest, overflow := c.overflow ++ [x] } ∧ SameMemory m m' ∧ answer 25 m') ∧
    ((∀ y ∈ c.receives, ¬ takes y) → 64 ≤ c.overflow.length → Runs (.messageArrival k) s fun m' =>
      m'.cluster k = { c with arriving := rest, ovf := true, refused := min 0xFFFF (c.refused + 1) } ∧ SameMemory m m' ∧
        answer 26 m')) ∧
  (∀ (s : State) (a b : BitVec 6) (x : Message) (pre post : List Message),
    let m := s.dev
    let u := (m.s a).toNat
    let v := (m.s b).toNat
    let buf := fld u 23 0
    let r := receiveOf m u v
    let c := m.cluster m.wave.clusterNo
    fld v 31 0 = 0 → (u.testBit 31 = true → fld u 30 24 = 0) → buf % 8 = 0 → buf + 264 ≤ 0xC00000 →
    m.bufferReachable r.ctx r.core r.off = true →
    let irr (ok : Bool) (m' : Dev) : Prop :=
      NextWord m m' ∧ (∀ y, m'.c y = if y = 1 then ok else m.c y) ∧
      m'.wave = { m.wave with wavectl := m.wave.wavectl ||| 2, everirr := true, cregs := m'.wave.cregs }
    (c.overflow = pre ++ x :: post → (∀ y ∈ pre, ¬ Takes r y) → Takes r x → r.off + 264 ≤ 2 ^ 20 → x.bytes.length ≤ 256 →
      Runs (.mrecv a b) s fun m' => irr true m' ∧ m'.cluster m.wave.clusterNo = { c with overflow := pre ++ post } ∧ Delivered m' r x) ∧
    ((∀ y ∈ c.overflow, ¬ Takes r y) → c.receives.length < 64 → Runs (.mrecv a b) s fun m' => irr true m' ∧ SameMemory m m' ∧
      m'.cluster m.wave.clusterNo = { c with receives := c.receives ++ [r] }) ∧
    ((∀ y ∈ c.overflow, ¬ Takes r y) → 64 ≤ c.receives.length → Runs (.mrecv a b) s fun m' => irr false m' ∧ Kept m m'))

/-! ## The matrix engine -/

namespace Sys2Proof.Claims

/-- A matrix instruction has joined the queue of its cluster with what it captured (R310, R315), and the fragment goes on. -/
def Queued (m m' : Dev) (op : MOp) : Prop :=
  let cl := m.wave.clusterNo
  let x := m.cluster cl
  m' = { m with wave := m'.wave, frag := m'.frag, clusters := m'.clusters, agenda := m'.agenda } ∧ SameMemory m m' ∧
  m'.cluster cl = { x with mqueue := x.mqueue ++ [{ wave := m.wave.uid, fid := m.frag.fid, ctx := m.wave.ctx, tang := m.wave.tang,
                                                    tstride := m.wave.tstride, fmt := m.frag.fmt, op }] } ∧
  ∀ k, k ≠ cl → m'.cluster k = m.cluster k

/-- The operand that a register pair names, with or without a scratchpad descriptor (R318, R320). -/
def operandAt (m : Dev) (spad : BitVec 1) (r : BitVec 6) : MOperand :=
  if spad = 1 then .spad (m.s r).toNat (fld (m.s (r + 1)).toNat 31 16) (fld (m.s (r + 1)).toNat 15 0) (fld (m.s (r + 1)).toNat 35 32)
  else .plate r.toNat

/-- Checks 1 to 3 of R503 pass: units that exist, on a control core, whose masks allow them. -/
def UnitsOk (m : Dev) (accs plates : List Nat) : Prop :=
  m.wave.core = 12 ∧ (∀ i ∈ accs, i < accCount m.wave.tang ∧ m.wave.mxcfg.getLsbD i = true) ∧
  ∀ p ∈ plates, p < plateCount m.wave.tang ∧ m.wave.mxcfg.getLsbD (8 + p) = true

/-- The matrix queue of the wave's cluster has room. -/
def QueueRoom (m : Dev) : Prop := (m.cluster m.wave.clusterNo).mqueue.length < 8

/-- The oldest entry has left the queue of a cluster. -/
def Popped (m m' : Dev) (cl : Nat) : Prop := (m'.cluster cl).mqueue = (m.cluster cl).mqueue.tail

/-- No accumulator of the list, no plate of the cluster belongs to another context (R329). -/
def OwnAccs (m : Dev) (cl ctx : Nat) (us : List Nat) : Prop := ∀ u ∈ us, (m.acc cl u).owned = true → (m.acc cl u).tag = ctx
def OwnPlates (m : Dev) (cl ctx : Nat) : Prop := ∀ p, (m.plate cl p).owned = true → (m.plate cl p).tag = ctx

/-- What an access finds in a plate or an accumulator: zero in one that nobody owns (R329). -/
def plateByte (m : Dev) (cl p i : Nat) : Byte := if (m.plate cl p).owned = true then (m.plate cl p).bytes.get i else 0
def accRecord (m : Dev) (cl u k : Nat) : Nat := if (m.acc cl u).owned = true then ((m.acc cl u).elems.get k).toNat else 0

/-- The operand of tangent `j` (R332). -/
def operandOf (o : MOperand) (k : Nat) (stride : DWord) (j : Nat) : MOperand :=
  match o with
  | .plate p => .plate (p + j * plateCount k)
  | .spad b t r x => .spad (wrapN 64 (b + j * stride.toInt)) t r x

/-- The cluster-window address of chunk `c` of row `i` of K-block `j` (R320), and the place of byte `b` of a chunk at an
address. -/
def chunkAt (base tp rp rot j i c : Nat) : Nat := base + j * tp + i * rp + 16 * (c ^^^ (i % 2 ^ rot))
def placeAt (cl q b : Nat) : Loc := (Loc.arr (13 * cl + windowOff q / 2 ^ 20) (q % 2 ^ 20)).add b

/-- Byte `b` of row `i` of K-block `j` of an operand (R318-R320): `per` plates to a K-block, `rowb` bytes to a row. -/
def operandByte (m : Dev) (cl ctx : Nat) (o : MOperand) (per rowb j i b : Nat) : Byte :=
  match o with
  | .plate p => plateByte m cl (p + j * per + (i * rowb + b) / 8192) ((i * rowb + b) % 8192)
  | .spad base tp rp rot =>
    let l := placeAt cl (chunkAt base tp rp rot j i (b / 16)) (b % 16)
    if m.ownsArray ctx l = true then m.byteAt l else 0

/-- Element `k` of that row in format `c` (R294). -/
def operandElem (m : Dev) (cl ctx : Nat) (o : MOperand) (c rowb j i k : Nat) : Nat :=
  ofBytes ((List.range rowb).map (operandByte m cl ctx o (blockPlates c) rowb j i)) / 2 ^ (laneWidth c * k) % 2 ^ fmtBits c

/-- The exact product of two elements with the scales (R298, R324). -/
def productOf (x : FmtReg) (a b : Nat) : Machine.Num :=
  if x.a = 9 ∨ x.a = 10 ∨ x.a = 11 then (logProduct x.a x a b).num x.a
  else ((decodeFmt x.a a).scale x.ascale.toInt).mul ((decodeFmt x.b b).scale x.bscale.toInt)

/-- Term `t` of an element (R324, R332): the exact sum of the products of its K indices over the pairs of operands, each a row
of A and a column of B, rounded once to A24. -/
def termOf (x : FmtReg) (pairs : List ((Nat → Nat) × (Nat → Nat))) (t : Nat) : Nat :=
  let g := blockK x.a / blockTerms x.a
  a24.round 0 (pairs.foldl (fun s p => (List.range g).foldl (fun s i =>
    Machine.Num.addS false s (productOf x (p.1 (t * g + i)) (p.2 (t * g + i)))) s) .zero)

/-- The bound B (R309, R326). -/
def boundOf (x : FmtReg) : Machine.Num :=
  if x.accrange = 0xFF then .fin false a24.largest.1 a24.largest.2 else .fin false 1 x.accrange.toNat

/-- The element of a record, and the record of an element (R330). -/
def elementOf (z : Nat) : PairElem :=
  { s := z % 2 ^ 24, r := z / 2 ^ 32 % 2 ^ 32,
    p := (List.range (z / 2 ^ 24 % 8)).map fun i => z / 2 ^ (64 + 24 * i) % 2 ^ 24,
    n := (List.range (z / 2 ^ 27 % 8)).map fun i => z / 2 ^ (160 + 24 * i) % 2 ^ 24 }
def recordOf (y : PairElem) : BitVec 256 :=
  BitVec.ofNat 256 (y.s + y.p.length * 2 ^ 24 + y.n.length * 2 ^ 27 + y.r * 2 ^ 32 +
    ((List.range 4).map fun i => y.p.getD i 0 * 2 ^ (64 + 24 * i)).sum + ((List.range 4).map fun i => y.n.getD i 0 * 2 ^ (160 + 24 * i)).sum)

/-- The head of the queue that a release selects, and the element without it (R326): N before P while S is not negative. -/
def selected (y : PairElem) : Option (Machine.Num × PairElem) :=
  let neg := (a24.decode y.s).lt .zero
  let popP (h : Nat) (t : List Nat) : Option (Machine.Num × PairElem) := some (a24.decode h, { y with p := t })
  let popN (h : Nat) (t : List Nat) : Option (Machine.Num × PairElem) := some (a24.decode h, { y with n := t })
  match y.p, y.n with
  | [], [] => none
  | h :: t, [] => popP h t
  | [], h :: t => popN h t
  | h :: t, h' :: t' => if neg then popP h t else popN h' t'

/-- Action 1 of R326: S takes the head when the exact sum keeps within the bound. -/
def absorbed (bound : Machine.Num) (y : PairElem) : Option PairElem :=
  (selected y).bind fun z =>
    let sum := (a24.decode y.s).addS false z.1
    if sum.isNan || bound.lt sum.abs then none else some { z.2 with s := a24.round 0 sum }

/-- The residue takes a term. -/
def residueTakes (y : PairElem) (v : Machine.Num) : PairElem := { y with r := f32.round 0 ((f32.decode y.r).addS false v) }

/-- A term slot (R326): release, arrival, one-sided tail. -/
def termSlot (bound : Machine.Num) (y : PairElem) (t : Nat) : PairElem :=
  let y := (absorbed bound y).getD y
  let v := a24.decode t
  let y :=
    if v.isNan then { y with r := canonicalNan 0 }
    else if Machine.Num.lt .zero v then
      (if 4 ≤ y.p.length then { residueTakes y (a24.decode (y.p.headD 0)) with p := y.p.tail ++ [t] } else { y with p := y.p ++ [t] })
    else if v.lt .zero then
      (if 4 ≤ y.n.length then { residueTakes y (a24.decode (y.n.headD 0)) with n := y.n.tail ++ [t] } else { y with n := y.n ++ [t] })
    else y
  if y.p.length = 4 ∧ y.n = [] then { residueTakes y (a24.decode (y.p.headD 0)) with p := y.p.tail }
  else if y.n.length = 4 ∧ y.p = [] then { residueTakes y (a24.decode (y.n.headD 0)) with n := y.n.tail } else y

/-- One head leaves the queues of a drained element (R327): to S, or to the residue when it cannot be absorbed. -/
def drainStep (bound : Machine.Num) (y : PairElem) : PairElem :=
  match absorbed bound y, selected y with
  | some z, _ => z
  | none, some z => residueTakes z.2 z.1
  | none, none => y

/-- The element as drained (R327): at most 4 heads in each queue. -/
def drainedElem (bound : Machine.Num) (y : PairElem) : PairElem := (List.range 8).foldl (fun z _ => drainStep bound z) y

/-- The value that `MDRAIN` converts (R305, R327): OSCALE times the sum of S and the residue, rounded to F32. -/
def drainedValue (x : FmtReg) (y : PairElem) : Machine.Num :=
  (f32.decode x.oscale.toNat).mul (f32.decode (f32.round 0 ((a24.decode y.s).addS false (f32.decode y.r))))

/-- The conversion of R305 to DFMT: its overflow, and the element written. -/
def drainedBeyond (x : FmtReg) (rz : Bool) (y : PairElem) : Option Machine.Num :=
  match narrowTo x.d (if rz then 1 else 0) false (drainedValue x y) with
  | .elem _ => none
  | .beyond u => some u
def drainedBits (x : FmtReg) (rz : Bool) (y : PairElem) : Nat :=
  match narrowTo x.d (if rz then 1 else 0) false (drainedValue x y) with
  | .elem b => b
  | .beyond u => if x.ovfmode = 1 then zeroElem x.d else satElem x.d u

/-- The queues of the elements that a drain covers are empty, and no other element, cluster or byte of memory differs. -/
def Emptied (m m' : Dev) (cl : Nat) (x : FmtReg) (ctx : Nat) (us : List Nat) : Prop :=
  m'.wave = m.wave ∧ m'.frag = m.frag ∧ SameMemory m m' ∧ Popped m m' cl ∧ (∀ k, k ≠ cl → m'.cluster k = m.cluster k) ∧
  (∀ u, u ∉ us → m'.acc cl u = m.acc cl u) ∧
  ∀ u ∈ us, (m'.acc cl u).owned = true ∧ (m'.acc cl u).tag = ctx ∧ ∀ r c, r < 128 → c < 128 →
    (r < x.rowCount → (m'.acc cl u).elems.get (128 * r + c) =
      recordOf (drainedElem (boundOf x) (elementOf (accRecord m cl u (128 * r + c))))) ∧
    (x.rowCount ≤ r → ((m'.acc cl u).elems.get (128 * r + c)).toNat = accRecord m cl u (128 * r + c))

/-- A record that `MSAVE` can write (R331). -/
def RecordOk (z : Nat) : Prop :=
  let y := elementOf z
  y.p.length ≤ 4 ∧ y.n.length ≤ 4 ∧ z / 2 ^ 30 % 4 = 0 ∧ (∃ n k e, a24.decode y.s = .fin n k e) ∧
  (∀ h ∈ y.p, Machine.Num.lt .zero (a24.decode h) = true) ∧ ∀ h ∈ y.n, (a24.decode h).lt .zero = true

/-- The T2 code that names nothing (R293) stands among elements of format `c`. -/
def badT2 (c rows n : Nat) (elem : Nat → Nat → Nat) : Prop := c = 12 ∧ ∃ i k, i < rows ∧ k < n ∧ elem i k = 2

/-- `FMTBAD` of the wave is set when `bad` holds; no other field of a resident wave differs. -/
def FmtBadIs (m m' : Dev) (uid : Nat) (bad : Prop) : Prop :=
  (¬ bad → m'.waves = m.waves) ∧
  (bad → m'.waves = m.waves.map fun w => if w.uid = uid then { w with wavectl := w.wavectl ||| 4 } else w)

end Sys2Proof.Claims

/-- R315, R321-R332, R503-R511: the matrix instructions whose checks pass join the queue of their cluster, and go on (`MDRAIN`
and `MREST` wait for their turn); `MCFG` sets `MXCFG`; `MWAITM` goes on when none of the wave is queued. The engine takes the
oldest entry: a step of an `MMA` feeds the terms of one K-block to every element of the accumulator and its shadows, through
the pairing stage (R326); `MLD` leaves a K-block in plates; `MZERO` clears accumulators; `MDRAIN` empties the queues, converts
and writes its rows, with the traps and the outliers of R327; `MSAVE` and `MREST` move records to and from the save slot. A
unit of another context traps with ACC-FOREIGN.
The model's own choices that this rests on: log 48 to log 53, log 112. -/
def Obligations.MatrixInstructionsQueueAndRun : Prop :=
  (∀ (s : State) (mop a b : BitVec 6) (acc : BitVec 3) (bs as rz opnd : BitVec 1) (plate : BitVec 4) (m₁ m₂ m₃ : Dev) (ss : List Span),
    let m := s.dev
    let x := m.frag.fmt
    let i := acc.toNat
    let count := (m.s mop).toNat
    let oa := operandAt m as a
    let ob := operandAt m bs b
    let pa := if as = 1 then [] else (List.range (max count 1 * blockPlates x.a)).map fun j => a.toNat + j
    let pb := if bs = 1 then [] else (List.range (max count 1 * blockPlates x.b)).map fun j => b.toNat + j
    let c := if opnd = 1 then x.b else x.a
    let p := plate.toNat
    let rows := if opnd = 1 then blockK c else x.rowCount
    let rowb := if opnd = 1 then rowBytesB c else rowBytesA c
    let d := (m.s b).toNat
    let o := spadOf (m.s a).toNat d
    let goes (i : Instr) (m₁ : Dev) (op : MOp) : Prop := Runs i s fun m' =>
      Queued m₁ m' op ∧ NextWord m₁ m' ∧ m'.wave = { m₁.wave with wavectl := m₁.wave.wavectl ||| 2, everirr := true }
    let waits (i : Instr) (m₁ : Dev) (op : MOp) : Prop := Runs i s fun m' =>
      Queued m₁ m' op ∧ m'.frag = waiting m₁.frag 30 ∧ m'.wave = { m₁.wave with wavectl := m₁.wave.wavectl ||| 2, everirr := true }
    (count < 2 ^ 32 → UnitsOk m [i] (pa ++ pb) → (as = 0 → a.toNat % blockPlates x.a = 0) → (bs = 0 → b.toNat % blockPlates x.b = 0) →
      (as = 0 → a.toNat + max count 1 * blockPlates x.a ≤ plateCount m.wave.tang) →
      (bs = 0 → b.toNat + max count 1 * blockPlates x.b ≤ plateCount m.wave.tang) →
      fmtPair x.a x.b = true → (as = 1 → spadDescOk (m.s (a + 1)).toNat (rowBytesA x.a) = true) →
      (bs = 1 → spadDescOk (m.s (b + 1)).toNat (rowBytesB x.b) = true) →
      m.checkSpad oa (spanBytes oa count x.rowCount (rowBytesA x.a)) false (List.range (m.wave.tang + 1)) = .ok m₁ →
      m₁.checkSpad ob (spanBytes ob count (blockK x.b) (rowBytesB x.b)) false (List.range (m₁.wave.tang + 1)) = .ok m₂ →
      m₂.claimAccs (accUnits m.wave.tang i) = .ok m₃ → QueueRoom m₃ → goes (.mma mop a b acc bs as) m₃ (.mma i oa ob count)) ∧
    (UnitsOk m [] (if blockPlates c = 2 then [p, p + 1] else [p]) → (blockPlates c = 2 → p % 2 = 0) → spadDescOk d rowb = true →
      m.checkSpad o (spanBytes o 1 rows rowb) false (List.range (m.wave.tang + 1)) = .ok m₁ → QueueRoom m₁ →
      goes (.mld plate a b opnd) m₁ (.mld p (decide (opnd = 1)) o)) ∧
    (UnitsOk m [i] [] → m.claimAccs (accUnits m.wave.tang i) = .ok m₁ → QueueRoom m₁ → goes (.mzero acc) m₁ (.mzero i)) ∧
    (∀ u, UnitsOk m [i] [] → ScalarTraps m .accForeign → (accUnits m.wave.tang i).find? (fun u =>
        (m.acc m.wave.clusterNo u).owned && decide ((m.acc m.wave.clusterNo u).tag ≠ m.wave.ctx)) = some u →
      Runs (.mzero acc) s fun m' => ScalarTrap m m' .accForeign u fun _ => 0) ∧
    (UnitsOk m [i] [] → spadDescOk d (rowBytesB x.d) = true →
      m.checkSpad o (spanBytes o 1 x.rowCount (rowBytesB x.d)) true (List.range (m.wave.tang + 1)) = .ok m₁ →
      m₁.claimAccs (accUnits m₁.wave.tang i) = .ok m₂ → QueueRoom m₂ → waits (.mdrain a b acc rz) m₂ (.mdrain i o (decide (rz = 1)))) ∧
    (m.wave.core = 12 → m.wave.super = true → QueueRoom m → goes (.msave acc) m (.msave i)) ∧
    (m.wave.core = 12 → m.wave.super = true →
      m.checkRange (m.accSlot m.wave.ctx m.wave.clusterNo i) (2 ^ 19) { windows := [.global], rd := true } = .ok (ss, m₁) → QueueRoom m₁ →
      waits (.mrest acc) m₁ (.mrest i)) ∧
    (m.wave.core = 12 → (m.s a).toNat < 2 ^ 24 → QueueRoom m → Runs (.mcfg a) s fun m' =>
      Queued m m' .mcfg ∧ NextWord m m' ∧ m'.wave = { m.wave with mxcfg := m.s a }) ∧
    (m.wave.core = 12 → m.busyMatrix m.wave = false → Runs .mwaitm s fun m' => Passed m m') ∧
    (m.wave.core = 12 → m.busyMatrix m.wave = true → Runs .mwaitm s fun m' =>
      Kept m m' ∧ m'.wave = m.wave ∧ m'.frag = { m.frag with wait := .matrix, phase := 0 }) ∧
    (m.wave.core ≠ 12 → ScalarTraps m .controlOnly → ∀ i ∈ [Instr.msave acc, .mrest acc, .mcfg a, .mwaitm],
      Runs i s fun m' => ScalarTrap m m' .controlOnly 0 fun _ => 0)) ∧
  (∀ (s : State) (cl acc n : Nat) (a b : MOperand) (e : MEntry) (t : List MEntry) (m₁ : Dev),
    let m := s.dev.stash
    (m.cluster cl).mqueue = e :: t → e.op = .mma acc a b n → e.done < n → m.mmaBlock cl e acc a b e.done = .ok m₁ →
    (m₁.cluster cl).mqueue = e :: t →
    (e.done + 1 < n → Runs (.mmaStep cl) s fun m' => (m'.cluster cl).mqueue = { e with done := e.done + 1 } :: t ∧
      ∀ u, m'.acc cl u = m₁.acc cl u) ∧
    (n ≤ e.done + 1 → Runs (.mmaStep cl) s fun m' => (m'.cluster cl).mqueue = t ∧ ∀ u, m'.acc cl u = m₁.acc cl u)) ∧
  (∀ (m : Dev) (cl acc j : Nat) (a b : MOperand) (e : MEntry),
    let x := e.fmt
    let ea (i r k : Nat) : Nat := operandElem m cl e.ctx (operandOf a e.tang e.tstride i) x.a (rowBytesA x.a) j r k
    let eb (i c k : Nat) : Nat := operandElem m cl e.ctx (operandOf b e.tang e.tstride i) x.b (rowBytesB x.b) j k c
    let unit (i : Nat) : Nat := acc + i * accCount e.tang
    let pairs (i r c : Nat) := if i = 0 then [(ea 0 r, eb 0 c)] else [(ea i r, eb 0 c), (ea 0 r, eb i c)]
    e.tang ≤ 3 → acc < accCount e.tang → m.wave.uid = 0 → e.wave ≠ 0 → fmtPair x.a x.b = true →
    OwnAccs m cl e.ctx (accUnits e.tang acc) → OwnPlates m cl e.ctx →
    ∃ m₁, m.mmaBlock cl e acc a b j = .ok m₁ ∧ SameMemory m m₁ ∧ (∀ u, u ∉ accUnits e.tang acc → m₁.acc cl u = m.acc cl u) ∧
      FmtBadIs m m₁ e.wave (∃ i, i ≤ e.tang ∧
        (badT2 x.a x.rowCount (blockK x.a) (ea i) ∨ badT2 x.b (blockK x.b) 128 fun k c => eb i c k)) ∧
      ∀ i, i ≤ e.tang → (m₁.acc cl (unit i)).owned = true ∧ (m₁.acc cl (unit i)).tag = e.ctx ∧ ∀ r c, r < 128 → c < 128 →
        (r < x.rowCount → (m₁.acc cl (unit i)).elems.get (128 * r + c) = recordOf ((List.range (blockTerms x.a)).foldl
          (fun y t => termSlot (boundOf x) y (termOf x (pairs i r c) t)) (elementOf (accRecord m cl (unit i) (128 * r + c))))) ∧
        (x.rowCount ≤ r → ((m₁.acc cl (unit i)).elems.get (128 * r + c)).toNat = accRecord m cl (unit i) (128 * r + c))) ∧
  (∀ (m : Dev) (cl plate : Nat) (bSide : Bool) (base tp rp rot : Nat) (e : MEntry),
    let c := if bSide then e.fmt.b else e.fmt.a
    let rows := if bSide then blockK c else e.fmt.rowCount
    let rowb := if bSide then rowBytesB c else rowBytesA c
    let o (i : Nat) : MOperand := operandOf (.spad base tp rp rot) e.tang e.tstride i
    let count := (rows * rowb + 8191) / 8192
    let inBlock (i p q : Nat) : Prop := ∃ k, k < count ∧ p = plate + i * plateCount e.tang + k ∧ 8192 * k + q < rows * rowb
    e.tang ≤ 3 → plate + count ≤ plateCount e.tang → m.wave.uid = 0 → e.wave ≠ 0 → OwnPlates m cl e.ctx →
    ∃ m₁, m.mldRun cl e plate bSide (.spad base tp rp rot) = .ok m₁ ∧ SameMemory m m₁ ∧
      FmtBadIs m m₁ e.wave (∃ i, i ≤ e.tang ∧ badT2 c rows (if bSide then 128 else blockK c) fun r k =>
        operandElem m cl e.ctx (o i) c rowb 0 r k) ∧
      (∀ i q, i ≤ e.tang → q < rows * rowb →
        plateByte m₁ cl (plate + i * plateCount e.tang + q / 8192) (q % 8192) =
          operandByte m cl e.ctx (o i) 1 rowb 0 (q / rowb) (q % rowb)) ∧
      ∀ p q, q < 8192 → (∀ i, i ≤ e.tang → ¬ inBlock i p q) → plateByte m₁ cl p q = plateByte m cl p q) ∧
  (∀ (s : State) (cl u plate : Nat) (bSide : Bool) (o : MOperand) (e : MEntry) (t : List MEntry) (m₁ : Dev),
    let m := s.dev.stash
    (m.cluster cl).mqueue = e :: t →
    (e.op = .mzero u → e.tang ≤ 3 → u < accCount e.tang → OwnAccs m cl e.ctx (accUnits e.tang u) →
      Runs (.matrixExecute cl) s fun m' => Popped m m' cl ∧ SameMemory m m' ∧ ∀ v,
        (v ∈ accUnits e.tang u → m'.acc cl v = { owned := true, tag := e.ctx, elems := [] }) ∧
        (v ∉ accUnits e.tang u → m'.acc cl v = m.acc cl v)) ∧
    (e.op = .mcfg → Runs (.matrixExecute cl) s fun m' => Popped m m' cl ∧ SameMemory m m') ∧
    (e.op = .mld plate bSide o → m.mldRun cl e plate bSide o = .ok m₁ → Runs (.matrixExecute cl) s fun m' =>
      Popped m₁ m' cl ∧ ∀ p, m'.plate cl p = m₁.plate cl p) ∧
    (∀ l, e.op = .msave u → (m.acc cl u).owned = true →
      m.engineSpans (m.acc cl u).tag (m.accSlot (m.acc cl u).tag cl u) (2 ^ 19) false true =
        .ok ((List.range 8).map fun (i : Nat) => { loc := l.add (65536 * i), len := 65536 }) →
      Exists l (2 ^ 19) → MayTouch m (m.acc cl u).tag l (2 ^ 19) → Runs (.matrixExecute cl) s fun m' => Popped m m' cl ∧ m'.acc cl u = {} ∧
        (∀ k i b, k < 16384 → (leBytes 32 ((m.acc cl u).elems.get k).toNat)[i]? = some b → m'.byteAt (l.add (32 * k + i)) = b) ∧
        ∀ x, (∀ i, i < 2 ^ 19 → x ≠ l.add i) → m'.byteAt x = m.byteAt x)) ∧
  (∀ (s : State) (cl acc base tp rp rot : Nat) (rz : Bool) (e : MEntry) (t : List MEntry) (m₁ m₅ : Dev),
    let m := s.dev.stash
    let x := e.fmt
    let units := accUnits e.tang acc
    let m₃ := ((m₁.popMatrix cl).takeAccs cl e.ctx units).emptyQueues cl x units
    let total := (e.tang + 1) * (x.rowCount * 128)
    let item (n : Nat) : PairElem :=
      elementOf ((m₃.acc cl (acc + n / (x.rowCount * 128) * accCount e.tang)).elems.get (n % (x.rowCount * 128))).toNat
    let beyond (n : Nat) : Option Machine.Num := drainedBeyond x rz (item n)
    let row (j r : Nat) : List Byte := leBytes (rowBytesB x.d)
      ((List.range 128).map fun c => drainedBits x rz (item (j * (x.rowCount * 128) + 128 * r + c)) * 2 ^ (laneWidth x.d * c)).sum
    let dest (j r b : Nat) : Nat := chunkAt (wrapN 64 (base + j * e.tstride.toInt)) 0 rp rot 0 r (b / 16)
    let place (j r b : Nat) : Loc := placeAt cl (dest j r b) (b % 16)
    let inRange (j r b : Nat) : Prop := j ≤ e.tang ∧ r < x.rowCount ∧ b < rowBytesB x.d
    let entry (n : Nat) (v : Machine.Num) : List Byte :=
      let r := n % (x.rowCount * 128) / 128
      let bit := n % 128 * laneWidth x.d
      leBytes 8 (f32.round 0 v * 2 ^ 32 + r * 2 ^ 20 + n % 128 * 2 ^ 10 + 2 ^ 9 + bit % 8 * 2 ^ 4 + x.d) ++
        leBytes 8 (dest (n / (x.rowCount * 128)) r (bit / 8) + bit / 8 % 16)
    let scaleOk : Prop := ∃ n k e, f32.decode x.oscale.toNat = .fin n k e
    let traps (c : Cause) (stval : Nat) : Prop := Runs (.matrixExecute cl) s fun m' => ∃ p, ScalarTrap m₃ p c stval (fun _ => 0) ∧ m' = p.stash
    let writes (m₄ : Dev) : Prop := Runs (.matrixExecute cl) s fun m' => ∃ p, m' = p.stash ∧ NextWord m₄ p ∧ p.wave = m₄.wave ∧
      (∀ u, p.acc cl u = m₃.acc cl u) ∧ (∀ j r i b, inRange j r i → (row j r)[i]? = some b → p.byteAt (place j r i) = b) ∧
      ∀ l, (∀ j r i, inRange j r i → l ≠ place j r i) → p.byteAt l = m₄.byteAt l
    (m.cluster cl).mqueue = e :: t → e.op = .mdrain acc (.spad base tp rp rot) rz → m.takeTurn e = some m₁ →
    e.tang ≤ 3 → acc < accCount e.tang → OwnAccs m₁ cl e.ctx units →
    Emptied m₁ m₃ cl x e.ctx units ∧
    (¬ scaleOk → ScalarTraps m₁ .formatInvalid → traps .formatInvalid 0) ∧
    (∀ n v, scaleOk → n < total → beyond n = some v → (∀ k, k < n → beyond k = none) →
      (x.ovfmode = 2 → ScalarTraps m₁ .mxOverflow → traps .mxOverflow (n % (x.rowCount * 128))) ∧
      (x.ovfmode = 1 → m₁.wave.olcap.toNat % 2 ^ 32 = 0 → ScalarTraps m₁ .outlierFull → traps .outlierFull 0)) ∧
    ((∀ j r i j' r' i', inRange j r i → inRange j' r' i' → place j r i = place j' r' i' → j = j' ∧ r = r' ∧ i = i') →
      (∀ j r i, inRange j r i → m₁.ownsArray e.ctx (place j r i) = true) →
      (scaleOk → (∀ n, n < total → beyond n = none) ∨ (x.ovfmode ≠ 1 ∧ x.ovfmode ≠ 2) → writes m₃) ∧
      (scaleOk → x.ovfmode = 1 → (∃ n, n < total ∧ beyond n ≠ none) →
        m₃.appendLane m₃.frag.mask ((List.range total).filterMap fun n => (beyond n).map (entry n)) = .ok m₅ → writes m₅))) ∧
  ∀ (s : State) (cl i : Nat) (e : MEntry) (t : List MEntry) (m₁ m₂ : Dev) (ss : List Span),
    let m := s.dev.stash
    let rec_ (k : Nat) : Nat := ofBytes ((((m₂.engineBytes cl e.ctx ss).map fun b => b.1).drop (32 * k)).take 32)
    let slot := fld (m₁.ctxDword e.ctx 0x28) 48 0 + cl * 2 ^ 23 + i * 2 ^ 19
    (m.cluster cl).mqueue = e :: t → e.op = .mrest i → m.takeTurn e = some m₁ →
    ((m₁.acc cl i).owned = true → (m₁.acc cl i).tag ≠ e.ctx → ScalarTraps m₁ .accForeign → Runs (.matrixExecute cl) s fun m' =>
      ∃ p, ScalarTrap (m₁.popMatrix cl) p .accForeign i (fun _ => 0) ∧ m' = p.stash) ∧
    (OwnAccs m₁ cl e.ctx [i] → (m₁.popMatrix cl).checkRange slot (2 ^ 19) { windows := [.global], rd := true } = .ok (ss, m₂) →
      ((∀ k, k < 16384 → RecordOk (rec_ k)) → Runs (.matrixExecute cl) s fun m' => ∃ p, m' = p.stash ∧ Popped m₁ p cl ∧
        NextWord m₂ p ∧ p.wave = m₂.wave ∧ SameMemory m₂ p ∧ (∀ u, u ≠ i → p.acc cl u = m₁.acc cl u) ∧
        (p.acc cl i).owned = true ∧ (p.acc cl i).tag = e.ctx ∧
        ∀ k, k < 16384 → (p.acc cl i).elems.get k = recordOf (elementOf (rec_ k))) ∧
      (∀ k, k < 16384 → ¬ RecordOk (rec_ k) → ScalarTraps m₂ .reservedField → Runs (.matrixExecute cl) s fun m' =>
        ∃ p, ScalarTrap m₂ p .reservedField (m₂.codeBytes m₂.frag.spc 4) (fun _ => 0) ∧ m' = p.stash))

/-! ## The package -/

namespace Sys2Proof.Claims

/-- The instruction answers a next state of which `P` holds. -/
def Answers (i : Instr) (s : State) (P : State → Prop) : Prop := ∃ s', exec i s = .next s' ∧ P s'

/-- The device part after its wipe: the retirement record and host memory stay, and everything else reads as it does at reset
(R113, R114). -/
def Wiped (m m' : Dev) : Prop :=
  m'.cap = m.cap ∧ (∀ pa, m'.byteAt (.host pa) = m.byteAt (.host pa)) ∧ (∀ pa, pa < Config.memoryBytes → m'.byteAt (.dev pa) = 0) ∧
  (∀ k o, m'.byteAt (.arr k o) = 0) ∧ (∀ l, m'.poisonAt l = false) ∧ m'.host = {} ∧ m'.allWaves = [] ∧ m'.savedWaves = [] ∧
  m'.launches = [] ∧ m'.cmds = [] ∧ m'.peers = [] ∧ m'.tuns = [] ∧ m'.watch = [] ∧ m'.agenda = [] ∧ m'.msix = 0 ∧ m'.events = 0 ∧
  (∀ k, m'.core k = {}) ∧ (∀ c, m'.cluster c = {}) ∧ ∀ d, m'.die d = {}

/-- `s'` is `s` after a package reset with a cause (R103, R107, R109, R112-R115): life cycle, keys, syndromes, the count of
resets and the `WIPESTAT` of the reset before stay, `NONCE` is renewed, and the wipe runs, or the package stays in
reset-hold (R98). -/
def ResetFrom (s : State) (cause : Nat) (s' : State) : Prop :=
  s'.pwr = { state := .p0, limit := 3600, freq := 16, thr := 16, floorWin := 0, mean := 0, hot := false, rstHigh := s.pwr.rstHigh,
             pwroff := s.pwr.pwroff, miSel := s.pwr.miSel, pulses := s.pwr.pulses } ∧
  s'.sec = { s.sec with level := .none, appCtx := 0, nonces := s.sec.nonces + 1, burning := none, returnAsked := false } ∧
  s'.pkg = { stat := if s.sec.imagesOk = true then .wiping else .resetHold, cause := cause, wipestat := s.pkg.wipestat,
             resets := s.pkg.resets + 1, wipeErr := s.pkg.wipeErr, syn := s.pkg.syn, mgtevt := 0, peererr := 0,
             hubFailed := s.pkg.hubFailed, cxlUp := s.pkg.cxlUp, reply := .none } ∧
  s'.dev.ports = List.replicate 24 {} ∧ Wiped s.dev s'.dev

/-- Bit `b` of `MGTEVT` is set, and vector 64 is signalled (R117). -/
def Alerted (s s' : State) (b : Nat) : Prop :=
  s'.pkg.mgtevt = s.pkg.mgtevt ||| (1#64 <<< b) ∧ s'.dev.msix = s.dev.msix ||| (1#65 <<< 64)

/-- Clocks run: P0, P1 or P2 (R108). -/
def Powered (s : State) : Prop := s.pwr.state = .p0 ∨ s.pwr.state = .p1 ∨ s.pwr.state = .p2

/-- A die, in the numbers of the syndrome registers, carries a sensor (R29). -/
def HasSensor (die sensor : Nat) : Prop := (die < 8 ∧ sensor < 16) ∨ (8 ≤ die ∧ die < 24 ∧ sensor < 2)

/-- The die of a supply domain in the order of R25 (R118). -/
def supplied (domain : Nat) : Nat :=
  if domain < 8 then domain else if domain < 24 then domain else if domain < 40 then domain - 24 + 8 else 24

/-- The boot ROM passes an image (R98): its key is fused, it verifies, and its version is not below the counter. -/
def Passes (x : BootImage) (counter : Nat) : Prop := x.fusedKey = true ∧ x.verifies = true ∧ counter ≤ x.version

end Sys2Proof.Claims

/-- R26-R29, R98, R107-R115, R119: the board powers the package on in the order of R26, or the model stops, and the straps are
sampled (R27); the boot ROM passes two images whose key is fused and whose version is not below the fused counter (R98); the
triggers of R112 reset the package, but not one whose hub die failed; the wipe ends; power windows, sensors, supplies out of
band, P2, D3hot and the removal of power. A pulse on `RST_N` of 1 to 10 us resets the package or does nothing (log 7).
The model's own choices that this rests on: log 64 to log 66, log 69, log 99, log 101, log 113. -/
def Obligations.PowerEventsAndResets : Prop :=
  (∀ (s : State) (aon held : Bool) (boot : BootInputs), s.pwr.state = .off →
    ((aon && held) = false → exec (.powerOn aon held boot) s = .fault .supplySequence) ∧
    Answers (.powerOn true true boot) s (ResetFrom { s with
      sec := { s.sec with rollback := max s.sec.rollback boot.rollback, secImage := boot.sec, hubImage := boot.hub },
      pwr := { s.pwr with pwroff := false, rstHigh := true, miSel := boot.straps },
      pkg := { s.pkg with hubFailed := false, wipeErr := false } } 0)) ∧
  (∀ x : Security, x.imagesOk = true ↔ Passes x.secImage x.rollback ∧ Passes x.hubImage x.rollback) ∧
  (∀ (s : State) (ns link : Nat) (straps : BitVec 2),
    let pulsed : State := { s with pwr := { s.pwr with pulses := s.pwr.pulses + 1 } }
    let sampled (s : State) : State := { s with pwr := { s.pwr with miSel := straps } }
    let i : Instr := .rstNPulse { nanoseconds := ns, straps }
    (ns < 1000 → exec i s = .next s) ∧
    (s.pwr.state ≠ .off → s.pkg.hubFailed = false →
      (10000 ≤ ns → Answers i s (ResetFrom (sampled s) 5)) ∧
      (1000 ≤ ns → ns < 10000 → Answers i s fun s' => s' = pulsed ∨ ResetFrom (sampled pulsed) 5 s') ∧
      (link ≤ 1 → Answers (.pcieFundamentalReset link) s (ResetFrom s 2))) ∧
    (s.pkg.hubFailed = true → link ≤ 1 → exec (.pcieFundamentalReset link) s = .next s) ∧
    (s.pwr.state = .d3hot → s.pkg.hubFailed = false → Answers .d3hotExit s (ResetFrom s 4))) ∧
  (∀ (s : State) (ms : Nat) (verified : Bool), s.pkg.stat = .wiping →
    let good := verified = true ∧ s.pkg.wipeErr = false
    Answers (.wipeComplete ms verified) s fun s' => s' = { s with pkg := s'.pkg } ∧
      s'.pkg = { s.pkg with stat := s'.pkg.stat, wipeErr := s'.pkg.wipeErr, wipestat := s'.pkg.wipestat } ∧
      (good → s'.pkg.stat = .running) ∧ (¬ good → s'.pkg.stat = .resetHold) ∧ (s'.pkg.wipeErr = true ↔ ¬ good) ∧
      let v := s'.pkg.wipestat
      (v.getLsbD 63 = verified) ∧ (v.getLsbD 62 = true ↔ ¬ good) ∧ fld v.toNat 61 58 = s.pkg.cause % 16 ∧
      fld v.toNat 57 32 = 0 ∧ fld v.toNat 31 16 = s.pkg.resets % 2 ^ 16 ∧ fld v.toNat 15 0 = ms % 2 ^ 16) ∧
  (∀ (s : State) (mean hottest : Nat), Powered s →
    let hotter := mean > s.pwr.limit ∨ s.pwr.hot = true ∨ 95 ≤ hottest
    Answers (.powerWindowEnd mean hottest) s fun s' =>
      (hotter → s'.pwr.thr = max 8 (s.pwr.thr - 2)) ∧ (¬ hotter → hottest < 90 → s'.pwr.thr = min 16 (s.pwr.thr + 1)) ∧
      (¬ hotter → 90 ≤ hottest → s'.pwr.thr = s.pwr.thr) ∧
      (s.pwr.state = .p2 → s'.pwr.state = .p2) ∧
      (s.pwr.state ≠ .p2 → s'.pwr.state = if min s.pwr.freq s'.pwr.thr = 16 then .p0 else .p1) ∧
      s'.pwr.floorWin = (if s.pwr.thr = 8 ∧ s'.pwr.thr = 8 then min 100 (s.pwr.floorWin + 1) else 0) ∧
      s'.pwr = { s.pwr with thr := s'.pwr.thr, state := s'.pwr.state, floorWin := s'.pwr.floorWin, mean, hot := false } ∧
      (s'.pwr.floorWin = 100 → mean > s.pwr.limit → Alerted s s' 2) ∧
      (¬ (s'.pwr.floorWin = 100 ∧ mean > s.pwr.limit) → s'.pkg = s.pkg ∧ s'.dev = s.dev) ∧
      s' = { s with pwr := s'.pwr, pkg := { s.pkg with mgtevt := s'.pkg.mgtevt }, dev := { s.dev with msix := s'.dev.msix } }) ∧
  (∀ (s : State) (die sensor domain : Nat),
    (Powered s → HasSensor die sensor →
      (Answers (.sensorAt95c die sensor) s fun s' => Alerted s s' 1 ∧ s'.pwr.hot = true ∧
        s'.pwr.state = (if s.pwr.state = .p2 then .p2 else .p1) ∧
        s' = { s with pwr := { s.pwr with hot := true, state := s'.pwr.state }, pkg := { s.pkg with mgtevt := s'.pkg.mgtevt },
                      dev := { s.dev with msix := s'.dev.msix } }) ∧
      ∃ s₁, exec (.fatalError die 5 sensor 0) s = .next s₁ ∧
        exec (.sensorAt110c die sensor) s = .next { s₁ with pwr := { s₁.pwr with pwroff := true } }) ∧
    (domain ≤ 42 → ∃ s₁, exec (.fatalError (supplied domain) 4 domain 0) s = .next s₁ ∧ exec (.supplyOutOfBand domain) s = .next s₁)) ∧
  (∀ s : State,
    let m := s.dev.stash
    (s.pkg.stat = .running → s.pwr.state = .p0 ∨ s.pwr.state = .p1 → m.quiet = true →
      Answers .p2Entry s fun s' => s' = { s with pwr := { s.pwr with state := .p2 }, dev := { m with waves := s'.dev.waves } } ∧
        s'.dev.waves = m.waves.map fun (w : Wave) => { w with drowsy := true }) ∧
    (s.pwr.state = .p2 → exec .p2Exit s = .next { s with pwr := { s.pwr with
        state := if min s.pwr.freq s.pwr.thr = 16 ∧ s.pwr.hot = false then .p0 else .p1 } })) ∧
  (∀ s : State, Powered s → Answers .d3hotEntry s fun s' => s'.pwr = { s.pwr with state := .d3hot } ∧
      s'.sec = { s.sec with level := .none, appCtx := 0 } ∧ s'.pkg = s.pkg ∧ Wiped s.dev s'.dev) ∧
  (∀ (s : State) (last : Bool), s.pwr.state ≠ .off →
    (last = false → exec (.powerRemoval last) s = .fault .supplySequence) ∧
    (last = true → Answers (.powerRemoval last) s fun s' => s'.pwr.state = .off ∧ s'.pwr.pwroff = false ∧ s'.pkg.stat = .resetHold ∧
      s'.pkg.syn = s.pkg.syn ∧ s'.pkg.resets = s.pkg.resets ∧ s'.pkg.wipestat = s.pkg.wipestat ∧
      s'.sec = { s.sec with level := .none, appCtx := 0, burning := none, returnAsked := false } ∧
      s'.dev.ports = List.replicate 24 {} ∧ Wiped s.dev s'.dev))

namespace Sys2Proof.Claims

/-- The codes of `PKGSTAT` (R117), of life cycles and debug levels (R102). -/
def stateNumber (x : PkgState) : Nat := match x with | .resetHold => 0 | .wiping => 1 | .running => 2 | .fatal => 3 | .salvage => 4
def lifeNumber (x : LifeCycle) : Nat :=
  match x with | .manufacture => 0 | .provisioned => 1 | .deployed => 2 | .returned => 3 | .decommissioned => 4
def levelNumber (x : DebugLevel) : Nat := match x with | .none => 0 | .app => 1 | .full => 2

/-- The debug level: an APP level ends with its context (R107). -/
def LevelIs (s : State) (l : DebugLevel) : Prop :=
  l = if s.sec.level = .app ∧ s.dev.ended.getLsbD s.sec.appCtx = true then .none else s.sec.level

/-- Host registers by mailbox offset, with what they read (R79, R117, R359); `PEERERR` and the capability summary at the
model's offsets (log 34). -/
def mailboxValues (s : State) : List (Nat × Nat) :=
  let h := s.dev.host
  [(0x00, h.nodeid), (0x08, h.impbase), (0x10, b2n h.impsync), (0x18, h.biasbase), (0x20, h.biasreq.toNat), (0x28, h.biasack),
   (0x30, h.biasseq.toNat), (0x38, h.lqtbase), (0x48, 0), (0x50, if s.pkg.stat = .salvage then 1 else 0),
   (0x58, s.pkg.wipestat.toNat), (0x60, s.pwr.limit * 2 ^ 32 + s.pwr.freq), (0x68, h.ctxbase),
   (0x70, (Config.nonceValue s.sec.nonces).toNat % 2 ^ 64), (0x78, (Config.nonceValue s.sec.nonces).toNat / 2 ^ 64),
   (0x200, (s.pkg.mgtevt ||| s.dev.events).toNat), (0x208, b2n h.lqsync), (0x10000, s.pkg.peererr.toNat), (0x10200, s.dev.cap.capsum)]

/-- The machine with what it last answered. -/
def replied (s : State) (r : Reply) : State := { s with pkg := { s.pkg with reply := r } }

/-- Events cleared by the ones of a word (R117). -/
def eventsCleared (s : State) (v : DWord) : State :=
  { s with pkg := { s.pkg with mgtevt := (s.pkg.mgtevt ||| s.dev.events) &&& ~~~v }, dev := { s.dev with events := 0 } }

/-- The power record after a write of `PWRCAP` (R109): clamped fields, and P0 or P1 by the new CAP. -/
def capWritten (p : Power) (v : Nat) : Power :=
  let freq := max 8 (min 16 (fld v 4 0))
  { p with limit := min 3600 (fld v 47 32), freq
           state := if p.state = .p0 ∨ p.state = .p1 then (if min freq p.thr = 16 ∧ p.hot = false then .p0 else .p1) else p.state }

/-- `PWRCAP` has been written: THROTTLE-FLOOR is raised when it holds under the new limit. -/
def CapWritten (s s' : State) (v : Nat) : Prop :=
  s'.pwr = capWritten s.pwr v ∧
  (if s.pwr.floorWin = 100 ∧ s.pwr.mean > min 3600 (fld v 47 32) then Alerted s s' 2 else s'.pkg = s.pkg ∧ s'.dev = s.dev) ∧
  s' = { s with pwr := s'.pwr, pkg := { s.pkg with mgtevt := s'.pkg.mgtevt }, dev := { s.dev with msix := s'.dev.msix } }

/-- Pages `first` to `first + n - 1` hold a byte of device memory. -/
def InPages (first n pa : Nat) : Prop := 65536 * first ≤ pa ∧ pa < 65536 * (first + n)

/-- A core holds no tracked copy of a line of a range of pages (R83). -/
def Recalled (m : Dev) (first n : Nat) : Prop :=
  ∀ k, ∀ x ∈ (m.core k).l1, x.st.tracked = true → 128 * x.num < devBytes → ¬ InPages first n (128 * x.num % Config.memoryBytes)

end Sys2Proof.Claims

/-- R27, R71, R72, R79, R80, R82-R84, R87, R109, R112, R116-R118, R120: reads and writes by the management interface at its own
address, in every state but OFF, and by the mailbox, the registers with behaviour of their own, and bias flips.
The model's own choices that this rests on: log 34, log 76, log 86, log 87, log 91, log 92, log 107, log 115. -/
def Obligations.HostRegistersAndBiasFlips : Prop :=
  (∀ (s : State) (command off : Nat) (v : DWord) (addr : BitVec 7), s.pwr.state ≠ .off →
    let at_ (num : Nat) : SmbusRef := { addr, num }
    (addr ≠ 0x58 + s.pwr.miSel.setWidth 7 → exec (.mctpControl (at_ command)) s = .next s ∧ exec (.mgmtRead (at_ off)) s = .next s ∧
      exec (.mgmtWrite (at_ off) v) s = .next s) ∧
    (addr = 0x58 + s.pwr.miSel.setWidth 7 →
      exec (.mctpControl (at_ command)) s = .next (replied s (.data [Config.replyByte command] false)) ∧
      (∀ x ∈ mailboxValues s, exec (.mgmtRead (at_ x.1)) s = .next (replied s (.data (leBytes 8 x.2) false))) ∧
      (∀ i, i < 25 → exec (.mgmtRead (at_ (0x80 + 8 * i))) s = .next (replied s (.data (leBytes 8 (s.pkg.syn.getD i 0).toNat) false))) ∧
      (∀ l, LevelIs s l → Answers (.mgmtRead (at_ 0x40)) s fun s' => ∃ v, s' = replied s (.data (leBytes 8 v) false) ∧ v < 2 ^ 11 ∧
        fld v 2 0 = stateNumber s.pkg.stat ∧ fld v 5 3 = lifeNumber s.sec.life ∧ fld v 7 6 = levelNumber l ∧
        fld v 10 8 = (match s.pwr.state with | .p0 => 0 | .p1 => 1 | .p2 => 2 | .d3hot => 3 | .off => 0)) ∧
      (off % 8 ≠ 0 → off < 0x10000 → exec (.mgmtRead (at_ off)) s = .next (replied s .error)) ∧
      exec (.mgmtWrite (at_ 0x200) v) s = .next (eventsCleared s v) ∧
      Answers (.mgmtWrite (at_ 0x60) v) s (fun s' => CapWritten s s' v.toNat) ∧
      (v.getLsbD 0 = true → s.pkg.hubFailed = false → Answers (.mgmtWrite (at_ 0x48) v) s (ResetFrom s 1)) ∧
      (v.getLsbD 0 = false → exec (.mgmtWrite (at_ 0x48) v) s = .next s) ∧
      (off ≠ 0x48 → off ≠ 0x60 → off ≠ 0x200 → exec (.mgmtWrite (at_ off) v) s = .next (replied s .error))) ∧
    exec (.mgtevtClear v) s = .next (eventsCleared s v) ∧
    (Powered s → Answers (.pwrcapWrite v) s fun s' => CapWritten s s' v.toNat) ∧
    (Powered s → v.getLsbD 0 = true → s.pkg.hubFailed = false → Answers (.rstctlReset v) s (ResetFrom s 1)) ∧
    (v.getLsbD 0 = false → exec (.rstctlReset v) s = .next s)) ∧
  (∀ (s : State) (v : DWord), Powered s →
    let h := s.wake.dev.host
    let set (h : HostRegs) : State := { s.wake with dev := { s.wake.dev with host := h } }
    let w1c (x : DWord) : DWord := if v.getLsbD 63 = true then x &&& 0x7FFFFFFFFFFFFFFF#64 else x
    (s.pwr.state = .p2 → Due s.wake.dev .p2Exit) ∧ (s.pwr.state ≠ .p2 → s.wake = s) ∧
    exec (.hostRegisterWrite 0x00 v) s = .next (set { h with nodeid := v.toNat % 2 ^ 14 }) ∧
    exec (.hostRegisterWrite 0x08 v) s = .next (set { h with impbase := v.toNat }) ∧
    exec (.hostRegisterWrite 0x18 v) s = .next (set { h with biasbase := v.toNat }) ∧
    exec (.hostRegisterWrite 0x28 v) s = .next (set { h with biasack := v.toNat }) ∧
    exec (.hostRegisterWrite 0x68 v) s = .next (set { h with ctxbase := v.toNat }) ∧
    (Answers (.hostRegisterWrite 0x38 v) s fun s' => s'.dev.host = { h with lqtbase := v.toNat } ∧ s'.pkg = s.pkg ∧
      SameMemory s.dev s'.dev ∧ ∀ q, q < 64 → (s'.dev.lq q).serves = true → Due s'.dev (.lqService q)) ∧
    (∀ i x, i < 25 → s.pkg.syn[i]? = some x → exec (.hostRegisterWrite (0x80 + 8 * i) v) s =
      .next { s.wake with pkg := { s.wake.pkg with syn := s.pkg.syn.set i (w1c x) } }) ∧
    exec (.hostRegisterWrite 0x10000 v) s = .next { s.wake with pkg := { s.wake.pkg with peererr := w1c s.pkg.peererr } } ∧
    (∀ off ∈ [0x30, 0x40, 0x58, 0x70, 0x78], exec (.hostRegisterWrite off v) s = .next s.wake) ∧
    (v.getLsbD 0 = true → exec (.impctlSync v) s = .next (set { h with impsync := false }) ∧
      exec (.lqsyncSync v) s = .next (set { h with lqsync := false }))) ∧
  (∀ (s : State) (v : DWord),
    (s.pkg.stat = .fatal → v.getLsbD 0 = true →
      (s.pkg.hubFailed = false → exec (.salvctlOpen v) s = .next { s with pkg := { s.pkg with stat := .salvage } }) ∧
      (s.pkg.hubFailed = true → exec (.salvctlOpen v) s = .next s)) ∧
    (s.pkg.stat = .salvage → v.getLsbD 0 = false → exec (.salvctlOpen v) s = .next { s with pkg := { s.pkg with stat := .fatal } }) ∧
    (s.pkg.stat ≠ .fatal → s.pkg.stat ≠ .salvage → exec (.salvctlOpen v) s = .next s)) ∧
  (∀ (s : State) (r : DWord),
    let m := s.wake.dev.stash
    let old := s.dev.host.biasreq
    let first := fld r.toNat 47 24
    let n := fld r.toNat 23 8 + 1
    let pin := fld r.toNat 7 4
    let bad := first + n > 2 ^ 24 ∨ (1 ≤ pin ∧ pin ≤ 7)
    let fields := r &&& 0x4000FFFFFFFFFFF0#64
    let with_ (x : DWord) : Dev := { m with host := { m.host with biasreq := x } }
    s.pkg.stat = .running → Powered s →
    (old.getLsbD 63 = true → Answers (.biasreqGo r) s fun s' => s'.dev = m) ∧
    (old.getLsbD 63 = false → r.getLsbD 63 = false →
      Answers (.biasreqGo r) s fun s' => s'.dev = with_ (fields ||| (old &&& 0x2000000000000000#64))) ∧
    (old.getLsbD 63 = false → r.getLsbD 63 = true → bad →
      Answers (.biasreqGo r) s fun s' => s'.dev = with_ (fields ||| 0x2000000000000000#64)) ∧
    (old.getLsbD 63 = false → r.getLsbD 63 = true → ¬ bad → s.dev.host.biasbase + 2 ^ 24 ≤ Config.memoryBytes →
      Answers (.biasreqGo r) s fun s' => s'.dev.host = { m.host with biasreq := fields ||| 0x8000000000000000#64 } ∧
        StoredAt s.dev s'.dev (.dev (s.dev.host.biasbase + first)) (List.replicate n (BitVec.ofNat 8 (b2n (r.getLsbD 62) * 128 + pin))) ∧
        Due s'.dev .biasFlipComplete ∧ (r.getLsbD 62 = false → Recalled s'.dev first n))) ∧
  (∀ (s : State) (r : DWord), s.pkg.stat ≠ .running → Powered s →
    (s.dev.host.biasreq.getLsbD 63 = true → exec (.biasreqGo r) s = .next s) ∧
    (s.dev.host.biasreq.getLsbD 63 = false → r.getLsbD 63 = false → exec (.biasreqGo r) s = .next { s with dev := { s.dev with
      host := { s.dev.host with biasreq := (r &&& 0x4000FFFFFFFFFFF0#64) ||| (s.dev.host.biasreq &&& 0x2000000000000000#64) } } })) ∧
  (∀ s : State,
    let h := s.dev.host
    s.pkg.stat = .running → Powered s →
    (h.biasreq.getLsbD 63 = true → Answers .biasFlipComplete s fun s' =>
      s'.dev.host = { h with biasseq := h.biasseq + 1, biasreq := h.biasreq &&& 0x4000FFFFFFFFFFF0#64 } ∧
      StoredAt s.dev s'.dev (.host h.biasack) (leBytes 8 (h.biasseq + 1).toNat)) ∧
    (h.biasreq.getLsbD 63 = false → Answers .biasFlipComplete s fun s' => s'.dev = s.dev.stash))

namespace Sys2Proof.Claims

/-- SERIAL, NONCE and the zero bytes of a request hold, and CTX is zero unless the request names a context (R103). -/
def Genuine (x : Security) (r : SignedRequest) (named : Prop) : Prop :=
  r.serial = Config.serial ∧ r.nonce = Config.nonceValue x.nonces ∧ r.zerosOk = true ∧ (named ∨ r.ctx = 0)

/-- SIG is not zero and verifies under the Neroskeno key, or under the owner key, which can be installed in PROVISIONED (R99). -/
def ByNeroskeno (r : SignedRequest) : Prop := r.signer = .neroskeno ∧ r.sigZero = false
def ByOwner (x : Security) (r : SignedRequest) : Prop := r.signer = .owner ∧ r.sigZero = false ∧ (x.ownerKey = true ∨ x.life = .provisioned)

/-- The table of R106, for a request that no life-cycle change delays (R105). -/
def Grants (x : Security) (r : SignedRequest) (l : DebugLevel) : Prop :=
  x.burning = none ∧ Genuine x r (r.arg = 1) ∧
  match l with
  | .none => r.arg = 0 ∧ (ByNeroskeno r ∨ ByOwner x r)
  | .app => r.arg = 1 ∧ r.ctx < 64 ∧ ByOwner x r ∧ (x.life = .provisioned ∨ x.life = .deployed ∨ x.life = .returned)
  | .full => r.arg = 2 ∧ ((x.life = .manufacture ∧ (ByNeroskeno r ∨ r.sigZero = true)) ∨ (x.life = .returned ∧ ByNeroskeno r))

/-- The table of R104. -/
def Changes (x : Security) (r : SignedRequest) (l : LifeCycle) : Prop :=
  x.burning = none ∧ Genuine x r False ∧
  ((x.life = .manufacture ∧ r.arg = 1 ∧ l = .provisioned ∧ ByNeroskeno r) ∨
   (x.life = .provisioned ∧ r.arg = 2 ∧ l = .deployed ∧ ByOwner x r) ∨
   (x.life = .deployed ∧ r.arg = 3 ∧ l = .returned ∧ x.returnAsked = true ∧ ByOwner x r) ∨
   (x.life = .returned ∧ r.arg = 2 ∧ l = .deployed ∧ ByNeroskeno r) ∨
   (x.life ≠ .decommissioned ∧ r.arg = 4 ∧ l = .decommissioned ∧
     (ByOwner x r ∨ ((x.life = .manufacture ∨ x.life = .returned) ∧ ByNeroskeno r))))

/-- The first half of the move to RETURNED (R104). -/
def AsksReturn (x : Security) (r : SignedRequest) : Prop :=
  x.burning = none ∧ Genuine x r False ∧ x.life = .deployed ∧ r.arg = 3 ∧ ByNeroskeno r

/-- Every context has ended at once: no wave, launch, command, peer request or queue entry is left, and memory is as it was, so
no error queue has an entry (R105, R110, R118). -/
def AllEnded (m m' : Dev) : Prop :=
  m'.allWaves = [] ∧ m'.launches = [] ∧ m'.savedWaves = [] ∧ m'.cmds = [] ∧ m'.peers = [] ∧ m'.tuns = [] ∧ m'.watch = [] ∧
  m'.holds = [] ∧ m'.copyParties = [] ∧ (∀ c, m'.cluster c = {}) ∧ (∀ d, (m'.die d).spawns = []) ∧ SameMemory m m' ∧
  m'.host.biasreq.getLsbD 63 = false ∧ m'.cap = m.cap ∧ m'.ended = BitVec.allOnes 64 ∧ m'.ports = List.replicate 24 {}

/-- The security processor holds a key to sign with (R99, R101). -/
def HoldsKey (x : Security) : Prop :=
  (x.life = .manufacture ∧ x.testKey = true) ∨ (x.life ≠ .manufacture ∧ x.life ≠ .decommissioned ∧ x.identityKey = true)

/-- The measurement blocks (R86, R102, R115). -/
def measured (s : State) (l : DebugLevel) (index : Nat) : List Byte :=
  match index with
  | 1 => leBytes 48 Config.hubDigest.toNat
  | 2 => leBytes 48 Config.secDigest.toNat
  | 3 => [BitVec.ofNat 8 (lifeNumber s.sec.life * 2 ^ 5 + levelNumber l * 2 ^ 3)]
  | 4 => leBytes 8 s.pkg.wipestat.toNat
  | _ => leBytes 8 s.dev.cap.capsum

end Sys2Proof.Claims

/-- R85, R86, R99, R101-R107: signed requests for a debug level and for a life-cycle change, the end of the burn, and the
SPDM requests; those of a session are not answered. A request that is refused renews `NONCE` and changes nothing else.
Digests, and what DSP0274 defines, are free values (log 5, log 9).
The model's own choices that this rests on: log 30, log 66, log 114. -/
def Obligations.SignedRequestsAndSpdm : Prop :=
  (∀ (s : State) (r : SignedRequest), Powered s →
    let fresh : Security := { s.sec with nonces := s.sec.nonces + 1 }
    (Grants s.sec r .app → exec (.debugUnlock r) s = .next { s with
      sec := { fresh with level := .app, appCtx := r.ctx, ownerKey := true }, dev := { s.dev with ended := 0 } }) ∧
    (Grants s.sec r .full → exec (.debugUnlock r) s = .next { s with
      sec := { fresh with level := .full, appCtx := 0 }, dev := { s.dev with ended := 0 } }) ∧
    (Grants s.sec r .none → Answers (.debugUnlock r) s fun s' => 
      s'.sec = { fresh with level := .none, appCtx := 0, ownerKey := s'.sec.ownerKey } ∧ (∀ w ∈ s'.dev.allWaves, w.halted = false) ∧
      s' = { s with sec := s'.sec, dev := { s.dev.stash with waves := s'.dev.waves } } ∧
      s'.dev.waves = s.dev.stash.waves.map fun (w : Wave) => { w with halted := false }) ∧
    ((∀ l, ¬ Grants s.sec r l) → exec (.debugUnlock r) s = .next { s with sec := fresh }) ∧
    (∀ l, Changes s.sec r l → Answers (.lifecycleChange r) s fun s' =>
      (s'.sec.ownerKey = true ↔ s.sec.ownerKey = true ∨ ByOwner s.sec r) ∧
      s' = { s with sec := { fresh with burning := some l, ownerKey := s'.sec.ownerKey }, dev := s'.dev } ∧
      AllEnded s.dev s'.dev ∧ s'.dev.agenda = [.lifecycleBurnDone]) ∧
    (AsksReturn s.sec r → exec (.lifecycleChange r) s = .next { s with sec := { fresh with returnAsked := true } }) ∧
    ((∀ l, ¬ Changes s.sec r l) → ¬ AsksReturn s.sec r → exec (.lifecycleChange r) s = .next { s with sec := fresh })) ∧
  (∀ (s : State) (l : LifeCycle), Powered s → s.sec.burning = some l → s.pkg.hubFailed = false →
    let keyed := match l with
      | .provisioned => { s.sec with life := l, identityKey := true, testKey := false }
      | .decommissioned => { s.sec with life := l, identityKey := false, testKey := false }
      | _ => { s.sec with life := l }
    Answers .lifecycleBurnDone s (ResetFrom { s with sec := keyed } 3)) ∧
  (∀ (s : State) (l : DebugLevel) (index code : Nat), Powered s → LevelIs s l →
    exec .getVersion s = .next (replied s (.spdm 0x84 [0x12, 0x13] false)) ∧
    exec .getCapabilities s = .next (replied s (.spdm 0xE1 [Config.replyByte 0xE1] false)) ∧
    exec .negotiateAlgorithms s = .next (replied s (.spdm 0xE3 [0x80, 0x02] false)) ∧
    (code ∈ [0xE4, 0xE5, 0xE6, 0xE7, 0xE8, 0xE9, 0xEC] → exec (.spdmUnsupportedRequest code) s = .next s) ∧
    (code ∉ [0xE4, 0xE5, 0xE6, 0xE7, 0xE8, 0xE9, 0xEC] → exec (.spdmUnsupportedRequest code) s = .next (replied s .spdmUnsupported)) ∧
    (HoldsKey s.sec → exec .getDigests s = .next (replied s (.spdm 0x81 [1] false)) ∧
      exec .getCertificate s = .next (replied s (.spdm 0x82 [BitVec.ofNat 8 (lifeNumber s.sec.life)] false)) ∧
      exec .challenge s = .next (replied s (.spdm 0x83 [] true))) ∧
    (¬ HoldsKey s.sec → exec .getDigests s = .next (replied s (.spdm 0x81 [0] false)) ∧
      exec .getCertificate s = .next (replied s .spdmUnsupported) ∧ exec .challenge s = .next (replied s .spdmUnsupported) ∧
      exec (.getMeasurements index true) s = .next (replied s .spdmUnsupported)) ∧
    (∀ signed : Bool, (signed = true → HoldsKey s.sec) →
      (1 ≤ index → index ≤ 5 → exec (.getMeasurements index signed) s = .next (replied s (.spdm 0xE0 (measured s l index) signed))) ∧
      exec (.getMeasurements 255 signed) s = .next (replied s (.spdm 0xE0 ([1, 2, 3, 4, 5].flatMap (measured s l)) signed))))

namespace Sys2Proof.Claims

/-- The syndromes after a fatal error of a die (R118): one that holds a syndrome stays; the failing die's takes the error, and
those of the others say that they were stopped. -/
def SyndromesWritten (s s' : State) (die kind unit addr : Nat) (first : Bool) : Prop :=
  ∀ (d : Nat) (x : DWord), d < 25 → s.pkg.syn[d]? = some x → ∃ y : DWord, s'.pkg.syn[d]? = some y ∧ y.getLsbD 63 = true ∧
    (x.getLsbD 63 = true → y = x) ∧
    (x.getLsbD 63 = false → d = die → fld y.toNat 62 56 = 0x7F ∧ fld y.toNat 55 52 = kind ∧ y.getLsbD 51 = first ∧
      fld y.toNat 50 45 = unit ∧ fld y.toNat 44 40 = 0 ∧ fld y.toNat 39 0 = addr) ∧
    (x.getLsbD 63 = false → d ≠ die → fld y.toNat 62 0 = 0)

/-- Host accesses are blocked (R116). -/
def Blocked (s : State) : Prop :=
  Powered s ∧ (s.pkg.stat = .resetHold ∨ s.pkg.stat = .wiping ∨ s.pkg.stat = .fatal ∨ s.sec.life = .decommissioned)

/-- The bytes of an access lie in device memory, and there is one. -/
def Within (addr size : Nat) : Prop := size ≠ 0 ∧ addr + size ≤ Config.memoryBytes

/-- A bias flip under way holds a byte of an access (R83, R84). -/
def HeldByFlip (s : State) (addr size : Nat) : Prop :=
  let r := s.dev.host.biasreq
  r.getLsbD 63 = true ∧ ∃ i, i < size ∧ InPages (fld r.toNat 47 24) (fld r.toNat 23 8 + 1) (addr + i)

/-- Two ranges have no byte in common. -/
def Apart (a n b k : Nat) : Prop := a + n ≤ b ∨ b + k ≤ a

/-- The bias table entry of the page of a physical address (R80). -/
def biasOf (m : Dev) (pa : Nat) : Nat := (m.byteAt (.dev (m.host.biasbase + pa / 65536))).toNat

/-- The PIN of the page of a physical address: that of its entry, and 0 for the pages of the table itself (R80). -/
def pinOf (m : Dev) (pa : Nat) : Nat :=
  let page := pa / 65536
  if m.host.biasbase < 65536 * (page + 1) ∧ 65536 * page < m.host.biasbase + 2 ^ 24 then 0 else biasOf m pa % 16

/-- Where the byte at a physical address of device memory lies for the host: at the home that the PIN of its page gives (R49,
R81). -/
def homeOf (m : Dev) (pa : Nat) : Nat := homeKey (pinOf m pa) pa

/-- The bytes of an access at their homes, and whether a word among them is poisoned. -/
def homeBytes (m : Dev) (addr size : Nat) : List Byte := (List.range size).map fun i => m.byteAt (.dev (homeOf m (addr + i)))
def homePoison (m : Dev) (addr size : Nat) : Bool := (List.range size).any fun i => m.poisonAt (.dev (homeOf m (addr + i)))

/-- The bytes `bs` stand at the homes of a physical range, and every other place holds the byte that it held. -/
def StoredHome (m m' : Dev) (addr : Nat) (bs : List Byte) : Prop :=
  (∀ i b, bs[i]? = some b → m'.byteAt (.dev (homeOf m (addr + i))) = b) ∧
  ∀ l, (∀ i, i < bs.length → l ≠ .dev (homeOf m (addr + i))) → m'.byteAt l = m.byteAt l

/-- A die failed since the last reset (R118). -/
def Failed (s : State) (d : Nat) : Prop := s.pkg.failed.getLsbD d = true

/-- A core of a die, or its atomic unit, holds a dirty copy of a line. -/
def Dirty (s : State) (die line : Nat) : Prop :=
  (∃ k, k / 208 = die ∧ ∃ x ∈ (s.dev.core k).l1, x.num = line ∧ (x.st = .m ∨ x.st = .o)) ∨
  ∃ x ∈ (s.dev.die die).atomics, x.num = line

/-- A salvage read of the line of a byte is poison (R121): its home failed, it is poisoned, or its dirty copies are on failed
dies. -/
def Lost (s : State) (pa : Nat) : Prop :=
  let line := homeOf s.dev pa / 128
  Failed s (8 + homeSlice (pinOf s.dev pa) pa) ∨
  s.dev.anyPoison (.dev (128 * line)) 128 = true ∨ ((∃ d, d < 8 ∧ Dirty s d line) ∧ ∀ d, d < 8 → Dirty s d line → Failed s d)

/-- The event answers a salvage read (R121). -/
def Salvaged (i : Instr) (s : State) (addr size : Nat) : Prop :=
  (s.dev.cores.map fun x => x.1).Nodup →
    let lost := ∃ j, j < size ∧ Lost s (addr + j)
    (lost → exec i s = .next (replied s (.data [] true))) ∧
    (¬ lost → exec i s = .next (replied s (.data (homeBytes s.dev addr size) false)))

/-- The debugger reaches a wave of a context, or the memory of it (R106, R107, R111). -/
def Reached (s : State) (ctx : Nat) : Prop :=
  s.pkg.stat = .running ∧ Powered s ∧ (LevelIs s .full ∨ (LevelIs s .app ∧ s.sec.appCtx = ctx))

/-- The capability record without the cores `lost` of a cluster: one with fewer than 4 cores left goes whole (R32). -/
def capWithout (c : Capability) (cl : Nat) (lost : BitVec 12) : Capability :=
  let left := c.cores.getD cl 0 &&& ~~~lost
  { c with cores := c.cores.set cl (if ((List.range 12).filter fun i => left.getLsbD i).length < 4 then 0 else left),
           replace := true }

end Sys2Proof.Claims

/-- R76, R77, R81, R84, R87, R116, R118-R121, R359, R524: host reads and writes of device memory, their blocking, the salvage
window, fatal errors, and data errors, which poison the word and nothing else. An access reaches the homes that the PINs of the
bias table give (R81); under host bias the host may then hold the lines that it reached through CXL (R248).
The model's own choices that this rests on: log 67, log 68, log 76, log 88, log 90, log 93, log 104. -/
def Obligations.HostAccessesAndFatalErrors : Prop :=
  (∀ (s : State) (a : HostAccess), Blocked s →
    let after := if a.write = true then s else replied s (.data (List.replicate a.size 0) true)
    exec (.hostAccessBlocked a) s = .next after ∧
    (Within a.addr a.size → s.pkg.cxlUp = true → exec (.hostCxlAccess a) s = .next after) ∧
    (Within a.addr a.size → exec (.hostDma a) s = .next after) ∧
    (Within a.addr a.size → s.pkg.stat = .salvage →
      exec (.salvageRead a.addr a.size) s = .next (replied s (.data (List.replicate a.size 0) true)))) ∧
  (∀ (s : State) (a : HostAccess) (i : Instr),
    let m := s.wake.dev.stash
    let poisoned := homePoison s.dev a.addr a.size
    let h := s.dev.host
    let takes (held : List Nat) : Prop :=
      (i = .hostDma a → held = m.hostHeld) ∧
      (i = .hostCxlAccess a → ∀ line, line ∈ held ↔ line ∈ m.hostHeld ∨
        ∃ j, j < a.size ∧ line = homeOf s.dev (a.addr + j) / 128 ∧ biasOf s.dev (a.addr + j) < 128)
    i = .hostDma a ∨ (i = .hostCxlAccess a ∧ s.pkg.cxlUp = true) →
    s.pkg.stat = .running → Powered s → s.sec.life ≠ .decommissioned → Within a.addr a.size →
    (HeldByFlip s a.addr a.size → Answers i s fun s' => Due s'.dev .biasFlipComplete ∧ Due s'.dev i ∧ s'.pkg = s.pkg ∧ SameMemory s.dev s'.dev) ∧
    (¬ HeldByFlip s a.addr a.size → a.write = false → ∃ held, takes held ∧
      exec i s = .next (replied { s.wake with dev := { m with hostHeld := held } }
        (.data (if poisoned = true then [] else homeBytes s.dev a.addr a.size) poisoned))) ∧
    (¬ HeldByFlip s a.addr a.size → a.write = true → a.data.length = a.size →
      (Apart a.addr a.size h.biasbase (2 ^ 24) → Apart a.addr a.size h.lqtbase 2048 → Apart a.addr a.size h.ctxbase 8192 →
        Answers i s fun s' => StoredHome s.dev s'.dev a.addr a.data ∧ s'.pkg = s.pkg ∧
          ∀ w, (∀ j, j < 4 → a.addr ≤ 4 * w + j ∧ 4 * w + j < a.addr + a.size) →
            s'.dev.poisonAt (.dev (homeOf s.dev (4 * w))) = false) ∧
      Answers i s fun s' => (∀ c, c < 64 → s.dev.ctxValid c = true → s'.dev.ctxValid c = false → Due s'.dev (.contextEndByHost c)) ∧
        (∀ pa, h.biasbase ≤ pa → pa < h.biasbase + 2 ^ 24 → h.biasbase + 2 ^ 24 ≤ Config.memoryBytes →
          Apart h.biasbase (2 ^ 24) h.lqtbase 2048 → s'.dev.byteAt (.dev pa) = s.dev.byteAt (.dev pa)))) ∧
  (∀ (s : State) (a : HostAccess),
    (s.pkg.cxlUp = false → exec (.hostCxlAccess a) s = .next s) ∧
    (s.pkg.stat = .salvage → s.pkg.cxlUp = true → s.sec.life ≠ .decommissioned → exec (.hostDma a) s = .next s) ∧
    (s.pkg.stat = .salvage → Powered s → s.sec.life ≠ .decommissioned → Within a.addr a.size →
      (a.write = true → s.pkg.cxlUp = true → exec (.hostCxlAccess a) s = .next s) ∧
      (a.write = false → s.pkg.cxlUp = true → exec (.hostCxlAccess a) s = exec (.salvageRead a.addr a.size) s) ∧
      (a.write = false → s.pkg.cxlUp = false → exec (.hostDma a) s = exec (.salvageRead a.addr a.size) s) ∧
      Salvaged (.salvageRead a.addr a.size) s a.addr a.size)) ∧
  (∀ (s : State) (die kind unit addr : Nat), die < 25 → kind < 16 → unit < 64 → addr < 2 ^ 40 →
    let pwr := { s.pwr with pwroff := s.pwr.pwroff || decide (die = 24) }
    let hub := s.pkg.hubFailed || decide (die = 24)
    let failed := s.pkg.failed ||| (1#25 <<< die)
    let first := decide (s.pkg.failed = 0)
    let mgtevt := s.pkg.mgtevt ||| (1#64 <<< 6)
    let dev := { s.dev with msix := s.dev.msix ||| (1#65 <<< 64) }
    (¬ Powered s → exec (.fatalError die kind unit addr) s = .next s) ∧
    (Powered s →
      (s.pkg.stat = .running → Answers (.fatalError die kind unit addr) s fun s' => SyndromesWritten s s' die kind unit addr first ∧
        s'.pkg = { s.pkg with syn := s'.pkg.syn, failed, stat := .fatal, hubFailed := hub, mgtevt } ∧
        s'.pwr = pwr ∧ s'.sec = s.sec ∧ AllEnded s.dev s'.dev ∧ s'.dev.msix = s.dev.msix ||| (1#65 <<< 64)) ∧
      (s.pkg.stat = .wiping → Answers (.fatalError die kind unit addr) s fun s' => SyndromesWritten s s' die kind unit addr first ∧
        s' = { s with pwr, dev, pkg := { s.pkg with syn := s'.pkg.syn, failed, stat := .resetHold, hubFailed := hub, wipeErr := true,
                                                    wipestat := s'.pkg.wipestat, mgtevt } } ∧
        s'.pkg.wipestat.getLsbD 62 = true ∧ s'.pkg.wipestat.getLsbD 63 = false) ∧
      (s.pkg.stat = .resetHold → Answers (.fatalError die kind unit addr) s fun s' => SyndromesWritten s s' die kind unit addr first ∧
        s' = { s with pwr, dev, pkg := { s.pkg with syn := s'.pkg.syn, failed, hubFailed := hub, mgtevt } }) ∧
      (s.pkg.stat = .fatal ∨ s.pkg.stat = .salvage → Answers (.fatalError die kind unit addr) s fun s' =>
        SyndromesWritten s s' die kind unit addr first ∧
        s' = { s with pwr, pkg := { s.pkg with syn := s'.pkg.syn, failed, hubFailed := hub,
                                               stat := if s.pkg.stat = .salvage ∧ die = 24 then .fatal else s.pkg.stat } }))) ∧
  (∀ (s : State) (pa k off d : Nat) (l : Line), Powered s →
    (pa < devBytes → s.dev.dirty (pa / 128) = [] → Answers (.uncorrectableDataError (.memory pa)) s fun s' =>
      s' = { s with dev := { s.dev.stash with mem := s'.dev.mem } } ∧ (∀ l, s'.dev.byteAt l = s.dev.byteAt l) ∧
      ∀ l, s'.dev.poisonAt l = true ↔ s.dev.poisonAt l = true ∨ ∃ q, l = .dev q ∧ q / 4 = pa / 4) ∧
    (k < 1664 → off < 2 ^ 20 → Answers (.uncorrectableDataError (.array k off)) s fun s' =>
      (∀ l, s'.dev.byteAt l = s.dev.byteAt l) ∧
      ∀ l, s'.dev.poisonAt l = true ↔ s.dev.poisonAt l = true ∨ ∃ q, l = .arr k q ∧ q / 4 = off / 4) ∧
    (s.dev.line k (pa / 128) = some l → l.st ≠ .m → l.st ≠ .o → Answers (.uncorrectableDataError (.pending k pa)) s fun s' =>
      SameMemory s.dev s'.dev ∧ s'.dev.line k (pa / 128) = some { l with poison := l.poison ||| (1#32 <<< (pa % 128 / 4)) }) ∧
    (s.dev.line k (pa / 128) = some l → (l.st = .m ∨ l.st = .o) → s.dev.dirty (pa / 128) = [l.layer] → Answers (.uncorrectableDataError (.pending k pa)) s fun s' =>
      (∀ l, s'.dev.byteAt l = s.dev.byteAt l) ∧
      ∀ l, s'.dev.poisonAt l = true ↔ s.dev.poisonAt l = true ∨ ∃ q, l = .dev q ∧ q / 4 = pa / 4) ∧
    (d < 8 → s.dev.dies.length = 8 → Answers (.uncorrectableDataError (.mergeBuffer d pa)) s fun s' => SameMemory s.dev s'.dev ∧
      (s'.dev.die d).merge = (s.dev.die d).merge.map fun (x : MLine) =>
        if x.num = pa / 128 then { x with poison := x.poison ||| (1#32 <<< (pa % 128 / 4)) } else x))

/-- R32-R34, R37, R106, R107, R111, R195, R202, R372, R373: units that are retired or repaired, with the waves that end by
it, each with its gang, to be placed afresh or with RECOVERY-REFUSED, and what the debugger does within its level. Register
numbers of the debugger are the model's (log 35).
The model's own choices that this rests on: log 14, log 70, log 84, log 89. -/
def Obligations.RetirementAndTheDebugger : Prop :=
  (∀ (s : State) (u : UnitRef) (die c n : Nat) (lost : BitVec 12) (w : Wave) (l : Launch),
    let m := s.dev.stash
    let cl := 16 * die + c
    let cap := capWithout m.cap cl lost
    let m₁ := { m with cap }
    (u = .core die c n ∧ n < 12 ∧ (m.cap.cores.getD cl 0).getLsbD n = true ∧ lost = 1#12 <<< n) ∨
      (u = .cluster die c ∧ m.cap.cores.getD cl 0 ≠ 0 ∧ lost = 0xFFF) →
    die < 8 → c < 16 → m.cap.cores.length = 128 → Powered s → m₁.cap.clmask die ≠ 0 → (∀ l ∈ m.launches, l.st ≠ .ready) →
    (m.onLost cap = [] → Answers (.retireUnit u) s fun s' => Alerted s s' 0 ∧
      s' = { s with pkg := { s.pkg with mgtevt := s'.pkg.mgtevt }, dev := { m₁ with msix := s'.dev.msix } }) ∧
    (m.onLost cap = [w] → m.waveOf w.uid = some w → w.gang = none → m.launchOf w.launch = some l →
      (l.replayable = true → w.child = false → w.everirr = false → Answers (.retireUnit u) s fun s' =>
        s'.pkg = { s.pkg with mgtevt := s.pkg.mgtevt ||| 1#64 } ∧ s'.dev.cap = cap ∧ Gone s'.dev w.uid ∧
        s'.dev.launchOf w.launch = some { l with replays := l.replays ++ [(false, [(w.waveid, w.role, w.dieidx)])] } ∧
        Due s'.dev .placementTurn) ∧
      (l.replayable = false ∨ w.child = true ∨ w.everirr = true → Answers (.retireUnit u) s fun s' =>
        s'.pkg = { s.pkg with mgtevt := s.pkg.mgtevt ||| 1#64 } ∧ s'.dev.cap = cap ∧ Gone s'.dev w.uid ∧
        s'.dev = ((((m₁.modLaunch w.launch fun l => { l with noSignal := true }).postWave w 0x05 (m.identity w) 0).killWave
          w.uid).msi 64)))) ∧
  (∀ (s : State) (u : UnitRef) (die c n : Nat) (lost : BitVec 12),
    let m := s.dev.stash
    let cl := 16 * die + c
    let cap := capWithout m.cap cl lost
    (u = .core die c n ∧ n < 12 ∧ (m.cap.cores.getD cl 0).getLsbD n = true ∧ lost = 1#12 <<< n) ∨
      (u = .cluster die c ∧ m.cap.cores.getD cl 0 ≠ 0 ∧ lost = 0xFFF) →
    die < 8 → c < 16 → m.cap.cores.length = 128 → Powered s → ({ m with cap } : Dev).cap.clmask die ≠ 0 → (∀ l ∈ m.launches, l.st ≠ .ready) →
    Answers (.retireUnit u) s fun s' => s'.pkg = { s.pkg with mgtevt := s.pkg.mgtevt ||| 1#64 } ∧ s'.dev.cap = cap ∧
      (∀ w ∈ m.onLost cap, Gone s'.dev w.uid) ∧
      s'.dev = ((m.onLost cap).foldl (fun (x : Dev) w => x.waveFails w.uid) { m with cap }).msi 64) ∧
  (∀ (m : Dev) (w : Wave) (l : Launch),
    let ws := match w.gang with
      | none => [w]
      | some g => m.allWaves.filter fun x => decide (x.gang = some g ∧ x.clusterNo = w.clusterNo)
    let ss := match w.gang with
      | none => []
      | some g => m.savedWaves.filter fun x => decide (x.wave.gang = some g ∧ x.wave.clusterNo = w.clusterNo)
    let unit := ws ++ ss.map fun x => x.wave
    let m' := m.waveFails w.uid
    let again := l.replayable = true ∧ ∀ x ∈ unit, x.child = false ∧ x.everirr = false
    m.wave.uid = 0 → m.waveOf w.uid = some w → m.launchOf w.launch = some l → (∀ x ∈ unit, x.launch = w.launch) →
    (∀ x ∈ ws, Gone m' x.uid) ∧ (∀ x ∈ ss, ∀ y ∈ m'.savedWaves, y.wave.uid ≠ x.wave.uid) ∧
    (again → m'.launchOf w.launch = some { l with replays := l.replays ++ [(w.gang.isSome, unit.map fun x => (x.waveid, x.role, x.dieidx))] } ∧
      Due m' .placementTurn) ∧
    (¬ again → m'.launchOf w.launch = some { l with noSignal := true } ∧ (ss = [] →
      let posted := unit.foldl (fun (x : Dev) v => x.postWave v 0x05 (x.identity v) 0) (m.modLaunch w.launch fun l => { l with noSignal := true })
      m' = ws.foldl (fun (x : Dev) v => x.killWave v.uid) posted))) ∧
  (∀ (s : State) (stack channel port : Nat), Powered s →
    let c := s.dev.cap
    let with_ (c : Capability) : State := { s with pkg := { s.pkg with mgtevt := s.pkg.mgtevt ||| 1#64 },
                                                   dev := { s.dev with cap := c, msix := s.dev.msix ||| (1#65 <<< 64) } }
    (stack < 16 → channel ≤ 32 →
      (c.spares.getLsbD stack = false →
        exec (.hbmChannelRepair stack channel) s = .next (with_ { c with spares := c.spares ||| (1#16 <<< stack), replace := true })) ∧
      (c.spares.getLsbD stack = true → exec (.hbmChannelRepair stack channel) s = exec (.fatalError (8 + stack) 2 channel 0) s)) ∧
    (port < 24 → c.ports.getLsbD port = true →
      (c.half.getLsbD port = false →
        exec (.linkLaneRetire port) s = .next (with_ { c with half := c.half ||| (1#24 <<< port), replace := true })) ∧
      (c.half.getLsbD port = true → Answers (.linkLaneRetire port) s fun s' =>
        (∀ p, p < 24 → (s'.dev.cap.ports.getLsbD p = true ↔ c.ports.getLsbD p = true ∧ p ≠ port) ∧
          (s'.dev.cap.half.getLsbD p = true ↔ c.half.getLsbD p = true ∧ p ≠ port)) ∧
        (∀ r ∈ s.dev.peers, r.port = some port → r.left = true → Due s'.dev (.peerTimeout r.id)) ∧
        ((∀ r ∈ s.dev.peers, r.port ≠ some port) →
          let t := with_ { c with ports := s'.dev.cap.ports, half := s'.dev.cap.half, replace := true }
          (∀ q, s'.port q = if q = port then {} else s.port q) ∧ s' = { t with dev := { t.dev with ports := s'.dev.ports } })))) ∧
  (∀ (s : State) (w : Wave) (reg tang lane : Nat),
    let m := s.dev.stash
    let uid := w.uid
    let with_ (f : Wave → Wave) : State := { s with dev := { m with waves := m.waves.map fun x => if x.uid = uid then f x else x } }
    let reads (n : Nat) (v : DWord) (status : Nat) : Prop := exec (.debugRegisterRead uid n tang lane) s =
      .next (replied (with_ fun x => { x with drowsy := false }) (.debugValue v status))
    m.waveOf uid = some w → Reached s w.ctx →
    exec (.debugHaltRequest uid) s = .next (with_ fun x => { x with halted := true }) ∧
    exec (.debugResume uid) s = .next (with_ fun x => { x with halted := false }) ∧
    (reg < 128 → w.core ≠ 12 → tang ≤ w.tang → lane < w.wlanes → w.inWindow reg = true → w.isDead reg = false →
      reads reg ((w.vget reg tang lane).setWidth 64) 0) ∧
    (reg < 128 → w.core ≠ 12 → tang ≤ w.tang → lane < w.wlanes → w.inWindow reg = true → w.isDead reg = true → reads reg 0 2) ∧
    (reg < 128 → w.inWindow reg = false → reads reg 0 1) ∧
    (∀ r : BitVec 6, reads (128 + r.toNat) (w.sget r) 0) ∧
    (∀ k, 1 ≤ k → k < 8 → reads (192 + k) (if Mask.has (w.kregs.getD k 0) lane = true then 1 else 0) 0) ∧
    (∀ f fs, w.frags = f :: fs → reads 192 (if Mask.has f.mask lane = true then 1 else 0) 0) ∧
    (∀ c : BitVec 3, reads (200 + c.toNat) (if w.cget c = true then 1 else 0) 0) ∧
    (∀ i x, w.xregs[i]? = some x → i < 8 → reads (208 + 4 * i) (BitVec.ofNat 64 x.base.toNat) 0 ∧
      reads (209 + 4 * i) (BitVec.ofNat 64 x.frame.toNat) 0 ∧ reads (210 + 4 * i) (BitVec.ofNat 64 x.limit.toNat) 0 ∧
      reads (211 + 4 * i) (BitVec.ofNat 64 x.attr.toNat) 0) ∧
    (∀ k, k < 16 → reads (0x10000 + k) (w.bank.get (48 + k)) 0) ∧
    reads 0x10010 (if Mask.has w.trap.kf lane = true then 1 else 0) 0 ∧ reads 0x10011 (w.trap.lfaddr.get lane) 0 ∧
    (∀ i j, i < 8 → j < 4 →
      let x := m.acc w.clusterNo i
      let shown := (x.owned = true ∧ x.tag = w.ctx) ∨ LevelIs s .full
      (shown → reads (0x10020 + 4 * i + j) ((x.elems.get lane).extractLsb' (64 * j) 64) 0) ∧
      (¬ shown → reads (0x10020 + 4 * i + j) 0 1)) ∧
    (∀ p, p < 16 →
      let x := m.plate w.clusterNo p
      let shown := (x.owned = true ∧ x.tag = w.ctx) ∨ LevelIs s .full
      (shown → reads (0x10040 + p) (BitVec.ofNat 64 (ofBytes ((List.range 8).map fun b => x.bytes.get (8 * lane + b)))) 0) ∧
      (¬ shown → reads (0x10040 + p) 0 1))) ∧
  (∀ (s : State) (uid reg tang lane ctx : Nat) (a : HostAccess),
    let m := s.dev.stash
    ((∀ w, m.waveOf uid = some w → ¬ Reached s w.ctx) → exec (.debugHaltRequest uid) s = .next s ∧
      exec (.debugResume uid) s = .next s ∧
      (reg < 0x20000 → exec (.debugRegisterRead uid reg tang lane) s = .next (replied s .error))) ∧
    (∀ d v, Powered s → LevelIs s .full → d < 25 → s.pkg.syn[d]? = some v →
      exec (.debugRegisterRead uid (0x20000 + d) tang lane) s = .next (replied s (.debugValue v 0))) ∧
    (let i : Instr := .debugMemoryAccess ctx a
     let window := Powered s ∧ LevelIs s .full ∧ (s.pkg.stat = .fatal ∨ s.pkg.stat = .salvage) ∧ s.pkg.hubFailed = false ∧
       a.addr + a.size ≤ Config.memoryBytes
     let table := s.dev.host.biasbase
     let answer (bs : List Byte) (poison : Bool) : Prop :=
       exec i s = .next (replied { s with dev := m } (.data (if poison = true then [] else bs) poison))
     let leaves (P : Dev → Prop) : Prop := Answers i s fun s' => s' = { s with dev := s'.dev } ∧ P s'.dev
     let full := Reached s ctx ∧ LevelIs s .full
     (¬ Reached s ctx → ¬ window → exec i s = .next (replied s .error)) ∧
     (window → a.size ≠ 0 → (a.write = true → exec i s = .next s) ∧ (a.write = false → Salvaged i s a.addr a.size)) ∧
     (full → Within a.addr a.size →
       (a.write = true → a.data.length = a.size → Apart a.addr a.size table (2 ^ 24) → leaves fun m' => StoredHome m m' a.addr a.data) ∧
       (a.write = true → table + 2 ^ 24 ≤ Config.memoryBytes → leaves fun m' =>
         ∀ pa, table ≤ pa → pa < table + 2 ^ 24 → m'.byteAt (.dev pa) = s.dev.byteAt (.dev pa)) ∧
       (a.write = false → answer (homeBytes s.dev a.addr a.size) (homePoison s.dev a.addr a.size))) ∧
     (∀ k o, full → a.addr = 2 ^ 40 + 2 ^ 20 * k + o → k < 1664 → a.size ≠ 0 → o + a.size ≤ 2 ^ 20 →
       (a.write = true → a.data.length = a.size → leaves fun m' => StoredAt m m' (.arr k o) a.data) ∧
       (a.write = false → answer (s.dev.bytesAt (.arr k o) a.size) (s.dev.anyPoison (.arr k o) a.size))) ∧
     (∀ k g o, full → a.addr = 2 ^ 40 + 2 ^ 32 + 2 ^ 18 * k + 2 ^ 14 * g + o → k < 1664 → g < 12 → a.size ≠ 0 → o + a.size ≤ 2 ^ 14 →
       let code (m : Dev) : Cells 8 := ((m.core k).segs.getD g {}).code
       (a.write = true → a.data.length = a.size → leaves fun m' => SameMemory s.dev m' ∧ (∀ i b, a.data[i]? = some b → (code m').get (o + i) = b) ∧
         ∀ i, (i < o ∨ o + a.size ≤ i) → (code m').get i = (code s.dev).get i) ∧
       (a.write = false → exec i s = .next (replied s (.data ((List.range a.size).map fun i => (code s.dev).get (o + i)) false)))) ∧
     (∀ ss, Reached s ctx → a.size ≠ 0 → LevelIs s .app → a.addr + a.size ≤ 2 ^ 49 →
       s.dev.engineSpans ctx a.addr a.size (!a.write) a.write = .ok ss →
       (a.write = true → exec i s = .next { s with dev := m.writeSpans ss (clean (a.data.take a.size)) }) ∧
       (a.write = false → answer (m.readSpans ss) (decide (true ∈ m.poisonSpans ss))))))

namespace Sys2Proof.Claims

/-- Port `p` is in service in a package that runs (R32, R118). -/
def Serves (s : State) (p : Nat) : Prop :=
  s.pkg.stat = .running ∧ Powered s ∧ p < 24 ∧ s.dev.cap.ports.getLsbD p = true

/-- Both directions of a port have a key (R100). -/
def Keyed (p : Port) : Prop :=
  (if p.send.epoch = true then p.send.slot1 else p.send.slot0) ≠ none ∧ (p.recv.slot0 ≠ none ∨ p.recv.slot1 ≠ none)

/-- The key of the receiver's slot for an epoch. -/
def slotFor (r : RecvDir) (epoch : Bool) : Option Nat := if epoch = true then r.slot1 else r.slot0

/-- The key under which a sender's new flits go. -/
def sendKey (x : SendDir) : Option Nat := if x.epoch = true then x.slot1 else x.slot0

/-- Number `q` is not after `a`, modulo 2^12. -/
def notAfter (q a : BitVec 12) : Bool := decide ((a - q).toNat < 2048)

/-- The old-epoch flits of a sender are all acknowledged (R62 step 3). -/
def OldGone (x : SendDir) : Prop := ∀ b ∈ x.buffer, b.epoch = x.epoch

/-- A message of a rollover (R62). -/
def ofRollover (l : FlitLoad) : Bool := decide (l = .keyReady ∨ l = .keyRetire ∨ l = .keyDone)

/-- Nothing can be sent now: there is no key, 512 flits await their acknowledgement, or new flits are held (R59, R61, R100). -/
def stays (x : SendDir) (l : FlitLoad) : Bool :=
  decide (sendKey x = none ∨ 512 ≤ x.buffer.length) || (x.hold && !ofRollover l)

/-- A sender after one more flit: it has the next sequence number and counter value, the epoch and its key; at 2^40 flits new flits
are held (R59, R61). -/
def flitSent (ack : BitVec 12) (x : SendDir) (l : FlitLoad) : SendDir :=
  if stays x l then { x with waiting := x.waiting ++ [l] } else
  { x with
    buffer := x.buffer ++
      [{ seqNo := x.nextSeq, epoch := x.epoch, ackNo := ack, key := (sendKey x).getD 0, counter := x.counter, load := l }]
    nextSeq := x.nextSeq + 1, counter := x.counter + 1, hold := x.hold || decide (2 ^ 40 ≤ x.counter + 1) }

/-- A port that carries traffic has sent, in order, what it had to send; the flits acknowledge the last one that was taken. -/
def carried (x : Port) : Port :=
  if x.up = true then
    { x with send := x.send.waiting.foldl (flitSent (x.recv.expected - 1)) { x.send with waiting := [] } }
  else x

/-- A port to which something more to be sent was given. -/
def given (x : Port) (l : FlitLoad) : Port :=
  carried { x with send := { x.send with waiting := x.send.waiting ++ [l] } }

/-- Port `port` is `x` and every other port is as it was. -/
def PortSet (s s' : State) (port : Nat) (x : Port) : Prop := ∀ q, s'.port q = if q = port then x else s.port q

/-- Nothing but port `port` has changed, and it is `x`. -/
def PortOnly (s : State) (port : Nat) (x : Port) (s' : State) : Prop :=
  PortSet s s' port x ∧ s' = { s with dev := { s.dev with ports := s'.dev.ports } }

/-- The machine is as it was but for port `port`, which is `x`, for the requests that have left with it (R74) and for events
that are due: a rollover at 2^39 flits (R64), the drain of the old epoch, time-outs. -/
def PortIs (s s' : State) (port : Nat) (x : Port) : Prop :=
  PortSet s s' port x ∧
  s' = { s with dev := { s.dev with ports := s'.dev.ports, peers := s'.dev.peers, agenda := s'.dev.agenda } } ∧
  s'.dev.peers = (s.dev.peers.map fun (r : PeerOut) =>
    { r with left := r.left || (x.up && x.send.buffer.any fun b => decide (b.load = .request r.id)) }) ∧
  (∀ i, Due s.dev i → Due s'.dev i) ∧
  (∀ i, Due s'.dev i → Due s.dev i ∨ i = .rolloverCountReached port ∨ i = .oldEpochDrained port ∨ ∃ id, i = .peerTimeout id) ∧
  (x.up = true → x.send.roll = .idle → 2 ^ 39 ≤ x.send.counter → Due s'.dev (.rolloverCountReached port))

/-- This package may agree a key with a peer whose share a test key signs or not (R100, R101). -/
def MayAgree (s : State) (test : Bool) : Prop := HoldsKey s.sec ∧ (test = true → s.sec.life = .manufacture)

/-- A port that has stopped and retrains, with a management alert (R60, R64). -/
def Stopped (s s' : State) (port : Nat) (x : Port) : Prop :=
  Alerted s s' 4 ∧ PortSet s s' port x ∧
  s' = { s with pkg := { s.pkg with mgtevt := s'.pkg.mgtevt }, dev := { s.dev with ports := s'.dev.ports, msix := s'.dev.msix } }

/-- The bytes of a flit (R58): its header, and 216 bytes of payload, 16 of tag and 16 of parity that its key and its nonce
determine; the nonce is the port number, the direction and the counter (R61). -/
def FlitBytes (port : Nat) (f : SentFlit) (bs : List Byte) : Prop :=
  let nonce := port * 2 ^ 65 + 2 ^ 64 + f.counter
  let head := ofBytes (bs.take 8)
  bs.length = 256 ∧ fld head 59 59 = (if f.epoch = true then 1 else 0) ∧ fld head 58 47 = f.seqNo.toNat ∧
  fld head 46 35 = f.ackNo.toNat ∧ fld head 19 0 = 0 ∧
  bs.drop 8 = (List.range 216).map (Config.flitCipher f.key nonce) ++ (List.range 16).map (Config.flitTag f.key nonce) ++
    (List.range 16).map (Config.flitFec f.key nonce)

end Sys2Proof.Claims

/-- R58-R64, R100, R101: flits, replay and retraining of a port, key agreement, and the steps of a rollover with its
time-outs.
The model's own choices that this rests on: log 38, log 39, log 71, log 73. -/
def Obligations.PortsCarryFlitsAndRollKeysOver : Prop :=
  (∀ (s : State) (port : Nat) (f : Flit) (q : BitVec 12) (soon : Bool),
    let p := s.port port
    let good := f.correctable = true ∧ slotFor p.recv f.epoch = some f.key
    let taken : Port := { p with
      recv := if f.seqNo = p.recv.expected then
          { p.recv with expected := f.seqNo + 1, epoch := f.epoch, asked := p.recv.asked.erase f.seqNo } else p.recv
      send := { p.send with buffer := p.send.buffer.filter fun b => !notAfter b.seqNo f.ackNo } }
    Serves s port →
    (p.up = true → good → Answers (.flitReceive port f) s fun s' =>
      PortIs s s' port (carried taken) ∧
      (p.send.roll = .draining → OldGone (carried taken).send → Due s'.dev (.oldEpochDrained port))) ∧
    (p.up = true → ¬ good → f.seqNo ∉ p.recv.asked → Answers (.flitReceive port f) s fun s' =>
      PortSet s s' port { p with recv := { p.recv with asked := p.recv.asked ++ [f.seqNo] } } ∧
      s' = replied { s with dev := { s.dev with ports := s'.dev.ports } } (.replay port f.seqNo)) ∧
    (p.up = true → ¬ good → f.seqNo ∈ p.recv.asked → Answers (.flitReceive port f) s fun s' =>
      Stopped s s' port { p with up := false, training := true }) ∧
    (p.up = true → Answers (.replayRequest port q) s fun s' =>
      let again := p.send.buffer.filter fun b => notAfter q b.seqNo
      ∃ bss : List (List Byte), s' = replied s (.resent port bss) ∧ bss.length = again.length ∧
        ∀ (i : Nat) (b : SentFlit), again[i]? = some b → ∃ bs, bss[i]? = some bs ∧ FlitBytes port b bs) ∧
    (p.training = true → Answers (.portRetrainDone port soon) s fun s' =>
      (Keyed p ↔ (s'.port port).up = true) ∧
      PortIs s s' port (carried { p with training := false, up := (s'.port port).up, recv := { p.recv with asked := [] } }) ∧
      (soon = true → ∀ id, Due s'.dev (.peerTimeout id) → Due s.dev (.peerTimeout id)) ∧
      (soon = false → ∀ x ∈ s.dev.peers, x.left = true → x.port = some port → Due s'.dev (.peerTimeout x.id)))) ∧
  (∀ (s : State) (port : Nat) (test : Bool),
    let p := s.port port
    let sends (x : SendDir) : Port := { p with send := x }
    let agreed (x : Port) (s' : State) : Prop :=
      (Keyed x ↔ (s'.port port).up = true) ∧ PortIs s s' port (carried { x with up := (s'.port port).up })
    let ready (x : Port) (s' : State) : Prop :=
      (Keyed x ↔ (s'.port port).up = true) ∧ PortIs s s' port (given (carried { x with up := (s'.port port).up }) .keyReady)
    let k := p.agreed
    Serves s port →
    (p.up = true → p.send.roll = .idle →
      Answers (.rolloverCountReached port) s
        (PortOnly s port (sends { p.send with roll := .agreeing, counter := max p.send.counter (2 ^ 39) })) ∧
      Answers (.rolloverTimerExpired port) s (PortOnly s port (sends { p.send with roll := .agreeing }))) ∧
    (p.send.roll ≠ .idle → exec (.rolloverCountReached port) s = .next s ∧ exec (.rolloverTimerExpired port) s = .next s) ∧
    (¬ MayAgree s test → exec (.keyAgreementComplete port true test) s = .next s ∧ exec (.keyAgreementComplete port false test) s = .next s) ∧
    (MayAgree s test → p.training = false →
      (p.send.slot0 = none → p.send.slot1 = none → Answers (.keyAgreementComplete port true test) s
        (agreed { p with agreed := k + 1
                         send := { p.send with slot0 := some k, epoch := false, counter := 0, hold := false, roll := .idle } })) ∧
      (p.send.slot0 ≠ none ∨ p.send.slot1 ≠ none → p.send.roll = .agreeing → Answers (.keyAgreementComplete port true test) s
        (agreed { p with agreed := k + 1, send := if p.send.epoch = true then { p.send with slot0 := some k, roll := .awaitReady }
                                                  else { p.send with slot1 := some k, roll := .awaitReady } })) ∧
      (p.recv.slot0 = none → p.recv.slot1 = none → p.recv.rolling = false → Answers (.keyAgreementComplete port false test) s
        (agreed { p with agreed := k + 1, recv := { p.recv with slot0 := some k } })) ∧
      (p.recv.slot0 ≠ none → p.recv.slot1 = none → Answers (.keyAgreementComplete port false test) s
        (ready { p with agreed := k + 1, recv := { p.recv with slot1 := some k, rolling := true } })) ∧
      (p.recv.slot0 = none → p.recv.slot1 ≠ none → Answers (.keyAgreementComplete port false test) s
        (ready { p with agreed := k + 1, recv := { p.recv with slot0 := some k, rolling := true } })) ∧
      (p.recv.slot0 ≠ none → p.recv.slot1 ≠ none → Answers (.keyAgreementComplete port false test) s
        (ready { p with agreed := k + 1
                        recv := if p.recv.epoch = true then { p.recv with slot0 := some k, rolling := true }
                                else { p.recv with slot1 := some k, rolling := true } }))) ∧
    (p.send.roll = .awaitReady → Answers (.keyReady port) s fun s' =>
      let x := carried (sends { p.send with epoch := !p.send.epoch, counter := 0, roll := .draining })
      PortIs s s' port x ∧ (OldGone x.send → Due s'.dev (.oldEpochDrained port))) ∧
    (p.send.roll = .draining → OldGone p.send → Answers (.oldEpochDrained port) s fun s' =>
      PortIs s s' port (given (sends { p.send with roll := .awaitDone }) .keyRetire)) ∧
    (p.send.roll = .draining → ¬ OldGone p.send → exec (.oldEpochDrained port) s = .next s) ∧
    (∀ a b, p.recv.slot0 = some a → p.recv.slot1 = some b → p.recv.rolling = true → Answers (.keyRetire port) s fun s' =>
      PortIs s s' port (given { p with recv := if b < a then { p.recv with slot1 := none, rolling := false }
                                               else { p.recv with slot0 := none, rolling := false } } .keyDone)) ∧
    (p.send.roll = .awaitDone → Answers (.keyDone port) s fun s' => PortIs s s' port (carried (sends (
      if p.send.epoch = true then { p.send with slot0 := none, roll := .idle, failures := 0, hold := false }
      else { p.send with slot1 := none, roll := .idle, failures := 0, hold := false })))) ∧
    (∀ i, (i = .keyReadyTimeout port ∧ p.send.roll = .awaitReady) ∨ (i = .keyDoneTimeout port ∧ p.send.roll = .awaitDone) →
      (p.send.failures + 1 < 3 → Answers i s
        (PortOnly s port (sends { p.send with failures := p.send.failures + 1, roll := .agreeing }))) ∧
      (3 ≤ p.send.failures + 1 → Answers i s fun s' => ∃ loads : List FlitLoad, Stopped s s' port
        { up := false, training := true, send := { waiting := loads }, recv := {}, agreed := k } ∧
        (∀ l ∈ loads, ofRollover l = false) ∧
        ∀ l, ofRollover l = false → (l ∈ loads ↔ (∃ b ∈ p.send.buffer, b.load = l) ∨ l ∈ p.send.waiting))))

namespace Sys2Proof.Claims

/-- The kind of an inbound request: its PERM bit, and the rights that it needs. -/
def kindBit (k : PeerKind) : Nat := match k with | .load => 0 | .store _ => 1 | .atomic _ _ _ => 2
def kindReads (k : PeerKind) : Bool := match k with | .store _ => false | _ => true
def kindWrites (k : PeerKind) : Bool := match k with | .load => false | _ => true

/-- The places of an inbound request in the context of its import entry (R69). -/
def peerSpans (m : Dev) (r : PeerReq) : Except Cause (List Span) :=
  m.engineSpans (fld (m.impDword r.impidx 3) 59 54) (fld (m.impDword r.impidx 0) 48 16 * 2 ^ 16 + r.offset) r.size
    (kindReads r.kind) (kindWrites r.kind)

/-- The checks of R70 in their order: check `i` passes; code `i + 1` names it. -/
def peerCheck (m : Dev) (r : PeerReq) (i : Nat) : Prop :=
  let d := m.impDword r.impidx
  match i with
  | 0 => (d 3).testBit 63 = true ∧ fld (d 3) 25 0 = 0 ∧ fld (d 2) 63 35 = 0 ∧ fld (d 1) 63 0 = 0 ∧ fld (d 0) 63 49 = 0 ∧ fld (d 0) 15 0 = 0
  | 1 => fld (d 3) 39 26 ≤ r.source ∧ r.source ≤ fld (d 3) 53 40
  | 2 => r.offset + r.size ≤ fld (d 2) 34 0
  | 3 => (fld (d 3) 62 60).testBit (kindBit r.kind) = true
  | 4 => m.ctxValid (fld (d 3) 59 54) = true
  | 5 => ∃ ss, peerSpans m r = .ok ss
  | _ => kindReads r.kind = true → ∀ ss, peerSpans m r = .ok ss → true ∉ m.poisonSpans ss

/-- Is it the result for register `n` of the wave's window that the lookahead window `hold` holds (R183, R192)? -/
def HoldsFor (w : Wave) (n hold : Nat) (h : Held) : Prop := h.scalar = false ∧ h.reg = w.peerReg n ∧ h.hold = hold

/-- The window `hold` that a lookahead distance opened holds no result for register `n` of a wave (R192). -/
def InPlace (w : Wave) (n hold : Nat) : Prop := n < 128 ∧ ∀ f ∈ w.frags, ∀ h ∈ f.held, ¬ HoldsFor w n hold h

/-- The result for register `n` of a wave is held in the window `hold` of a lookahead distance (R192). -/
def HeldIn (w : Wave) (n hold : Nat) : Prop := n < 128 ∧ ∃ f ∈ w.frags, ∃ h ∈ f.held, HoldsFor w n hold h

/-- A request has left a port that carries traffic, so that it may be answered (R60, R74, R100). -/
def Answerable (s : State) (p : PeerOut) : Prop := p.left = true ∧ ∃ x, p.port = some x ∧ (s.port x).up = true

/-- A wave after one more word came for register `n`: it has the value in its lane, `plain` words make its tangents zero, and
every other word is as it was. -/
def WordCame (w w' : Wave) (n tang lane : Nat) (plain : Bool) (v : Word) : Prop :=
  w'.isDead n = false ∧ w'.vget n tang lane = v ∧
  ∀ t, t < 4 → t ≠ tang → w'.vget n t lane = if plain = true then 0 else w.vget n t lane

/-- An error in `ASYNCERR` (R74, R75): the first is recorded with its address, later ones are counted. -/
def ErrorNoted (w w' : Wave) (cause code : Nat) (addr : DWord) : Prop :=
  (w.asyncerr.getLsbD 63 = false → w'.asyncAddr = addr ∧ w'.asyncerr.getLsbD 63 = true ∧ fld w'.asyncerr.toNat 62 56 = 0 ∧
    fld w'.asyncerr.toNat 55 48 = cause ∧ fld w'.asyncerr.toNat 47 44 = code ∧ fld w'.asyncerr.toNat 43 30 = fld addr.toNat 55 42 ∧
    fld w'.asyncerr.toNat 29 22 = fld addr.toNat 41 34) ∧
  (w.asyncerr.getLsbD 63 = true → w'.asyncAddr = w.asyncAddr ∧ w'.asyncerr.getLsbD 63 = true ∧
    fld w'.asyncerr.toNat 62 56 = min 127 (fld w.asyncerr.toNat 62 56 + 1) ∧ fld w'.asyncerr.toNat 55 0 = fld w.asyncerr.toNat 55 0)

end Sys2Proof.Claims

/-- R69, R70, R72-R75, R192: an inbound request is answered by the first check of R70 that fails, which `PEERERR` records when it
holds nothing, or performed; an answer or a time-out of an outbound request reaches the register words, `ASYNCERR` or the
command that it was made for.
The model's own choices that this rests on: log 38, log 40, log 74. -/
def Obligations.PeerRequestsAndAnswers : Prop :=
  (∀ (s : State) (r : PeerReq),
    let m := s.dev.stash
    ((s.port r.port).up = false → exec (.peerRequest r) s = .next s) ∧
    (Serves s r.port → (s.port r.port).up = true →
    (∀ i, i ≤ 6 → (∀ j, j < i → peerCheck m r j) → ¬ peerCheck m r i → Answers (.peerRequest r) s fun s' =>
      s'.pkg = { s.pkg with peererr := s'.pkg.peererr, mgtevt := s.pkg.mgtevt ||| (1#64 <<< 3), reply := .peerNack (i + 1) } ∧
      s'.dev.msix = s.dev.msix ||| (1#65 <<< 64) ∧ SameMemory s.dev s'.dev ∧
      s'.port r.port = given (s.port r.port) (.answer (i + 1) []) ∧
      (s.pkg.peererr.getLsbD 63 = true → s'.pkg.peererr = s.pkg.peererr) ∧
      (s.pkg.peererr.getLsbD 63 = false → r.source < 2 ^ 14 → r.impidx < 256 → r.offset < 2 ^ 34 →
        s'.pkg.peererr = BitVec.ofNat 64 (2 ^ 63 + (i + 1) * 2 ^ 59 + r.source * 2 ^ 45 + r.impidx * 2 ^ 37 + r.offset))) ∧
    (∀ ss, (∀ j, j ≤ 6 → peerCheck m r j) → peerSpans m r = .ok ss →
      (r.kind = .load → Answers (.peerRequest r) s fun s' =>
        s'.pkg = { s.pkg with reply := .peerDone (m.readSpans ss) } ∧ SameMemory s.dev s'.dev ∧
        s'.port r.port = given (s.port r.port) (.answer 0 (m.readSpans ss))) ∧
      (∀ bs l, r.kind = .store bs → bs.length = r.size → ss = [{ loc := l, len := r.size }] → Exists l r.size →
        Answers (.peerRequest r) s fun s' => s'.pkg = { s.pkg with reply := .peerDone [] } ∧
          StoredAt s.dev s'.dev l (bs.map fun b => b.1) ∧ s'.port r.port = given (s.port r.port) (.answer 0 []) ∧
          ∀ pa i b, l = .dev pa → bs[i]? = some (b, true) → s'.dev.poisonAt (.dev (pa + i)) = true) ∧
      (∀ fn b c l, r.kind = .atomic fn b c → fn ≤ 11 → ss = [{ loc := l, len := r.size }] → Exists l r.size →
        let old := ofBytes (m.bytesAt l r.size)
        (r.size = 4 → Answers (.peerRequest r) s fun s' => s'.pkg = { s.pkg with reply := .peerDone (m.bytesAt l 4) } ∧
          StoredAt s.dev s'.dev l (leBytes 4 (atomValue fn (BitVec.ofNat 32 old) (b.setWidth 32) (c.setWidth 32)).toNat)) ∧
        (r.size = 8 → fn ≠ 1 → fn ≠ 6 → Answers (.peerRequest r) s fun s' => s'.pkg = { s.pkg with reply := .peerDone (m.bytesAt l 8) } ∧
          StoredAt s.dev s'.dev l (leBytes 8 (atomValue fn (BitVec.ofNat 64 old) b c).toNat)))))) ∧
  (∀ (s : State) (p : PeerOut) (code n hold tang lane : Nat) (data : List Byte) (i : Instr) (c : Nat) (w : Wave) (plain : Bool),
    let m := s.dev.stash
    let rest := m.peers.filter fun x => decide (x.id ≠ p.id)
    let late (n : Nat) : Option Late := some { name := w.peerReg n, hold }
    m.peers.find? (fun x => x.id = p.id) = some p → p.wave ≠ 0 → m.waveOf p.wave = some w →
    i = .peerResponse p.id code data ∧ Answerable s p ∧ c = (if code = 7 then 0x16 else 0x14) ∨
      i = .peerTimeout p.id ∧ p.left = true ∧ c = 0x15 ∧ code = 0 →
    let ok := i = .peerResponse p.id 0 data
    let v := if i = .peerResponse p.id 0 data then ofBytes data else 0
    (p.what = .load (late n) (late (n + 1)) tang lane plain → InPlace w n hold → InPlace w (n + 1) hold →
      tang < 4 → lane < 1024 →
      Runs i s fun m' => m'.peers = rest ∧ SameMemory m m' ∧ ∃ w', m'.waveOf p.wave = some w' ∧
        WordCame w w' n tang lane plain (BitVec.ofNat 32 v) ∧
        WordCame w w' (n + 1) tang lane plain (BitVec.ofNat 32 (v / 2 ^ 32)) ∧
        (¬ ok → ∀ r, r = n ∨ r = n + 1 → ∃ k ∈ w'.marksOf r (Mask.put 0 lane true), k.tang = tang ∧ k.err = p.err ∧
          k.addr = p.addr ∧ causeCode k.cause = c)) ∧
    (p.what = .load (late n) none tang lane plain → HeldIn w n hold →
      Runs i s fun m' => m'.peers = rest ∧ SameMemory m m' ∧ ∃ w', m'.waveOf p.wave = some w' ∧
        (∀ r t l, w'.vget r t l = w.vget r t l) ∧
        ∀ f ∈ w'.frags, ∀ h ∈ f.held, HoldsFor w n hold h →
          h.vals.get (4 * lane + tang) = BitVec.ofNat 32 v ∧ (lane < 1024 → Mask.has h.lanes lane = true) ∧
          (¬ ok → ∃ k ∈ h.marks, k.lane = lane ∧ k.tang = tang ∧ k.err = p.err ∧ k.addr = p.addr ∧ causeCode k.cause = c)) ∧
    (p.what = .load (late n) none tang lane plain → InPlace w n hold → tang < 4 → lane < 1024 →
      Runs i s fun m' => m'.peers = rest ∧ SameMemory m m' ∧ ∃ w', m'.waveOf p.wave = some w' ∧
        WordCame w w' n tang lane plain (BitVec.ofNat 32 v) ∧
        (∀ r t l, r < 128 → t < 4 → l < 1024 → r ≠ n ∨ l ≠ lane → w'.vget r t l = w.vget r t l) ∧
        (ok → ∀ k ∈ w'.marksOf n (Mask.put 0 lane true), k.tang ≠ tang) ∧
        (¬ ok → ∃ k ∈ w'.marksOf n (Mask.put 0 lane true), k.tang = tang ∧ k.err = p.err ∧ k.addr = p.addr ∧
          causeCode k.cause = c)) ∧
    (p.what = .store → ok → Runs i s fun m' => m' = { m with peers := rest }) ∧
    (p.what = .store → ¬ ok → code < 16 → Runs i s fun m' => m'.peers = rest ∧ SameMemory m m' ∧
      ∃ w', m'.waveOf p.wave = some w' ∧ ErrorNoted w w' c code p.addr) ∧
    (∀ id, p.what = .cmd id → (∀ x ∈ rest, x.what ≠ .cmd id) → Runs i s fun m' => m'.peers = rest ∧ Due m' (.peerTransferComplete id)) ∧
    (∀ id put loc remote len se st sa an err (cmd : Cmd), p.what = .cmd id → ¬ ok → code < 16 →
      m.cmds.find? (fun x => x.id = id) = some cmd → cmd.body = .peer put loc remote len se st sa false an err → Runs i s fun m' =>
      SameMemory m m' ∧ (∃ x ∈ m'.cmds, x.id = id ∧ x.body = .peer put loc remote len se st sa true an err) ∧
      ∃ w', m'.waveOf p.wave = some w' ∧ ErrorNoted w w' c code p.addr) ∧
    (∀ id l remote len se st sa failed an err (cmd : Cmd), p.what = .cmd id → ok → m.cmds.find? (fun x => x.id = id) = some cmd →
      cmd.body = .peer false [{ loc := l, len }] remote len se st sa failed an err → Exists l len → data.length = p.size →
      remote ≤ p.addr.toNat → p.addr.toNat + p.size ≤ remote + len → 0 < p.size →
      let at_ := l.add (p.addr.toNat - remote)
      Runs i s fun m' => (MayTouch m cmd.ctx at_ p.size → StoredAt m m' at_ data) ∧
        ∃ x ∈ m'.cmds, x.id = id ∧ ∃ e, x.body = .peer false [{ loc := l, len }] remote len se st sa failed an e ∧
          (e = true ↔ err = true ∨ ¬ MayTouch m cmd.ctx at_ p.size))) ∧
  (∀ (s : State) (id code : Nat) (data : List Byte),
    ((∀ x ∈ s.dev.peers, x.id = id → ¬ Answerable s x) → exec (.peerResponse id code data) s = .next s) ∧
    ((∀ x ∈ s.dev.peers, x.id = id → x.left = false) → exec (.peerTimeout id) s = .next s))

/-! ## Launches, placement, saving -/

namespace Sys2Proof.Claims

/-- An entry of the error queue as a 256-bit number (R96). -/
def entryOf (code ctx lq seq deta detb dropped : Nat) : Nat :=
  code * 2 ^ 248 + ctx * 2 ^ 242 + lq * 2 ^ 236 + seq % 2 ^ 32 * 2 ^ 192 + deta % 2 ^ 64 * 2 ^ 128 + detb % 2 ^ 64 * 2 ^ 64 + dropped

/-- An entry is lost (R92, R97): it is counted for the next one, and a management event is raised. -/
def EntryLost (m m' : Dev) (ctx : Nat) : Prop :=
  SameMemory m m' ∧ KMap.get 0 m'.dropped ctx = min (2 ^ 32 - 1) (KMap.get 0 m.dropped ctx + 1) ∧
  m'.events = m.events ||| (1#64 <<< 5) ∧ m'.msix = m.msix ||| (1#65 <<< 64)

/-- The launch engine is at work (R105, R111). -/
def Launching (s : State) : Prop :=
  s.pkg.stat = .running ∧ Powered s ∧ s.sec.life ≠ .decommissioned ∧ s.sec.burning = none

/-- The queue's entry, tail word and head word as a service finds them (R90, R92). -/
def QueueWords (m : Dev) (q : Nat) (x : LQ) (hl tl : Loc) (h t : Nat) : Prop :=
  q < 64 ∧ x = m.lq q ∧ x.serves = true ∧ m.ctxValid x.ctx = true ∧ m.engineLoc x.ctx x.tail 8 true false = .ok tl ∧
  m.engineLoc x.ctx x.head 8 true true = .ok hl ∧ ofBytes (m.bytesAt tl 8) = t ∧ ofBytes (m.bytesAt hl 8) = h

/-- The launch of record `c` of a queue before its checks. -/
def recordAt (m : Dev) (q : Nat) (x : LQ) (c : Nat) (ss : List Span) : Launch :=
  { num := m.nextLaunch, queue := q, count := c, ctx := x.ctx, record := dwordsOf (m.readSpans ss) }

/-- A wave counter reads at most 0 (R125, R126). -/
def AtMostZero (m : Dev) (l : Loc) : Prop := (BitVec.ofNat 32 (ofBytes (m.bytesAt l 4))).toInt ≤ 0

/-- Bytes of a context's memory as the launch engine reads them: they translate, and none is poisoned (R92). -/
def EngineReads (m : Dev) (ctx va n : Nat) (bs : List Byte) : Prop :=
  ∃ ss, m.engineSpans ctx va n true false = .ok ss ∧ true ∉ m.poisonSpans ss ∧ bs = m.readSpans ss

/-- Word `j` of record `i` of a galley (R141). -/
def trecWord (bs : List Byte) (i j : Nat) : Word := BitVec.ofNat 32 (ofBytes ((bs.drop (16 * i + 4 * j)).take 4))

/-- The ROWS field of a record. -/
def trecRows (bs : List Byte) (i : Nat) : Nat := (trecWord bs i 2).toNat % 2 ^ 16

/-- The galley of a launch keeps R141 and R142, and `g` are the words of its records that are not skipped (R143). -/
def GalleyIs (m : Dev) (l : Launch) (g : List (List Word)) : Prop :=
  ∃ h, EngineReads m l.ctx (l.r 3) 16 h ∧ dwordOf h 0 ≤ 2 ^ 24 ∧ dwordOf h 1 = 0 ∧
    ((dwordOf h 0 = 0 ∧ g = []) ∨ (dwordOf h 0 ≠ 0 ∧ ∃ bs, EngineReads m l.ctx (l.r 3 + 16) (16 * dwordOf h 0) bs ∧
      (∀ i, i < dwordOf h 0 → trecRows bs i ≤ 32) ∧
      g = ((List.range (dwordOf h 0)).filter fun i => decide (trecRows bs i ≠ 0)).map fun i => (List.range 4).map (trecWord bs i)))

/-- A wave before its first instruction (R161), placement apart. -/
def Initial (w : Wave) (spc : Nat) (mask : Mask) : Prop :=
  (∀ c, w.cget c = decide (c = 0)) ∧ (∀ r t l, w.vget r t l = 0) ∧ (∀ r, r < 128 → w.isDead r = false) ∧
  (∀ k, 1 ≤ k → k < 8 → w.kregs.getD k 0 = 0) ∧ w.xregs = List.replicate 8 {} ∧ w.stack = [] ∧ w.splits = [] ∧ w.rooms = [] ∧
  w.monitor = none ∧ w.wavectl = 0 ∧ w.asyncerr = 0 ∧ w.batchNum = 0 ∧ w.openBatch = [] ∧ w.closed = [] ∧ w.super = false ∧
  w.everirr = false ∧ w.gang = none ∧ w.oltag = 0 ∧
  ∃ f, w.frags = [f] ∧ f.spc = spc ∧ f.mask = mask ∧ f.lpc = 0 ∧ f.lrem = 0 ∧ f.dualK = 0 ∧ f.dualRem = 0 ∧ f.fmt = {} ∧ f.wait = .none

/-- The context has left the device (R369 steps 1 and 2). -/
def ContextGone (m' : Dev) (ctx : Nat) : Prop :=
  (∀ w ∈ m'.allWaves, w.ctx ≠ ctx) ∧ (∀ l ∈ m'.launches, l.ctx ≠ ctx) ∧ (∀ x ∈ m'.savedWaves, x.wave.ctx ≠ ctx) ∧
  ∀ c ∈ m'.cmds, c.ctx ≠ ctx

end Sys2Proof.Claims

/-- R87, R90-R97, R123-R128, R141-R143, R359, R369: entries of an error queue; a service of a launch queue that finds
nothing, a good record, a bad record or a bad count; counters that make a launch READY, one with a galley too; the end of a
grid with its signal; the end of a context by the host.
The model's own choices that this rests on: log 28, log 77, log 81, log 93. -/
def Obligations.LaunchesAreTakenAndEnd : Prop :=
  (∀ (m : Dev) (ctx code lq seq deta detb head tail : Nat) (hl tl l : Loc),
    let e := m.ctxDword ctx 0x30
    let n := fld e 63 60
    let m' := m.post ctx code lq seq deta detb
    (n = 0 → EntryLost m m' ctx) ∧
    (n ≠ 0 → m.engineLoc ctx (fld (m.ctxDword ctx 0x38) 48 0) 8 true false = .ok hl →
      m.engineLoc ctx (fld (m.ctxDword ctx 0x40) 48 0) 8 true true = .ok tl →
      ofBytes (m.bytesAt hl 8) = head → ofBytes (m.bytesAt tl 8) = tail →
      ((tail + 2 ^ 64 - head) % 2 ^ 64 = 2 ^ n → EntryLost m m' ctx) ∧
      ((tail + 2 ^ 64 - head) % 2 ^ 64 ≠ 2 ^ n → ctx < 64 → KMap.get 0 m.dropped ctx < 2 ^ 32 →
        m.engineLoc ctx (fld e 48 0 + 32 * (tail % 2 ^ n)) 32 false true = .ok l → Exists l 32 → Exists tl 8 →
        (∀ i j, i < 32 → j < 8 → l.add i ≠ tl.add j) →
        (∀ i b, (leBytes 32 (entryOf code ctx lq seq deta detb (KMap.get 0 m.dropped ctx)))[i]? = some b → m'.byteAt (l.add i) = b) ∧
        (∀ i b, (leBytes 8 ((tail + 1) % 2 ^ 64))[i]? = some b → m'.byteAt (tl.add i) = b) ∧
        (∀ x, (∀ i, i < 32 → x ≠ l.add i) → (∀ i, i < 8 → x ≠ tl.add i) → m'.byteAt x = m.byteAt x) ∧
        m'.msix = m.msix ||| (1#65 <<< ctx) ∧ KMap.get 0 m'.dropped ctx = 0))) ∧
  (∀ (s : State) (q h t : Nat) (x : LQ) (hl tl : Loc) (ss : List Span) (l : Launch) (b : BadDword), Launching s →
    let m := s.dev.stash
    let armed := { m with watch := (m.watch.filter fun e => decide (e.2.2 ≠ Instr.lqService q)) ++ [(tl, 8, Instr.lqService q)] }
    let unarmed := { m with watch := m.watch.filter fun e => decide (e.2.2 ≠ Instr.lqService q) }
    (q < 64 → (m.lq q).serves = false → Runs (.lqService q) s fun m' => m' = roused s unarmed) ∧
    (QueueWords m q x hl tl h t →
      (t = h → Runs (.lqService q) s fun m' => m' = roused s armed) ∧
      (t < h ∨ h + 2 ^ x.log2n < t → Runs (.lqService q) s fun m' =>
        m' = roused s ((armed.haltQueue q).post x.ctx 0x03 q h h t)) ∧
      (t = h + 1 → 1 ≤ x.log2n → m.launches.length < 1024 → Exists hl 8 →
        m.engineSpans x.ctx (x.ring + 64 * (h % 2 ^ x.log2n)) 64 true false = .ok ss → true ∉ m.poisonSpans ss →
        (m.checkRecord (recordAt m q x h ss) = .ok l → ¬ (∀ a ∈ l.waitLocs, AtMostZero m a) → (∀ a ∈ l.waitLocs, m.anyPoison a 4 = false) →
          (∀ y ∈ m.launches, y.num ≠ l.num) → Runs (.lqService q) s fun m' => m'.launches = m.launches ++ [l] ∧ StoredAt m m' hl (leBytes 8 ((h + 1) % 2 ^ 64)) ∧
            ∀ a ∈ l.waitLocs, (a, 4, Instr.counterTrigger l.num) ∈ m'.watch) ∧
        (m.checkRecord (recordAt m q x h ss) = .ok l → (∀ a ∈ l.waitLocs, AtMostZero m a) → (∀ a ∈ l.waitLocs, m.anyPoison a 4 = false) →
          (∀ y ∈ m.launches, y.num ≠ l.num) → l.kind = 0 → l.waves ≠ 0 → m.refuses { l with st := .ready } = false →
          Runs (.lqService q) s fun m' => m'.launches = m.launches ++ [{ l with st := .ready, galley := [] }] ∧
            Due m' .placementTurn ∧ StoredAt m m' hl (leBytes 8 ((h + 1) % 2 ^ 64))) ∧
        (m.checkRecord (recordAt m q x h ss) = .error b → Runs (.lqService q) s fun m' => m'.launches = m.launches ∧
          StoredAt (armed.post x.ctx 0x01 q h b.1 b.2) m' hl (leBytes 8 ((h + 1) % 2 ^ 64)))))) ∧
  (∀ (s : State) (n : Nat) (l : Launch), s.pkg.stat = .running → Powered s →
    let m := s.dev.stash
    let zero := ∀ a ∈ l.waitLocs, AtMostZero m a
    let poison := ∃ a ∈ l.waitLocs, m.anyPoison a 4 = true
    m.launchOf n = some l → l.st = .waiting →
    (¬ poison → ¬ zero → Runs (.counterTrigger n) s fun m' => m' = m.push (.lqService l.queue)) ∧
    (¬ poison → zero → l.kind = 0 → l.waves ≠ 0 → m.refuses { l with st := .ready, galley := [] } = false →
      Runs (.counterTrigger n) s fun m' => m'.launchOf n = some { l with st := .ready, galley := [] } ∧ Due m' .placementTurn ∧
        Due m' (.lqService l.queue) ∧ SameMemory m m' ∧ ∀ e ∈ m'.watch, e.2.2 ≠ Instr.counterTrigger n) ∧
    (¬ poison → zero → l.kind = 1 →
      (∀ g, GalleyIs m l g →
        let taken : Launch := { l with st := .ready, galley := g, waves := g.length }
        m.refuses taken = false →
        (g ≠ [] → Runs (.counterTrigger n) s fun m' => m'.launchOf n = some taken ∧ Due m' .placementTurn ∧
          Due m' (.lqService l.queue) ∧ SameMemory m m' ∧ ∀ e ∈ m'.watch, e.2.2 ≠ Instr.counterTrigger n) ∧
        (g = [] → Runs (.counterTrigger n) s fun m' => m'.launchOf n = some { taken with st := .running } ∧ Due m' (.gridEnd n) ∧
          SameMemory m m')) ∧
      ((∀ g, ¬ GalleyIs m l g) → Runs (.counterTrigger n) s fun m' => m'.launchOf n = none ∧
        m' = ((m.push (.lqService l.queue)).dropLaunches [n]).post l.ctx 0x01 l.queue l.count 0x18 (l.r 3))) ∧
    (poison → Runs (.counterTrigger n) s fun m' => m'.launchOf n = none ∧
      m' = ((m.push (.lqService l.queue)).dropLaunches [n]).post l.ctx 0x01 l.queue l.count 0x30 (l.r 6))) ∧
  (∀ (s : State) (n : Nat) (l : Launch),
    let m := s.dev.stash
    let flushed := m.gridFlush
    m.launchOf n = some l → m.launchIdle n = true →
    (∀ d, d < 8 → (flushed.die d).merge = []) ∧
    (l.signal = none ∨ l.noSignal = true → Runs (.gridEnd n) s fun m' => m'.launchOf n = none ∧ SameMemory flushed m') ∧
    (∀ a, l.signal = some a → l.noSignal = false → Exists a 4 → flushed.anyPoison a 4 = false → Runs (.gridEnd n) s fun m' =>
      m'.launchOf n = none ∧
      StoredAt flushed m' a (leBytes 4 (BitVec.ofNat 32 (ofBytes (flushed.bytesAt a 4)) - 1).toNat)) ∧
    (∀ a, l.signal = some a → l.noSignal = false → flushed.anyPoison a 4 = true → Runs (.gridEnd n) s fun m' =>
      m'.launchOf n = none ∧ SameMemory (flushed.post l.ctx 0x01 l.queue l.count 0x38 (l.r 7)) m')) ∧
  (∀ (s : State) (c : Nat), s.pkg.stat = .running → Powered s → c < 64 →
    let m := s.dev.stash
    Runs (.contextEndByHost c) s fun m' => ContextGone m' c ∧
      ((∀ w ∈ m.allWaves, w.ctx ≠ c) → (∀ x ∈ m.savedWaves, x.wave.ctx ≠ c) → fld (m.ctxDword c 0x30) 63 60 = 0 →
        Apart m.host.ctxbase 8192 m.host.lqtbase 2048 → m.host.ctxbase + 8192 ≤ Config.memoryBytes →
        m.host.lqtbase + 2048 ≤ Config.memoryBytes →
        m'.ctxValid c = false ∧
        (∀ q, q < 64 → (m.lqDword q 3).testBit 63 = true → fld (m.lqDword q 3) 62 57 = c → (m'.lqDword q 3).testBit 51 = true) ∧
        (∀ k, ∀ t ∈ (m'.core k).tlb, t.ctx ≠ c) ∧ (∀ k, ∀ g ∈ (m'.core k).segs, g.owner ≠ .handler c) ∧
        ∀ cl, (∀ a ∈ (m'.cluster cl).accs, a.owned = true → a.tag ≠ c) ∧ (∀ p ∈ (m'.cluster cl).plates, p.owned = true → p.tag ≠ c) ∧
          (∀ e ∈ (m'.cluster cl).mqueue, e.ctx ≠ c) ∧ (∀ x ∈ (m'.cluster cl).receives, x.ctx ≠ c) ∧
          ∀ x ∈ (m'.cluster cl).overflow ++ (m'.cluster cl).arriving, x.ctx ≠ c))

namespace Sys2Proof.Claims

/-- Something of a launch is left to place, or to place again (R130). -/
def Unplaced (m : Dev) (l : Launch) : Prop := l.st = .ready ∨ l.replays ≠ [] ∨ ∃ x ∈ m.savedWaves, x.wave.launch = l.num

/-- The next unit of a launch can be placed now (R130, R131): it fits, and no victim that makes room for it is still there (R134). -/
def Places (m : Dev) (l : Launch) : Prop :=
  (∀ h ∈ m.holds, h.launch = l.num → ∀ p ∈ h.places, p.gone = true) ∧ m.placeNext l ≠ none

/-- A launch that only waits when its unit fits nowhere: it reserves no dies (R132), and pre-empts nobody (R133). -/
def Patient (l : Launch) : Prop := l.prio ≠ 3 ∧ l.cosched = false

/-- Launch `x` has its turn no later than `l` (R130): by level, then by its queue after the one that was served at the previous
turn of the level, with wrap-around, then by its record count. -/
def NoLater (m : Dev) (x l : Launch) : Prop :=
  let after (y : Launch) : Nat := (y.queue + 63 - m.served.getD y.prio 63) % 64
  l.prio < x.prio ∨ (x.prio = l.prio ∧ (after x < after l ∨ (after x = after l ∧ x.count ≤ l.count)))

/-- Of launch `l` its next `k` waves have been placed for the first time, in the order of their numbers, those of a gang together
and in their roles (R131, R139). -/
def FirstPlaced (m m' : Dev) (l : Launch) (k : Nat) : Prop :=
  let size := l.gangSize
  l.placed + k ≤ l.waves ∧
  m'.launchOf l.num = some { l with placed := l.placed + k, st := if l.placed + k = l.waves then .running else .ready } ∧
  (∀ x ∈ m.launches, x ≠ l → m'.launchOf x.num = some x) ∧
  ∃ us, m'.waves = m.waves ++ us ∧ us.length = k ∧ ∀ i w, us[i]? = some w →
    w.launch = l.num ∧ w.waveid = l.placed + i ∧ w.role = (if size = 0 then 0 else l.roleAt (i % size)) ∧
    (size = 0 → w.gang = none) ∧
    (size ≠ 0 → w.gang ≠ none ∧ ∀ j v, us[j]? = some v → j / size = i / size → v.gang = w.gang ∧ v.clusterNo = w.clusterNo)

end Sys2Proof.Claims

/-- R130-R132, R137-R139, R143, R147, R148, R160, R161: a turn of placement goes to the launch that R130 selects, and gives
its next units their places, until 32 waves have theirs, or the next unit has none; a COSCHED launch is placed whole, or
reserves its dies, which then take no new wave of a launch at its level or below; a child of a spawn queue has its own turn;
what a wave holds before its first instruction; a place on a core. The order in which the model takes effects that the spec
leaves unordered is its own (log 10).
The model's own choices that this rests on: log 78 to log 80. -/
def Obligations.PlacementGivesWavesTheirPlace : Prop :=
  (∀ (s : State) (l : Launch) (m₁ : Dev), Launching s →
    let m := s.dev.stash
    let w := m.template l 0 0
    m.turnLeft = none → m.launches = [l] → l.prio < 4 → l.st = .ready → l.replays = [] → l.cosched = false → l.gangSize = 0 → l.waves = 1 → l.placed = 0 →
    m.savedWaves = [] → m.holds = [] → (∀ d, (m.die d).spawns = []) → m.placeUnit l false [w] = some m₁ →
    m₁.launches = m.launches → m₁.savedWaves = [] →
    Runs .placementTurn s fun m' => m'.waves = m₁.waves ∧ m'.wave = m₁.wave ∧ m'.cores = m₁.cores ∧
      m'.launchOf l.num = some { l with placed := 1, st := .running } ∧ Due m' .placementTurn ∧ m'.mem = m₁.mem) ∧
  (∀ (s : State) (l : Launch), Launching s →
    let m := s.dev.stash
    let m₁ := m.placeMore l.num 33 32
    m.turnLeft = none → (∀ d, (m.die d).spawns = []) → (m.launches.map fun x => x.num).Nodup → (∀ x ∈ m.launches, x.count < 2 ^ 64) →
    (l ∈ m.launches → Unplaced m l → Places m l →
      (∀ x ∈ m.launches, x ≠ l → NoLater m x l → Unplaced m x → ¬ Places m x ∧ Patient x) →
      Runs .placementTurn s fun m' => m'.waves = m₁.waves ∧ m'.cores = m₁.cores ∧ m'.launches = m₁.launches ∧ m'.mem = m₁.mem ∧
        m'.turnLeft = m₁.turnLeft ∧ m'.served.getD l.prio 63 = l.queue ∧ (∀ h ∈ m'.holds, h.launch ≠ l.num) ∧
        (∀ d, l.num ∉ (m'.die d).reserved) ∧ Due m' .placementTurn) ∧
    ((∀ x ∈ m.launches, Unplaced m x → ¬ Places m x ∧ Patient x) → Runs .placementTurn s fun m' => m' = m) ∧
    (l ∈ m.launches → l.cosched = true → l.prio ≠ 3 → l.st = .ready → ¬ Places m l → m.dies.length = 8 →
      (∀ x ∈ m.launches, x ≠ l → ¬ Unplaced m x) → Runs .placementTurn s fun m' => m' = { m with dies := m'.dies } ∧
        ∀ d, d < 8 → (l.num ∈ (m'.die d).reserved ↔ l.dieset.getLsbD d = true ∨ l.num ∈ (m.die d).reserved))) ∧
  (∀ (m : Dev) (l : Launch),
    let m' := m.placeMore l.num 33 32
    (m.launches.map fun x => x.num).Nodup → l ∈ m.launches → l.st = .ready → l.replays = [] → l.placed < l.waves →
    (∀ x ∈ m.savedWaves, x.wave.launch ≠ l.num) → (∀ w ∈ m.allWaves, w.uid < m.nextUid) → 0 < m.nextUid →
    (l.cosched = false → ∃ k, FirstPlaced m m' l k ∧ (l.gangSize = 0 → k ≤ 32) ∧
      (l.gangSize ≠ 0 → k < 32 + l.gangSize ∧ (k % l.gangSize = 0 ∨ l.placed + k = l.waves)) ∧
      (32 ≤ k ∨ l.placed + k = l.waves ∨ m'.placeNew l.num = none)) ∧
    (l.cosched = true → l.placed = 0 →
      (∀ m₁, m.placeCosched l = some m₁ → m' = m₁ ∧ FirstPlaced m m' l l.waves) ∧ (m.placeCosched l = none → m' = m))) ∧
  (∀ (m m₁ : Dev) (l r : Launch) (d : Nat) (gang : Bool) (ws : List Wave),
    r.num ∈ (m.die d).reserved → m.launchOf r.num = some r → r.num ≠ l.num →
    l.prio < r.prio ∨ (l.prio = r.prio ∧ l.num ∉ (m.die d).reserved) → m.placeUnit l gang ws = some m₁ →
    ∀ w ∈ m₁.waves, w.die = d → ∃ v ∈ m.waves, v.uid = w.uid) ∧
  (∀ s : State, Launching s → s.dev.turnLeft = none → s.dev.stash.launches = [] → (∀ d, (s.dev.stash.die d).spawns = []) →
    Runs .placementTurn s fun m' => m' = s.dev.stash) ∧
  (∀ (s : State) (x : SavedWave) (l : Launch), Launching s →
    let m := s.dev.stash
    m.turnLeft = none → m.launches = [l] → l.prio < 4 → m.holds = [] → (∀ d, (m.die d).spawns = []) →
    m.savedWaves.find? (fun y => decide (y.wave.launch = l.num) && m.unitWhole y) = some x →
    m.placeSaved l (m.savedUnit x) ≠ none →
    Runs .placementTurn s fun m' => m'.agenda.head? = some (.waveResume x.wave.uid) ∧ m'.waves = m.waves ∧
      m'.savedWaves = m.savedWaves ∧ m'.turnLeft = some (l.num, 32 - (m.savedUnit x).length) ∧ Due m' .placementTurn) ∧
  (∀ (s : State) (n left : Nat), Launching s → s.dev.turnLeft = some (n, left) → left = 0 ∨ s.dev.launchOf n = none →
    Runs .placementTurn s fun m' => m' = { s.dev.stash with turnLeft := none }.push .placementTurn) ∧
  (∀ (s : State) (d p : Nat) (c : Child) (l : Launch) (m₁ m₂ : Dev), Launching s →
    let m := s.dev.stash
    let levels := [3, 2, 1].filter fun q => decide (p < q)
    let queue := (m.die d).spawns
    d < 8 → p < 4 → m.turnLeft = none → queue.find? (fun x => decide (m.childLevel x = some p)) = some c →
    (∀ x ∈ queue, ∀ q, m.childLevel x = some q → q ≤ p) → m.launchOf c.launch = some l → m.levelTurns levels = (m₁, false) →
    (m₁.placeChild d c = some m₂ → m₂.dies.length = 8 → Runs (.childPlacement d) s fun m' => m'.waves = m₂.waves ∧ m'.cores = m₂.cores ∧
      (m'.die d).spawns = queue.erase c ∧ (queue.erase c ≠ [] → Due m' (.childPlacement d))) ∧
    (m₁.placeChild d c = none → (∀ x ∈ queue, m.childLevel x ≠ none → m.childLevel x = some p) →
      Runs (.childPlacement d) s fun m' => m' = m₁)) ∧
  (∀ (m : Dev) (l : Launch) (id role : Nat), role < 4 →
    let w := m.template l id role
    let control := l.rolemap ≠ 0 ∧ role = 3
    let entry := if l.rolemap ≠ 0 then l.roleSeg role * 2 ^ 14 + l.roleBlk role * 2 ^ 6 else l.eseg * 2 ^ 14 + l.eblk * 2 ^ 6
    let lanes := if control then 32 else l.lanes
    let mask := if control then Mask.first 1
      else if l.kind = 1 then Mask.first ((((l.galley.getD id [0, 0, 0, 0]).getD 2 0).toNat % 2 ^ 16) * l.lpr) else Mask.first lanes
    Initial w entry mask ∧ (∀ r, w.sget r = 0) ∧ w.waveid = id ∧ w.launch = l.num ∧ w.ctx = l.ctx ∧ w.wlanes = lanes ∧ w.tang = l.tang ∧
    w.role = (if l.rolemap ≠ 0 then role else 0) ∧ (w.core = 12 ↔ control) ∧ w.child = false ∧
    w.base.units = (if control then 0 else if l.rolemap ≠ 0 then l.roleWin role else l.basewin) ∧
    w.scratch = (if control then 0 else l.scratch) ∧ w.spillbase = l.params.getD 0 0 ∧ w.tstride = l.params.getD 1 0 ∧
    w.olbase = BitVec.ofNat 64 (fld (m.ctxDword l.ctx 0x48) 48 4 * 16) ∧ w.olcap = BitVec.ofNat 64 (fld (m.ctxDword l.ctx 0x50) 31 0)) ∧
  (∀ (m : Dev) (l : Launch) (c : Child),
    let w := m.childTemplate l c
    Initial w (c.eseg * 2 ^ 14 + c.eblk * 2 ^ 6) (Mask.first c.lanes) ∧ (∀ r, w.sget r = if r = 1 then c.arg else 0) ∧
    w.child = true ∧ w.depth = c.depth ∧ w.futva = c.futva ∧ w.waveid = c.waveid ∧ w.role = 0 ∧ w.wlanes = c.lanes ∧
    w.scratch = c.scratch ∧ w.base.units = c.basewin ∧ w.launch = l.num ∧ w.tang = l.tang) ∧
  (∀ (m : Dev) (l : Launch) (cl c o : Nat) (w : Wave), c ≤ 12 → (m.residents (13 * cl + c)).length < 16 →
    ∃ m₁ u, m.addWave l cl c o true w = (m₁, u) ∧ u = m.nextUid ∧ ∃ w', m₁.waves = m.waves ++ [w'] ∧ w'.uid = m.nextUid ∧
      w'.die = cl / 16 ∧ w'.cluster = cl % 16 ∧ w'.core = c ∧ w'.slot < 16 ∧
      (∀ x ∈ m.residents (13 * cl + c), x.slot ≠ w'.slot) ∧ (∀ i, i < w'.slot → ∃ x ∈ m.residents (13 * cl + c), x.slot = i) ∧
      w'.scrbase = (if w.scratch = 0 then 0 else 1024 * o) ∧ w'.cpybase = BitVec.ofNat 20 w'.scrbase ∧
      (w.replay = false → w'.dieidx = ((List.range (cl / 16)).filter fun i => l.dieset.getLsbD i).length) ∧
      (∀ x ∈ (m₁.core (13 * cl + c)).l1, x.st ≠ .g) ∧
      ∀ i, 1024 * o ≤ i → i < 1024 * (o + w.scratch) → KMap.get 0 (m.core (13 * cl + c)).arrCtx (i / 1024) ≠ 0 →
        KMap.get 0 (m.core (13 * cl + c)).arrCtx (i / 1024) ≠ l.ctx + 1 → m₁.byteAt (.arr (13 * cl + c) i) = 0) ∧
  (∀ (m : Dev) (l : Launch) (k n o : Nat), n ≠ 0 → m.scratchFor k l.num n = some o →
    let clear (o : Nat) : Prop := ∀ t ∈ m.takenKiB k l.num, o + n ≤ t.1 ∨ t.2 ≤ o
    clear o ∧ (∀ o', o' < o → ¬ clear o') ∧ o + n ≤ 1024) ∧
  (∀ (l : Launch) (j : Nat), l.rolemap ≠ 0 → j < l.roleCount 0 + l.roleCount 1 + l.roleCount 2 + l.roleCount 3 →
    let r := l.roleAt j
    r < 4 ∧ ((List.range r).map l.roleCount).sum ≤ j ∧ j < ((List.range (r + 1)).map l.roleCount).sum)

namespace Sys2Proof.Claims

/-- A wave waits for blocks: its fragment stands in phase 19 of its instruction (R189). -/
def WantsBlocks (f : Frag) (n : Nat) (point : Bool) : Prop := f.wait = .blocks n point ∧ f.phase = 19

/-- A wave that a rollback has brought back to a spilt window waits for the blocks of its fill (R185, R200). -/
def WantsFill (f : Frag) (n : Nat) : Prop := f.wait = .fill n ∧ f.phase = 19

/-- Every resident wave of a core waits for blocks (R190). -/
def Deadlock (m : Dev) (k : Nat) : Prop := m.deadlocked k = true

/-- The wave with its windows closed, and its waits withdrawn, as it is saved (R193, R365). -/
def SavedAs (w x : Wave) : Prop :=
  x.uid = w.uid ∧ x.waveid = w.waveid ∧ x.role = w.role ∧ x.gang = w.gang ∧ x.rooms = w.rooms ∧ x.splits = w.splits ∧
  x.super = w.super ∧ x.trap = w.trap ∧ x.cregs = w.cregs ∧ x.kregs = w.kregs ∧ x.xregs = w.xregs ∧ x.stack.length = w.stack.length ∧
  x.victim = false ∧ ∀ f ∈ x.frags, f.held = [] ∧ f.wait = .none ∧ f.phase = 0 ∧ f.instr = none

end Sys2Proof.Claims

/-- R185, R189, R190, R200, R202: the first request for blocks is granted when its whole need is free; one wait of a deadlocked core
fails; an idle wave goes drowsy; a parity error rolls the wave back to its region record, or ends the context.
The model's own choices that this rests on: log 43, log 85. -/
def Obligations.BlocksAreGrantedAndErrorsRollBack : Prop :=
  (∀ (s : State) (k uid fid n : Nat) (point : Bool) (f : Frag) (rest : List (Nat × Nat)),
    let m := s.dev.stash
    (m.core k).queue = (uid, fid) :: rest → HasFrag m uid fid f → WantsBlocks f n point → n ≤ m.freeBlocks k →
    Runs (.blockGrant k) s fun m' => m'.waves = wavesWith m uid fid id (fun f => { f with phase := 20 }) ∧ SameMemory m m' ∧
      (∀ j, m'.core j = if j = k then { m.core j with queue := rest } else m.core j) ∧ (rest ≠ [] → Due m' (.blockGrant k))) ∧
  (∀ (s : State) (k uid fid n : Nat) (f : Frag) (rest : List (Nat × Nat)),
    let m := s.dev.stash
    (m.core k).queue = (uid, fid) :: rest → HasFrag m uid fid f → WantsFill f n → n ≤ m.freeBlocks k →
    Runs (.blockGrant k) s fun m' => m'.waves = wavesWith m uid fid (fun w => w.setCur { w.cur with spilt := none })
        (fun f => { f with wait := .none, phase := 0 }) ∧ SameMemory m m' ∧ (m'.core k).queue = rest) ∧
  (∀ (s : State) (k : Nat) (w : Wave) (f : Frag) (rank : Nat),
    let m := s.dev.stash
    let here := m.allWaves.filter fun x => decide (x.coreNo = k)
    let waits (rank : Nat) (x : Wave) (g : Frag) : Prop := g ∈ x.frags ∧ ∃ n,
      (rank = 0 ∧ WantsBlocks g n true) ∨ (rank = 1 ∧ WantsBlocks g n false) ∨ (rank = 2 ∧ WantsFill g n)
    Deadlock m k → w ∈ here → m.waveOf w.uid = some w → waits rank w f → (∀ g ∈ w.frags, g.fid = f.fid → g = f) →
    (∀ g, waits rank w g → g = f) → (∀ x ∈ here, ∀ g, waits rank x g → x = w ∨ x.slot < w.slot) →
    (∀ q, q < rank → ∀ x ∈ here, ∀ g, ¬ waits q x g) →
    Runs (.claimDeadlockBreak k) s fun m' => m'.waves = wavesWith m w.uid f.fid id (fun f => { f with phase := 21 }) ∧
      m'.core k = { m.core k with queue := (m.core k).queue.erase (w.uid, f.fid) } ∧ SameMemory m m' ∧
      ((m.core k).queue.erase (w.uid, f.fid) ≠ [] → Due m' (.blockGrant k))) ∧
  (∀ (s : State) (k uid : Nat), let m := s.dev.stash
    (¬ Deadlock m k → Runs (.claimDeadlockBreak k) s fun m' => m' = m) ∧
    (uid ≠ 0 → Runs (.drowsyTimeout uid) s fun m' =>
      m' = { m with waves := m.waves.map fun w => if w.uid = uid then { w with drowsy := true } else w })) ∧
  (∀ (s : State) (uid fid : Nat), s.pkg.stat = .running → Powered s →
    let m := s.dev.load uid fid
    let w := m.wave
    let r := w.region
    let now := (w.stack.drop (w.stack.length - r.depth)).headD w.base
    let enters (g : Frag) : Prop := g ∈ m.frags ∧ g.wait = .event ∧ g.phase = 1
    m.frag.fid = fid → fid ≠ 0 → w.uid = uid → uid ≠ 0 →
    (w.super = false → w.handler = none → w.wavectl.getLsbD 1 = false → r.rollbacks < 2 → now.spilt = none → (∀ g, ¬ enters g) →
      Runs (.parityError uid fid) s fun m' => SameMemory m m' ∧
      ∃ x f, m'.waves = m.waves ++ [x] ∧ x.frags = [f] ∧
        x = { w with frags := [f], splits := [], stack := w.stack.drop (w.stack.length - r.depth),
                     region := { r with rollbacks := r.rollbacks + 1 }, wavectl := w.wavectl ||| 0x20 } ∧
        f = { fid, spc := r.spc, fell := r.fell, lpc := r.lpc, lfell := r.lfell, mask := r.mask, fmt := r.fmt, last := m.frag.last,
              lastCycle := m.frag.lastCycle }) ∧
    (∀ g room, w.super = false → w.handler = none → w.wavectl.getLsbD 1 = false → r.rollbacks < 2 → now.spilt = none → enters g →
      g.asked = some room → Runs (.parityError uid fid) s fun m' => ∀ x ∈ (m'.tun room.place).waiting, x.1 ≠ uid) ∧
    (∀ off ss, w.super = false → w.handler = none → w.wavectl.getLsbD 1 = false → r.rollbacks < 2 → now.spilt = some off →
      m.engineSpans w.ctx (w.spillArea + off) (w.spillBytes now.units) true false = .ok ss → Runs (.parityError uid fid) s fun m' =>
      ∃ x f, m'.waveOf uid = some x ∧ x.frags = [f] ∧ (x.cur.spilt = none ∨ ∃ n, WantsFill f n) ∧
        f.spc = r.spc ∧ f.lpc = r.lpc ∧ f.mask = r.mask ∧ f.fmt = r.fmt ∧ x.region.rollbacks = r.rollbacks + 1) ∧
    (w.super = true ∨ w.handler ≠ none ∨ w.wavectl.getLsbD 1 = true ∨ 2 ≤ r.rollbacks → Runs (.parityError uid fid) s fun m' =>
      m' = m.stash.endContext w.ctx 0x51 w ∧ ContextGone m' w.ctx))

/-- R55, R138, R193, R365-R368: a victim at its pre-emption point leaves its place for a save slot, whose record holds its
scalars, predicates and scratchpad at the offsets of R367; a saved wave whose unit fits, and is whole, is resident again as
it was saved. Without a free slot, or after a change of the record, the context ends.
The model's own choices that this rests on: log 8, log 79, log 82, log 83. -/
def Obligations.WavesAreSavedAndResumed : Prop :=
  (∀ (s : State) (uid i : Nat) (w : Wave) (ss : List Span), s.pkg.stat = .running → Powered s →
    let m := s.dev.stash
    let m₁ := ((m.modWave uid fun _ => w.closeHeld).withdrawWaits w.closeHeld).release w.coreNo 3
    let mine := (m₁.cluster w.clusterNo).mqueue.filter fun e => decide (e.wave = uid)
    let record := saveRecord (w.closeHeld.asSaved mine) mine
      (if w.scratch = 0 then [] else m₁.bytesAt (.arr w.coreNo w.scrbase) (1024 * w.scratch))
    m.waveOf uid = some w → m.saveReady w = true →
    (m₁.freeSlot w.ctx (m₁.saveSlots w.ctx) 1 = .ok none → Runs (.waveSave uid) s fun m' =>
      m' = m₁.endContext w.ctx 0 w.closeHeld ∧ ContextGone m' w.ctx) ∧
    (m₁.freeSlot w.ctx (m₁.saveSlots w.ctx) 1 = .ok (some i) → record.length ≤ 2 ^ m₁.saveShift w.ctx →
      m₁.engineSpans w.ctx (m₁.saveVa w.ctx + i * 2 ^ m₁.saveShift w.ctx) record.length false true = .ok ss →
      Runs (.waveSave uid) s fun m' => Gone m' uid ∧
        (∃ x, m'.savedWaves = m.savedWaves ++ [x] ∧ SavedAs w x.wave ∧ x.slotNo = i ∧ x.record = record ∧ x.queue = mine) ∧
        (∀ g room, g ∈ w.frags → g.wait = .event → g.phase = 1 → g.asked = some room → ∀ x ∈ (m'.tun room.place).waiting, x.1 ≠ uid) ∧
        ∀ l lb, (m₁.core w.coreNo).l1 = [] → ss = [{ loc := l, len := record.length }] → Exists l record.length →
          m₁.bitmapLoc w.ctx (i / 8) = .ok lb → Exists lb 1 → (∀ j, j < record.length → lb ≠ l.add j) →
          (∀ j b, record[j]? = some b → m'.byteAt (l.add j) = b) ∧ (m'.byteAt lb).getLsbD (i % 8) = true)) ∧
  (∀ (w : Wave) (mine : List MEntry) (scratch : List Byte), w.xregs.length = 8 → w.control = false → w.wlanes % 32 = 0 →
    w.base.spilt = none →
    let r := saveRecord w mine scratch
    let at_ (o n v : Nat) : Prop := (r.drop o).take n = leBytes n v
    let word (n t l : Nat) : Nat := 4 * ((n * (w.tang + 1) + t) * w.wlanes + l)
    r.length = 0x1400 + 1024 * w.blocks + scratch.length ∧
    (∀ i, i < 64 → at_ (0x40 + 8 * i) 8 (w.sregs.get i).toNat) ∧
    (∀ i x, w.xregs[i]? = some x → at_ (0x300 + 8 * i) 8 x.base.toNat) ∧
    (∀ i, i < 16 → at_ (0xBC0 + 8 * i) 8 (if w.super = true then (w.bank.get (48 + i)).toNat else 0)) ∧
    at_ 0xC80 896 0 ∧ (∀ k, 1 ≤ k → k < 8 → at_ (0x1000 + 128 * (k - 1)) 128 (w.kregs.getD k 0).toNat) ∧
    at_ 0x240 8 w.trap.scause.toNat ∧ at_ 0x248 8 w.trap.sepc.toNat ∧ at_ 0x250 8 w.trap.lepc.toNat ∧
    at_ 0x258 8 w.trap.lrem.toNat ∧ at_ 0x260 8 w.trap.stval.toNat ∧ at_ 0x280 8 w.cregs.toNat ∧
    at_ 0x298 8 w.wavectl.toNat ∧ at_ 0x2A0 8 w.asyncerr.toNat ∧ at_ 0x2A8 8 w.cpybase.toNat ∧ at_ 0x2B0 8 w.olbase.toNat ∧
    at_ 0x2B8 8 w.olcap.toNat ∧ at_ 0x2C0 8 w.oltag.toNat ∧
    (∀ f, w.frags = [f] → at_ 0x1380 128 f.mask.toNat ∧ at_ 0x288 8 f.fmt.lo.toNat ∧ at_ 0x290 8 f.fmt.hi.toNat) ∧
    (∀ n t l, n < 8 → t ≤ w.tang → l < w.wlanes →
      at_ (0x1400 + word n t l) 4 (w.globals.cells.get (cellKey n t l)).toNat) ∧
    (∀ n t l, n < 8 * w.base.units → t ≤ w.tang → l < w.wlanes →
      at_ (0x1400 + word (8 + n) t l) 4 (w.base.cells.get (cellKey n t l)).toNat) ∧
    r.drop (0x1400 + 1024 * w.blocks) = scratch) ∧
  (∀ (s : State) (x : SavedWave) (l : Launch) (m₁ : Dev) (w : Wave) (ss : List Span), Launching s →
    let m := s.dev.stash
    let m₂ := { m₁ with savedWaves := m₁.savedWaves.filter fun y => decide (y.wave.uid ≠ x.wave.uid) }
    m.savedWaves.find? (fun y => y.wave.uid = x.wave.uid) = some x →
    ((∃ g, x.wave.gang = some g ∧ ∃ v ∈ m.allWaves, v.victim = true ∧ v.gang = some g ∧ v.clusterNo = x.wave.clusterNo) →
      Runs (.waveResume x.wave.uid) s fun m' => m' = m) ∧
    (m.unitWhole x = true → m.savedUnit x = [x] → m.launchOf x.wave.launch = some l →
    m.placeSaved l [x] = some m₁ → m₂.waveOf x.wave.uid = some w →
    m₂.engineSpans w.ctx (m₂.saveVa w.ctx + x.slotNo * 2 ^ m₂.saveShift w.ctx) x.record.length true false = .ok ss →
    (m₂.readSpans ss ≠ x.record → Runs (.waveResume x.wave.uid) s fun m' => m' = m₂.endContext w.ctx 0 w ∧ ContextGone m' w.ctx) ∧
    (m₂.readSpans ss = x.record → m.waveOf x.wave.uid = none → x.wave.monitor = none → (∀ f ∈ x.wave.frags, f.fid ≠ 0) →
      let v := x.wave
      let pcs (w : Wave) := w.frags.map fun f => (f.spc, f.fell, f.lpc, f.lfell, f.lrem, f.mask, f.fmt)
      Runs (.waveResume x.wave.uid) s fun m' => (∀ y ∈ m'.savedWaves, y.wave.uid ≠ x.wave.uid) ∧
        ∃ w', m'.waveOf x.wave.uid = some w' ∧ w'.sregs = v.sregs ∧ w'.cregs = v.cregs ∧ w'.kregs = v.kregs ∧ pcs w' = pcs v ∧
          w'.globals = v.globals ∧ w'.base = v.base ∧ w'.stack = v.stack ∧ w'.rooms = v.rooms ∧ w'.waveid = v.waveid ∧
          w'.role = v.role ∧ w'.dieidx = v.dieidx ∧ w'.cpybase = v.cpybase ∧ w'.super = v.super ∧ w'.trap = v.trap)))

/-! ## Steps, encodings, invariants -/

/-- R83, R190, R209, R212, R214, R219, R374, R381, 95_what_each_step_holds: a turn that is an event runs the event; a turn of
a fragment whose instruction has issued and not completed goes on with it; else, without lane instructions left, the fragment
fetches the word at its scalar PC and runs the instruction that the word decodes to; with some left, the lane instruction at
its lane PC. The PCs are moved by the instruction (`nextWord`, `afterLane`). A word of OP 0 is `TRAPZ`; what is no
instruction traps with the cause of its encoding. A flip that holds accesses ends before the next core issues, and before an
event that reaches memory, in P2 too; a window that is still spilt is filled before a fragment of its wave issues (R185).
The model's own choices that this rests on: log 10, log 98. -/
def Obligations.StepRunsTheDecodedInstruction : Prop :=
  (∀ (s : State) (m : Dev) (i : Instr),
    let f := m.frag
    let fetched (i : Instr) := s.withDev { m with frag := { f with resumed := false, instr := some i } }
    let filled := m.wave.cur.spilt = none ∨ m.wave.super = true ∨ f.phase ≠ 0
    let fresh := f.todo = [] ∧ f.instr = none ∧ filled ∧ ∀ n, f.wait ≠ .fill n
    let w := BitVec.ofNat 32 (m.codeBytes f.spc 4)
    let x := BitVec.ofNat 96 (m.codeBytes (f.lpc / 64 * 64 + 4 + 12 * (f.lpc / 4 % 16)) 12)
    let scalarAt := fresh ∧ f.lrem = 0 ∧ f.spc % 4 = 0 ∧ m.checkFetch f.spc f.fell false = none
    (s.dev.turn s.live s.asleep = .event i m → isEvent i = true → step s = exec i (s.withDev m)) ∧
    (s.dev.turn s.live s.asleep = .wave m →
      (f.todo = [] → f.instr = some i → filled → (∀ n, f.wait ≠ .fill n) → step s = exec i (s.withDev m)) ∧
      (f.todo = [] → ¬ filled → step s = .next (s.withDev m.fillCurrent)) ∧
      (scalarAt → decodeScalar w = .ok i → i.wellFormed = true → step s = exec i (fetched i)) ∧
      (scalarAt → w.extractLsb' 26 6 = 0 →
        step s = exec (.trapz (w.extractLsb' 0 26)) (fetched (.trapz (w.extractLsb' 0 26)))) ∧
      (scalarAt → decodeScalar w = .error .illegalOpcode → step s =
        .next (s.withDev ((Dev.trap { m with frag := { f with resumed := false } }
          { cause := .illegalOpcode, stval := m.codeBytes f.spc 4 }).onFrag fun f => { f with instr := none }))) ∧
      (∀ count, fresh → 0 < f.lrem → f.resumed = false → f.lepcBad = false → m.laneBlock = .ok count → f.lpc / 4 % 16 < count →
        decodeLane x = .ok i → i.wellFormed = true → step s = exec i (fetched i)))) ∧
  (∀ (s : State) (k : Nat) (i : Instr) (c : Candidate) (t : List Turn) (u : List Instr),
    let m := s.dev.stash
    let next := s.dev.turn s.live s.asleep
    let quiet := s.dev.turns = [] ∧ s.dev.agenda = [] ∧ s.live = true ∧ m.nextSave = none
    (s.live = true ∨ s.asleep = true → s.dev.host.biasreq.getLsbD 63 = true →
      s.dev.turns = [] ∨ (s.dev.turns = .event i :: t ∧ ∃ q r u, i = .lqService q ∨ i = .peerRequest r ∨ i = .retireUnit u) →
      next = .event .biasFlipComplete { m with agenda := m.agenda.erase .biasFlipComplete }) ∧
    (s.dev.host.biasreq.getLsbD 63 = false →
      (s.dev.turns = .event i :: t → next = .event i { m with turns := t }) ∧
      (s.dev.turns = .core k :: t → s.live = true → ({ m with turns := t } : Dev).pick k = some c →
        next = .wave (({ m with turns := t } : Dev).issue k c)) ∧
      (s.dev.turns = [] → s.dev.agenda = i :: u → next = .event i { m with agenda := u }) ∧
      (quiet → m.deadlockedCore = some k → next = .event (.claimDeadlockBreak k) m) ∧
      (quiet → m.deadlockedCore = none → m.nextCore = some k → m.pick k = some c → next = .wave (m.issue k c))))

/-- R376, R379-R381, R384: words written field by field from the strips decode to the instructions that they stand for. -/
def Obligations.WordsDecodeToTheirInstructions : Prop :=
  decodeScalar (0b000001#6 ++ 0b000101#6 ++ 0b000110#6 ++ 0b000111#6 ++ 0b0#1 ++ 0b1#1 ++ 0b001011#6) = .ok (.salu 5 6 7 1 11) ∧
  decodeScalar (0b000010#6 ++ 0b000001#6 ++ 0b000010#6 ++ 0b11111111111111#14) = .ok (.addi 1 2 0x3FFF) ∧
  decodeScalar (0b001101#6 ++ 0b001001#6 ++ 0b001010#6 ++ 0b11#2 ++ 0b000000001000#12) = .ok (.sld 9 10 3 8) ∧
  decodeScalar (0b010001#6 ++ 0b010#3 ++ 0b1#1 ++ 0b1111111111111111111111#22) = .ok (.bc 2 1 0x3FFFFF) ∧
  decodeScalar (0b010010#6 ++ 0b0011#4 ++ 0b0000000000000000000101#22) = .ok (.call 3 5) ∧
  decodeScalar (0b101001#6 ++ 0b011#3 ++ 0b10#2 ++ 0b000000000000000000000#21) = .ok (.fence 3 2) ∧
  decodeScalar (0b110000#6 ++ 0b000100#6 ++ 0b000010#6 ++ 0b000110#6 ++ 0b101#3 ++ 0b000#3 ++ 0b1#1 ++ 0b0#1) = .ok (.mma 4 2 6 5 1 0) ∧
  decodeScalar (0b111111#6 ++ 0b000011#6 ++ 0b000100000000#12 ++ 0b00000000#8) = .ok (.mfsr 3 0x100) ∧
  decodeLane (0x040#10 ++ 1#7 ++ 2#7 ++ 3#7 ++ 0#7 ++ 1#3 ++ 1#1 ++ 0#4 ++ 0#4 ++ 0b110#3 ++ 0#3 ++ 0#8 ++ 0#32) =
    .ok (.fadd { vd := 1, va := 2, vb := 3, kp := 1, kn := 1, lr := 6 }) ∧
  decodeLane (0x04C#10 ++ 4#7 ++ 5#7 ++ 0#7 ++ 0#7 ++ 0#3 ++ 0#1 ++ 0#4 ++ 2#4 ++ 0b100#3 ++ 0#3 ++ 0#8 ++ 0#32) =
    .ok (.fsqrt { vd := 4, va := 5, la := 2, lr := 4 }) ∧
  decodeLane (0x0C0#10 ++ 9#7 ++ 8#7 ++ 0#7 ++ 0#7 ++ 0#3 ++ 0#1 ++ 0#4 ++ 3#4 ++ 0b100#3 ++ 1#3 ++ 0#8 ++ 16#32) =
    .ok (.ld { vd := 9, va := 8, la := 3, lr := 4, xs := 1, imm := 16 })

/-- R374-R376, R379-R384: decoding a well-formed instruction's word gives the instruction back, with every operand, and a word that
decodes to an instruction is that instruction's word: no bit is dropped, and no two words mean the same. A word of OP 0 is
refused with POOL-EXEC and stands for its `TRAPZ` (R210). -/
def Obligations.EncodingsAndInstructionsAgree : Prop :=
  (∀ (i : Instr) (w : Word), i.wellFormed = true → encodeScalar i = some w →
    (∀ x, i = .trapz x → decodeScalar w = .error .poolExec ∧ trapzOf w = i) ∧ ((∀ x, i ≠ .trapz x) → decodeScalar w = .ok i)) ∧
  (∀ (i : Instr) (w : LaneWord), i.wellFormed = true → encodeLane i = some w → decodeLane w = .ok i) ∧
  (∀ (i : Instr) (w : Word), decodeScalar w = .ok i → encodeScalar i = some w) ∧
  (∀ (i : Instr) (w : LaneWord), decodeLane w = .ok i → encodeLane i = some w)

/-- R98, R106, R108, R109, R111, R115, R119: every step keeps the package's invariant: clamped power registers, a debug level that
life cycle and power state permit, no running package that failed its images or its wipe, no salvage window without the hub
die. No instruction of a wave changes power, security or the package's status.
The model's own choices that this rests on: log 65. -/
def Obligations.EveryStepKeepsThePackageInvariant : Prop :=
  (∀ s s' : State, s.Ok → step s = .next s' → s'.Ok) ∧
  (∀ (s s' : State) (i : Instr), isEvent i = false → exec i s = .next s' →
    s'.pwr = s.pwr ∧ s'.sec = s.sec ∧ s'.pkg = s.pkg)

/-- R79, R104, R109, R113, R117: what a package reset and its wipe leave, and the invariant holds of it. The state stands just after
the wipe (log 15); that every unit is in service, and that link 0 trained, is the model's choice (log 18). -/
def Obligations.ResetLeavesAWipedPackage : Prop :=
  let s := State.reset
  s.Ok ∧ s.pkg.stat = .running ∧ s.pwr.state = .p0 ∧ s.pwr.thr = 16 ∧ s.pwr.freq = 16 ∧ s.pwr.limit = 3600 ∧
  s.sec.life = .provisioned ∧ s.sec.level = .none ∧ s.pkg.mgtevt = 0 ∧ s.pkg.peererr = 0 ∧ s.dev.host = {} ∧
  s.dev.allWaves = [] ∧ s.dev.launches = [] ∧ s.dev.cmds = [] ∧ s.dev.peers = [] ∧ s.dev.savedWaves = [] ∧
  (∀ pa, pa < Config.memoryBytes → s.dev.byteAt (.dev pa) = 0) ∧ (∀ k o, s.dev.byteAt (.arr k o) = 0) ∧
  (∀ l, s.dev.poisonAt l = false) ∧ (∀ k, s.dev.core k = {}) ∧ (∀ c, s.dev.cluster c = {}) ∧
  (∀ p, p < 24 → s.port p = { up := false })
end

