-- ==== Sys2Proof/Laws/Cells.lean ====
section
/-!
SUPPORT. Laws/Cells.lean: read after write and the canonical form of sparse cells, keyed structures and padded lists.
-/
namespace Sys2Proof.Laws
open Sys2Proof.Machine

theorem cells_get_del {w} (c : Cells w) (a b : Nat) : (c.del a).get b = if b = a then 0#w else c.get b := by
  induction c with
  | nil => simp [Cells.del, Cells.get]
  | cons e t ih =>
    obtain ⟨k, v⟩ := e
    simp only [Cells.del] at ih ⊢
    by_cases h : k = a
    · subst h
      simp only [List.filter, ne_eq, not_true, decide_false, ih, Cells.get]
      split <;> simp_all
    · simp only [List.filter, ne_eq, h, not_false_eq_true, decide_true, Cells.get, ih]
      split <;> split <;> simp_all

theorem cells_get_ins {w} (c : Cells w) (a b : Nat) (v : BitVec w) (h : c.get a = 0#w) (hn : ∀ e ∈ c, e.1 ≠ a) :
    (c.ins a v).get b = if b = a then v else c.get b := by
  induction c with
  | nil => simp [Cells.ins, Cells.get]
  | cons e t ih =>
    obtain ⟨k, u⟩ := e
    have hk : k ≠ a := hn (k, u) (by simp)
    simp only [Cells.ins]
    split
    · simp [Cells.get]
    · have ht : Cells.get t a = 0#w := by simpa [Cells.get, Ne.symm hk] using h
      have := ih ht fun e he => hn e (by simp [he])
      simp only [Cells.get, this]
      split <;> split <;> simp_all

theorem cells_del_keys {w} (c : Cells w) (a : Nat) : ∀ e ∈ c.del a, e.1 ≠ a := by
  intro e he
  simpa using (List.mem_filter.1 he).2

/-- Read after write: the value written at its key, every other key as before. -/
theorem cells_get_put {w} (c : Cells w) (a b : Nat) (v : BitVec w) :
    (c.put a v).get b = if b = a then v else c.get b := by
  simp only [Cells.put]
  split
  · next h => rw [cells_get_del, h]
  · rw [cells_get_ins _ _ _ _ (by simp [cells_get_del]) (cells_del_keys c a), cells_get_del]
    split <;> simp_all

@[simp] theorem cells_get_put_self {w} (c : Cells w) (a : Nat) (v : BitVec w) : (c.put a v).get a = v := by
  simp [cells_get_put]

theorem cells_get_put_ne {w} (c : Cells w) {a b : Nat} (v : BitVec w) (h : b ≠ a) : (c.put a v).get b = c.get b := by
  simp [cells_get_put, h]

theorem cells_get_putBytes (c : Cells 8) (a b : Nat) (bs : List Byte) :
    (c.putBytes a bs).get b = if a ≤ b ∧ b < a + bs.length then bs.getD (b - a) 0 else c.get b := by
  induction bs generalizing c a with
  | nil => simp [Cells.putBytes] <;> omega
  | cons x t ih =>
    simp only [Cells.putBytes, ih, cells_get_put, List.length_cons]
    by_cases h : b = a
    · subst h; simp <;> omega
    · by_cases h2 : a + 1 ≤ b ∧ b < a + 1 + t.length
      · have e : b - a = (b - (a + 1)) + 1 := by omega
        rw [if_pos h2, if_pos (by omega), e]; simp
      · rw [if_neg h2, if_neg h, if_neg (by omega)]

/-! ## The canonical form -/

theorem cells_above_mono {w} {c : Cells w} {lo lo' : Nat} (hl : lo' ≤ lo) (h : c.above lo = true) :
    c.above lo' = true := by
  cases c with
  | nil => rfl
  | cons e t =>
    simp only [Cells.above, Bool.and_eq_true, decide_eq_true_eq] at h ⊢
    exact ⟨⟨by omega, h.1.2⟩, h.2⟩

theorem cells_wf_of_above {w} {c : Cells w} {lo : Nat} (h : c.above lo = true) : c.wf = true := by
  cases c with
  | nil => rfl
  | cons e t => simp only [Cells.above, Cells.wf, Bool.and_eq_true, decide_eq_true_eq] at h ⊢; exact ⟨h.1.2, h.2⟩

theorem cells_above_filter {w} (c : Cells w) (p : Nat × BitVec w → Bool) (lo : Nat) (h : c.above lo = true) :
    Cells.above lo (c.filter p) = true := by
  induction c generalizing lo with
  | nil => rfl
  | cons e t ih =>
    simp only [Cells.above, Bool.and_eq_true, decide_eq_true_eq] at h
    simp only [List.filter]
    split
    · simp only [Cells.above, Bool.and_eq_true, decide_eq_true_eq]; exact ⟨h.1, ih _ h.2⟩
    · exact cells_above_mono (Nat.le_of_lt h.1.1) (ih _ h.2)

theorem cells_wf_filter {w} (c : Cells w) (p : Nat × BitVec w → Bool) (h : c.wf = true) :
    Cells.wf (c.filter p) = true := by
  cases c with
  | nil => rfl
  | cons e t =>
    simp only [Cells.wf, Bool.and_eq_true, decide_eq_true_eq] at h
    simp only [List.filter]
    split
    · simp only [Cells.wf, Bool.and_eq_true, decide_eq_true_eq]; exact ⟨h.1, cells_above_filter t p _ h.2⟩
    · exact cells_wf_of_above (cells_above_filter t p _ h.2)

theorem cells_above_ins {w} (c : Cells w) (a lo : Nat) (v : BitVec w) (hv : v ≠ 0#w) (hn : ∀ e ∈ c, e.1 ≠ a)
    (hl : lo < a) (h : c.above lo = true) : (c.ins a v).above lo = true := by
  induction c generalizing lo with
  | nil => simp [Cells.ins, Cells.above, hl, hv]
  | cons e t ih =>
    obtain ⟨k, u⟩ := e
    have hk : k ≠ a := hn (k, u) (by simp)
    simp only [Cells.above, Bool.and_eq_true, decide_eq_true_eq] at h
    simp only [Cells.ins]
    split
    · simp only [Cells.above, Bool.and_eq_true, decide_eq_true_eq]; exact ⟨⟨hl, hv⟩, ⟨by omega, h.1.2⟩, h.2⟩
    · simp only [Cells.above, Bool.and_eq_true, decide_eq_true_eq]
      exact ⟨h.1, ih k (fun e he => hn e (by simp [he])) (by omega) h.2⟩

theorem cells_wf_ins {w} (c : Cells w) (a : Nat) (v : BitVec w) (hv : v ≠ 0#w) (hn : ∀ e ∈ c, e.1 ≠ a)
    (h : c.wf = true) : (c.ins a v).wf = true := by
  cases c with
  | nil => simp [Cells.ins, Cells.wf, Cells.above, hv]
  | cons e t =>
    obtain ⟨k, u⟩ := e
    have hk : k ≠ a := hn (k, u) (by simp)
    simp only [Cells.wf, Bool.and_eq_true, decide_eq_true_eq] at h
    simp only [Cells.ins]
    split
    · simp only [Cells.wf, Cells.above, Bool.and_eq_true, decide_eq_true_eq]; exact ⟨hv, ⟨by omega, h.1⟩, h.2⟩
    · simp only [Cells.wf, Bool.and_eq_true, decide_eq_true_eq]
      exact ⟨h.1, cells_above_ins t a k v hv (fun e he => hn e (by simp [he])) (by omega) h.2⟩

/-- A write keeps the canonical form. -/
theorem cells_wf_put {w} (c : Cells w) (a : Nat) (v : BitVec w) (h : c.wf = true) : (c.put a v).wf = true := by
  simp only [Cells.put]
  split
  · exact cells_wf_filter c _ h
  · next hv => exact cells_wf_ins _ a v hv (cells_del_keys c a) (cells_wf_filter c _ h)

theorem cells_wf_putBytes (c : Cells 8) (a : Nat) (bs : List Byte) (h : c.wf = true) : (c.putBytes a bs).wf = true := by
  induction bs generalizing c a with
  | nil => exact h
  | cons b t ih => exact ih _ _ (cells_wf_put c a b h)

theorem cells_wf_drop {w} (c : Cells w) (p : Nat → Bool) (h : c.wf = true) : (c.drop p).wf = true :=
  cells_wf_filter c _ h

theorem cells_wf_foldl_put {w} {α} (l : List α) (f : α → Nat) (v : α → BitVec w) (q : α → Bool) (c : Cells w)
    (h : c.wf = true) : (l.foldl (fun c x => if q x then c.put (f x) (v x) else c) c).wf = true := by
  induction l generalizing c with
  | nil => exact h
  | cons x t ih =>
    simp only [List.foldl]
    split
    · exact ih _ (cells_wf_put c _ _ h)
    · exact ih _ h

/-! ## Keyed structures and padded lists -/

theorem kmap_get_erase {α} (d : α) (m : KMap α) (a b : Nat) :
    KMap.get d (m.erase a) b = if b = a then d else KMap.get d m b := by
  induction m with
  | nil => simp [KMap.erase, KMap.get]
  | cons e t ih =>
    obtain ⟨k, v⟩ := e
    simp only [KMap.erase] at ih ⊢
    by_cases h : k = a
    · subst h
      simp only [List.filter, ne_eq, not_true, decide_false, ih, KMap.get]
      split <;> simp_all
    · simp only [List.filter, ne_eq, h, not_false_eq_true, decide_true, KMap.get, ih]
      split <;> split <;> simp_all

theorem kmap_get_ins {α} (d : α) (m : KMap α) (a b : Nat) (v : α) (hn : ∀ e ∈ m, e.1 ≠ a) :
    KMap.get d (m.ins a v) b = if b = a then v else KMap.get d m b := by
  induction m with
  | nil => simp [KMap.ins, KMap.get]
  | cons e t ih =>
    obtain ⟨k, u⟩ := e
    have hk : k ≠ a := hn (k, u) (by simp)
    simp only [KMap.ins]
    split
    · simp [KMap.get]
    · have := ih fun e he => hn e (by simp [he])
      simp only [KMap.get, this]
      split <;> split <;> simp_all

theorem kmap_erase_keys {α} (m : KMap α) (a : Nat) : ∀ e ∈ m.erase a, e.1 ≠ a := by
  intro e he
  simpa using (List.mem_filter.1 he).2

/-- Read after write of a keyed structure. -/
theorem kmap_get_set {α} (d : α) (m : KMap α) (a b : Nat) (v : α) :
    KMap.get d (m.set a v) b = if b = a then v else KMap.get d m b := by
  rw [KMap.set, kmap_get_ins d _ a b v (kmap_erase_keys m a), kmap_get_erase]
  split <;> simp_all

@[simp] theorem kmap_get_set_self {α} (d : α) (m : KMap α) (a : Nat) (v : α) : KMap.get d (m.set a v) a = v := by
  simp [kmap_get_set]

theorem kmap_get_replace {α} (d : α) (m : KMap α) (a b : Nat) (v : α) (h : ∃ e ∈ m, e.1 = a) :
    KMap.get d (m.replace a v) b = if b = a then v else KMap.get d m b := by
  induction m with
  | nil => simp at h
  | cons e t ih =>
    obtain ⟨k, u⟩ := e
    by_cases hk : a = k
    · subst hk
      simp only [KMap.replace, if_true, KMap.get]
      split <;> simp_all
    · have ht : ∃ e ∈ t, e.1 = a := by
        obtain ⟨e, he, hea⟩ := h
        rcases List.mem_cons.1 he with rfl | ht
        · exact absurd hea.symm hk
        · exact ⟨e, ht, hea⟩
      simp only [KMap.replace, hk, if_false, KMap.get, ih ht]
      split <;> split <;> simp_all

/-- Read after write in place of a keyed structure. -/
theorem kmap_get_put {α} (d : α) (m : KMap α) (a b : Nat) (v : α) :
    KMap.get d (m.put a v) b = if b = a then v else KMap.get d m b := by
  unfold KMap.put
  split
  · rename_i h
    exact kmap_get_replace d m a b v (by simpa using h)
  · rename_i h
    exact kmap_get_ins d m a b v fun e he hea => h (List.any_eq_true.2 ⟨e, he, decide_eq_true hea⟩)

@[simp] theorem kmap_get_put_self {α} (d : α) (m : KMap α) (a : Nat) (v : α) : KMap.get d (m.put a v) a = v := by
  simp [kmap_get_put]

theorem kmap_mem_ins {α} {m : KMap α} {a : Nat} {v : α} {x : Nat × α} (h : x ∈ m.ins a v) : x = (a, v) ∨ x ∈ m := by
  induction m with
  | nil => simp_all [KMap.ins]
  | cons e t ih =>
    obtain ⟨k, u⟩ := e
    simp only [KMap.ins] at h
    split at h
    · simpa using h
    · rcases List.mem_cons.1 h with rfl | h
      · simp
      · rcases ih h with rfl | h <;> simp_all

/-- An entry after a write in place is the one written or one that was there. -/
theorem kmap_mem_put {α} {m : KMap α} {a : Nat} {v : α} {x : Nat × α} (h : x ∈ m.put a v) : x = (a, v) ∨ x ∈ m := by
  have rep : ∀ {m : KMap α}, x ∈ m.replace a v → x = (a, v) ∨ x ∈ m := by
    intro m
    induction m with
    | nil => simp [KMap.replace]
    | cons e t ih =>
      obtain ⟨k, u⟩ := e
      simp only [KMap.replace]
      split
      · rename_i hk
        subst hk
        simp only [List.mem_cons]
        rintro (h | h)
        · exact .inl h
        · exact .inr (.inr h)
      · simp only [List.mem_cons]
        rintro (h | h)
        · exact .inr (.inl h)
        · exact (ih h).imp_right .inr
  unfold KMap.put at h
  split at h
  · exact rep h
  · exact kmap_mem_ins h

/-- Read after write of a padded list. -/
theorem getD_setAt {α} (d : α) (l : List α) (i j : Nat) (v : α) :
    (setAt d l i v).getD j d = if j = i then v else l.getD j d := by
  induction l generalizing i j with
  | nil =>
    induction i generalizing j with
    | zero => cases j <;> simp [setAt]
    | succ n ih =>
      cases j with
      | zero => simp [setAt]
      | succ k => simpa [setAt] using ih k
  | cons h t ih =>
    cases i with
    | zero => cases j <;> simp [setAt]
    | succ n =>
      cases j with
      | zero => simp [setAt]
      | succ k => simpa [setAt] using ih n k

@[simp] theorem getD_setAt_self {α} (d : α) (l : List α) (i : Nat) (v : α) : (setAt d l i v).getD i d = v := by
  rw [getD_setAt]; simp

end Sys2Proof.Laws
end

