-- ==== Sys2Proof/Laws/State.lean ====
section
/-!
SUPPORT. Laws/State.lean: what each update of the state leaves in each field, so that no later proof unfolds a record
update. Every lemma is true by definition.
-/
namespace Sys2Proof.Laws
open Sys2Proof.Machine

/-! The device part of the state -/

@[simp] theorem withDev_pwr (s : State) (m : Dev) : (s.withDev m).pwr = s.pwr := rfl
@[simp] theorem withDev_sec (s : State) (m : Dev) : (s.withDev m).sec = s.sec := rfl
@[simp] theorem withDev_pkg (s : State) (m : Dev) : (s.withDev m).pkg = s.pkg := rfl
@[simp] theorem withDev_dev (s : State) (m : Dev) : (s.withDev m).dev = m := rfl
@[simp] theorem withDev_withDev (s : State) (m n : Dev) : (s.withDev m).withDev n = s.withDev n := rfl
@[simp] theorem withDev_self (s : State) : s.withDev s.dev = s := rfl

/-! `Dev.onWave` -/

@[simp] theorem onWave_host (m : Dev) (g : Wave → Wave) : (m.onWave g).host = m.host := rfl
@[simp] theorem onWave_cap (m : Dev) (g : Wave → Wave) : (m.onWave g).cap = m.cap := rfl
@[simp] theorem onWave_mem (m : Dev) (g : Wave → Wave) : (m.onWave g).mem = m.mem := rfl
@[simp] theorem onWave_hostmem (m : Dev) (g : Wave → Wave) : (m.onWave g).hostmem = m.hostmem := rfl
@[simp] theorem onWave_msix (m : Dev) (g : Wave → Wave) : (m.onWave g).msix = m.msix := rfl
@[simp] theorem onWave_events (m : Dev) (g : Wave → Wave) : (m.onWave g).events = m.events := rfl
@[simp] theorem onWave_launches (m : Dev) (g : Wave → Wave) : (m.onWave g).launches = m.launches := rfl
@[simp] theorem onWave_nextLaunch (m : Dev) (g : Wave → Wave) : (m.onWave g).nextLaunch = m.nextLaunch := rfl
@[simp] theorem onWave_served (m : Dev) (g : Wave → Wave) : (m.onWave g).served = m.served := rfl
@[simp] theorem onWave_watch (m : Dev) (g : Wave → Wave) : (m.onWave g).watch = m.watch := rfl
@[simp] theorem onWave_dropped (m : Dev) (g : Wave → Wave) : (m.onWave g).dropped = m.dropped := rfl
@[simp] theorem onWave_gdrop (m : Dev) (g : Wave → Wave) : (m.onWave g).gdrop = m.gdrop := rfl
@[simp] theorem onWave_ended (m : Dev) (g : Wave → Wave) : (m.onWave g).ended = m.ended := rfl
@[simp] theorem onWave_savedWaves (m : Dev) (g : Wave → Wave) : (m.onWave g).savedWaves = m.savedWaves := rfl
@[simp] theorem onWave_holds (m : Dev) (g : Wave → Wave) : (m.onWave g).holds = m.holds := rfl
@[simp] theorem onWave_hostHeld (m : Dev) (g : Wave → Wave) : (m.onWave g).hostHeld = m.hostHeld := rfl
@[simp] theorem onWave_turnLeft (m : Dev) (g : Wave → Wave) : (m.onWave g).turnLeft = m.turnLeft := rfl
@[simp] theorem onWave_ports (m : Dev) (g : Wave → Wave) : (m.onWave g).ports = m.ports := rfl
@[simp] theorem onWave_cores (m : Dev) (g : Wave → Wave) : (m.onWave g).cores = m.cores := rfl
@[simp] theorem onWave_clusters (m : Dev) (g : Wave → Wave) : (m.onWave g).clusters = m.clusters := rfl
@[simp] theorem onWave_dies (m : Dev) (g : Wave → Wave) : (m.onWave g).dies = m.dies := rfl
@[simp] theorem onWave_tag7 (m : Dev) (g : Wave → Wave) : (m.onWave g).tag7 = m.tag7 := rfl
@[simp] theorem onWave_tuns (m : Dev) (g : Wave → Wave) : (m.onWave g).tuns = m.tuns := rfl
@[simp] theorem onWave_cmds (m : Dev) (g : Wave → Wave) : (m.onWave g).cmds = m.cmds := rfl
@[simp] theorem onWave_nextCmd (m : Dev) (g : Wave → Wave) : (m.onWave g).nextCmd = m.nextCmd := rfl
@[simp] theorem onWave_nextCopy (m : Dev) (g : Wave → Wave) : (m.onWave g).nextCopy = m.nextCopy := rfl
@[simp] theorem onWave_copyParties (m : Dev) (g : Wave → Wave) : (m.onWave g).copyParties = m.copyParties := rfl
@[simp] theorem onWave_peers (m : Dev) (g : Wave → Wave) : (m.onWave g).peers = m.peers := rfl
@[simp] theorem onWave_nextPeer (m : Dev) (g : Wave → Wave) : (m.onWave g).nextPeer = m.nextPeer := rfl
@[simp] theorem onWave_waves (m : Dev) (g : Wave → Wave) : (m.onWave g).waves = m.waves := rfl
@[simp] theorem onWave_wave (m : Dev) (g : Wave → Wave) : (m.onWave g).wave = g m.wave := rfl
@[simp] theorem onWave_frag (m : Dev) (g : Wave → Wave) : (m.onWave g).frag = m.frag := rfl
@[simp] theorem onWave_nextUid (m : Dev) (g : Wave → Wave) : (m.onWave g).nextUid = m.nextUid := rfl
@[simp] theorem onWave_agenda (m : Dev) (g : Wave → Wave) : (m.onWave g).agenda = m.agenda := rfl
@[simp] theorem onWave_turns (m : Dev) (g : Wave → Wave) : (m.onWave g).turns = m.turns := rfl
@[simp] theorem onWave_lastCore (m : Dev) (g : Wave → Wave) : (m.onWave g).lastCore = m.lastCore := rfl
@[simp] theorem onWave_choices (m : Dev) (g : Wave → Wave) : (m.onWave g).choices = m.choices := rfl

/-! `Dev.onFrag` -/

@[simp] theorem onFrag_host (m : Dev) (g : Frag → Frag) : (m.onFrag g).host = m.host := rfl
@[simp] theorem onFrag_cap (m : Dev) (g : Frag → Frag) : (m.onFrag g).cap = m.cap := rfl
@[simp] theorem onFrag_mem (m : Dev) (g : Frag → Frag) : (m.onFrag g).mem = m.mem := rfl
@[simp] theorem onFrag_hostmem (m : Dev) (g : Frag → Frag) : (m.onFrag g).hostmem = m.hostmem := rfl
@[simp] theorem onFrag_msix (m : Dev) (g : Frag → Frag) : (m.onFrag g).msix = m.msix := rfl
@[simp] theorem onFrag_events (m : Dev) (g : Frag → Frag) : (m.onFrag g).events = m.events := rfl
@[simp] theorem onFrag_launches (m : Dev) (g : Frag → Frag) : (m.onFrag g).launches = m.launches := rfl
@[simp] theorem onFrag_nextLaunch (m : Dev) (g : Frag → Frag) : (m.onFrag g).nextLaunch = m.nextLaunch := rfl
@[simp] theorem onFrag_served (m : Dev) (g : Frag → Frag) : (m.onFrag g).served = m.served := rfl
@[simp] theorem onFrag_watch (m : Dev) (g : Frag → Frag) : (m.onFrag g).watch = m.watch := rfl
@[simp] theorem onFrag_dropped (m : Dev) (g : Frag → Frag) : (m.onFrag g).dropped = m.dropped := rfl
@[simp] theorem onFrag_gdrop (m : Dev) (g : Frag → Frag) : (m.onFrag g).gdrop = m.gdrop := rfl
@[simp] theorem onFrag_ended (m : Dev) (g : Frag → Frag) : (m.onFrag g).ended = m.ended := rfl
@[simp] theorem onFrag_savedWaves (m : Dev) (g : Frag → Frag) : (m.onFrag g).savedWaves = m.savedWaves := rfl
@[simp] theorem onFrag_holds (m : Dev) (g : Frag → Frag) : (m.onFrag g).holds = m.holds := rfl
@[simp] theorem onFrag_hostHeld (m : Dev) (g : Frag → Frag) : (m.onFrag g).hostHeld = m.hostHeld := rfl
@[simp] theorem onFrag_turnLeft (m : Dev) (g : Frag → Frag) : (m.onFrag g).turnLeft = m.turnLeft := rfl
@[simp] theorem onFrag_ports (m : Dev) (g : Frag → Frag) : (m.onFrag g).ports = m.ports := rfl
@[simp] theorem onFrag_cores (m : Dev) (g : Frag → Frag) : (m.onFrag g).cores = m.cores := rfl
@[simp] theorem onFrag_clusters (m : Dev) (g : Frag → Frag) : (m.onFrag g).clusters = m.clusters := rfl
@[simp] theorem onFrag_dies (m : Dev) (g : Frag → Frag) : (m.onFrag g).dies = m.dies := rfl
@[simp] theorem onFrag_tag7 (m : Dev) (g : Frag → Frag) : (m.onFrag g).tag7 = m.tag7 := rfl
@[simp] theorem onFrag_tuns (m : Dev) (g : Frag → Frag) : (m.onFrag g).tuns = m.tuns := rfl
@[simp] theorem onFrag_cmds (m : Dev) (g : Frag → Frag) : (m.onFrag g).cmds = m.cmds := rfl
@[simp] theorem onFrag_nextCmd (m : Dev) (g : Frag → Frag) : (m.onFrag g).nextCmd = m.nextCmd := rfl
@[simp] theorem onFrag_nextCopy (m : Dev) (g : Frag → Frag) : (m.onFrag g).nextCopy = m.nextCopy := rfl
@[simp] theorem onFrag_copyParties (m : Dev) (g : Frag → Frag) : (m.onFrag g).copyParties = m.copyParties := rfl
@[simp] theorem onFrag_peers (m : Dev) (g : Frag → Frag) : (m.onFrag g).peers = m.peers := rfl
@[simp] theorem onFrag_nextPeer (m : Dev) (g : Frag → Frag) : (m.onFrag g).nextPeer = m.nextPeer := rfl
@[simp] theorem onFrag_waves (m : Dev) (g : Frag → Frag) : (m.onFrag g).waves = m.waves := rfl
@[simp] theorem onFrag_wave (m : Dev) (g : Frag → Frag) : (m.onFrag g).wave = m.wave := rfl
@[simp] theorem onFrag_frag (m : Dev) (g : Frag → Frag) : (m.onFrag g).frag = g m.frag := rfl
@[simp] theorem onFrag_nextUid (m : Dev) (g : Frag → Frag) : (m.onFrag g).nextUid = m.nextUid := rfl
@[simp] theorem onFrag_agenda (m : Dev) (g : Frag → Frag) : (m.onFrag g).agenda = m.agenda := rfl
@[simp] theorem onFrag_turns (m : Dev) (g : Frag → Frag) : (m.onFrag g).turns = m.turns := rfl
@[simp] theorem onFrag_lastCore (m : Dev) (g : Frag → Frag) : (m.onFrag g).lastCore = m.lastCore := rfl
@[simp] theorem onFrag_choices (m : Dev) (g : Frag → Frag) : (m.onFrag g).choices = m.choices := rfl

/-! `Dev.advance` -/

@[simp] theorem advance_host (m : Dev) : (m.advance).host = m.host := rfl
@[simp] theorem advance_cap (m : Dev) : (m.advance).cap = m.cap := rfl
@[simp] theorem advance_mem (m : Dev) : (m.advance).mem = m.mem := rfl
@[simp] theorem advance_hostmem (m : Dev) : (m.advance).hostmem = m.hostmem := rfl
@[simp] theorem advance_msix (m : Dev) : (m.advance).msix = m.msix := rfl
@[simp] theorem advance_events (m : Dev) : (m.advance).events = m.events := rfl
@[simp] theorem advance_launches (m : Dev) : (m.advance).launches = m.launches := rfl
@[simp] theorem advance_nextLaunch (m : Dev) : (m.advance).nextLaunch = m.nextLaunch := rfl
@[simp] theorem advance_served (m : Dev) : (m.advance).served = m.served := rfl
@[simp] theorem advance_watch (m : Dev) : (m.advance).watch = m.watch := rfl
@[simp] theorem advance_dropped (m : Dev) : (m.advance).dropped = m.dropped := rfl
@[simp] theorem advance_gdrop (m : Dev) : (m.advance).gdrop = m.gdrop := rfl
@[simp] theorem advance_ended (m : Dev) : (m.advance).ended = m.ended := rfl
@[simp] theorem advance_savedWaves (m : Dev) : (m.advance).savedWaves = m.savedWaves := rfl
@[simp] theorem advance_holds (m : Dev) : (m.advance).holds = m.holds := rfl
@[simp] theorem advance_hostHeld (m : Dev) : (m.advance).hostHeld = m.hostHeld := rfl
@[simp] theorem advance_turnLeft (m : Dev) : (m.advance).turnLeft = m.turnLeft := rfl
@[simp] theorem advance_ports (m : Dev) : (m.advance).ports = m.ports := rfl
@[simp] theorem advance_cores (m : Dev) : (m.advance).cores = m.cores := rfl
@[simp] theorem advance_clusters (m : Dev) : (m.advance).clusters = m.clusters := rfl
@[simp] theorem advance_dies (m : Dev) : (m.advance).dies = m.dies := rfl
@[simp] theorem advance_tag7 (m : Dev) : (m.advance).tag7 = m.tag7 := rfl
@[simp] theorem advance_tuns (m : Dev) : (m.advance).tuns = m.tuns := rfl
@[simp] theorem advance_cmds (m : Dev) : (m.advance).cmds = m.cmds := rfl
@[simp] theorem advance_nextCmd (m : Dev) : (m.advance).nextCmd = m.nextCmd := rfl
@[simp] theorem advance_nextCopy (m : Dev) : (m.advance).nextCopy = m.nextCopy := rfl
@[simp] theorem advance_copyParties (m : Dev) : (m.advance).copyParties = m.copyParties := rfl
@[simp] theorem advance_peers (m : Dev) : (m.advance).peers = m.peers := rfl
@[simp] theorem advance_nextPeer (m : Dev) : (m.advance).nextPeer = m.nextPeer := rfl
@[simp] theorem advance_waves (m : Dev) : (m.advance).waves = m.waves := rfl
@[simp] theorem advance_wave (m : Dev) : (m.advance).wave = m.wave := rfl
@[simp] theorem advance_frag (m : Dev) : (m.advance).frag = nextWord m.frag := rfl
@[simp] theorem advance_nextUid (m : Dev) : (m.advance).nextUid = m.nextUid := rfl
@[simp] theorem advance_agenda (m : Dev) : (m.advance).agenda = m.agenda := rfl
@[simp] theorem advance_turns (m : Dev) : (m.advance).turns = m.turns := rfl
@[simp] theorem advance_lastCore (m : Dev) : (m.advance).lastCore = m.lastCore := rfl
@[simp] theorem advance_choices (m : Dev) : (m.advance).choices = m.choices := rfl

/-! `Dev.goto` -/

@[simp] theorem goto_host (m : Dev) (t : Nat) : (m.goto t).host = m.host := rfl
@[simp] theorem goto_cap (m : Dev) (t : Nat) : (m.goto t).cap = m.cap := rfl
@[simp] theorem goto_mem (m : Dev) (t : Nat) : (m.goto t).mem = m.mem := rfl
@[simp] theorem goto_hostmem (m : Dev) (t : Nat) : (m.goto t).hostmem = m.hostmem := rfl
@[simp] theorem goto_msix (m : Dev) (t : Nat) : (m.goto t).msix = m.msix := rfl
@[simp] theorem goto_events (m : Dev) (t : Nat) : (m.goto t).events = m.events := rfl
@[simp] theorem goto_launches (m : Dev) (t : Nat) : (m.goto t).launches = m.launches := rfl
@[simp] theorem goto_nextLaunch (m : Dev) (t : Nat) : (m.goto t).nextLaunch = m.nextLaunch := rfl
@[simp] theorem goto_served (m : Dev) (t : Nat) : (m.goto t).served = m.served := rfl
@[simp] theorem goto_watch (m : Dev) (t : Nat) : (m.goto t).watch = m.watch := rfl
@[simp] theorem goto_dropped (m : Dev) (t : Nat) : (m.goto t).dropped = m.dropped := rfl
@[simp] theorem goto_gdrop (m : Dev) (t : Nat) : (m.goto t).gdrop = m.gdrop := rfl
@[simp] theorem goto_ended (m : Dev) (t : Nat) : (m.goto t).ended = m.ended := rfl
@[simp] theorem goto_savedWaves (m : Dev) (t : Nat) : (m.goto t).savedWaves = m.savedWaves := rfl
@[simp] theorem goto_holds (m : Dev) (t : Nat) : (m.goto t).holds = m.holds := rfl
@[simp] theorem goto_hostHeld (m : Dev) (t : Nat) : (m.goto t).hostHeld = m.hostHeld := rfl
@[simp] theorem goto_turnLeft (m : Dev) (t : Nat) : (m.goto t).turnLeft = m.turnLeft := rfl
@[simp] theorem goto_ports (m : Dev) (t : Nat) : (m.goto t).ports = m.ports := rfl
@[simp] theorem goto_cores (m : Dev) (t : Nat) : (m.goto t).cores = m.cores := rfl
@[simp] theorem goto_clusters (m : Dev) (t : Nat) : (m.goto t).clusters = m.clusters := rfl
@[simp] theorem goto_dies (m : Dev) (t : Nat) : (m.goto t).dies = m.dies := rfl
@[simp] theorem goto_tag7 (m : Dev) (t : Nat) : (m.goto t).tag7 = m.tag7 := rfl
@[simp] theorem goto_tuns (m : Dev) (t : Nat) : (m.goto t).tuns = m.tuns := rfl
@[simp] theorem goto_cmds (m : Dev) (t : Nat) : (m.goto t).cmds = m.cmds := rfl
@[simp] theorem goto_nextCmd (m : Dev) (t : Nat) : (m.goto t).nextCmd = m.nextCmd := rfl
@[simp] theorem goto_nextCopy (m : Dev) (t : Nat) : (m.goto t).nextCopy = m.nextCopy := rfl
@[simp] theorem goto_copyParties (m : Dev) (t : Nat) : (m.goto t).copyParties = m.copyParties := rfl
@[simp] theorem goto_peers (m : Dev) (t : Nat) : (m.goto t).peers = m.peers := rfl
@[simp] theorem goto_nextPeer (m : Dev) (t : Nat) : (m.goto t).nextPeer = m.nextPeer := rfl
@[simp] theorem goto_waves (m : Dev) (t : Nat) : (m.goto t).waves = m.waves := rfl
@[simp] theorem goto_wave (m : Dev) (t : Nat) : (m.goto t).wave = m.wave := rfl
@[simp] theorem goto_frag (m : Dev) (t : Nat) : (m.goto t).frag = { m.frag with spc := t, fell := false, phase := 0, wait := .none } := rfl
@[simp] theorem goto_nextUid (m : Dev) (t : Nat) : (m.goto t).nextUid = m.nextUid := rfl
@[simp] theorem goto_agenda (m : Dev) (t : Nat) : (m.goto t).agenda = m.agenda := rfl
@[simp] theorem goto_turns (m : Dev) (t : Nat) : (m.goto t).turns = m.turns := rfl
@[simp] theorem goto_lastCore (m : Dev) (t : Nat) : (m.goto t).lastCore = m.lastCore := rfl
@[simp] theorem goto_choices (m : Dev) (t : Nat) : (m.goto t).choices = m.choices := rfl

/-! `Dev.setS` -/

@[simp] theorem setS_host (m : Dev) (r : BitVec 6) (v : DWord) : (m.setS r v).host = m.host := rfl
@[simp] theorem setS_cap (m : Dev) (r : BitVec 6) (v : DWord) : (m.setS r v).cap = m.cap := rfl
@[simp] theorem setS_mem (m : Dev) (r : BitVec 6) (v : DWord) : (m.setS r v).mem = m.mem := rfl
@[simp] theorem setS_hostmem (m : Dev) (r : BitVec 6) (v : DWord) : (m.setS r v).hostmem = m.hostmem := rfl
@[simp] theorem setS_msix (m : Dev) (r : BitVec 6) (v : DWord) : (m.setS r v).msix = m.msix := rfl
@[simp] theorem setS_events (m : Dev) (r : BitVec 6) (v : DWord) : (m.setS r v).events = m.events := rfl
@[simp] theorem setS_launches (m : Dev) (r : BitVec 6) (v : DWord) : (m.setS r v).launches = m.launches := rfl
@[simp] theorem setS_nextLaunch (m : Dev) (r : BitVec 6) (v : DWord) : (m.setS r v).nextLaunch = m.nextLaunch := rfl
@[simp] theorem setS_served (m : Dev) (r : BitVec 6) (v : DWord) : (m.setS r v).served = m.served := rfl
@[simp] theorem setS_watch (m : Dev) (r : BitVec 6) (v : DWord) : (m.setS r v).watch = m.watch := rfl
@[simp] theorem setS_dropped (m : Dev) (r : BitVec 6) (v : DWord) : (m.setS r v).dropped = m.dropped := rfl
@[simp] theorem setS_gdrop (m : Dev) (r : BitVec 6) (v : DWord) : (m.setS r v).gdrop = m.gdrop := rfl
@[simp] theorem setS_ended (m : Dev) (r : BitVec 6) (v : DWord) : (m.setS r v).ended = m.ended := rfl
@[simp] theorem setS_savedWaves (m : Dev) (r : BitVec 6) (v : DWord) : (m.setS r v).savedWaves = m.savedWaves := rfl
@[simp] theorem setS_holds (m : Dev) (r : BitVec 6) (v : DWord) : (m.setS r v).holds = m.holds := rfl
@[simp] theorem setS_hostHeld (m : Dev) (r : BitVec 6) (v : DWord) : (m.setS r v).hostHeld = m.hostHeld := rfl
@[simp] theorem setS_turnLeft (m : Dev) (r : BitVec 6) (v : DWord) : (m.setS r v).turnLeft = m.turnLeft := rfl
@[simp] theorem setS_ports (m : Dev) (r : BitVec 6) (v : DWord) : (m.setS r v).ports = m.ports := rfl
@[simp] theorem setS_cores (m : Dev) (r : BitVec 6) (v : DWord) : (m.setS r v).cores = m.cores := rfl
@[simp] theorem setS_clusters (m : Dev) (r : BitVec 6) (v : DWord) : (m.setS r v).clusters = m.clusters := rfl
@[simp] theorem setS_dies (m : Dev) (r : BitVec 6) (v : DWord) : (m.setS r v).dies = m.dies := rfl
@[simp] theorem setS_tag7 (m : Dev) (r : BitVec 6) (v : DWord) : (m.setS r v).tag7 = m.tag7 := rfl
@[simp] theorem setS_tuns (m : Dev) (r : BitVec 6) (v : DWord) : (m.setS r v).tuns = m.tuns := rfl
@[simp] theorem setS_cmds (m : Dev) (r : BitVec 6) (v : DWord) : (m.setS r v).cmds = m.cmds := rfl
@[simp] theorem setS_nextCmd (m : Dev) (r : BitVec 6) (v : DWord) : (m.setS r v).nextCmd = m.nextCmd := rfl
@[simp] theorem setS_nextCopy (m : Dev) (r : BitVec 6) (v : DWord) : (m.setS r v).nextCopy = m.nextCopy := rfl
@[simp] theorem setS_copyParties (m : Dev) (r : BitVec 6) (v : DWord) : (m.setS r v).copyParties = m.copyParties := rfl
@[simp] theorem setS_peers (m : Dev) (r : BitVec 6) (v : DWord) : (m.setS r v).peers = m.peers := rfl
@[simp] theorem setS_nextPeer (m : Dev) (r : BitVec 6) (v : DWord) : (m.setS r v).nextPeer = m.nextPeer := rfl
@[simp] theorem setS_waves (m : Dev) (r : BitVec 6) (v : DWord) : (m.setS r v).waves = m.waves := rfl
@[simp] theorem setS_wave (m : Dev) (r : BitVec 6) (v : DWord) : (m.setS r v).wave = m.wave.sput r v := rfl
@[simp] theorem setS_frag (m : Dev) (r : BitVec 6) (v : DWord) : (m.setS r v).frag = m.frag := rfl
@[simp] theorem setS_nextUid (m : Dev) (r : BitVec 6) (v : DWord) : (m.setS r v).nextUid = m.nextUid := rfl
@[simp] theorem setS_agenda (m : Dev) (r : BitVec 6) (v : DWord) : (m.setS r v).agenda = m.agenda := rfl
@[simp] theorem setS_turns (m : Dev) (r : BitVec 6) (v : DWord) : (m.setS r v).turns = m.turns := rfl
@[simp] theorem setS_lastCore (m : Dev) (r : BitVec 6) (v : DWord) : (m.setS r v).lastCore = m.lastCore := rfl
@[simp] theorem setS_choices (m : Dev) (r : BitVec 6) (v : DWord) : (m.setS r v).choices = m.choices := rfl

/-! `Dev.setC` -/

@[simp] theorem setC_host (m : Dev) (c : BitVec 3) (b : Bool) : (m.setC c b).host = m.host := rfl
@[simp] theorem setC_cap (m : Dev) (c : BitVec 3) (b : Bool) : (m.setC c b).cap = m.cap := rfl
@[simp] theorem setC_mem (m : Dev) (c : BitVec 3) (b : Bool) : (m.setC c b).mem = m.mem := rfl
@[simp] theorem setC_hostmem (m : Dev) (c : BitVec 3) (b : Bool) : (m.setC c b).hostmem = m.hostmem := rfl
@[simp] theorem setC_msix (m : Dev) (c : BitVec 3) (b : Bool) : (m.setC c b).msix = m.msix := rfl
@[simp] theorem setC_events (m : Dev) (c : BitVec 3) (b : Bool) : (m.setC c b).events = m.events := rfl
@[simp] theorem setC_launches (m : Dev) (c : BitVec 3) (b : Bool) : (m.setC c b).launches = m.launches := rfl
@[simp] theorem setC_nextLaunch (m : Dev) (c : BitVec 3) (b : Bool) : (m.setC c b).nextLaunch = m.nextLaunch := rfl
@[simp] theorem setC_served (m : Dev) (c : BitVec 3) (b : Bool) : (m.setC c b).served = m.served := rfl
@[simp] theorem setC_watch (m : Dev) (c : BitVec 3) (b : Bool) : (m.setC c b).watch = m.watch := rfl
@[simp] theorem setC_dropped (m : Dev) (c : BitVec 3) (b : Bool) : (m.setC c b).dropped = m.dropped := rfl
@[simp] theorem setC_gdrop (m : Dev) (c : BitVec 3) (b : Bool) : (m.setC c b).gdrop = m.gdrop := rfl
@[simp] theorem setC_ended (m : Dev) (c : BitVec 3) (b : Bool) : (m.setC c b).ended = m.ended := rfl
@[simp] theorem setC_savedWaves (m : Dev) (c : BitVec 3) (b : Bool) : (m.setC c b).savedWaves = m.savedWaves := rfl
@[simp] theorem setC_holds (m : Dev) (c : BitVec 3) (b : Bool) : (m.setC c b).holds = m.holds := rfl
@[simp] theorem setC_hostHeld (m : Dev) (c : BitVec 3) (b : Bool) : (m.setC c b).hostHeld = m.hostHeld := rfl
@[simp] theorem setC_turnLeft (m : Dev) (c : BitVec 3) (b : Bool) : (m.setC c b).turnLeft = m.turnLeft := rfl
@[simp] theorem setC_ports (m : Dev) (c : BitVec 3) (b : Bool) : (m.setC c b).ports = m.ports := rfl
@[simp] theorem setC_cores (m : Dev) (c : BitVec 3) (b : Bool) : (m.setC c b).cores = m.cores := rfl
@[simp] theorem setC_clusters (m : Dev) (c : BitVec 3) (b : Bool) : (m.setC c b).clusters = m.clusters := rfl
@[simp] theorem setC_dies (m : Dev) (c : BitVec 3) (b : Bool) : (m.setC c b).dies = m.dies := rfl
@[simp] theorem setC_tag7 (m : Dev) (c : BitVec 3) (b : Bool) : (m.setC c b).tag7 = m.tag7 := rfl
@[simp] theorem setC_tuns (m : Dev) (c : BitVec 3) (b : Bool) : (m.setC c b).tuns = m.tuns := rfl
@[simp] theorem setC_cmds (m : Dev) (c : BitVec 3) (b : Bool) : (m.setC c b).cmds = m.cmds := rfl
@[simp] theorem setC_nextCmd (m : Dev) (c : BitVec 3) (b : Bool) : (m.setC c b).nextCmd = m.nextCmd := rfl
@[simp] theorem setC_nextCopy (m : Dev) (c : BitVec 3) (b : Bool) : (m.setC c b).nextCopy = m.nextCopy := rfl
@[simp] theorem setC_copyParties (m : Dev) (c : BitVec 3) (b : Bool) : (m.setC c b).copyParties = m.copyParties := rfl
@[simp] theorem setC_peers (m : Dev) (c : BitVec 3) (b : Bool) : (m.setC c b).peers = m.peers := rfl
@[simp] theorem setC_nextPeer (m : Dev) (c : BitVec 3) (b : Bool) : (m.setC c b).nextPeer = m.nextPeer := rfl
@[simp] theorem setC_waves (m : Dev) (c : BitVec 3) (b : Bool) : (m.setC c b).waves = m.waves := rfl
@[simp] theorem setC_wave (m : Dev) (c : BitVec 3) (b : Bool) : (m.setC c b).wave = m.wave.cput c b := rfl
@[simp] theorem setC_frag (m : Dev) (c : BitVec 3) (b : Bool) : (m.setC c b).frag = m.frag := rfl
@[simp] theorem setC_nextUid (m : Dev) (c : BitVec 3) (b : Bool) : (m.setC c b).nextUid = m.nextUid := rfl
@[simp] theorem setC_agenda (m : Dev) (c : BitVec 3) (b : Bool) : (m.setC c b).agenda = m.agenda := rfl
@[simp] theorem setC_turns (m : Dev) (c : BitVec 3) (b : Bool) : (m.setC c b).turns = m.turns := rfl
@[simp] theorem setC_lastCore (m : Dev) (c : BitVec 3) (b : Bool) : (m.setC c b).lastCore = m.lastCore := rfl
@[simp] theorem setC_choices (m : Dev) (c : BitVec 3) (b : Bool) : (m.setC c b).choices = m.choices := rfl

/-! `Dev.setCore` -/

@[simp] theorem setCore_host (m : Dev) (k : Nat) (c : Core) : (m.setCore k c).host = m.host := rfl
@[simp] theorem setCore_cap (m : Dev) (k : Nat) (c : Core) : (m.setCore k c).cap = m.cap := rfl
@[simp] theorem setCore_mem (m : Dev) (k : Nat) (c : Core) : (m.setCore k c).mem = m.mem := rfl
@[simp] theorem setCore_hostmem (m : Dev) (k : Nat) (c : Core) : (m.setCore k c).hostmem = m.hostmem := rfl
@[simp] theorem setCore_msix (m : Dev) (k : Nat) (c : Core) : (m.setCore k c).msix = m.msix := rfl
@[simp] theorem setCore_events (m : Dev) (k : Nat) (c : Core) : (m.setCore k c).events = m.events := rfl
@[simp] theorem setCore_launches (m : Dev) (k : Nat) (c : Core) : (m.setCore k c).launches = m.launches := rfl
@[simp] theorem setCore_nextLaunch (m : Dev) (k : Nat) (c : Core) : (m.setCore k c).nextLaunch = m.nextLaunch := rfl
@[simp] theorem setCore_served (m : Dev) (k : Nat) (c : Core) : (m.setCore k c).served = m.served := rfl
@[simp] theorem setCore_watch (m : Dev) (k : Nat) (c : Core) : (m.setCore k c).watch = m.watch := rfl
@[simp] theorem setCore_dropped (m : Dev) (k : Nat) (c : Core) : (m.setCore k c).dropped = m.dropped := rfl
@[simp] theorem setCore_gdrop (m : Dev) (k : Nat) (c : Core) : (m.setCore k c).gdrop = m.gdrop := rfl
@[simp] theorem setCore_ended (m : Dev) (k : Nat) (c : Core) : (m.setCore k c).ended = m.ended := rfl
@[simp] theorem setCore_savedWaves (m : Dev) (k : Nat) (c : Core) : (m.setCore k c).savedWaves = m.savedWaves := rfl
@[simp] theorem setCore_holds (m : Dev) (k : Nat) (c : Core) : (m.setCore k c).holds = m.holds := rfl
@[simp] theorem setCore_hostHeld (m : Dev) (k : Nat) (c : Core) : (m.setCore k c).hostHeld = m.hostHeld := rfl
@[simp] theorem setCore_turnLeft (m : Dev) (k : Nat) (c : Core) : (m.setCore k c).turnLeft = m.turnLeft := rfl
@[simp] theorem setCore_ports (m : Dev) (k : Nat) (c : Core) : (m.setCore k c).ports = m.ports := rfl
@[simp] theorem setCore_cores (m : Dev) (k : Nat) (c : Core) : (m.setCore k c).cores = m.cores.put k c := rfl
@[simp] theorem setCore_clusters (m : Dev) (k : Nat) (c : Core) : (m.setCore k c).clusters = m.clusters := rfl
@[simp] theorem setCore_dies (m : Dev) (k : Nat) (c : Core) : (m.setCore k c).dies = m.dies := rfl
@[simp] theorem setCore_tag7 (m : Dev) (k : Nat) (c : Core) : (m.setCore k c).tag7 = m.tag7 := rfl
@[simp] theorem setCore_tuns (m : Dev) (k : Nat) (c : Core) : (m.setCore k c).tuns = m.tuns := rfl
@[simp] theorem setCore_cmds (m : Dev) (k : Nat) (c : Core) : (m.setCore k c).cmds = m.cmds := rfl
@[simp] theorem setCore_nextCmd (m : Dev) (k : Nat) (c : Core) : (m.setCore k c).nextCmd = m.nextCmd := rfl
@[simp] theorem setCore_nextCopy (m : Dev) (k : Nat) (c : Core) : (m.setCore k c).nextCopy = m.nextCopy := rfl
@[simp] theorem setCore_copyParties (m : Dev) (k : Nat) (c : Core) : (m.setCore k c).copyParties = m.copyParties := rfl
@[simp] theorem setCore_peers (m : Dev) (k : Nat) (c : Core) : (m.setCore k c).peers = m.peers := rfl
@[simp] theorem setCore_nextPeer (m : Dev) (k : Nat) (c : Core) : (m.setCore k c).nextPeer = m.nextPeer := rfl
@[simp] theorem setCore_waves (m : Dev) (k : Nat) (c : Core) : (m.setCore k c).waves = m.waves := rfl
@[simp] theorem setCore_wave (m : Dev) (k : Nat) (c : Core) : (m.setCore k c).wave = m.wave := rfl
@[simp] theorem setCore_frag (m : Dev) (k : Nat) (c : Core) : (m.setCore k c).frag = m.frag := rfl
@[simp] theorem setCore_nextUid (m : Dev) (k : Nat) (c : Core) : (m.setCore k c).nextUid = m.nextUid := rfl
@[simp] theorem setCore_agenda (m : Dev) (k : Nat) (c : Core) : (m.setCore k c).agenda = m.agenda := rfl
@[simp] theorem setCore_turns (m : Dev) (k : Nat) (c : Core) : (m.setCore k c).turns = m.turns := rfl
@[simp] theorem setCore_lastCore (m : Dev) (k : Nat) (c : Core) : (m.setCore k c).lastCore = m.lastCore := rfl
@[simp] theorem setCore_choices (m : Dev) (k : Nat) (c : Core) : (m.setCore k c).choices = m.choices := rfl

/-! `Dev.setCluster` -/

@[simp] theorem setCluster_host (m : Dev) (k : Nat) (c : Cluster) : (m.setCluster k c).host = m.host := rfl
@[simp] theorem setCluster_cap (m : Dev) (k : Nat) (c : Cluster) : (m.setCluster k c).cap = m.cap := rfl
@[simp] theorem setCluster_mem (m : Dev) (k : Nat) (c : Cluster) : (m.setCluster k c).mem = m.mem := rfl
@[simp] theorem setCluster_hostmem (m : Dev) (k : Nat) (c : Cluster) : (m.setCluster k c).hostmem = m.hostmem := rfl
@[simp] theorem setCluster_msix (m : Dev) (k : Nat) (c : Cluster) : (m.setCluster k c).msix = m.msix := rfl
@[simp] theorem setCluster_events (m : Dev) (k : Nat) (c : Cluster) : (m.setCluster k c).events = m.events := rfl
@[simp] theorem setCluster_launches (m : Dev) (k : Nat) (c : Cluster) : (m.setCluster k c).launches = m.launches := rfl
@[simp] theorem setCluster_nextLaunch (m : Dev) (k : Nat) (c : Cluster) : (m.setCluster k c).nextLaunch = m.nextLaunch := rfl
@[simp] theorem setCluster_served (m : Dev) (k : Nat) (c : Cluster) : (m.setCluster k c).served = m.served := rfl
@[simp] theorem setCluster_watch (m : Dev) (k : Nat) (c : Cluster) : (m.setCluster k c).watch = m.watch := rfl
@[simp] theorem setCluster_dropped (m : Dev) (k : Nat) (c : Cluster) : (m.setCluster k c).dropped = m.dropped := rfl
@[simp] theorem setCluster_gdrop (m : Dev) (k : Nat) (c : Cluster) : (m.setCluster k c).gdrop = m.gdrop := rfl
@[simp] theorem setCluster_ended (m : Dev) (k : Nat) (c : Cluster) : (m.setCluster k c).ended = m.ended := rfl
@[simp] theorem setCluster_savedWaves (m : Dev) (k : Nat) (c : Cluster) : (m.setCluster k c).savedWaves = m.savedWaves := rfl
@[simp] theorem setCluster_holds (m : Dev) (k : Nat) (c : Cluster) : (m.setCluster k c).holds = m.holds := rfl
@[simp] theorem setCluster_hostHeld (m : Dev) (k : Nat) (c : Cluster) : (m.setCluster k c).hostHeld = m.hostHeld := rfl
@[simp] theorem setCluster_turnLeft (m : Dev) (k : Nat) (c : Cluster) : (m.setCluster k c).turnLeft = m.turnLeft := rfl
@[simp] theorem setCluster_ports (m : Dev) (k : Nat) (c : Cluster) : (m.setCluster k c).ports = m.ports := rfl
@[simp] theorem setCluster_cores (m : Dev) (k : Nat) (c : Cluster) : (m.setCluster k c).cores = m.cores := rfl
@[simp] theorem setCluster_clusters (m : Dev) (k : Nat) (c : Cluster) : (m.setCluster k c).clusters = m.clusters.set k c := rfl
@[simp] theorem setCluster_dies (m : Dev) (k : Nat) (c : Cluster) : (m.setCluster k c).dies = m.dies := rfl
@[simp] theorem setCluster_tag7 (m : Dev) (k : Nat) (c : Cluster) : (m.setCluster k c).tag7 = m.tag7 := rfl
@[simp] theorem setCluster_tuns (m : Dev) (k : Nat) (c : Cluster) : (m.setCluster k c).tuns = m.tuns := rfl
@[simp] theorem setCluster_cmds (m : Dev) (k : Nat) (c : Cluster) : (m.setCluster k c).cmds = m.cmds := rfl
@[simp] theorem setCluster_nextCmd (m : Dev) (k : Nat) (c : Cluster) : (m.setCluster k c).nextCmd = m.nextCmd := rfl
@[simp] theorem setCluster_nextCopy (m : Dev) (k : Nat) (c : Cluster) : (m.setCluster k c).nextCopy = m.nextCopy := rfl
@[simp] theorem setCluster_copyParties (m : Dev) (k : Nat) (c : Cluster) : (m.setCluster k c).copyParties = m.copyParties := rfl
@[simp] theorem setCluster_peers (m : Dev) (k : Nat) (c : Cluster) : (m.setCluster k c).peers = m.peers := rfl
@[simp] theorem setCluster_nextPeer (m : Dev) (k : Nat) (c : Cluster) : (m.setCluster k c).nextPeer = m.nextPeer := rfl
@[simp] theorem setCluster_waves (m : Dev) (k : Nat) (c : Cluster) : (m.setCluster k c).waves = m.waves := rfl
@[simp] theorem setCluster_wave (m : Dev) (k : Nat) (c : Cluster) : (m.setCluster k c).wave = m.wave := rfl
@[simp] theorem setCluster_frag (m : Dev) (k : Nat) (c : Cluster) : (m.setCluster k c).frag = m.frag := rfl
@[simp] theorem setCluster_nextUid (m : Dev) (k : Nat) (c : Cluster) : (m.setCluster k c).nextUid = m.nextUid := rfl
@[simp] theorem setCluster_agenda (m : Dev) (k : Nat) (c : Cluster) : (m.setCluster k c).agenda = m.agenda := rfl
@[simp] theorem setCluster_turns (m : Dev) (k : Nat) (c : Cluster) : (m.setCluster k c).turns = m.turns := rfl
@[simp] theorem setCluster_lastCore (m : Dev) (k : Nat) (c : Cluster) : (m.setCluster k c).lastCore = m.lastCore := rfl
@[simp] theorem setCluster_choices (m : Dev) (k : Nat) (c : Cluster) : (m.setCluster k c).choices = m.choices := rfl

/-! `Dev.setDie` -/

@[simp] theorem setDie_host (m : Dev) (d : Nat) (x : Die) : (m.setDie d x).host = m.host := rfl
@[simp] theorem setDie_cap (m : Dev) (d : Nat) (x : Die) : (m.setDie d x).cap = m.cap := rfl
@[simp] theorem setDie_mem (m : Dev) (d : Nat) (x : Die) : (m.setDie d x).mem = m.mem := rfl
@[simp] theorem setDie_hostmem (m : Dev) (d : Nat) (x : Die) : (m.setDie d x).hostmem = m.hostmem := rfl
@[simp] theorem setDie_msix (m : Dev) (d : Nat) (x : Die) : (m.setDie d x).msix = m.msix := rfl
@[simp] theorem setDie_events (m : Dev) (d : Nat) (x : Die) : (m.setDie d x).events = m.events := rfl
@[simp] theorem setDie_launches (m : Dev) (d : Nat) (x : Die) : (m.setDie d x).launches = m.launches := rfl
@[simp] theorem setDie_nextLaunch (m : Dev) (d : Nat) (x : Die) : (m.setDie d x).nextLaunch = m.nextLaunch := rfl
@[simp] theorem setDie_served (m : Dev) (d : Nat) (x : Die) : (m.setDie d x).served = m.served := rfl
@[simp] theorem setDie_watch (m : Dev) (d : Nat) (x : Die) : (m.setDie d x).watch = m.watch := rfl
@[simp] theorem setDie_dropped (m : Dev) (d : Nat) (x : Die) : (m.setDie d x).dropped = m.dropped := rfl
@[simp] theorem setDie_gdrop (m : Dev) (d : Nat) (x : Die) : (m.setDie d x).gdrop = m.gdrop := rfl
@[simp] theorem setDie_ended (m : Dev) (d : Nat) (x : Die) : (m.setDie d x).ended = m.ended := rfl
@[simp] theorem setDie_savedWaves (m : Dev) (d : Nat) (x : Die) : (m.setDie d x).savedWaves = m.savedWaves := rfl
@[simp] theorem setDie_holds (m : Dev) (d : Nat) (x : Die) : (m.setDie d x).holds = m.holds := rfl
@[simp] theorem setDie_hostHeld (m : Dev) (d : Nat) (x : Die) : (m.setDie d x).hostHeld = m.hostHeld := rfl
@[simp] theorem setDie_turnLeft (m : Dev) (d : Nat) (x : Die) : (m.setDie d x).turnLeft = m.turnLeft := rfl
@[simp] theorem setDie_ports (m : Dev) (d : Nat) (x : Die) : (m.setDie d x).ports = m.ports := rfl
@[simp] theorem setDie_cores (m : Dev) (d : Nat) (x : Die) : (m.setDie d x).cores = m.cores := rfl
@[simp] theorem setDie_clusters (m : Dev) (d : Nat) (x : Die) : (m.setDie d x).clusters = m.clusters := rfl
@[simp] theorem setDie_dies (m : Dev) (d : Nat) (x : Die) : (m.setDie d x).dies = setAt {} m.dies d x := rfl
@[simp] theorem setDie_tag7 (m : Dev) (d : Nat) (x : Die) : (m.setDie d x).tag7 = m.tag7 := rfl
@[simp] theorem setDie_tuns (m : Dev) (d : Nat) (x : Die) : (m.setDie d x).tuns = m.tuns := rfl
@[simp] theorem setDie_cmds (m : Dev) (d : Nat) (x : Die) : (m.setDie d x).cmds = m.cmds := rfl
@[simp] theorem setDie_nextCmd (m : Dev) (d : Nat) (x : Die) : (m.setDie d x).nextCmd = m.nextCmd := rfl
@[simp] theorem setDie_nextCopy (m : Dev) (d : Nat) (x : Die) : (m.setDie d x).nextCopy = m.nextCopy := rfl
@[simp] theorem setDie_copyParties (m : Dev) (d : Nat) (x : Die) : (m.setDie d x).copyParties = m.copyParties := rfl
@[simp] theorem setDie_peers (m : Dev) (d : Nat) (x : Die) : (m.setDie d x).peers = m.peers := rfl
@[simp] theorem setDie_nextPeer (m : Dev) (d : Nat) (x : Die) : (m.setDie d x).nextPeer = m.nextPeer := rfl
@[simp] theorem setDie_waves (m : Dev) (d : Nat) (x : Die) : (m.setDie d x).waves = m.waves := rfl
@[simp] theorem setDie_wave (m : Dev) (d : Nat) (x : Die) : (m.setDie d x).wave = m.wave := rfl
@[simp] theorem setDie_frag (m : Dev) (d : Nat) (x : Die) : (m.setDie d x).frag = m.frag := rfl
@[simp] theorem setDie_nextUid (m : Dev) (d : Nat) (x : Die) : (m.setDie d x).nextUid = m.nextUid := rfl
@[simp] theorem setDie_agenda (m : Dev) (d : Nat) (x : Die) : (m.setDie d x).agenda = m.agenda := rfl
@[simp] theorem setDie_turns (m : Dev) (d : Nat) (x : Die) : (m.setDie d x).turns = m.turns := rfl
@[simp] theorem setDie_lastCore (m : Dev) (d : Nat) (x : Die) : (m.setDie d x).lastCore = m.lastCore := rfl
@[simp] theorem setDie_choices (m : Dev) (d : Nat) (x : Die) : (m.setDie d x).choices = m.choices := rfl

/-! `Dev.waitFor` -/

@[simp] theorem waitFor_host (m : Dev) (w : Wait) (p : Nat) : (m.waitFor w p).host = m.host := rfl
@[simp] theorem waitFor_cap (m : Dev) (w : Wait) (p : Nat) : (m.waitFor w p).cap = m.cap := rfl
@[simp] theorem waitFor_mem (m : Dev) (w : Wait) (p : Nat) : (m.waitFor w p).mem = m.mem := rfl
@[simp] theorem waitFor_hostmem (m : Dev) (w : Wait) (p : Nat) : (m.waitFor w p).hostmem = m.hostmem := rfl
@[simp] theorem waitFor_msix (m : Dev) (w : Wait) (p : Nat) : (m.waitFor w p).msix = m.msix := rfl
@[simp] theorem waitFor_events (m : Dev) (w : Wait) (p : Nat) : (m.waitFor w p).events = m.events := rfl
@[simp] theorem waitFor_launches (m : Dev) (w : Wait) (p : Nat) : (m.waitFor w p).launches = m.launches := rfl
@[simp] theorem waitFor_nextLaunch (m : Dev) (w : Wait) (p : Nat) : (m.waitFor w p).nextLaunch = m.nextLaunch := rfl
@[simp] theorem waitFor_served (m : Dev) (w : Wait) (p : Nat) : (m.waitFor w p).served = m.served := rfl
@[simp] theorem waitFor_watch (m : Dev) (w : Wait) (p : Nat) : (m.waitFor w p).watch = m.watch := rfl
@[simp] theorem waitFor_dropped (m : Dev) (w : Wait) (p : Nat) : (m.waitFor w p).dropped = m.dropped := rfl
@[simp] theorem waitFor_gdrop (m : Dev) (w : Wait) (p : Nat) : (m.waitFor w p).gdrop = m.gdrop := rfl
@[simp] theorem waitFor_ended (m : Dev) (w : Wait) (p : Nat) : (m.waitFor w p).ended = m.ended := rfl
@[simp] theorem waitFor_savedWaves (m : Dev) (w : Wait) (p : Nat) : (m.waitFor w p).savedWaves = m.savedWaves := rfl
@[simp] theorem waitFor_holds (m : Dev) (w : Wait) (p : Nat) : (m.waitFor w p).holds = m.holds := rfl
@[simp] theorem waitFor_hostHeld (m : Dev) (w : Wait) (p : Nat) : (m.waitFor w p).hostHeld = m.hostHeld := rfl
@[simp] theorem waitFor_turnLeft (m : Dev) (w : Wait) (p : Nat) : (m.waitFor w p).turnLeft = m.turnLeft := rfl
@[simp] theorem waitFor_ports (m : Dev) (w : Wait) (p : Nat) : (m.waitFor w p).ports = m.ports := rfl
@[simp] theorem waitFor_cores (m : Dev) (w : Wait) (p : Nat) : (m.waitFor w p).cores = m.cores := rfl
@[simp] theorem waitFor_clusters (m : Dev) (w : Wait) (p : Nat) : (m.waitFor w p).clusters = m.clusters := rfl
@[simp] theorem waitFor_dies (m : Dev) (w : Wait) (p : Nat) : (m.waitFor w p).dies = m.dies := rfl
@[simp] theorem waitFor_tag7 (m : Dev) (w : Wait) (p : Nat) : (m.waitFor w p).tag7 = m.tag7 := rfl
@[simp] theorem waitFor_tuns (m : Dev) (w : Wait) (p : Nat) : (m.waitFor w p).tuns = m.tuns := rfl
@[simp] theorem waitFor_cmds (m : Dev) (w : Wait) (p : Nat) : (m.waitFor w p).cmds = m.cmds := rfl
@[simp] theorem waitFor_nextCmd (m : Dev) (w : Wait) (p : Nat) : (m.waitFor w p).nextCmd = m.nextCmd := rfl
@[simp] theorem waitFor_nextCopy (m : Dev) (w : Wait) (p : Nat) : (m.waitFor w p).nextCopy = m.nextCopy := rfl
@[simp] theorem waitFor_copyParties (m : Dev) (w : Wait) (p : Nat) : (m.waitFor w p).copyParties = m.copyParties := rfl
@[simp] theorem waitFor_peers (m : Dev) (w : Wait) (p : Nat) : (m.waitFor w p).peers = m.peers := rfl
@[simp] theorem waitFor_nextPeer (m : Dev) (w : Wait) (p : Nat) : (m.waitFor w p).nextPeer = m.nextPeer := rfl
@[simp] theorem waitFor_waves (m : Dev) (w : Wait) (p : Nat) : (m.waitFor w p).waves = m.waves := rfl
@[simp] theorem waitFor_wave (m : Dev) (w : Wait) (p : Nat) : (m.waitFor w p).wave = m.wave := rfl
@[simp] theorem waitFor_frag (m : Dev) (w : Wait) (p : Nat) : (m.waitFor w p).frag = { m.frag with wait := w, phase := p } := rfl
@[simp] theorem waitFor_nextUid (m : Dev) (w : Wait) (p : Nat) : (m.waitFor w p).nextUid = m.nextUid := rfl
@[simp] theorem waitFor_agenda (m : Dev) (w : Wait) (p : Nat) : (m.waitFor w p).agenda = m.agenda := rfl
@[simp] theorem waitFor_turns (m : Dev) (w : Wait) (p : Nat) : (m.waitFor w p).turns = m.turns := rfl
@[simp] theorem waitFor_lastCore (m : Dev) (w : Wait) (p : Nat) : (m.waitFor w p).lastCore = m.lastCore := rfl
@[simp] theorem waitFor_choices (m : Dev) (w : Wait) (p : Nat) : (m.waitFor w p).choices = m.choices := rfl

/-! `nextWord` -/

@[simp] theorem nextWord_fid (f : Frag) : (nextWord f).fid = f.fid := rfl
@[simp] theorem nextWord_spc (f : Frag) : (nextWord f).spc = f.spc + 4 := rfl
@[simp] theorem nextWord_fell (f : Frag) : (nextWord f).fell = decide (f.spc % 2 ^ 14 = 2 ^ 14 - 4) := rfl
@[simp] theorem nextWord_lpc (f : Frag) : (nextWord f).lpc = f.lpc := rfl
@[simp] theorem nextWord_lfell (f : Frag) : (nextWord f).lfell = f.lfell := rfl
@[simp] theorem nextWord_lrem (f : Frag) : (nextWord f).lrem = f.lrem := rfl
@[simp] theorem nextWord_mask (f : Frag) : (nextWord f).mask = f.mask := rfl
@[simp] theorem nextWord_fmt (f : Frag) : (nextWord f).fmt = f.fmt := rfl
@[simp] theorem nextWord_dualK (f : Frag) : (nextWord f).dualK = f.dualK := rfl
@[simp] theorem nextWord_dualRem (f : Frag) : (nextWord f).dualRem = f.dualRem := rfl
@[simp] theorem nextWord_held (f : Frag) : (nextWord f).held = f.held := rfl
@[simp] theorem nextWord_wait (f : Frag) : (nextWord f).wait = .none := rfl
@[simp] theorem nextWord_phase (f : Frag) : (nextWord f).phase = 0 := rfl
@[simp] theorem nextWord_resumed (f : Frag) : (nextWord f).resumed = f.resumed := rfl
@[simp] theorem nextWord_reissue (f : Frag) : (nextWord f).reissue = f.reissue := rfl
@[simp] theorem nextWord_asked (f : Frag) : (nextWord f).asked = f.asked := rfl
@[simp] theorem nextWord_deadline (f : Frag) : (nextWord f).deadline = f.deadline := rfl
@[simp] theorem nextWord_slots (f : Frag) : (nextWord f).slots = f.slots := rfl
@[simp] theorem nextWord_path (f : Frag) : (nextWord f).path = f.path := rfl
@[simp] theorem nextWord_last (f : Frag) : (nextWord f).last = f.last := rfl
@[simp] theorem nextWord_lastCycle (f : Frag) : (nextWord f).lastCycle = f.lastCycle := rfl
@[simp] theorem nextWord_taken (f : Frag) : (nextWord f).taken = f.taken := rfl
@[simp] theorem nextWord_range (f : Frag) : (nextWord f).range = f.range := rfl
@[simp] theorem nextWord_inHandler (f : Frag) : (nextWord f).inHandler = f.inHandler := rfl

/-! A scalar register write -/

@[simp] theorem sput_uid (w : Wave) (r : BitVec 6) (v : DWord) : (w.sput r v).uid = w.uid := by unfold Wave.sput; split <;> rfl
@[simp] theorem sput_launch (w : Wave) (r : BitVec 6) (v : DWord) : (w.sput r v).launch = w.launch := by unfold Wave.sput; split <;> rfl
@[simp] theorem sput_ctx (w : Wave) (r : BitVec 6) (v : DWord) : (w.sput r v).ctx = w.ctx := by unfold Wave.sput; split <;> rfl
@[simp] theorem sput_waveid (w : Wave) (r : BitVec 6) (v : DWord) : (w.sput r v).waveid = w.waveid := by unfold Wave.sput; split <;> rfl
@[simp] theorem sput_die (w : Wave) (r : BitVec 6) (v : DWord) : (w.sput r v).die = w.die := by unfold Wave.sput; split <;> rfl
@[simp] theorem sput_cluster (w : Wave) (r : BitVec 6) (v : DWord) : (w.sput r v).cluster = w.cluster := by unfold Wave.sput; split <;> rfl
@[simp] theorem sput_core (w : Wave) (r : BitVec 6) (v : DWord) : (w.sput r v).core = w.core := by unfold Wave.sput; split <;> rfl
@[simp] theorem sput_slot (w : Wave) (r : BitVec 6) (v : DWord) : (w.sput r v).slot = w.slot := by unfold Wave.sput; split <;> rfl
@[simp] theorem sput_wlanes (w : Wave) (r : BitVec 6) (v : DWord) : (w.sput r v).wlanes = w.wlanes := by unfold Wave.sput; split <;> rfl
@[simp] theorem sput_tang (w : Wave) (r : BitVec 6) (v : DWord) : (w.sput r v).tang = w.tang := by unfold Wave.sput; split <;> rfl
@[simp] theorem sput_role (w : Wave) (r : BitVec 6) (v : DWord) : (w.sput r v).role = w.role := by unfold Wave.sput; split <;> rfl
@[simp] theorem sput_gang (w : Wave) (r : BitVec 6) (v : DWord) : (w.sput r v).gang = w.gang := by unfold Wave.sput; split <;> rfl
@[simp] theorem sput_dieidx (w : Wave) (r : BitVec 6) (v : DWord) : (w.sput r v).dieidx = w.dieidx := by unfold Wave.sput; split <;> rfl
@[simp] theorem sput_depth (w : Wave) (r : BitVec 6) (v : DWord) : (w.sput r v).depth = w.depth := by unfold Wave.sput; split <;> rfl
@[simp] theorem sput_child (w : Wave) (r : BitVec 6) (v : DWord) : (w.sput r v).child = w.child := by unfold Wave.sput; split <;> rfl
@[simp] theorem sput_futva (w : Wave) (r : BitVec 6) (v : DWord) : (w.sput r v).futva = w.futva := by unfold Wave.sput; split <;> rfl
@[simp] theorem sput_trec (w : Wave) (r : BitVec 6) (v : DWord) : (w.sput r v).trec = w.trec := by unfold Wave.sput; split <;> rfl
@[simp] theorem sput_scratch (w : Wave) (r : BitVec 6) (v : DWord) : (w.sput r v).scratch = w.scratch := by unfold Wave.sput; split <;> rfl
@[simp] theorem sput_scrbase (w : Wave) (r : BitVec 6) (v : DWord) : (w.sput r v).scrbase = w.scrbase := by unfold Wave.sput; split <;> rfl
@[simp] theorem sput_cregs (w : Wave) (r : BitVec 6) (v : DWord) : (w.sput r v).cregs = w.cregs := by unfold Wave.sput; split <;> rfl
@[simp] theorem sput_kregs (w : Wave) (r : BitVec 6) (v : DWord) : (w.sput r v).kregs = w.kregs := by unfold Wave.sput; split <;> rfl
@[simp] theorem sput_xregs (w : Wave) (r : BitVec 6) (v : DWord) : (w.sput r v).xregs = w.xregs := by unfold Wave.sput; split <;> rfl
@[simp] theorem sput_globals (w : Wave) (r : BitVec 6) (v : DWord) : (w.sput r v).globals = w.globals := by unfold Wave.sput; split <;> rfl
@[simp] theorem sput_base (w : Wave) (r : BitVec 6) (v : DWord) : (w.sput r v).base = w.base := by unfold Wave.sput; split <;> rfl
@[simp] theorem sput_stack (w : Wave) (r : BitVec 6) (v : DWord) : (w.sput r v).stack = w.stack := by unfold Wave.sput; split <;> rfl
@[simp] theorem sput_frags (w : Wave) (r : BitVec 6) (v : DWord) : (w.sput r v).frags = w.frags := by unfold Wave.sput; split <;> rfl
@[simp] theorem sput_nextFid (w : Wave) (r : BitVec 6) (v : DWord) : (w.sput r v).nextFid = w.nextFid := by unfold Wave.sput; split <;> rfl
@[simp] theorem sput_nextSplit (w : Wave) (r : BitVec 6) (v : DWord) : (w.sput r v).nextSplit = w.nextSplit := by unfold Wave.sput; split <;> rfl
@[simp] theorem sput_nextErr (w : Wave) (r : BitVec 6) (v : DWord) : (w.sput r v).nextErr = w.nextErr := by unfold Wave.sput; split <;> rfl
@[simp] theorem sput_nextWin (w : Wave) (r : BitVec 6) (v : DWord) : (w.sput r v).nextWin = w.nextWin := by unfold Wave.sput; split <;> rfl
@[simp] theorem sput_nextHold (w : Wave) (r : BitVec 6) (v : DWord) : (w.sput r v).nextHold = w.nextHold := by unfold Wave.sput; split <;> rfl
@[simp] theorem sput_splits (w : Wave) (r : BitVec 6) (v : DWord) : (w.sput r v).splits = w.splits := by unfold Wave.sput; split <;> rfl
@[simp] theorem sput_rooms (w : Wave) (r : BitVec 6) (v : DWord) : (w.sput r v).rooms = w.rooms := by unfold Wave.sput; split <;> rfl
@[simp] theorem sput_region (w : Wave) (r : BitVec 6) (v : DWord) : (w.sput r v).region = w.region := by unfold Wave.sput; split <;> rfl
@[simp] theorem sput_monitor (w : Wave) (r : BitVec 6) (v : DWord) : (w.sput r v).monitor = w.monitor := by unfold Wave.sput; split <;> rfl
@[simp] theorem sput_batchNum (w : Wave) (r : BitVec 6) (v : DWord) : (w.sput r v).batchNum = w.batchNum := by unfold Wave.sput; split <;> rfl
@[simp] theorem sput_openBatch (w : Wave) (r : BitVec 6) (v : DWord) : (w.sput r v).openBatch = w.openBatch := by unfold Wave.sput; split <;> rfl
@[simp] theorem sput_closed (w : Wave) (r : BitVec 6) (v : DWord) : (w.sput r v).closed = w.closed := by unfold Wave.sput; split <;> rfl
@[simp] theorem sput_wavectl (w : Wave) (r : BitVec 6) (v : DWord) : (w.sput r v).wavectl = w.wavectl := by unfold Wave.sput; split <;> rfl
@[simp] theorem sput_asyncerr (w : Wave) (r : BitVec 6) (v : DWord) : (w.sput r v).asyncerr = w.asyncerr := by unfold Wave.sput; split <;> rfl
@[simp] theorem sput_asyncAddr (w : Wave) (r : BitVec 6) (v : DWord) : (w.sput r v).asyncAddr = w.asyncAddr := by unfold Wave.sput; split <;> rfl
@[simp] theorem sput_cpybase (w : Wave) (r : BitVec 6) (v : DWord) : (w.sput r v).cpybase = w.cpybase := by unfold Wave.sput; split <;> rfl
@[simp] theorem sput_olbase (w : Wave) (r : BitVec 6) (v : DWord) : (w.sput r v).olbase = w.olbase := by unfold Wave.sput; split <;> rfl
@[simp] theorem sput_olcap (w : Wave) (r : BitVec 6) (v : DWord) : (w.sput r v).olcap = w.olcap := by unfold Wave.sput; split <;> rfl
@[simp] theorem sput_oltag (w : Wave) (r : BitVec 6) (v : DWord) : (w.sput r v).oltag = w.oltag := by unfold Wave.sput; split <;> rfl
@[simp] theorem sput_tstride (w : Wave) (r : BitVec 6) (v : DWord) : (w.sput r v).tstride = w.tstride := by unfold Wave.sput; split <;> rfl
@[simp] theorem sput_spillbase (w : Wave) (r : BitVec 6) (v : DWord) : (w.sput r v).spillbase = w.spillbase := by unfold Wave.sput; split <;> rfl
@[simp] theorem sput_super (w : Wave) (r : BitVec 6) (v : DWord) : (w.sput r v).super = w.super := by unfold Wave.sput; split <;> rfl
@[simp] theorem sput_psuper (w : Wave) (r : BitVec 6) (v : DWord) : (w.sput r v).psuper = w.psuper := by unfold Wave.sput; split <;> rfl
@[simp] theorem sput_everirr (w : Wave) (r : BitVec 6) (v : DWord) : (w.sput r v).everirr = w.everirr := by unfold Wave.sput; split <;> rfl
@[simp] theorem sput_replay (w : Wave) (r : BitVec 6) (v : DWord) : (w.sput r v).replay = w.replay := by unfold Wave.sput; split <;> rfl
@[simp] theorem sput_trap (w : Wave) (r : BitVec 6) (v : DWord) : (w.sput r v).trap = w.trap := by unfold Wave.sput; split <;> rfl
@[simp] theorem sput_handler (w : Wave) (r : BitVec 6) (v : DWord) : (w.sput r v).handler = w.handler := by unfold Wave.sput; split <;> rfl
@[simp] theorem sput_saved (w : Wave) (r : BitVec 6) (v : DWord) : (w.sput r v).saved = w.saved := by unfold Wave.sput; split <;> rfl
@[simp] theorem sput_bank (w : Wave) (r : BitVec 6) (v : DWord) : (w.sput r v).bank = w.bank := by unfold Wave.sput; split <;> rfl
@[simp] theorem sput_trapLane (w : Wave) (r : BitVec 6) (v : DWord) : (w.sput r v).trapLane = w.trapLane := by unfold Wave.sput; split <;> rfl
@[simp] theorem sput_trapLpc (w : Wave) (r : BitVec 6) (v : DWord) : (w.sput r v).trapLpc = w.trapLpc := by unfold Wave.sput; split <;> rfl
@[simp] theorem sput_trapSpc (w : Wave) (r : BitVec 6) (v : DWord) : (w.sput r v).trapSpc = w.trapSpc := by unfold Wave.sput; split <;> rfl
@[simp] theorem sput_savedK (w : Wave) (r : BitVec 6) (v : DWord) : (w.sput r v).savedK = w.savedK := by unfold Wave.sput; split <;> rfl
@[simp] theorem sput_savedRem (w : Wave) (r : BitVec 6) (v : DWord) : (w.sput r v).savedRem = w.savedRem := by unfold Wave.sput; split <;> rfl
@[simp] theorem sput_mxcfg (w : Wave) (r : BitVec 6) (v : DWord) : (w.sput r v).mxcfg = w.mxcfg := by unfold Wave.sput; split <;> rfl
@[simp] theorem sput_mdone (w : Wave) (r : BitVec 6) (v : DWord) : (w.sput r v).mdone = w.mdone := by unfold Wave.sput; split <;> rfl
@[simp] theorem sput_mheld (w : Wave) (r : BitVec 6) (v : DWord) : (w.sput r v).mheld = w.mheld := by unfold Wave.sput; split <;> rfl
@[simp] theorem sput_victim (w : Wave) (r : BitVec 6) (v : DWord) : (w.sput r v).victim = w.victim := by unfold Wave.sput; split <;> rfl
@[simp] theorem sput_halted (w : Wave) (r : BitVec 6) (v : DWord) : (w.sput r v).halted = w.halted := by unfold Wave.sput; split <;> rfl
@[simp] theorem sput_drowsy (w : Wave) (r : BitVec 6) (v : DWord) : (w.sput r v).drowsy = w.drowsy := by unfold Wave.sput; split <;> rfl
@[simp] theorem sput_leaving (w : Wave) (r : BitVec 6) (v : DWord) : (w.sput r v).leaving = w.leaving := by unfold Wave.sput; split <;> rfl

/-! A condition write -/

@[simp] theorem cput_uid (w : Wave) (c : BitVec 3) (b : Bool) : (w.cput c b).uid = w.uid := by unfold Wave.cput; split <;> rfl
@[simp] theorem cput_launch (w : Wave) (c : BitVec 3) (b : Bool) : (w.cput c b).launch = w.launch := by unfold Wave.cput; split <;> rfl
@[simp] theorem cput_ctx (w : Wave) (c : BitVec 3) (b : Bool) : (w.cput c b).ctx = w.ctx := by unfold Wave.cput; split <;> rfl
@[simp] theorem cput_waveid (w : Wave) (c : BitVec 3) (b : Bool) : (w.cput c b).waveid = w.waveid := by unfold Wave.cput; split <;> rfl
@[simp] theorem cput_die (w : Wave) (c : BitVec 3) (b : Bool) : (w.cput c b).die = w.die := by unfold Wave.cput; split <;> rfl
@[simp] theorem cput_cluster (w : Wave) (c : BitVec 3) (b : Bool) : (w.cput c b).cluster = w.cluster := by unfold Wave.cput; split <;> rfl
@[simp] theorem cput_core (w : Wave) (c : BitVec 3) (b : Bool) : (w.cput c b).core = w.core := by unfold Wave.cput; split <;> rfl
@[simp] theorem cput_slot (w : Wave) (c : BitVec 3) (b : Bool) : (w.cput c b).slot = w.slot := by unfold Wave.cput; split <;> rfl
@[simp] theorem cput_wlanes (w : Wave) (c : BitVec 3) (b : Bool) : (w.cput c b).wlanes = w.wlanes := by unfold Wave.cput; split <;> rfl
@[simp] theorem cput_tang (w : Wave) (c : BitVec 3) (b : Bool) : (w.cput c b).tang = w.tang := by unfold Wave.cput; split <;> rfl
@[simp] theorem cput_role (w : Wave) (c : BitVec 3) (b : Bool) : (w.cput c b).role = w.role := by unfold Wave.cput; split <;> rfl
@[simp] theorem cput_gang (w : Wave) (c : BitVec 3) (b : Bool) : (w.cput c b).gang = w.gang := by unfold Wave.cput; split <;> rfl
@[simp] theorem cput_dieidx (w : Wave) (c : BitVec 3) (b : Bool) : (w.cput c b).dieidx = w.dieidx := by unfold Wave.cput; split <;> rfl
@[simp] theorem cput_depth (w : Wave) (c : BitVec 3) (b : Bool) : (w.cput c b).depth = w.depth := by unfold Wave.cput; split <;> rfl
@[simp] theorem cput_child (w : Wave) (c : BitVec 3) (b : Bool) : (w.cput c b).child = w.child := by unfold Wave.cput; split <;> rfl
@[simp] theorem cput_futva (w : Wave) (c : BitVec 3) (b : Bool) : (w.cput c b).futva = w.futva := by unfold Wave.cput; split <;> rfl
@[simp] theorem cput_trec (w : Wave) (c : BitVec 3) (b : Bool) : (w.cput c b).trec = w.trec := by unfold Wave.cput; split <;> rfl
@[simp] theorem cput_scratch (w : Wave) (c : BitVec 3) (b : Bool) : (w.cput c b).scratch = w.scratch := by unfold Wave.cput; split <;> rfl
@[simp] theorem cput_scrbase (w : Wave) (c : BitVec 3) (b : Bool) : (w.cput c b).scrbase = w.scrbase := by unfold Wave.cput; split <;> rfl
@[simp] theorem cput_sregs (w : Wave) (c : BitVec 3) (b : Bool) : (w.cput c b).sregs = w.sregs := by unfold Wave.cput; split <;> rfl
@[simp] theorem cput_kregs (w : Wave) (c : BitVec 3) (b : Bool) : (w.cput c b).kregs = w.kregs := by unfold Wave.cput; split <;> rfl
@[simp] theorem cput_xregs (w : Wave) (c : BitVec 3) (b : Bool) : (w.cput c b).xregs = w.xregs := by unfold Wave.cput; split <;> rfl
@[simp] theorem cput_globals (w : Wave) (c : BitVec 3) (b : Bool) : (w.cput c b).globals = w.globals := by unfold Wave.cput; split <;> rfl
@[simp] theorem cput_base (w : Wave) (c : BitVec 3) (b : Bool) : (w.cput c b).base = w.base := by unfold Wave.cput; split <;> rfl
@[simp] theorem cput_stack (w : Wave) (c : BitVec 3) (b : Bool) : (w.cput c b).stack = w.stack := by unfold Wave.cput; split <;> rfl
@[simp] theorem cput_frags (w : Wave) (c : BitVec 3) (b : Bool) : (w.cput c b).frags = w.frags := by unfold Wave.cput; split <;> rfl
@[simp] theorem cput_nextFid (w : Wave) (c : BitVec 3) (b : Bool) : (w.cput c b).nextFid = w.nextFid := by unfold Wave.cput; split <;> rfl
@[simp] theorem cput_nextSplit (w : Wave) (c : BitVec 3) (b : Bool) : (w.cput c b).nextSplit = w.nextSplit := by unfold Wave.cput; split <;> rfl
@[simp] theorem cput_nextErr (w : Wave) (c : BitVec 3) (b : Bool) : (w.cput c b).nextErr = w.nextErr := by unfold Wave.cput; split <;> rfl
@[simp] theorem cput_nextWin (w : Wave) (c : BitVec 3) (b : Bool) : (w.cput c b).nextWin = w.nextWin := by unfold Wave.cput; split <;> rfl
@[simp] theorem cput_nextHold (w : Wave) (c : BitVec 3) (b : Bool) : (w.cput c b).nextHold = w.nextHold := by unfold Wave.cput; split <;> rfl
@[simp] theorem cput_splits (w : Wave) (c : BitVec 3) (b : Bool) : (w.cput c b).splits = w.splits := by unfold Wave.cput; split <;> rfl
@[simp] theorem cput_rooms (w : Wave) (c : BitVec 3) (b : Bool) : (w.cput c b).rooms = w.rooms := by unfold Wave.cput; split <;> rfl
@[simp] theorem cput_region (w : Wave) (c : BitVec 3) (b : Bool) : (w.cput c b).region = w.region := by unfold Wave.cput; split <;> rfl
@[simp] theorem cput_monitor (w : Wave) (c : BitVec 3) (b : Bool) : (w.cput c b).monitor = w.monitor := by unfold Wave.cput; split <;> rfl
@[simp] theorem cput_batchNum (w : Wave) (c : BitVec 3) (b : Bool) : (w.cput c b).batchNum = w.batchNum := by unfold Wave.cput; split <;> rfl
@[simp] theorem cput_openBatch (w : Wave) (c : BitVec 3) (b : Bool) : (w.cput c b).openBatch = w.openBatch := by unfold Wave.cput; split <;> rfl
@[simp] theorem cput_closed (w : Wave) (c : BitVec 3) (b : Bool) : (w.cput c b).closed = w.closed := by unfold Wave.cput; split <;> rfl
@[simp] theorem cput_wavectl (w : Wave) (c : BitVec 3) (b : Bool) : (w.cput c b).wavectl = w.wavectl := by unfold Wave.cput; split <;> rfl
@[simp] theorem cput_asyncerr (w : Wave) (c : BitVec 3) (b : Bool) : (w.cput c b).asyncerr = w.asyncerr := by unfold Wave.cput; split <;> rfl
@[simp] theorem cput_asyncAddr (w : Wave) (c : BitVec 3) (b : Bool) : (w.cput c b).asyncAddr = w.asyncAddr := by unfold Wave.cput; split <;> rfl
@[simp] theorem cput_cpybase (w : Wave) (c : BitVec 3) (b : Bool) : (w.cput c b).cpybase = w.cpybase := by unfold Wave.cput; split <;> rfl
@[simp] theorem cput_olbase (w : Wave) (c : BitVec 3) (b : Bool) : (w.cput c b).olbase = w.olbase := by unfold Wave.cput; split <;> rfl
@[simp] theorem cput_olcap (w : Wave) (c : BitVec 3) (b : Bool) : (w.cput c b).olcap = w.olcap := by unfold Wave.cput; split <;> rfl
@[simp] theorem cput_oltag (w : Wave) (c : BitVec 3) (b : Bool) : (w.cput c b).oltag = w.oltag := by unfold Wave.cput; split <;> rfl
@[simp] theorem cput_tstride (w : Wave) (c : BitVec 3) (b : Bool) : (w.cput c b).tstride = w.tstride := by unfold Wave.cput; split <;> rfl
@[simp] theorem cput_spillbase (w : Wave) (c : BitVec 3) (b : Bool) : (w.cput c b).spillbase = w.spillbase := by unfold Wave.cput; split <;> rfl
@[simp] theorem cput_super (w : Wave) (c : BitVec 3) (b : Bool) : (w.cput c b).super = w.super := by unfold Wave.cput; split <;> rfl
@[simp] theorem cput_psuper (w : Wave) (c : BitVec 3) (b : Bool) : (w.cput c b).psuper = w.psuper := by unfold Wave.cput; split <;> rfl
@[simp] theorem cput_everirr (w : Wave) (c : BitVec 3) (b : Bool) : (w.cput c b).everirr = w.everirr := by unfold Wave.cput; split <;> rfl
@[simp] theorem cput_replay (w : Wave) (c : BitVec 3) (b : Bool) : (w.cput c b).replay = w.replay := by unfold Wave.cput; split <;> rfl
@[simp] theorem cput_trap (w : Wave) (c : BitVec 3) (b : Bool) : (w.cput c b).trap = w.trap := by unfold Wave.cput; split <;> rfl
@[simp] theorem cput_handler (w : Wave) (c : BitVec 3) (b : Bool) : (w.cput c b).handler = w.handler := by unfold Wave.cput; split <;> rfl
@[simp] theorem cput_saved (w : Wave) (c : BitVec 3) (b : Bool) : (w.cput c b).saved = w.saved := by unfold Wave.cput; split <;> rfl
@[simp] theorem cput_bank (w : Wave) (c : BitVec 3) (b : Bool) : (w.cput c b).bank = w.bank := by unfold Wave.cput; split <;> rfl
@[simp] theorem cput_trapLane (w : Wave) (c : BitVec 3) (b : Bool) : (w.cput c b).trapLane = w.trapLane := by unfold Wave.cput; split <;> rfl
@[simp] theorem cput_trapLpc (w : Wave) (c : BitVec 3) (b : Bool) : (w.cput c b).trapLpc = w.trapLpc := by unfold Wave.cput; split <;> rfl
@[simp] theorem cput_trapSpc (w : Wave) (c : BitVec 3) (b : Bool) : (w.cput c b).trapSpc = w.trapSpc := by unfold Wave.cput; split <;> rfl
@[simp] theorem cput_savedK (w : Wave) (c : BitVec 3) (b : Bool) : (w.cput c b).savedK = w.savedK := by unfold Wave.cput; split <;> rfl
@[simp] theorem cput_savedRem (w : Wave) (c : BitVec 3) (b : Bool) : (w.cput c b).savedRem = w.savedRem := by unfold Wave.cput; split <;> rfl
@[simp] theorem cput_mxcfg (w : Wave) (c : BitVec 3) (b : Bool) : (w.cput c b).mxcfg = w.mxcfg := by unfold Wave.cput; split <;> rfl
@[simp] theorem cput_mdone (w : Wave) (c : BitVec 3) (b : Bool) : (w.cput c b).mdone = w.mdone := by unfold Wave.cput; split <;> rfl
@[simp] theorem cput_mheld (w : Wave) (c : BitVec 3) (b : Bool) : (w.cput c b).mheld = w.mheld := by unfold Wave.cput; split <;> rfl
@[simp] theorem cput_victim (w : Wave) (c : BitVec 3) (b : Bool) : (w.cput c b).victim = w.victim := by unfold Wave.cput; split <;> rfl
@[simp] theorem cput_halted (w : Wave) (c : BitVec 3) (b : Bool) : (w.cput c b).halted = w.halted := by unfold Wave.cput; split <;> rfl
@[simp] theorem cput_drowsy (w : Wave) (c : BitVec 3) (b : Bool) : (w.cput c b).drowsy = w.drowsy := by unfold Wave.cput; split <;> rfl
@[simp] theorem cput_leaving (w : Wave) (c : BitVec 3) (b : Bool) : (w.cput c b).leaving = w.leaving := by unfold Wave.cput; split <;> rfl

end Sys2Proof.Laws
end

