-- ==== Sys2Proof/Laws/Scalar.lean ====
section
/-!
SUPPORT. Laws/Scalar.lean: what the shared operations of scalar instructions do: writing a register or a condition, moving
the scalar PC, closing lookahead windows, and trap entry.
-/
namespace Sys2Proof.Laws
open Sys2Proof.Machine

/-! ## Frames -/

/-- Memory does not depend on what is loaded. -/
theorem sameMemory_loaded (m : Dev) (w : Wave) (f : Frag) : SameMemory m { m with wave := w, frag := f } := by
  constructor <;> intro l <;> cases l <;> rfl

/-- A change of the loaded wave and fragment alone. -/
theorem kept_loaded (m : Dev) (w : Wave) (f : Frag) : Kept m { m with wave := w, frag := f } :=
  ⟨rfl, sameMemory_loaded m w f⟩

theorem sameMemory_refl (m : Dev) : SameMemory m m := ⟨fun _ => rfl, fun _ => rfl⟩

theorem sameMemory_trans {a b c : Dev} (h : SameMemory a b) (k : SameMemory b c) : SameMemory a c :=
  ⟨fun l => (k.1 l).trans (h.1 l), fun l => (k.2 l).trans (h.2 l)⟩

/-! ## Registers and conditions (R179) -/

theorem sget_sput (w : Wave) (d r : BitVec 6) (v : DWord) :
    (w.sput d v).sget r = if r = d ∧ r ≠ 0 then v else w.sget r := by
  unfold Wave.sput Wave.sget
  by_cases hr : r = 0
  · simp [hr]
  by_cases hd : d = 0
  · subst hd; simp only [if_true, if_neg hr]; rw [if_neg (fun h => hr h.1)]
  simp only [if_neg hr, if_neg hd, cells_get_put]
  by_cases h : r = d
  · subst h; rw [if_pos rfl, if_pos ⟨rfl, hr⟩]
  · rw [if_neg (fun e => h (BitVec.eq_of_toNat_eq e)), if_neg (fun e => h e.1)]

theorem cget_cput (w : Wave) (c x : BitVec 3) (b : Bool) :
    (w.cput c b).cget x = if x = c ∧ x ≠ 0 then b else w.cget x := by
  unfold Wave.cput Wave.cget
  by_cases hc : c = 0
  · subst hc
    have : ¬ (x = 0 ∧ x ≠ 0) := fun h => h.2 h.1
    simp only [if_true, if_neg this]
  by_cases hx : x = 0
  · subst hx
    have : ¬ ((0 : BitVec 3) = c ∧ (0 : BitVec 3) ≠ 0) := fun h => h.2 rfl
    simp only [if_neg this, decide_true, Bool.true_or]
  have hx8 : x.toNat < 8 := x.isLt
  rw [if_neg hc]
  simp only [hx, decide_false, Bool.false_or, BitVec.getLsbD_or, BitVec.getLsbD_and, BitVec.getLsbD_not, hx8,
    decide_true, Bool.true_and]
  by_cases h : x = c
  · subst h
    have hx' : ¬ x = 0#3 := hx
    cases b <;> simp [hx', hx8]
  · have hn : x.toNat ≠ c.toNat := fun e => h (BitVec.eq_of_toNat_eq e)
    have h1 : (1#8 <<< c.toNat).getLsbD x.toNat = false := by
      simp only [BitVec.getLsbD_shiftLeft, BitVec.getLsbD_one]
      by_cases h8 : x.toNat < c.toNat
      · simp [h8]
      · have : x.toNat - c.toNat ≠ 0 := by omega
        simp [this]
    have h2 : (if b = true then 1#8 <<< c.toNat else 0#8).getLsbD x.toNat = false := by
      cases b
      · simp
      · simpa using h1
    rw [h1, h2]
    simp [h]

@[simp] theorem s_setS (m : Dev) (d r : BitVec 6) (v : DWord) : (m.setS d v).s r = if r = d ∧ r ≠ 0 then v else m.s r :=
  sget_sput m.wave d r v
@[simp] theorem c_setC (m : Dev) (c x : BitVec 3) (b : Bool) : (m.setC c b).c x = if x = c ∧ x ≠ 0 then b else m.c x :=
  cget_cput m.wave c x b
@[simp] theorem c_setS (m : Dev) (d : BitVec 6) (v : DWord) (c : BitVec 3) : (m.setS d v).c c = m.c c := by
  show (m.wave.sput d v).cget c = m.wave.cget c; unfold Wave.cget; rw [sput_cregs]
@[simp] theorem s_setC (m : Dev) (c : BitVec 3) (b : Bool) (r : BitVec 6) : (m.setC c b).s r = m.s r := by
  show (m.wave.cput c b).sget r = m.wave.sget r; unfold Wave.sget; rw [cput_sregs]
@[simp] theorem s_onFrag (m : Dev) (g : Frag → Frag) (r : BitVec 6) : (m.onFrag g).s r = m.s r := rfl
@[simp] theorem c_onFrag (m : Dev) (g : Frag → Frag) (c : BitVec 3) : (m.onFrag g).c c = m.c c := rfl
@[simp] theorem s_advance (m : Dev) (r : BitVec 6) : m.advance.s r = m.s r := rfl
@[simp] theorem c_advance (m : Dev) (c : BitVec 3) : m.advance.c c = m.c c := rfl

theorem sput_same (w : Wave) (d : BitVec 6) (v : DWord) : w.sput d v = { w with sregs := (w.sput d v).sregs } := by
  unfold Wave.sput; split <;> rfl
theorem cput_same (w : Wave) (c : BitVec 3) (b : Bool) : w.cput c b = { w with cregs := (w.cput c b).cregs } := by
  unfold Wave.cput; split <;> rfl

/-- Writing a scalar register and going on does that and nothing else. -/
theorem writeS_wrote (m : Dev) (d : BitVec 6) (v : DWord) : WroteS m (m.writeS d v) d v :=
  ⟨kept_loaded m _ _, rfl, sput_same m.wave d v, fun r => sget_sput m.wave d r v⟩

/-- The same for a condition. -/
theorem writeC_wrote (m : Dev) (c : BitVec 3) (b : Bool) : WroteC m ((m.setC c b).advance) c b :=
  ⟨kept_loaded m _ _, rfl, cput_same m.wave c b, fun x => cget_cput m.wave c x b⟩

theorem goto_jumped (m : Dev) (t : Nat) : Jumped m (m.goto t) t := ⟨kept_loaded m _ _, rfl, rfl⟩
theorem advance_passed (m : Dev) : Passed m m.advance := ⟨kept_loaded m _ _, rfl, rfl⟩

/-! ## Cells that are put together -/

theorem cells_get_filter {w} (c : Cells w) (p : Nat → Bool) (k : Nat) :
    Cells.get (c.filter fun e => p e.1) k = if p k then c.get k else 0#w := by
  induction c with
  | nil => simp [Cells.get]
  | cons e t ih =>
    obtain ⟨a, v⟩ := e
    by_cases hp : p a = true
    · simp only [List.filter_cons, hp, if_true, Cells.get, ih]
      by_cases hk : k = a
      · subst hk; simp [hp]
      · simp [hk]
    · simp only [List.filter_cons, hp]
      show Cells.get (List.filter (fun e => p e.1) t) k = _
      rw [ih]
      by_cases hk : k = a
      · subst hk; simp [hp]
      · simp [hk, Cells.get]

theorem cells_get_append {w} (a b : Cells w) (k : Nat) :
    Cells.get (a ++ b) k = if ∃ e ∈ a, e.1 = k then Cells.get a k else Cells.get b k := by
  induction a with
  | nil => simp
  | cons e t ih =>
    obtain ⟨x, v⟩ := e
    show (if k = x then v else Cells.get (t ++ b) k) = _
    by_cases hk : k = x
    · subst hk; rw [if_pos rfl, if_pos ⟨_, List.mem_cons_self, rfl⟩]; simp [Cells.get]
    · rw [if_neg hk, ih]
      have : (∃ e ∈ (x, v) :: t, e.1 = k) ↔ ∃ e ∈ t, e.1 = k := by
        constructor
        · rintro ⟨e, he, rfl⟩
          rcases List.mem_cons.mp he with rfl | h
          · exact absurd rfl hk
          · exact ⟨e, h, rfl⟩
        · rintro ⟨e, he, rfl⟩; exact ⟨e, List.mem_cons_of_mem _ he, rfl⟩
      simp only [this]
      by_cases hx : ∃ e ∈ t, e.1 = k
      · rw [if_pos hx, if_pos hx]; simp [Cells.get, hk]
      · rw [if_neg hx, if_neg hx]

theorem cells_get_absent {w} (c : Cells w) (k : Nat) (h : ¬ ∃ e ∈ c, e.1 = k) : Cells.get c k = 0#w := by
  induction c with
  | nil => rfl
  | cons e t ih =>
    obtain ⟨x, v⟩ := e
    have hk : ¬ k = x := fun e => h ⟨_, List.mem_cons_self, e.symm⟩
    simp only [Cells.get, if_neg hk]
    exact ih fun ⟨e, he, hh⟩ => h ⟨e, List.mem_cons_of_mem _ he, hh⟩

/-! ## Lookahead windows (R193) -/

/-- Of a wave nothing but scalar and lane registers differs. -/
def RegistersOnly (w w' : Wave) : Prop :=
  w' = { w with sregs := w'.sregs, globals := w'.globals, base := w'.base, stack := w'.stack }

theorem registersOnly_refl (w : Wave) : RegistersOnly w w := rfl
theorem registersOnly_trans {a b c : Wave} (h : RegistersOnly a b) (k : RegistersOnly b c) : RegistersOnly a c := by
  unfold RegistersOnly at *; rw [k, h]
theorem registersOnly_frags {a b : Wave} {fs : List Frag} (h : RegistersOnly { a with frags := fs } b) :
    RegistersOnly { a with frags := b.frags } b := by
  unfold RegistersOnly at *; rw [h]
theorem registersOnly_setWin (w : Wave) (n : Nat) (x : Win) : RegistersOnly w (w.setWin n x) := by
  unfold RegistersOnly Wave.setWin Wave.setCur; split
  · rfl
  · split <;> rfl
theorem registersOnly_commitReg (w : Wave) (n : Nat) (o : RegOut) : RegistersOnly w (w.commitReg n o) :=
  registersOnly_setWin w _ _
theorem registersOnly_peerWin (w : Wave) (n : Nat) (f : Nat → Win → Win) : RegistersOnly w (w.peerWin n f) := by
  unfold RegistersOnly Wave.peerWin; split <;> rfl
theorem registersOnly_kill (w : Wave) (n : Nat) : RegistersOnly w (w.kill n) := registersOnly_setWin w _ _
theorem registersOnly_commitHeld (w : Wave) (n : Nat) (h : Held) : RegistersOnly w (w.commitHeld n h) := by
  unfold Wave.commitHeld; split
  · unfold RegistersOnly Wave.sput; split <;> rfl
  · exact registersOnly_peerWin _ _ _
theorem registersOnly_foldl {α} (l : List α) (g : Wave → α → Wave) (hg : ∀ w a, RegistersOnly w (g w a)) (w : Wave) :
    RegistersOnly w (l.foldl g w) := by
  induction l generalizing w with
  | nil => rfl
  | cons a t ih => exact registersOnly_trans (hg w a) (ih _)

/-- Closing the windows changes registers of the wave, the fragment's list of held results, and what is still to come for the
words that these write (R192, R193). -/
theorem closeWindows_spec (m : Dev) :
    m.closeWindows = { m with wave := m.closeWindows.wave, peers := m.closeWindows.peers,
                              frag := { m.frag with held := [], todo := m.closeWindows.frag.todo } } ∧
    RegistersOnly { m.wave with frags := m.closeWindows.wave.frags } m.closeWindows.wave := by
  unfold Dev.closeWindows
  split
  · next h => exact ⟨by rw [← h], rfl⟩
  · exact ⟨rfl, registersOnly_frags (registersOnly_foldl _ _ (fun _ _ => registersOnly_commitHeld _ _ _) _)⟩

/-- With no result held, nothing changes. -/
theorem closeWindows_none (m : Dev) (h : m.frag.held = []) : m.closeWindows = m := by
  unfold Dev.closeWindows; rw [if_pos h]

/-! ## Trap entry (R360, R361) -/

theorem closeWindows_frag (m : Dev) : m.closeWindows.frag = { m.frag with held := [], todo := m.closeWindows.frag.todo } :=
  congrArg Dev.frag (closeWindows_spec m).1

theorem ctxDword_closeWindows (m : Dev) (c i : Nat) : m.closeWindows.ctxDword c i = m.ctxDword c i := by
  unfold Dev.closeWindows; split <;> rfl

theorem delivered_closeWindows (m : Dev) (c : Cause) : m.closeWindows.delivered c = m.delivered c := by
  have h2 := (closeWindows_spec m).2
  unfold Dev.delivered
  rw [show m.closeWindows.wave.super = m.wave.super by rw [h2], show m.closeWindows.wave.ctx = m.wave.ctx by rw [h2],
    ctxDword_closeWindows]

theorem handler_closeWindows (m : Dev) : m.closeWindows.wave.handler = m.wave.handler := by rw [(closeWindows_spec m).2]

theorem handlerBank_keys (m : Dev) (c : Nat) : ∀ e ∈ m.handlerBank c, 48 ≤ e.1 ∧ e.1 ≤ 51 := by
  have key (cs : Cells 64) (r v : Nat) (hr : 48 ≤ r ∧ r ≤ 51) (h : ∀ e ∈ cs, 48 ≤ e.1 ∧ e.1 ≤ 51) :
      ∀ e ∈ Cells.put cs r (BitVec.ofNat 64 v), 48 ≤ e.1 ∧ e.1 ≤ 51 := by
    have ins (cs : Cells 64) (v : BitVec 64) (h : ∀ e ∈ cs, 48 ≤ e.1 ∧ e.1 ≤ 51) :
        ∀ e ∈ Cells.ins cs r v, 48 ≤ e.1 ∧ e.1 ≤ 51 := by
      induction cs with
      | nil => intro e he; simp [Cells.ins] at he; subst he; exact hr
      | cons x t ih =>
        obtain ⟨a, u⟩ := x
        intro e he
        unfold Cells.ins at he
        split at he
        · rcases List.mem_cons.mp he with rfl | he
          · exact hr
          · exact h e he
        · rcases List.mem_cons.mp he with rfl | he
          · exact h _ List.mem_cons_self
          · exact ih (fun e he => h e (List.mem_cons_of_mem _ he)) e he
    unfold Cells.put
    split
    · intro e he; exact h e (List.mem_filter.mp he).1
    · exact ins _ _ fun e he => h e (List.mem_filter.mp he).1
  unfold Dev.handlerBank
  exact key _ _ _ (by omega) (key _ _ _ (by omega) (key _ _ _ (by omega) (key _ _ _ (by omega) (by simp))))

theorem handlerBank_get (m : Dev) (c k : Nat) :
    (m.handlerBank c).get k = if k = 48 then BitVec.ofNat 64 (fld (m.ctxDword c 0x60) 48 0) else
      if k = 49 then BitVec.ofNat 64 (fld (m.ctxDword c 0x28) 48 0) else
      if k = 50 then BitVec.ofNat 64 (fld (m.ctxDword c 0x18) 48 0) else
      if k = 51 then BitVec.ofNat 64 (c % 64) else 0#64 := by
  unfold Dev.handlerBank
  simp only [cells_get_put, Cells.get]
  by_cases h1 : k = 51
  · subst h1; simp
  by_cases h2 : k = 50
  · subst h2; simp
  by_cases h3 : k = 49
  · subst h3; simp
  simp [h1, h2, h3]

/-- The scalars that the handler sees (R361). -/
theorem trap_scalars (b m' : Dev)
    (h : m'.wave.sregs = (b.wave.sregs.filter fun e => decide (e.1 < 48)) ++ b.handlerBank b.wave.ctx) :
    HandlerScalars b m' := by
  have low (r : BitVec 6) (hr : r.toNat < 48) : m'.s r = b.s r := by
    show m'.wave.sget r = b.wave.sget r
    unfold Wave.sget
    split
    · rfl
    · rw [h, cells_get_append, cells_get_filter b.wave.sregs (fun k => decide (k < 48))]
      simp only [hr, decide_true, if_true]
      split
      · rfl
      · rename_i hn
        rw [cells_get_absent (b.handlerBank b.wave.ctx) _ (by
          rintro ⟨e, he, hk⟩; have := (handlerBank_keys _ _ e he).1; omega)]
        symm
        apply cells_get_absent
        rintro ⟨e, he, hk⟩
        exact hn ⟨e, List.mem_filter.mpr ⟨he, by simpa [hk] using hr⟩, hk⟩
  have high (r : BitVec 6) (hr : 48 ≤ r.toNat) : m'.s r = (b.handlerBank b.wave.ctx).get r.toNat := by
    show m'.wave.sget r = _
    unfold Wave.sget
    rw [if_neg (by intro e; subst e; simp at hr), h, cells_get_append, if_neg]
    rintro ⟨e, he, hk⟩
    have := (List.mem_filter.mp he).2
    simp at this; omega
  refine ⟨low, ?_, ?_, ?_, ?_, fun r hr => ?_⟩
  · rw [high 48 (by decide), handlerBank_get]; rfl
  · rw [high 49 (by decide), handlerBank_get]; rfl
  · rw [high 50 (by decide), handlerBank_get]; rfl
  · rw [high 51 (by decide), handlerBank_get]; rfl
  · rw [high r (by omega), handlerBank_get]
    rw [if_neg (by omega), if_neg (by omega), if_neg (by omega), if_neg (by omega)]; rfl

/-- What the shared trap entry does when the trap is delivered. -/
theorem trap_taken (m : Dev) (t : TrapArgs) (h : Delivers m t.cause) (he : t.err = none) :
    TrapTaken m.closeWindows (m.trap t) t.cause t.stval
      ((t.kf.getD m.frag.mask) &&& (m.frag.reissue.getD (BitVec.allOnes 1024))) t.lf.get := by
  have hd : (!m.closeWindows.delivered t.cause) = true ↔ False := by rw [delivered_closeWindows, h.1]; simp
  have hh : (m.closeWindows.wave.handler.isSome && !m.closeWindows.wave.super) = true ↔ False := by
    rw [handler_closeWindows, h.2]; simp
  have hf := closeWindows_frag m
  rw [← show m.closeWindows.frag.mask = m.frag.mask by rw [hf], ← show m.closeWindows.frag.reissue = m.frag.reissue by rw [hf]]
  unfold Dev.trap
  simp only [if_neg hh.1, if_neg hd.1, he]
  refine ⟨kept_loaded m.closeWindows _ _, ⟨rfl, rfl, ?_, ?_, rfl, rfl, ?_⟩, ?_, rfl, rfl, rfl, rfl, rfl, rfl, rfl, rfl,
    rfl, rfl, rfl, rfl⟩
  · simp only [decide_eq_true_eq]; split <;> rfl
  · simp only [decide_eq_true_eq]
    split
    · rfl
    · next hl =>
      have : m.closeWindows.frag.lrem = 0 := Nat.eq_zero_of_not_pos hl
      rw [this]; rfl
  · intro l
    exact cells_get_filter t.lf (fun k => Mask.has _ k) l
  · exact trap_scalars m.closeWindows _ rfl

/-- A trap of a scalar word with its cause and `STVAL`. -/
theorem trap_scalar (m : Dev) (t : TrapArgs) (h : ScalarTraps m t.cause) (he : t.err = none) (hk : t.kf = none) :
    ScalarTrap m (m.trap t) t.cause t.stval t.lf.get := by
  have := trap_taken m t h.1 he
  rw [hk, h.2.2] at this
  rw [show ((none : Option Mask).getD m.frag.mask) &&& ((none : Option Mask).getD (BitVec.allOnes 1024)) = m.frag.mask from
    BitVec.and_allOnes] at this
  exact this

end Sys2Proof.Laws
end

