-- ==== Sys2Proof/Laws/Control.lean ====
section
/-!
SUPPORT. Laws/Control.lean: what the checks of targets and the request for blocks answer.
-/
namespace Sys2Proof.Laws
open Sys2Proof.Machine

/-- A meaning over the device part alone runs, and what it leaves is what is asked. -/
theorem runs_of {i : Instr} {s : State} {P : Dev → Prop} (m' : Dev) (h : exec i s = .next (s.withDev m')) (hp : P m') :
    Runs i s P := ⟨m', h, hp⟩

/-- The target of an offset in blocks (R211). -/
theorem blockTarget_in {m : Dev} {off : BitVec 22} (h : InSegment m (blockAfter m off)) :
    m.blockTarget off.toInt = some (64 * (blockAfter m off).toNat) := by
  unfold InSegment blockAfter at h
  unfold Dev.blockTarget blockAfter
  simp only [ge_iff_le, Bool.and_eq_true, decide_eq_true_eq]
  rw [if_pos h]

theorem blockTarget_out {m : Dev} {off : BitVec 22} (h : ¬ InSegment m (blockAfter m off)) :
    m.blockTarget off.toInt = none := by
  unfold InSegment blockAfter at h
  unfold Dev.blockTarget
  simp only [ge_iff_le, Bool.and_eq_true, decide_eq_true_eq]
  rw [if_neg h]

/-- A good code pointer passes the check of R211. -/
theorem checkTarget_ok {m : Dev} {t : Nat} {lane : Bool} (h : CodeAt m t lane) : m.checkTarget t lane = none := by
  obtain ⟨h1, h2, h3, g, h4, h5, h6, h7⟩ := h
  have hg : m.seg (segOf t) = g := by
    unfold Dev.seg segOf; rw [List.getD_eq_getElem?_getD, h4]; rfl
  unfold Dev.checkTarget
  rw [if_neg (by simp <;> omega)]
  simp only [hg]
  rw [if_neg]
  simp only [segOf, Dev.ownsSegment, h5, h6, h7]
  simp <;> omega

theorem checkTarget_align {m : Dev} {t : Nat} {lane : Bool} (h : t % 64 ≠ 0 ∨ 2 ^ 18 ≤ t) :
    m.checkTarget t lane = some .alignBranch := by
  unfold Dev.checkTarget
  rw [if_pos]; simp <;> omega

theorem checkTarget_miss {m : Dev} {t : Nat} {lane : Bool} (h1 : t % 64 = 0) (h2 : t < 2 ^ 18) (h : ¬ CodeAt m t lane) :
    m.checkTarget t lane = some .segMiss := by
  unfold Dev.checkTarget
  rw [if_neg (by simp <;> omega), if_pos]
  apply Classical.byContradiction
  intro hn
  apply h
  simp only [Bool.or_eq_true, Bool.not_eq_true', not_or, decide_eq_true_eq, Bool.not_eq_false, Bool.and_eq_true] at hn
  obtain ⟨hs, ⟨ha, hb⟩, hc⟩ := hn
  refine ⟨h1, h2, by unfold segOf at hs; omega, ?_⟩
  unfold Dev.seg segOf at ha hb hc
  rw [List.getD_eq_getElem?_getD] at ha hb hc
  cases hg : (m.core m.wave.coreNo).segs[t / 2 ^ 14]? with
  | none => rw [hg] at ha; simp at ha
  | some g =>
    rw [hg] at ha hb hc
    refine ⟨g, rfl, ha, hb, ?_⟩
    unfold Dev.ownsSegment at hc
    simpa using hc

/-- A request for blocks that is granted at once changes nothing (R189). -/
theorem wantBlocks_ok {m : Dev} {n : Nat} (p : Bool) (h : BlocksReady m n) : m.wantBlocks n p = .ok m := by
  unfold Dev.wantBlocks
  obtain ⟨_, h | ⟨h1, h2⟩⟩ := h
  · rw [if_pos h]
  · split
    · rfl
    · have hs : m.spillFor m.wave.coreNo n spillFuel = m := by
        show m.spillFor m.wave.coreNo n (511 + 1) = m
        unfold Dev.spillFor; rw [if_pos h2]
      simp only [h1, hs, ne_eq, not_true, if_false]
      rw [if_pos h2]

/-- A trap with a cause alone. -/
theorem trapC_scalar {m : Dev} {k : Cause} (h : ScalarTraps m k) : ScalarTrap m (m.trapC k) k 0 fun _ => 0 :=
  trap_scalar m { cause := k } h rfl rfl

/-- A trap whose `STVAL` holds the scalar word. -/
theorem trapWord_scalar {m : Dev} {k : Cause} (h : ScalarTraps m k) :
    ScalarTrap m (m.trapWord k) k (m.codeBytes m.frag.spc 4) fun _ => 0 :=
  trap_scalar m { cause := k, stval := _ } h rfl rfl

theorem control_of_core {m : Dev} : m.wave.control = decide (m.wave.core = 12) := rfl

/-! ## The agenda -/

theorem push_same (m : Dev) (i : Instr) : m.push i = { m with agenda := (m.push i).agenda } := by
  unfold Dev.push; split <;> rfl

theorem push_due (m : Dev) (i : Instr) : Due (m.push i) i := by
  unfold Due Dev.push
  split
  · next h => simpa using h
  · simp

theorem push_keeps {m : Dev} {i j : Instr} (h : Due m j) : Due (m.push i) j := by
  unfold Due Dev.push at *
  split
  · exact h
  · exact List.mem_append_left _ h

/-- Looking for places again makes events due and changes nothing else. -/
theorem pushPlace_agenda (m : Dev) :
    m.pushPlace = { m with agenda := m.pushPlace.agenda } ∧ ∀ i, Due m i → Due m.pushPlace i := by
  have key : ∀ (ds : List Nat) (x : Dev),
      let y := ds.foldl (fun m d => if (m.die d).spawns = [] then m else m.push (.childPlacement d)) x
      y = { x with agenda := y.agenda } ∧ ∀ i, Due x i → Due y i := by
    intro ds
    induction ds with
    | nil => exact fun x => ⟨rfl, fun _ h => h⟩
    | cons d ds ih =>
      intro x
      simp only [List.foldl_cons]
      split
      · exact ih x
      · obtain ⟨h1, h2⟩ := ih (x.push (.childPlacement d))
        refine ⟨?_, fun i h => h2 i (push_keeps h)⟩
        rw [h1, push_same x]
  obtain ⟨h1, h2⟩ := key (List.range 8) m
  unfold Dev.pushPlace
  simp only
  split
  · refine ⟨?_, fun i h => push_keeps (h2 i h)⟩
    rw [push_same, h1]
  · exact ⟨h1, h2⟩

/-- What giving back granted blocks does (R189). -/
theorem giveBack_ends (m : Dev) : GrantEnds m m.giveBack := by
  unfold GrantEnds Dev.giveBack
  split
  · next h => exact ⟨rfl, fun _ => rfl, fun h' => absurd h h'⟩
  · next h =>
    refine ⟨?_, fun h' => absurd h' h, fun _ hq => ?_⟩
    · unfold Dev.blocksFreed
      rw [(pushPlace_agenda _).1]
      unfold Dev.askBlocks
      split
      · rfl
      · rw [push_same]
    · unfold Dev.blocksFreed Dev.askBlocks
      rw [if_neg hq]
      exact (pushPlace_agenda _).2 _ (push_due _ _)

theorem sameMemory_agenda (m : Dev) (w : Wave) (f : Frag) (a : List Instr) :
    SameMemory m { m with wave := w, frag := f, agenda := a } := by
  constructor <;> intro l <;> cases l <;> rfl

end Sys2Proof.Laws
end

