-- ==== Sys2Proof/Laws/Memory.lean ====
section
/-!
SUPPORT. Laws/Memory.lean: every operation that writes memory keeps its canonical form (`Memory.wf`), and the state after
reset has it.
-/
namespace Sys2Proof.Laws
open Sys2Proof.Machine

/-! ## Stores -/

/-- The canonical form of a store. -/
def StoreWf (s : Store) : Prop := s.bytes.wf = true ∧ s.poison.wf = true

theorem storeWf_write (s : Store) (a : Nat) (bs : List Byte) (p : Nat → Bool) (h : StoreWf s) : StoreWf (s.write a bs p) := by
  refine ⟨cells_wf_putBytes _ _ _ h.1, ?_⟩
  refine cells_wf_foldl_put _ (fun i => (a + i) / 4) (fun _ => 1) p _ ?_
  exact cells_wf_foldl_put _ (fun w => w) (fun _ => 0) (fun _ => true) _ h.2

theorem storeWf_drop (s : Store) (p q : Nat → Bool) (h : StoreWf s) :
    StoreWf { bytes := s.bytes.drop p, poison := s.poison.drop q } :=
  ⟨cells_wf_drop _ _ h.1, cells_wf_drop _ _ h.2⟩

theorem storeWf_poison (s : Store) (a : Nat) (h : StoreWf s) : StoreWf { s with poison := s.poison.put a 1 } :=
  ⟨h.1, cells_wf_put s.poison a 1 h.2⟩

/-! ## Host memory -/

theorem hostAbove_mono {h : KMap Byte} {lo lo' : Nat} (hl : lo' ≤ lo) (hh : hostAbove lo h = true) :
    hostAbove lo' h = true := by
  cases h with
  | nil => rfl
  | cons e t =>
    simp only [hostAbove, Bool.and_eq_true, decide_eq_true_eq] at hh ⊢
    exact ⟨⟨by omega, hh.1.2⟩, hh.2⟩

theorem hostWf_of_above {h : KMap Byte} {lo : Nat} (hh : hostAbove lo h = true) : hostWf h = true := by
  cases h with
  | nil => rfl
  | cons e t => simp only [hostAbove, hostWf, Bool.and_eq_true, decide_eq_true_eq] at hh ⊢; exact ⟨hh.1.2, hh.2⟩

theorem hostAbove_erase (h : KMap Byte) (a lo : Nat) (hh : hostAbove lo h = true) : hostAbove lo (h.erase a) = true := by
  induction h generalizing lo with
  | nil => rfl
  | cons e t ih =>
    simp only [hostAbove, Bool.and_eq_true, decide_eq_true_eq] at hh
    simp only [KMap.erase, List.filter] at ih ⊢
    split
    · simp only [hostAbove, Bool.and_eq_true, decide_eq_true_eq]; exact ⟨hh.1, ih _ hh.2⟩
    · exact hostAbove_mono (Nat.le_of_lt hh.1.1) (ih _ hh.2)

theorem hostWf_erase (h : KMap Byte) (a : Nat) (hh : hostWf h = true) : hostWf (h.erase a) = true := by
  cases h with
  | nil => rfl
  | cons e t =>
    simp only [hostWf, Bool.and_eq_true, decide_eq_true_eq] at hh
    have ht := hostAbove_erase t a e.1 hh.2
    simp only [KMap.erase, List.filter] at ht ⊢
    split
    · simp only [hostWf, Bool.and_eq_true, decide_eq_true_eq]; exact ⟨hh.1, ht⟩
    · exact hostWf_of_above ht

theorem hostAbove_ins (h : KMap Byte) (a lo : Nat) (v : Byte) (hv : v ≠ Config.hostByte a) (hn : ∀ e ∈ h, e.1 ≠ a)
    (hl : lo < a) (hh : hostAbove lo h = true) : hostAbove lo (h.ins a v) = true := by
  induction h generalizing lo with
  | nil => simp [KMap.ins, hostAbove, hl, hv]
  | cons e t ih =>
    obtain ⟨k, u⟩ := e
    have hk : k ≠ a := hn (k, u) (by simp)
    simp only [hostAbove, Bool.and_eq_true, decide_eq_true_eq] at hh
    simp only [KMap.ins]
    split
    · simp only [hostAbove, Bool.and_eq_true, decide_eq_true_eq]; exact ⟨⟨hl, hv⟩, ⟨by omega, hh.1.2⟩, hh.2⟩
    · simp only [hostAbove, Bool.and_eq_true, decide_eq_true_eq]
      exact ⟨hh.1, ih k (fun e he => hn e (by simp [he])) (by omega) hh.2⟩

theorem hostWf_ins (h : KMap Byte) (a : Nat) (v : Byte) (hv : v ≠ Config.hostByte a) (hn : ∀ e ∈ h, e.1 ≠ a)
    (hh : hostWf h = true) : hostWf (h.ins a v) = true := by
  cases h with
  | nil => simp [KMap.ins, hostWf, hostAbove, hv]
  | cons e t =>
    obtain ⟨k, u⟩ := e
    have hk : k ≠ a := hn (k, u) (by simp)
    simp only [hostWf, Bool.and_eq_true, decide_eq_true_eq] at hh
    simp only [KMap.ins]
    split
    · simp only [hostWf, hostAbove, Bool.and_eq_true, decide_eq_true_eq]; exact ⟨hv, ⟨by omega, hh.1⟩, hh.2⟩
    · simp only [hostWf, Bool.and_eq_true, decide_eq_true_eq]
      exact ⟨hh.1, hostAbove_ins t a k v hv (fun e he => hn e (by simp [he])) (by omega) hh.2⟩

theorem hostWf_put (h : KMap Byte) (a : Nat) (v : Byte) (hh : hostWf h = true) : hostWf (hostPut h a v) = true := by
  simp only [hostPut]
  split
  · exact hostWf_erase _ _ hh
  · next hv => exact hostWf_ins _ _ _ hv (kmap_erase_keys h a) (hostWf_erase _ _ hh)

theorem hostWf_putBytes (h : KMap Byte) (a : Nat) (bs : List Byte) (hh : hostWf h = true) :
    hostWf (hostPutBytes h a bs) = true := by
  induction bs generalizing h a with
  | nil => exact hh
  | cons b t ih => exact ih _ _ (hostWf_put h a b hh)

theorem host_get_put (h : KMap Byte) (a b : Nat) (v : Byte) :
    KMap.get (Config.hostByte b) (hostPut h a v) b = if b = a then v else KMap.get (Config.hostByte b) h b := by
  simp only [hostPut]
  split
  · next e => rw [kmap_get_erase]; split <;> simp_all
  · rw [kmap_get_set]

/-! ## The parts of memory -/

/-- The form of memory, part by part. -/
structure MemoryWf (m : Dev) : Prop where
  mem   : StoreWf m.mem
  host  : hostWf m.hostmem = true
  cores : ∀ x ∈ m.cores, StoreWf x.2.arr

theorem memoryWf_iff (m : Dev) : Memory.wf m = true ↔ MemoryWf m := by
  simp only [Memory.wf, Bool.and_eq_true, List.all_eq_true]
  exact ⟨fun h => ⟨h.1.1, h.1.2, h.2⟩, fun h => ⟨⟨h.mem, h.host⟩, h.cores⟩⟩

theorem memory_wf_reset : Memory.wf State.reset.dev = true := rfl

theorem kmap_get_mem {α} (d : α) (m : KMap α) (k : Nat) : KMap.get d m k = d ∨ (k, KMap.get d m k) ∈ m := by
  induction m with
  | nil => exact .inl rfl
  | cons e t ih =>
    obtain ⟨j, v⟩ := e
    simp only [KMap.get]
    split
    · next h => subst h; simp
    · rcases ih with h | h
      · exact .inl h
      · exact .inr (List.mem_cons_of_mem _ h)

theorem storeWf_core {m : Dev} (h : MemoryWf m) (k : Nat) : StoreWf (m.core k).arr := by
  rcases kmap_get_mem {} m.cores k with e | e
  · rw [Dev.core, e]; exact ⟨rfl, rfl⟩
  · exact h.cores _ e

/-- A change of one core keeps the form when its array has it. -/
theorem memoryWf_setCore {m : Dev} (h : MemoryWf m) (k : Nat) (c : Core) (hc : StoreWf c.arr) : MemoryWf (m.setCore k c) :=
  ⟨h.mem, h.host, fun x hx => (kmap_mem_put hx).elim (fun e => e ▸ hc) (h.cores x)⟩

/-- A change of a core but for its array. -/
theorem memoryWf_setCore_arr {m : Dev} (h : MemoryWf m) (k : Nat) (c : Core) (hc : c.arr = (m.core k).arr) :
    MemoryWf (m.setCore k c) :=
  memoryWf_setCore h k c (hc ▸ storeWf_core h k)

/-- A change of every core but for the arrays. -/
theorem memoryWf_mapCores {m : Dev} (h : MemoryWf m) (f : Nat × Core → Nat × Core) (hf : ∀ x, (f x).2.arr = x.2.arr) :
    MemoryWf { m with cores := m.cores.map f } :=
  ⟨h.mem, h.host, fun x hx => by
    obtain ⟨y, hy, rfl⟩ := List.mem_map.1 hx
    rw [hf]; exact h.cores y hy⟩

theorem memoryWf_push {m : Dev} (h : MemoryWf m) (i : Instr) : MemoryWf (m.push i) := by
  simp only [Dev.push]; split
  · exact h
  · exact ⟨h.mem, h.host, h.cores⟩

theorem memoryWf_choose {m : Dev} (h : MemoryWf m) : MemoryWf m.choose.2 := ⟨h.mem, h.host, h.cores⟩

theorem memoryWf_setDie {m : Dev} (h : MemoryWf m) (d : Nat) (x : Die) : MemoryWf (m.setDie d x) := ⟨h.mem, h.host, h.cores⟩

theorem memoryWf_foldl {α} (l : List α) (f : Dev → α → Dev) (hf : ∀ m x, MemoryWf m → MemoryWf (f m x)) {m : Dev}
    (h : MemoryWf m) : MemoryWf (l.foldl f m) := by
  induction l generalizing m with
  | nil => exact h
  | cons x t ih => exact ih (hf _ _ h)

theorem memoryWf_trigger {m : Dev} (h : MemoryWf m) (l : Loc) (n : Nat) : MemoryWf (m.trigger l n) := by
  refine memoryWf_foldl _ _ (fun m x hm => ?_) h
  split
  · exact memoryWf_push hm _
  · exact hm

theorem memoryWf_homePut {m : Dev} (h : MemoryWf m) (pa : Nat) (bs : List Byte) (p : Nat → Bool) : MemoryWf (m.homePut pa bs p) := by
  refine memoryWf_trigger ?_ _ _
  split
  · exact ⟨storeWf_write _ _ _ _ h.mem, h.host, h.cores⟩
  · exact h

/-- Poison marks of a store keep its form. -/
theorem storeWf_markWord {s : Store} (h : StoreWf s) (w : Nat) (p : Bool) : StoreWf (s.markWord w p) :=
  ⟨h.1, cells_wf_put _ _ _ h.2⟩

theorem storeWf_foldl {α} (l : List α) (f : Store → α → Store) (hf : ∀ s x, StoreWf s → StoreWf (f s x)) {s : Store}
    (h : StoreWf s) : StoreWf (l.foldl f s) := by
  induction l generalizing s with
  | nil => exact h
  | cons x t ih => exact ih (hf _ _ h)

theorem memoryWf_homeLayer {m : Dev} (h : MemoryWf m) (n : Nat) (y : Layer) : MemoryWf (m.homeLayer n y) := by
  have h1 : MemoryWf ((maskedBytes y.mask y.data).foldl
      (fun m (x : Nat × Byte) => m.homePut (128 * n + x.1) [x.2] fun _ => false) m) :=
    memoryWf_foldl _ _ (fun m x hm => memoryWf_homePut hm _ _ _) h
  simp only [Dev.homeLayer]
  split
  · exact h1
  · exact ⟨storeWf_foldl _ _ (fun _ w hs => storeWf_markWord hs _ _) h1.mem, h1.host, h1.cores⟩

theorem memoryWf_dropTracked {m : Dev} (h : MemoryWf m) (n : Nat) (p : Nat → Bool) : MemoryWf (m.dropTracked n p) := by
  have h1 := memoryWf_mapCores h (fun x => if (p x.1) then
    (x.1, { x.2 with l1 := x.2.l1.filter fun (y : Line) => !(y.num = n && y.st.tracked) }) else x)
    (fun x => by dsimp only; split <;> rfl)
  exact ⟨h1.mem, h1.host, h1.cores⟩

theorem memoryWf_snoopHost {m : Dev} (h : MemoryWf m) (n : Nat) : MemoryWf (m.snoopHost n) := ⟨h.mem, h.host, h.cores⟩

theorem memoryWf_recall {m : Dev} (h : MemoryWf m) (n : Nat) : MemoryWf (m.recall n) := by
  refine memoryWf_snoopHost (memoryWf_dropTracked ?_ _ _) _
  split
  · exact h
  · exact memoryWf_homeLayer h _ _

/-- Every write of bytes at a place keeps the form. -/
theorem memoryWf_write {m : Dev} (h : MemoryWf m) (l : Loc) (bs : List Byte) (p : Nat → Bool) : MemoryWf (m.write l bs p) := by
  cases l with
  | dev pa => exact memoryWf_homePut (memoryWf_foldl _ _ (fun _ i hm => memoryWf_recall hm _) h) _ _ _
  | host pa =>
    refine memoryWf_trigger (m := { m with hostmem := hostPutBytes m.hostmem pa bs }) ?_ _ _
    exact ⟨h.mem, hostWf_putBytes _ _ _ h.host, h.cores⟩
  | arr k o => exact memoryWf_trigger (memoryWf_setCore h k _ (storeWf_write _ _ _ _ (storeWf_core h k))) _ _

theorem memoryWf_writeSpans (ss : List Span) (bs : List (Byte × Bool)) {m : Dev} (h : MemoryWf m) :
    MemoryWf (m.writeSpans ss bs) := by
  induction ss generalizing m bs with
  | nil => exact h
  | cons s t ih => exact ih _ (memoryWf_write h _ _ _)

/-! ## Lines -/

theorem memoryWf_dropLines {m : Dev} (h : MemoryWf m) (k : Nat) (p : Line → Bool) : MemoryWf (m.dropLines k p) :=
  memoryWf_setCore_arr h k _ rfl

theorem memoryWf_mergeHome {m : Dev} (h : MemoryWf m) (n : Nat) (y : Layer) : MemoryWf (m.mergeHome n y) :=
  memoryWf_homeLayer (memoryWf_recall h n) _ _

theorem memoryWf_bufferPut {m : Dev} (h : MemoryWf m) (d n : Nat) (y : Layer) : MemoryWf (m.bufferPut d n y) := by
  simp only [Dev.bufferPut]; split
  · exact h
  · exact memoryWf_setDie h _ _

theorem memoryWf_homeLine {m : Dev} (h : MemoryWf m) (d n : Nat) : MemoryWf (m.homeLine d n) := by
  simp only [Dev.homeLine]; split
  · exact h
  · exact memoryWf_mergeHome (memoryWf_setDie h _ _) _ _

theorem memoryWf_bufferRoom {m : Dev} (h : MemoryWf m) (d n : Nat) : MemoryWf (m.bufferRoom d n) := by
  simp only [Dev.bufferRoom]; split
  · exact h
  · split
    · exact h
    · exact memoryWf_homeLine h _ _

theorem memoryWf_mergeDie {m : Dev} (h : MemoryWf m) (d n : Nat) (y : Layer) : MemoryWf (m.mergeDie d n y) := by
  have h1 := fun z => memoryWf_bufferPut (memoryWf_dropTracked (memoryWf_bufferRoom h d n) n fun k => k / 208 = d) d n z
  simp only [Dev.mergeDie]; split
  · exact h
  · split
    · exact h1 _
    · exact memoryWf_homeLine (h1 _) _ _

theorem memoryWf_mapPending {m : Dev} (h : MemoryWf m) (n : Nat) (p : Nat → Bool) (g : Line → Line) : MemoryWf (m.mapPending n p g) :=
  memoryWf_mapCores h _ fun x => by dsimp only; split <;> rfl

theorem memoryWf_shedPending {m : Dev} (h : MemoryWf m) (n : Nat) (mask : BitVec 128) (covered : Bool) (p : Nat → Bool) :
    MemoryWf (m.shedPending n mask covered p).2 := memoryWf_mapPending h _ _ _

theorem memoryWf_dropBuffered {m : Dev} (h : MemoryWf m) (d n : Nat) (mask : BitVec 128) : MemoryWf (m.dropBuffered d n mask) :=
  memoryWf_setDie h _ _

theorem memoryWf_flushLine {m : Dev} (h : MemoryWf m) (k n : Nat) : MemoryWf (m.flushLine k n) := by
  simp only [Dev.flushLine]
  split
  · split
    · exact memoryWf_mergeDie (memoryWf_dropLines h k _) _ _ _
    · split
      · exact memoryWf_dropLines h k _
      · exact h
  · exact h

theorem memoryWf_unitLine {m : Dev} (h : MemoryWf m) (d n : Nat) : MemoryWf (m.unitLine d n) :=
  memoryWf_setDie (memoryWf_snoopHost (memoryWf_dropTracked (memoryWf_dropBuffered h _ _ _) _ _) _) _ _

theorem memoryWf_atomicLine {m : Dev} (h : MemoryWf m) (k n sc : Nat) : MemoryWf (m.atomicLine k n sc) := by
  simp only [Dev.atomicLine]; split
  · exact memoryWf_unitLine (memoryWf_flushLine h _ _) _ _
  · exact memoryWf_recall (memoryWf_homeLine (memoryWf_flushLine h _ _) _ _) _

theorem memoryWf_atomicPlace {m : Dev} (h : MemoryWf m) (k sc : Nat) (l : Loc) : MemoryWf (m.atomicPlace k sc l) := by
  cases l <;> first | exact memoryWf_atomicLine h _ _ _ | exact h

theorem memoryWf_atomicPut {m : Dev} (h : MemoryWf m) (k sc : Nat) (l : Loc) (bs : List (Byte × Bool)) :
    MemoryWf (m.atomicPut k sc l bs) := by
  cases l with
  | dev pa =>
    have h1 := memoryWf_shedPending h (pa / 128) (layerOf (pa % 128) bs).mask (k % 13 ≠ 12) fun j => j / 13 = k / 13
    simp only [Dev.atomicPut]; split
    · exact memoryWf_setDie h1 _ _
    · exact memoryWf_mergeHome h1 _ _
  | host pa => exact memoryWf_write h (.host pa) (bs.map (·.1)) fun i => (bs.getD i (0, false)).2
  | arr j o => exact memoryWf_write h (.arr j o) (bs.map (·.1)) fun i => (bs.getD i (0, false)).2

theorem memoryWf_mergeShadow {m : Dev} (h : MemoryWf m) (k : Nat) (l : Line) : MemoryWf (m.mergeShadow k l) := by
  refine memoryWf_foldl _ _ (fun m i hm => ?_) (m := if l.num ≥ hostLine then m else m.atomicLine k l.num 3) ?_
  · dsimp only; split
    · exact hm
    · exact memoryWf_atomicPut hm _ _ _ _
  · split
    · exact h
    · exact memoryWf_atomicLine h _ _ _

theorem memoryWf_evict {m : Dev} (h : MemoryWf m) (k : Nat) (l : Line) : MemoryWf (m.evict k l) := by
  simp only [Dev.evict]; split
  · exact memoryWf_mergeDie h _ _ _
  · exact memoryWf_homeLine (memoryWf_mergeDie h _ _ _) _ _
  · exact memoryWf_homeLine (memoryWf_mergeDie h _ _ _) _ _
  · exact memoryWf_mergeShadow h k l
  · exact h

theorem memoryWf_insertLine {m : Dev} (h : MemoryWf m) (k : Nat) (l : Line) : MemoryWf (m.insertLine k l) := by
  simp only [Dev.insertLine]
  split
  · exact memoryWf_evict h k l
  · split
    · exact memoryWf_setCore_arr h k _ rfl
    · split
      · exact h
      · refine memoryWf_evict (memoryWf_setCore_arr h k _ ?_) k _
        rfl

theorem memoryWf_touchLine {m : Dev} (h : MemoryWf m) (k : Nat) (o n : Line) : MemoryWf (m.touchLine k o n) :=
  memoryWf_setCore_arr h k _ rfl

theorem memoryWf_resizeL1 {m : Dev} (h : MemoryWf m) (k : Nat) : MemoryWf (m.resizeL1 k) := by
  refine memoryWf_foldl _ _ (fun m l hm => ?_) h
  split
  · exact memoryWf_evict (memoryWf_dropLines hm k _) k _
  · exact hm

theorem memoryWf_supersede {m : Dev} (h : MemoryWf m) (k n : Nat) (y : Layer) (strong : Bool) :
    MemoryWf (m.supersede k n y strong).2 := memoryWf_shedPending h _ _ _ _

theorem memoryWf_observe (ks : List Nat) {m : Dev} (h : MemoryWf m) (n : Nat) (mask : BitVec 128) (covered strong : Bool) :
    MemoryWf (m.observe n mask covered strong ks) := by
  induction ks generalizing m mask with
  | nil => exact h
  | cons k t ih =>
    cases strong
    · exact ih (memoryWf_mapPending h _ _ _) _
    · exact ih (memoryWf_mapPending (memoryWf_shedPending h _ _ _ _) _ _ _) _

theorem memoryWf_coverPending {m : Dev} (h : MemoryWf m) (k : Nat) : MemoryWf (m.coverPending k) :=
  memoryWf_mapCores h _ fun x => by dsimp only; split <;> rfl

theorem memoryWf_mergingFill {m : Dev} (h : MemoryWf m) (k : Nat) (l : Line) : MemoryWf (m.mergingFill k l) :=
  memoryWf_touchLine (memoryWf_snoopHost (memoryWf_dropTracked (memoryWf_dropBuffered
    (memoryWf_shedPending (memoryWf_choose h) _ _ _ _) _ _ _) _ _) _) k _ _

/-! ## Loads, stores and releases -/

theorem memoryWf_missLoad {m : Dev} (h : MemoryWf m) (k pa n : Nat) (strong : Bool) : MemoryWf (m.missLoad k pa n strong).2 := by
  have h1 := memoryWf_choose h
  simp only [Dev.missLoad]
  split
  · exact memoryWf_observe _ h1 _ _ _ _
  · split
    · exact memoryWf_insertLine (memoryWf_observe _ (memoryWf_choose h1) _ _ _ _) k _
    · exact memoryWf_observe _ (memoryWf_choose h1) _ _ _ _

theorem memoryWf_loadLine {m : Dev} (h : MemoryWf m) (k pa n : Nat) (strong : Bool) : MemoryWf (m.loadLine k pa n strong).2 := by
  simp only [Dev.loadLine]
  split
  · exact memoryWf_missLoad h k pa n strong
  · split
    · split
      · dsimp only; split
        · exact memoryWf_observe _ (memoryWf_touchLine h k _ _) _ _ _ _
        · exact memoryWf_touchLine h k _ _
      · exact memoryWf_mergingFill h k _
    · split
      · exact memoryWf_missLoad (memoryWf_dropLines h k _) k pa n strong
      · exact memoryWf_touchLine h k _ _
    · exact memoryWf_observe _ (memoryWf_touchLine h k _ _) _ _ _ _

theorem memoryWf_storeOwned {m : Dev} (h : MemoryWf m) (k : Nat) (l : Line) (y : Layer) : MemoryWf (m.storeOwned k l y) :=
  memoryWf_touchLine (memoryWf_snoopHost (memoryWf_dropTracked h _ _) _) k _ _

theorem memoryWf_storeLocal {m : Dev} (h : MemoryWf m) (k pa : Nat) (bs : List Byte) (strong : Bool) :
    MemoryWf (m.storeLocal k pa bs strong) := by
  have h1 := memoryWf_supersede h k (pa / 128) (layerOf (pa % 128) (clean bs)) strong
  simp only [Dev.storeLocal]
  split
  · exact memoryWf_mergeDie h1 _ _ _
  · split
    · exact memoryWf_insertLine h1 k _
    · split
      · exact memoryWf_touchLine h1 k _ _
      · exact memoryWf_insertLine (memoryWf_dropLines h1 k _) k _
      · exact memoryWf_storeOwned h1 k _ _

theorem memoryWf_storeStrong {m : Dev} (h : MemoryWf m) (k pa sc : Nat) (bs : List Byte) : MemoryWf (m.storeStrong k pa sc bs) := by
  have h1 := memoryWf_flushLine (memoryWf_supersede h k (pa / 128) (layerOf (pa % 128) (clean bs)) true) k (pa / 128)
  simp only [Dev.storeStrong]
  split
  · exact memoryWf_storeLocal h k pa bs true
  · split
    · exact memoryWf_mergeDie h1 _ _ _
    · exact memoryWf_mergeHome (memoryWf_homeLine h1 _ _) _ _

theorem memoryWf_releaseDie {m : Dev} (h : MemoryWf m) (k : Nat) : MemoryWf (m.releaseDie k) :=
  memoryWf_foldl _ _ (fun m x hm => by
    split
    · exact memoryWf_foldl _ _ (fun _ _ hm => memoryWf_flushLine hm _ _) hm
    · exact hm) h

theorem memoryWf_drainDie {m : Dev} (h : MemoryWf m) (d : Nat) : MemoryWf (m.drainDie d) :=
  memoryWf_foldl _ _ (fun _ _ hm => memoryWf_homeLine hm _ _) h

theorem memoryWf_release {m : Dev} (h : MemoryWf m) (k sc : Nat) : MemoryWf (m.release k sc) := by
  simp only [Dev.release]
  split
  · exact h
  · split
    · exact memoryWf_coverPending h k
    · split
      · exact memoryWf_releaseDie h k
      · exact memoryWf_drainDie (memoryWf_releaseDie h k) _

theorem memoryWf_releaseStart {m : Dev} (h : MemoryWf m) (k sc : Nat) : MemoryWf (m.releaseStart k sc) := by
  simp only [Dev.releaseStart]
  split
  · exact h
  · split
    · exact memoryWf_coverPending h k
    · split
      · exact memoryWf_releaseDie h k
      · exact memoryWf_foldl _ _ (fun _ _ hm => memoryWf_push hm _) (memoryWf_setDie (memoryWf_releaseDie h k) _ _)

theorem memoryWf_prefetchLine {m : Dev} (h : MemoryWf m) (k n : Nat) : MemoryWf (m.prefetchLine k n) := by
  have h1 := memoryWf_dropLines h k fun x => x.num = n && x.st = .g
  simp only [Dev.prefetchLine]
  split
  · split
    · exact memoryWf_mergingFill h1 k _
    · exact h1
  · split
    · exact h1
    · refine memoryWf_insertLine (memoryWf_mapCores (memoryWf_homeLine h1 _ _) _ ?_) k _
      exact fun _ => rfl

/-! ## Engines and shadows -/

theorem memoryWf_overwrite {m : Dev} (h : MemoryWf m) (cl pa n : Nat) : MemoryWf (m.overwrite cl pa n) :=
  memoryWf_foldl _ _ (fun _ _ hm => memoryWf_mergeHome (memoryWf_dropBuffered (memoryWf_shedPending hm _ _ _ _) _ _ _) _ _) h

theorem memoryWf_storeSpan {m : Dev} (h : MemoryWf m) (cl ctx : Nat) (l : Loc) (bs : List (Byte × Bool)) :
    MemoryWf (m.storeSpan cl ctx l bs) := by
  simp only [Dev.storeSpan]
  split
  · exact memoryWf_write (memoryWf_overwrite h _ _ _) _ _ _
  · split
    · exact memoryWf_write h _ _ _
    · refine memoryWf_foldl _ _ (fun m x hm => ?_) h
      split
      · exact memoryWf_write hm _ _ _
      · exact hm

theorem memoryWf_storeEngine (ss : List Span) (bs : List (Byte × Bool)) {m : Dev} (h : MemoryWf m) (cl ctx : Nat) :
    MemoryWf (m.storeEngine cl ctx ss bs) := by
  induction ss generalizing m bs with
  | nil => exact h
  | cons s t ih => exact ih _ (memoryWf_storeSpan h _ _ _ _)

theorem memoryWf_shadowTouch {m : Dev} (h : MemoryWf m) (k uid n atype room : Nat) : MemoryWf (m.shadowTouch k uid n atype room) := by
  simp only [Dev.shadowTouch]
  split
  · exact memoryWf_touchLine h k _ _
  · exact memoryWf_insertLine h k _

theorem memoryWf_shadowStore {m : Dev} (h : MemoryWf m) (k uid n off atype room : Nat) (bs : List Byte) :
    MemoryWf (m.shadowStore k uid n off atype room bs) := by
  simp only [Dev.shadowStore]
  split
  · exact memoryWf_touchLine (memoryWf_shadowTouch h _ _ _ _ _) k _ _
  · exact memoryWf_shadowTouch h _ _ _ _ _

theorem memoryWf_endShadows {m : Dev} (h : MemoryWf m) (k uid : Nat) (merge : Bool) (p : Nat → Bool) :
    MemoryWf (m.endShadows k uid merge p) := by
  simp only [Dev.endShadows]
  split
  · exact memoryWf_foldl _ _ (fun _ _ hm => memoryWf_mergeShadow hm k _) (memoryWf_setCore_arr h k _ rfl)
  · exact memoryWf_setCore_arr h k _ rfl

/-! ## Arrays, errors, the wipe -/

theorem memoryWf_takeArray {m : Dev} (h : MemoryWf m) (k ctx o n : Nat) : MemoryWf (m.takeArray k ctx o n) :=
  memoryWf_setCore h k _ (storeWf_drop _ _ _ (storeWf_core h k))

theorem memoryWf_dropTlb {m : Dev} (h : MemoryWf m) (ctx start size : Nat) : MemoryWf (m.dropTlb ctx start size) :=
  memoryWf_mapCores h _ fun _ => rfl

theorem memoryWf_recallPages {m : Dev} (h : MemoryWf m) (a n : Nat) : MemoryWf (m.recallPages a n) :=
  memoryWf_foldl _ _ (fun _ _ hm => memoryWf_recall hm _) h

theorem memoryWf_poisonMemory {m : Dev} (h : MemoryWf m) (pa : Nat) : MemoryWf (m.poisonMemory pa) := by
  simp only [Dev.poisonMemory]; split
  · exact ⟨storeWf_poison _ _ h.mem, h.host, h.cores⟩
  · exact h

theorem memoryWf_dataError {m : Dev} (h : MemoryWf m) (p : PoisonPlace) : MemoryWf (m.dataError p) := by
  cases p with
  | memory pa => exact memoryWf_poisonMemory h pa
  | array k off =>
    simp only [Dev.dataError]; split
    · exact memoryWf_setCore h k _ (storeWf_poison _ _ (storeWf_core h k))
    · exact h
  | pending k pa =>
    simp only [Dev.dataError]; split
    · exact h
    · exact memoryWf_setCore_arr h k _ rfl
  | mergeBuffer d pa => exact memoryWf_setDie h d _

/-- The wipe leaves zeros and keeps host memory (R113). -/
theorem memoryWf_wiped {m : Dev} (h : MemoryWf m) : MemoryWf m.wiped := ⟨⟨rfl, rfl⟩, h.host, by simp [Dev.wiped]⟩

end Sys2Proof.Laws
end

