-- ==== Sys2Proof/Tests/Slice0.lean ====
section
/-!
SUPPORT. Tests/Slice0.lean: decoding of words written out from the spec's strips and examples, an ill-formed term for each
check of `Instr.wellFormed`, states that meet the hypotheses of every obligation (`meets_…`), and single steps on small states.
-/
open Sys2Proof Sys2Proof.Machine Sys2Proof.Claims

namespace Sys2Proof.Tests

-- One theorem after the other: threads of their own for so many evaluations would run out of memory.
set_option Elab.async false

/-! ## Words of the spec's examples (chapters 13, 15-17, 21, 24, 25) -/

theorem test_decode_scalar_arithmetic :
    decodeScalar (0x04304200) = .ok (.salu 3 1 2 0 0) ∧
    decodeScalar (0x04304247) = .ok (.salu 3 1 2 1 7) ∧
    decodeScalar (0x04724013) = .ok (.salu 7 9 0 0 19) ∧
    decodeScalar (0x08410040) = .ok (.addi 4 4 0x40) ∧
    decodeScalar (0x18514003) = .ok (.shli 5 5 3) ∧
    decodeScalar (0x24401200) = .ok (.movh 4 0x1200) ∧
    decodeScalar (0x28210502) = .ok (.cmp 2 4 5 2) ∧
    decodeScalar (0x2E910064) = .ok (.cmpi 5 1 4 100) ∧
    decodeScalar (0x30310502) = .ok (.sel 3 4 5 2) := by decide

theorem test_decode_scalar_logic :
    decodeScalar (0b000011#6 ++ 5#6 ++ 4#6 ++ 0x3FFF#14) = .ok (.andi 5 4 0x3FFF) ∧
    decodeScalar (0b000100#6 ++ 5#6 ++ 4#6 ++ 0x2000#14) = .ok (.ori 5 4 0x2000) ∧
    decodeScalar (0b000101#6 ++ 5#6 ++ 4#6 ++ 0x0001#14) = .ok (.xori 5 4 1) ∧
    decodeScalar (0b000111#6 ++ 5#6 ++ 4#6 ++ 0#8 ++ 63#6) = .ok (.shri 5 4 63) ∧
    decodeScalar (0b001000#6 ++ 5#6 ++ 4#6 ++ 0#8 ++ 31#6) = .ok (.sari 5 4 31) := by decide

theorem test_decode_scalar_memory :
    decodeScalar (0x34513002) = .ok (.sld 5 4 3 2) ∧
    decodeScalar (0x38612FFF) = .ok (.sst 6 4 2 0xFFF) ∧
    decodeScalar (0x3C5106B7) = .ok (.samo 5 4 6 1 3 7) ∧
    decodeScalar (0x3C510620) = .ok (.samo 5 4 6 0 2 0) := by decide

theorem test_decode_transfers :
    decodeScalar (0b010000#6 ++ 0#4 ++ 0x3FFFFF#22) = .ok (.br 0x3FFFFF) ∧
    decodeScalar (0b010001#6 ++ 5#3 ++ 1#1 ++ 7#22) = .ok (.bc 5 1 7) ∧
    decodeScalar (0x48800005) = .ok (.call 2 5) ∧
    decodeScalar (0b010011#6 ++ 0#6 ++ 9#6 ++ 0#6 ++ 0#4 ++ 3#4) = .ok (.callr 9 3) ∧
    decodeScalar (0x500FC000) = .ok (.ret 63) ∧
    decodeScalar (0x5001C000) = .ok (.ret 7) ∧
    decodeScalar (0x5401C000) = .ok (.jr 7) ∧
    decodeScalar (0x58C11000) = .ok (.jseg 3 17) ∧
    decodeScalar (0x581001C0) = .ok (.jsegReg 7) ∧
    decodeScalar (0x5D600240) = .ok (.cfetch 5 1 9) ∧
    decodeScalar (0x60A28000) = .ok (.lpc 2 40) ∧
    decodeScalar (0x603001C0) = .ok (.lpcReg 7) ∧
    decodeScalar (0x65C00000) = .ok (.lissue 7) ∧
    decodeScalar (0x68400000) = .ok (.dual 0 4) ∧
    decodeScalar (0x69300000) = .ok (.dual 1 3) ∧
    decodeScalar (0x6CC00003) = .ok (.fmt 3 0 3) ∧
    decodeScalar (0x6D81C000) = .ok (.fmt 6 7 0) ∧
    decodeScalar (0x6E000004) = .ok (.fmt 8 0 4) ∧
    decodeScalar (0x70810000) = .ok (.xlat 1 4) := by decide

theorem test_decode_control :
    decodeScalar (0x74800803) = .ok (.split 1 0 1 3) ∧
    decodeScalar (0x78000000) = .ok (.fuse) ∧
    decodeScalar (0x7C510000) = .ok (.gjoin 5 4) ∧
    decodeScalar (0x7C000001) = .ok (.gleave) ∧
    decodeScalar (0x7C000002) = .ok (.barG) ∧
    decodeScalar (0x80C00000) = .ok (.rolesw 3) ∧
    decodeScalar (0b100001#6 ++ 5#6 ++ 4#6 ++ 0#14) = .ok (.claim 5 4) ∧
    decodeScalar (0x84510001) = .ok (.yield 5 4) ∧
    decodeScalar (0x88010000) = .ok (.spawn 4) ∧
    decodeScalar (0b100011#6 ++ 0#26) = .ok (.tail) ∧
    decodeScalar (0b100011#6 ++ 0#18 ++ 1#8) = .ok (.exit) ∧
    decodeScalar (0x8C008002) = .ok (.exitK 2) ∧
    decodeScalar (0x93800000) = .ok (.bar 7) := by decide

theorem test_decode_rooms_and_engines :
    decodeScalar (0x94014020) = .ok (.renter 5 2) ∧
    decodeScalar (0x94014040) = .ok (.renter 5 4) ∧
    decodeScalar (0x94014001) = .ok (.rleave 5) ∧
    decodeScalar (0x94014002) = .ok (.rclr 5) ∧
    decodeScalar (0x98010000) = .ok (.cpy 4) ∧
    decodeScalar (0x9C600000) = .ok (.cbatch 6) ∧
    decodeScalar (0x9C018001) = .ok (.cwait 6) ∧
    decodeScalar (0xA0010000) = .ok (.mon 4) ∧
    decodeScalar (0xA0008301) = .ok (.mwait 2 3 0) ∧
    decodeScalar (0xA0008309) = .ok (.mwait 2 3 2) ∧
    decodeScalar (0xA5000000) = .ok (.fence 2 0) ∧
    decodeScalar (0xA5A00000) = .ok (.fence 3 1) ∧
    decodeScalar (0xA5C18300) = .ok (.fenceX 3 2 3 1) ∧
    decodeScalar (0xA8010000) = .ok (.gath 4) ∧
    decodeScalar (0xAC010000) = .ok (.scadd 4) ∧
    decodeScalar (0xB0010000) = .ok (.peerPut 4) ∧
    decodeScalar (0xB0010001) = .ok (.peerGet 4) ∧
    decodeScalar (0xB4010500) = .ok (.msend 4 5) ∧
    decodeScalar (0xB4018701) = .ok (.mrecv 6 7) ∧
    decodeScalar (0xB8010500) = .ok (.qput 4 5) ∧
    decodeScalar (0b101110#6 ++ 6#6 ++ 4#6 ++ 0#6 ++ 1#8) = .ok (.qtake 6 4) ∧
    decodeScalar (0xB8414002) = .ok (.qinit 4 5) ∧
    decodeScalar (0xBC000000) = .ok (.region) := by decide

theorem test_decode_matrix_and_system :
    decodeScalar (0xC0900200) = .ok (.mma 9 0 2 0 0 0) ∧
    decodeScalar (0xC0928441) = .ok (.mma 9 10 4 2 0 1) ∧
    decodeScalar (0xC4428B01) = .ok (.mld 4 10 11 1) ∧
    decodeScalar (0xC8028B41) = .ok (.mdrain 10 11 2 1) ∧
    decodeScalar (0xCC000020) = .ok (.mzero 1) ∧
    decodeScalar (0xD0000020) = .ok (.msave 1) ∧
    decodeScalar (0xD4000020) = .ok (.mrest 1) ∧
    decodeScalar (0xD8010000) = .ok (.mcfg 4) ∧
    decodeScalar (0b110111#6 ++ 0#26) = .ok (.mwaitm) ∧
    decodeScalar (0xF80FFFFE) = .ok (.trap 0xFFFFE) ∧
    decodeScalar (0xF80FFFFF) = .ok (.brk) ∧
    decodeScalar (0xFC502000) = .ok (.mfsr 5 0x20) ∧
    decodeScalar (0xFC502001) = .ok (.mtsr 5 0x20) ∧
    decodeScalar (0xFC000002) = .ok (.rte) ∧
    decodeScalar (0xFC010003) = .ok (.tlbinv 4) ∧
    decodeScalar (0xFC000004) = .ok (.l1flush) ∧
    decodeScalar (0xFC500405) = .ok (.spec 5 4) ∧
    decodeScalar (0xFC000006) = .ok (.halt) ∧
    decodeScalar (0xFC000007) = .ok (.nop) := by decide

/-- OP 0 is `TRAPZ`, whatever the other bits (R210); an OP that the table lacks, a zero field and an FN without a form (R374). -/
theorem test_decode_refusals :
    decodeScalar 0x00000000 = .error .poolExec ∧ trapzOf 0x02ABCDEF = .trapz 0x2ABCDEF ∧
    decodeScalar 0xE0000000 = .error .illegalOpcode ∧ decodeScalar (0b000001#6 ++ 0#20 ++ 23#6) = .error .illegalOpcode ∧
    decodeScalar 0x7C000003 = .error .illegalOpcode ∧ decodeScalar 0x78000001 = .error .reservedField ∧
    decodeScalar 0x503FC000 = .error .reservedField ∧ decodeLane (0x3FF#10 ++ 0#86) = .error .illegalOpcode := by decide

/-! ## Lane strips (R381), field by field -/

/-- The strip of R381, from bit 95 down. -/
def strip (opc : BitVec 10) (vd va vb vc : BitVec 7) (kp : BitVec 3) (kn : BitVec 1) (ty la : BitVec 4) (lr xs : BitVec 3)
    (mode : BitVec 8) (imm : BitVec 32) : LaneWord :=
  opc ++ vd ++ va ++ vb ++ vc ++ kp ++ kn ++ ty ++ la ++ lr ++ xs ++ mode ++ imm

/-- The three words of an example in chapters 22 and 23: word 2, word 1, word 0. -/
def words (w2 w1 w0 : BitVec 32) : LaneWord := w2 ++ w1 ++ w0

theorem test_decode_lane_examples :
    decodeLane (words 0x00450B00 0x00340005 0x00000001) = .ok (.iadd { vd := 10, va := 11, ty := 13, mode := 5, imm := 1 }) ∧
    decodeLane (words 0x05C0840A 0x08000001 0x00000000) = .ok (.icmp { vd := 1, va := 4, vb := 5, vc := 2, mode := 1 }) ∧
    decodeLane (words 0x10CA1506 0x58040081 0x00000000) = .ok (.ffma { vd := 20, va := 21, vb := 3, vc := 22, ty := 1, mode := 0x81 }) ∧
    decodeLane (words 0x13830500 0x0000E000 0x00000000) = .ok (.fexp2 { vd := 6, va := 5, la := 3, lr := 4 }) ∧
    decodeLane (words 0x20038300 0x000C0000 0x00000100) = .ok (.cvt { vd := 7, va := 3, ty := 3, imm := 0x100 }) ∧
    decodeLane (words 0x2104840A 0x00280000 0x00000000) = .ok (.lsum { vd := 9, va := 4, vb := 5, ty := 10 }) ∧
    decodeLane (words 0x40008206 0x00000000 0x00000000) = .ok (.kand { vd := 1, va := 2, vb := 3 }) ∧
    decodeLane (words 0x41428000 0x00000000 0x00000001) = .ok (.kget { vd := 5, imm := 1 }) := by decide

theorem test_decode_lane_memory_examples :
    decodeLane (words 0x3040060E 0x0000023E 0x00000008) = .ok (.st { va := 6, vb := 7, xs := 2, mode := 0x3E, imm := 8 }) ∧
    decodeLane (words 0x30850418 0x00000133 0x00000000) = .ok (.atom { vd := 10, va := 4, vb := 12, xs := 1, mode := 0x33 }) ∧
    decodeLane (words 0x30840206 0x2400002A 0x0000000B) = .ok (.atom { vd := 8, va := 2, vb := 3, vc := 9, mode := 0x2A, imm := 11 }) ∧
    decodeLane (words 0x31000308 0x00000002 0x00000005) = .ok (.plw { va := 3, vb := 4, mode := 2, imm := 5 }) ∧
    decodeLane (words 0x3183000A 0x00000082 0x00000003) = .ok (.rpop { vd := 6, vb := 5, mode := 0x82, imm := 3 }) ∧
    decodeLane (words 0x28C28406 0x00000083 0x00000005) = .ok (.shfl { vd := 5, va := 4, vb := 3, mode := 0x83, imm := 5 }) ∧
    decodeLane (words 0x29410100 0x00000001 0x00000000) = .ok (.vote { vd := 2, va := 1, mode := 1 }) ∧
    decodeLane (words 0x29830400 0x00000000 0x00000000) = .ok (.reduce { vd := 6, va := 4 }) ∧
    decodeLane (words 0x2A048800 0x0000000D 0x00000000) = .ok (.scan { vd := 9, va := 8, mode := 0x0D }) ∧
    decodeLane (words 0x2A448000 0x00000000 0x00000005) = .ok (.laneSpec { vd := 9, imm := 5 }) ∧
    decodeLane (words 0x2A830200 0x00000100 0x00000000) = .ok (.slc { vd := 6, va := 2, xs := 1 }) := by decide

/-- Every field of a strip at a value of its own, mode and IMM apart (their checks differ by opcode). -/
def fields : LaneF := { vd := 0x55, va := 0x2A, vb := 0x33, vc := 0x4C, kp := 5, kn := 1, ty := 9, la := 6, lr := 5, xs := 3 }
def fieldsWord (opc : BitVec 10) : LaneWord := strip opc 0x55 0x2A 0x33 0x4C 5 1 9 6 5 3 0 0

theorem test_decode_strip_integers :
    decodeLane (fieldsWord 0x001) = .ok (.iadd fields) ∧
    decodeLane (fieldsWord 0x002) = .ok (.isub fields) ∧
    decodeLane (fieldsWord 0x003) = .ok (.imul fields) ∧
    decodeLane (fieldsWord 0x004) = .ok (.imulh fields) ∧
    decodeLane (fieldsWord 0x005) = .ok (.imad fields) ∧
    decodeLane (fieldsWord 0x006) = .ok (.iabs fields) ∧
    decodeLane (fieldsWord 0x007) = .ok (.ineg fields) ∧
    decodeLane (fieldsWord 0x008) = .ok (.imin fields) ∧
    decodeLane (fieldsWord 0x009) = .ok (.imax fields) ∧
    decodeLane (fieldsWord 0x00A) = .ok (.and fields) ∧
    decodeLane (fieldsWord 0x00B) = .ok (.or fields) ∧
    decodeLane (fieldsWord 0x00C) = .ok (.xor fields) ∧
    decodeLane (fieldsWord 0x00D) = .ok (.not fields) ∧
    decodeLane (fieldsWord 0x00E) = .ok (.shl fields) ∧
    decodeLane (fieldsWord 0x00F) = .ok (.shr fields) ∧
    decodeLane (fieldsWord 0x010) = .ok (.sar fields) ∧
    decodeLane (fieldsWord 0x011) = .ok (.rot fields) ∧
    decodeLane (fieldsWord 0x012) = .ok (.bfx fields) ∧
    decodeLane (fieldsWord 0x013) = .ok (.bfi fields) ∧
    decodeLane (fieldsWord 0x014) = .ok (.popc fields) ∧
    decodeLane (fieldsWord 0x015) = .ok (.clz fields) ∧
    decodeLane (fieldsWord 0x016) = .ok (.brev fields) ∧
    decodeLane (fieldsWord 0x017) = .ok (.icmp fields) ∧
    decodeLane (fieldsWord 0x018) = .ok (.isel fields) := by decide

theorem test_decode_strip_floats :
    decodeLane (fieldsWord 0x040) = .ok (.fadd fields) ∧
    decodeLane (fieldsWord 0x041) = .ok (.fsub fields) ∧
    decodeLane (fieldsWord 0x042) = .ok (.fmul fields) ∧
    decodeLane (fieldsWord 0x043) = .ok (.ffma fields) ∧
    decodeLane (fieldsWord 0x044) = .ok (.fmin fields) ∧
    decodeLane (fieldsWord 0x045) = .ok (.fmax fields) ∧
    decodeLane (fieldsWord 0x046) = .ok (.fmaxm fields) ∧
    decodeLane (fieldsWord 0x047) = .ok (.fabs fields) ∧
    decodeLane (fieldsWord 0x048) = .ok (.fneg fields) ∧
    decodeLane (fieldsWord 0x049) = .ok (.fcmp fields) ∧
    decodeLane (fieldsWord 0x04A) = .ok (.frcp fields) ∧
    decodeLane (fieldsWord 0x04B) = .ok (.frsq fields) ∧
    decodeLane (fieldsWord 0x04C) = .ok (.fsqrt fields) ∧
    decodeLane (fieldsWord 0x04D) = .ok (.fdiv fields) ∧
    decodeLane (fieldsWord 0x04E) = .ok (.fexp2 fields) ∧
    decodeLane (fieldsWord 0x04F) = .ok (.flog2 fields) ∧
    decodeLane (fieldsWord 0x050) = .ok (.fsin fields) ∧
    decodeLane (fieldsWord 0x051) = .ok (.fcos fields) ∧
    decodeLane (fieldsWord 0x052) = .ok (.fclass fields) ∧
    decodeLane (fieldsWord 0x080) = .ok (.cvt fields) ∧
    decodeLane (fieldsWord 0x081) = .ok (.pack fields) ∧
    decodeLane (fieldsWord 0x082) = .ok (.unpack fields) ∧
    decodeLane (fieldsWord 0x083) = .ok (.lmul fields) ∧
    decodeLane (fieldsWord 0x084) = .ok (.lsum fields) := by decide

theorem test_decode_strip_moves_and_memory :
    decodeLane (fieldsWord 0x0A0) = .ok (.mov fields) ∧
    decodeLane (fieldsWord 0x0A1) = .ok (.movi fields) ∧
    decodeLane (fieldsWord 0x0A2) = .ok (.laneSel fields) ∧
    decodeLane (fieldsWord 0x0A3) = .ok (.shfl fields) ∧
    decodeLane (fieldsWord 0x0A4) = .ok (.bcast fields) ∧
    decodeLane (fieldsWord 0x0A5) = .ok (.vote fields) ∧
    decodeLane (fieldsWord 0x0A6) = .ok (.reduce fields) ∧
    decodeLane (fieldsWord 0x0A7) = .ok (.reduceV fields) ∧
    decodeLane (fieldsWord 0x0A8) = .ok (.scan fields) ∧
    decodeLane (fieldsWord 0x0A9) = .ok (.laneSpec fields) ∧
    decodeLane (fieldsWord 0x0AA) = .ok (.slc fields) ∧
    decodeLane (fieldsWord 0x0C0) = .ok (.ld fields) ∧
    decodeLane (fieldsWord 0x0C1) = .ok (.st fields) ∧
    decodeLane (fieldsWord 0x0C2) = .ok (.atom fields) ∧
    decodeLane (fieldsWord 0x0C3) = .ok (.pref fields) ∧
    decodeLane (fieldsWord 0x0C4) = .ok (.plw fields) ∧
    decodeLane (fieldsWord 0x0C5) = .ok (.rpush fields) ∧
    decodeLane (fieldsWord 0x0C6) = .ok (.rpop fields) ∧
    decodeLane (fieldsWord 0x100) = .ok (.kand fields) ∧
    decodeLane (fieldsWord 0x101) = .ok (.kor fields) ∧
    decodeLane (fieldsWord 0x102) = .ok (.kxor fields) ∧
    decodeLane (fieldsWord 0x103) = .ok (.knot fields) ∧
    decodeLane (fieldsWord 0x104) = .ok (.kmov fields) ∧
    decodeLane (fieldsWord 0x105) = .ok (.kget fields) := by decide

/-! ## Ill-formed terms: one for each check -/

theorem test_illformed_scalars :
    (Instr.salu 0 0 0 0 23).wellFormed = false ∧ (Instr.salu 0 0 1 0 19).wellFormed = false ∧ (Instr.salu 0 0 1 0 20).wellFormed = false ∧
    (Instr.samo 0 0 0 0 5 0).wellFormed = false ∧ (Instr.lissue 0).wellFormed = false ∧ (Instr.dual 1 0).wellFormed = false ∧
    (Instr.fmt 9 0 0).wellFormed = false ∧ (Instr.rolesw 4).wellFormed = false ∧ (Instr.exitK 8).wellFormed = false ∧
    (Instr.renter 0 5).wellFormed = false ∧ (Instr.mwait 0 0 3).wellFormed = false ∧ (Instr.fence 5 0).wellFormed = false ∧
    (Instr.fence 0 3).wellFormed = false ∧ (Instr.fenceX 5 0 1 1).wellFormed = false ∧ (Instr.fenceX 0 3 1 1).wellFormed = false ∧
    (Instr.fenceX 0 0 0 1).wellFormed = false ∧ (Instr.fenceX 0 0 1 0).wellFormed = false ∧ (Instr.mma 0 16 0 0 0 0).wellFormed = false ∧
    (Instr.mma 0 1 0 0 0 1).wellFormed = false ∧ (Instr.mma 0 0 16 0 0 0).wellFormed = false ∧ (Instr.mma 0 0 1 0 1 0).wellFormed = false ∧
    (Instr.trap 0xFFFFF).wellFormed = false ∧ (Instr.spec 0 15).wellFormed = false ∧ (Instr.spec 0 5).wellFormed = false ∧
    (Instr.spec 0 12).wellFormed = false ∧ (Instr.spec 0 13).wellFormed = false := by decide

/-- The operand fields, LA, XS and LR (R375, R384). -/
theorem test_illformed_lane_fields :
    (Instr.movi { va := 1 }).wellFormed = false ∧ (Instr.icmp { vd := 8 }).wellFormed = false ∧ (Instr.fadd { vc := 1 }).wellFormed = false ∧
    (Instr.fadd { vb := 64, mode := 0x80 }).wellFormed = false ∧ (Instr.iadd { vb := 1, mode := 4 }).wellFormed = false ∧
    (Instr.iadd { mode := 0x84 }).wellFormed = false ∧ (Instr.iadd { va := 1, mode := 2 }).wellFormed = false ∧
    (Instr.reduce { vd := 64 }).wellFormed = false ∧ (Instr.kand { va := 8 }).wellFormed = false ∧ (Instr.fadd { la := 1 }).wellFormed = false ∧
    (Instr.fadd { xs := 1 }).wellFormed = false ∧ (Instr.fabs { mode := 0x80 }).wellFormed = false ∧ (Instr.movi { lr := 4 }).wellFormed = false ∧
    (Instr.fadd { lr := 2, mode := 0x80 }).wellFormed = false ∧ (Instr.fadd { lr := 1 }).wellFormed = false := by decide

/-- TY, MOD and IMM of the integer, bit-field and float opcodes (R437-R449). -/
theorem test_illformed_lane_arithmetic :
    (Instr.iadd { mode := 8 }).wellFormed = false ∧ (Instr.iadd { ty := 1 }).wellFormed = false ∧ (Instr.iadd { ty := 13, mode := 2 }).wellFormed = false ∧
    (Instr.iadd { imm := 1 }).wellFormed = false ∧ (Instr.iabs {}).wellFormed = false ∧ (Instr.ineg { mode := 4 }).wellFormed = false ∧
    (Instr.not { mode := 1 }).wellFormed = false ∧ (Instr.shl { mode := 1 }).wellFormed = false ∧ (Instr.icmp { vc := 6 }).wellFormed = false ∧
    (Instr.bfx { imm := 0 }).wellFormed = false ∧ (Instr.bfx { imm := 32 * 32 + 1 }).wellFormed = false ∧
    (Instr.bfx { imm := 33 * 32 }).wellFormed = false ∧ (Instr.bfi { mode := 1, imm := 32 }).wellFormed = false ∧
    (Instr.bfx { mode := 0x80, imm := 32 }).wellFormed = false ∧ (Instr.popc { ty := 1 }).wellFormed = false ∧
    (Instr.fadd { ty := 3 }).wellFormed = false ∧ (Instr.fadd { imm := 1 }).wellFormed = false ∧ (Instr.fmin { mode := 1 }).wellFormed = false ∧
    (Instr.fcmp { mode := 4 }).wellFormed = false ∧ (Instr.fclass { mode := 1 }).wellFormed = false ∧ (Instr.frcp { ty := 1 }).wellFormed = false ∧
    (Instr.fadd { mode := 8 }).wellFormed = false := by decide

/-- TY, MOD, IMM and selectors of the conversions, moves and memory opcodes (R450-R459, R460-R479, R286). -/
theorem test_illformed_lane_others :
    (Instr.cvt { imm := 0x20000 }).wellFormed = false ∧ (Instr.cvt { imm := 0xC000 }).wellFormed = false ∧
    (Instr.cvt { ty := 1, imm := 0x8000 }).wellFormed = false ∧ (Instr.cvt { imm := 0x10000 }).wellFormed = false ∧
    (Instr.cvt { imm := 1 }).wellFormed = false ∧ (Instr.cvt { ty := 5, mode := 4 }).wellFormed = false ∧ (Instr.pack {}).wellFormed = false ∧
    (Instr.pack { ty := 1, imm := 8 }).wellFormed = false ∧ (Instr.unpack { ty := 1, mode := 1 }).wellFormed = false ∧
    (Instr.lmul { ty := 8 }).wellFormed = false ∧ (Instr.lsum { ty := 12 }).wellFormed = false ∧ (Instr.mov { mode := 2 }).wellFormed = false ∧
    (Instr.mov { imm := 1 }).wellFormed = false ∧ (Instr.movi { mode := 1 }).wellFormed = false ∧ (Instr.shfl { mode := 4 }).wellFormed = false ∧
    (Instr.shfl { imm := 11 }).wellFormed = false ∧ (Instr.bcast { imm := 1024 }).wellFormed = false ∧ (Instr.vote { mode := 3 }).wellFormed = false ∧
    (Instr.reduce { mode := 0x60 }).wellFormed = false ∧ (Instr.reduce { mode := 0x30 }).wellFormed = false ∧
    (Instr.reduce { mode := 0x0C }).wellFormed = false ∧ (Instr.laneSpec { imm := 15 }).wellFormed = false ∧ (Instr.slc { mode := 0x80 }).wellFormed = false ∧
    (Instr.ld { mode := 0x0E }).wellFormed = false ∧ (Instr.ld { mode := 0x12 }).wellFormed = false ∧ (Instr.st { mode := 0x0A }).wellFormed = false ∧
    (Instr.st { mode := 0x56 }).wellFormed = false ∧ (Instr.atom { mode := 2, imm := 12 }).wellFormed = false ∧
    (Instr.atom { mode := 1 }).wellFormed = false ∧ (Instr.pref { mode := 4 }).wellFormed = false ∧ (Instr.plw { mode := 1 }).wellFormed = false ∧
    (Instr.plw { mode := 2, imm := 16 }).wellFormed = false ∧ (Instr.rpush { mode := 2, imm := 1 }).wellFormed = false ∧
    (Instr.rpop { mode := 0x82 }).wellFormed = false ∧ (Instr.kmov { imm := 1 }).wellFormed = false ∧ (Instr.kget { imm := 32 }).wellFormed = false ∧
    (Instr.kand { ty := 1 }).wellFormed = false := by decide

/-! ## Small states -/

/-- A core whose segment 0 holds scalar code and segment 1 lane code of launch 1. -/
def core0 : Core :=
  { segs := { st := .landed, owner := .launch 1 } :: { st := .landed, lane := true, owner := .launch 1 } :: List.replicate 10 {} }

/-- A wave of launch 1 with 32 lanes on core 0, at word 0; its context's handler has one segment (R359). -/
def dev0 : Dev :=
  { wave := { uid := 1, launch := 1, base := { units := 4 } }, frag := { fid := 1, mask := Mask.first 32, lpc := 2 ^ 14 },
    launches := [{ num := 1, st := .running }], nextLaunch := 2, nextUid := 2, cores := [(0, core0)], mem := { bytes := [(8, 1)] } }

/-- The same with scalar registers, with a changed wave or fragment, on the control core. -/
def withS (l : Cells 64) : Dev := { dev0 with wave := { dev0.wave with sregs := l } }
def withW (f : Wave → Wave) : Dev := { dev0 with wave := f dev0.wave }
def withF (f : Frag → Frag) : Dev := { dev0 with frag := f dev0.frag }
def ctl0 : Dev := { dev0 with wave := { dev0.wave with core := 12, base := {} }, cores := [(12, core0)] }
def ctlS (l : Cells 64) : Dev := { ctl0 with wave := { ctl0.wave with sregs := l } }
def at0 (m : Dev) : State := { dev := m }

/-- The fragment has been granted the blocks that its word asked for, with the target or count `v` (R189). -/
def granted (v : Nat) : Dev := withF fun f => { f with wait := .blocks 16 false, phase := 20, taken := v }

/-- A trap is delivered in these states. -/
theorem traps0 (c : Cause) (h : c ≠ .parityFatal) : ScalarTraps dev0 c :=
  ⟨⟨by cases c <;> first | rfl | exact absurd rfl h, rfl⟩, rfl, rfl⟩

theorem code_scalar (m : Dev) (h : m.cores = [(0, core0)]) (hw : m.wave.coreNo = 0) (hl : m.wave.launch = 1) (hs : m.wave.super = false)
    (t : Nat) (ht : t % 64 = 0) (hb : t < 2 ^ 14) : CodeAt m t false := by
  have e : t / 2 ^ 14 = 0 := by omega
  refine ⟨ht, by omega, by omega, { st := .landed, owner := .launch 1 }, ?_, rfl, rfl, ?_⟩
  · rw [hw, e, Dev.core, h]; rfl
  · rw [hs, hl]; rfl

theorem no_code (m : Dev) (lane : Bool) : ¬ CodeAt m (15 * 2 ^ 14) lane := fun h => absurd h.2.2.1 (by decide)

/-! ## Scalar words -/

theorem meets_ScalarAluWritesTheTable :
    ((22#6).toNat ≤ 22 ∧ ¬ (divides 22 = true ∧ zeroDivisor 1 0 = true)) ∧
    ((11#6).toNat ≤ 22 ∧ ¬ (divides 11 = true ∧ zeroDivisor 1 0x100000001#64 = true)) ∧
    (divides 14 = true ∧ zeroDivisor 1 0x100000000#64 = true ∧ zeroDivisor 0 (dev0.s 0) = true ∧ ScalarTraps dev0 .divideByZero) :=
  ⟨by decide, by decide, by decide, by decide, by decide, traps0 _ (by decide)⟩

theorem no_seg (o : Nat) (h : o < 2 ^ 14) (lane : Bool) : ¬ CodeAt dev0 (5 * 2 ^ 14 + o) lane := fun ⟨_, _, _, x, hx, hl, _⟩ => by
  have e : (5 * 2 ^ 14 + o) / 2 ^ 14 = 5 := by omega
  rw [e] at hx
  cases (show some ({} : Seg) = some x from hx)
  cases hl

theorem meets_TransfersGoToTheBlockOrTrap :
    (InSegment dev0 (blockAfter dev0 255) ∧ dev0.c 0 ≠ decide ((0 : BitVec 1) = 1) ∧ dev0.c 0 = decide ((1 : BitVec 1) = 1)) ∧
    (CodeAt dev0 (dev0.s 0).toNat false ∧ CodeAt dev0 ((0 : BitVec 4).toNat * 2 ^ 14 + (255 : BitVec 8).toNat * 2 ^ 6) false) ∧
    (¬ InSegment dev0 (blockAfter dev0 256) ∧ ¬ InSegment dev0 (blockAfter dev0 (-1)) ∧ ScalarTraps dev0 .segMiss) ∧
    (let m := withS [(1, 1), (2, 2 ^ 18), (3, 15 * 2 ^ 14)]
     (m.s 1).toNat % 64 ≠ 0 ∧ 2 ^ 18 ≤ (m.s 2).toNat ∧ ScalarTraps m .alignBranch ∧ (m.s 3).toNat % 64 = 0 ∧ (m.s 3).toNat < 2 ^ 18 ∧
       ¬ CodeAt m (m.s 3).toNat false ∧ ¬ CodeAt m (m.s 3).toNat true ∧ ScalarTraps m .segMiss) ∧
    (let m := withF fun f => { f with spc := 255 * 64 }
     m.frag.spc / 64 % 256 = 255 ∧ ScalarTraps m .segMiss ∧ InSegment m (blockAfter m 0) ∧ CodeAt m (m.s 0).toNat false) ∧
    (let m := withW fun w => { w with stack := List.replicate 255 {} }
     m.frag.spc / 64 % 256 ≠ 255 ∧ 255 ≤ m.wave.stack.length ∧ ScalarTraps m .windowState ∧ InSegment m (blockAfter m 0) ∧
       CodeAt m (m.s 0).toNat false ∧ grantedTo m.frag = 0) ∧
    (CodeAt dev0 (dev0.s 0).toNat false ∧ dev0.wave.stack = [] ∧ grantedTo dev0.frag = 0 ∧ ScalarTraps dev0 .windowState) ∧
    (∀ lane, ¬ CodeAt dev0 ((5 : BitVec 4).toNat * 2 ^ 14 + (9 : BitVec 8).toNat * 2 ^ 6) lane) ∧ ScalarTraps dev0 .segMiss :=
  ⟨⟨⟨by decide, by decide⟩, by decide, by decide⟩,
   ⟨code_scalar _ rfl rfl rfl rfl _ rfl (by decide), code_scalar _ rfl rfl rfl rfl _ rfl (by decide)⟩,
   ⟨fun h => absurd h.2 (by decide), fun h => absurd h.1 (by decide), traps0 _ (by decide)⟩,
   ⟨by decide, by decide, ⟨⟨rfl, rfl⟩, rfl, rfl⟩, by decide, by decide, no_code _ _, no_code _ _, ⟨⟨rfl, rfl⟩, rfl, rfl⟩⟩,
   ⟨by decide, ⟨⟨rfl, rfl⟩, rfl, rfl⟩, ⟨by decide, by decide⟩, code_scalar _ rfl rfl rfl rfl _ rfl (by decide)⟩,
   ⟨by decide, by show 255 ≤ (List.replicate 255 ({} : Win)).length; exact Nat.le_of_eq List.length_replicate.symm,
    ⟨⟨rfl, rfl⟩, rfl, rfl⟩, ⟨by decide, by decide⟩, code_scalar _ rfl rfl rfl rfl _ rfl (by decide), rfl⟩,
   ⟨code_scalar _ rfl rfl rfl rfl _ rfl (by decide), rfl, rfl, traps0 _ (by decide)⟩, no_seg _ (by decide), traps0 _ (by decide)⟩

theorem meets_CallPushesAWindow :
    (let m := withW fun w => { w with stack := List.replicate 254 {} }
     m.frag.spc / 64 % 256 ≠ 255 ∧ m.wave.stack.length < 255 ∧ BlocksReady m ((3 : BitVec 4).toNat * m.wave.unitBlocks) ∧
      InSegment m (blockAfter m 255) ∧ m.frag.phase = 0 ∧ CodeAt m (m.s 0).toNat false) ∧
    (let m := granted 64
     m.frag.spc / 64 % 256 ≠ 255 ∧ m.wave.stack.length < 255 ∧ BlocksReady m ((2 : BitVec 4).toNat * m.wave.unitBlocks) ∧ m.frag.phase ≠ 0) :=
  ⟨⟨by decide, by show (List.replicate 254 ({} : Win)).length < 255; rw [List.length_replicate]; decide,
    ⟨by decide, by decide +kernel⟩, ⟨by decide, by decide⟩, rfl, code_scalar _ rfl rfl rfl rfl _ rfl (by decide)⟩,
   by decide, by decide, ⟨by decide, .inl (by decide)⟩, by decide⟩

theorem meets_ReturnPopsTheWindow :
    ∀ m ∈ [withW fun w => { w with stack := [{}, {}] }, { granted 64 with wave := { dev0.wave with stack := [{}] } }],
    let t := if m.frag.phase = 0 then (m.s 0).toNat else m.frag.taken
    (m.frag.phase = 0 → CodeAt m t false) ∧ m.wave.stack ≠ [] ∧ ∀ x, m.wave.stack[1]? = some x → x.spilt = none := by
  intro m hm
  simp only [List.mem_cons, List.not_mem_nil, or_false] at hm
  rcases hm with rfl | rfl
  · exact ⟨fun _ => code_scalar _ rfl rfl rfl rfl _ rfl (by decide), by decide, fun _ h => by cases h; rfl⟩
  · exact ⟨fun h => absurd h (by decide), by decide, fun _ h => nomatch h⟩

theorem meets_LaneStreamAndFormatWordsSetTheFragment :
    (CodeAt dev0 ((1 : BitVec 4).toNat * 2 ^ 14 + (0 : BitVec 8).toNat * 2 ^ 6) true ∧ dev0.wave.core ≠ 12) ∧
    (let m := withS [(1, 2 ^ 14)]; CodeAt m (m.s 1).toNat true) ∧ (ctl0.wave.core = 12 ∧ ScalarTraps ctl0 .noLanes) ∧
    (let m := withW fun w => { w with tang := 3 }; (3 : BitVec 2).toNat = m.wave.tang) ∧
    ((1 : BitVec 2) ≠ 0 ∧ (1 : BitVec 2).toNat ≠ dev0.wave.tang ∧ ScalarTraps dev0 .reservedField) ∧
    ((8 : BitVec 4).toNat ≤ 8 ∧ fmtValueOk 8 4 ∧ ¬ fmtValueOk 8 5 ∧ ¬ fmtValueOk 8 0 ∧ fmtValueOk 4 127 ∧ ¬ fmtValueOk 5 128 ∧
      ¬ fmtValueOk 7 3 ∧ ¬ fmtValueOk 3 16 ∧ fmtValueOk 6 (2 ^ 63)) :=
  ⟨⟨⟨rfl, by decide, by decide, _, rfl, rfl, rfl, rfl⟩, by decide⟩, ⟨rfl, by decide, by decide, _, rfl, rfl, rfl, rfl⟩,
   ⟨rfl, ⟨⟨rfl, rfl⟩, rfl, rfl⟩⟩, rfl, ⟨by decide, by decide, traps0 _ (by decide)⟩,
   by simp only [fmtValueOk]; decide⟩

/-! ## Scalar memory, gangs, barriers, windows -/

/-- 1 KiB of scratchpad, and the page at VA 0 of context 0 cached with RD, WR and USER at PA 0x10000. -/
def memDev : Dev :=
  { dev0 with wave := { dev0.wave with scratch := 1 },
              cores := [(0, { core0 with tlb := [{ ctx := 0, page := 0, size := 65536, leaf := 0x1001F }] })] }
def memS (l : Cells 64) : Dev := { memDev with wave := { memDev.wave with sregs := l } }
/-- The own window. -/
def own : DWord := 0xFE00000000000000#64

theorem nothing_pending (m : Dev) (hc : ∀ k, (m.core k).l1 = []) (hp : ∀ n, m.missLayers 0 n false = []) (l : Loc) :
    NoPending m 0 l := by
  intro pa _
  refine ⟨fun x hx => ?_, hp _⟩
  simp [Dev.line, hc] at hx

theorem pending_arr (m : Dev) (k c o : Nat) : NoPending m k (.arr c o) := fun _ h => nomatch h
theorem exists_arr (c o n : Nat) : Exists (.arr c o) n := fun _ h => nomatch h

theorem meets_ScalarLoadsAndStores :
    (let m := memS [(1, own)]
     ∃ acc m₁, m.scalarAccess (m.s 1 + BitVec.ofInt 64 (127 : BitVec 12).toInt * BitVec.ofNat 64 (2 ^ (3 : BitVec 2).toNat)).toNat 8 .load =
         (.ok acc, m₁) ∧ MemoryAt acc (.arr 0 1016) ∧ NoPending m₁ m₁.wave.coreNo (.arr 0 1016) ∧
       Clean m₁ m₁.wave.coreNo (.arr 0 1016) 8) ∧
    (∃ acc m₁, memDev.scalarAccess (memDev.s 0 + BitVec.ofInt 64 (0 : BitVec 12).toInt * BitVec.ofNat 64 (2 ^ (0 : BitVec 2).toNat)).toNat 1 .store =
         (.ok acc, m₁) ∧ MemoryAt acc (.dev 0x10000) ∧ Exists (.dev 0x10000) 1 ∧ NoPending m₁ m₁.wave.coreNo (.dev 0x10000) ∧
       ∀ pa, Loc.dev 0x10000 = .dev pa → pa % 1 = 0) :=
  ⟨⟨_, memS [(1, own)], rfl, ⟨rfl, rfl⟩, pending_arr _ _ _ _, ⟨fun _ _ => rfl, fun _ _ _ h => nomatch h⟩⟩,
   ⟨_, memDev, rfl, ⟨rfl, rfl⟩, fun pa h => by cases h; decide,
    nothing_pending _ (fun k => by by_cases h : k = 0 <;> simp [Dev.core, KMap.get, memDev, core0, h]) (fun _ => rfl) _,
    fun pa _ => Nat.mod_one pa⟩⟩

theorem meets_FailedScalarAccessTraps :
    (∃ x m₁, dev0.scalarAccess (dev0.s 0 + BitVec.ofInt 64 (0 : BitVec 12).toInt * BitVec.ofNat 64 (2 ^ (0 : BitVec 2).toNat)).toNat 1 .load =
       (.error x, m₁) ∧ ScalarTraps m₁ x.cause) ∧
    (let m := memS [(1, own + 1)]
     ∃ x m₁, m.scalarAccess (m.s 1 + BitVec.ofInt 64 (0 : BitVec 12).toInt * BitVec.ofNat 64 (2 ^ (3 : BitVec 2).toNat)).toNat 8 .store =
       (.error x, m₁) ∧ ScalarTraps m₁ x.cause) ∧
    (let m := memS [(1, own + 1024)]; ∃ x m₁, m.scalarAccess (m.s 1).toNat 8 .atomic = (.error x, m₁) ∧ ScalarTraps m₁ x.cause) ∧
    (let m : Dev := { memS [(1, own)] with cores := [(0, { core0 with arr := { poison := [(1, 1)] } })] }
     ∃ acc m₁, m.scalarAccess (m.s 1 + BitVec.ofInt 64 (0 : BitVec 12).toInt * BitVec.ofNat 64 (2 ^ (3 : BitVec 2).toNat)).toNat 8 .load =
         (.ok acc, m₁) ∧ MemoryAt acc (.arr 0 0) ∧ NoPending m₁ m₁.wave.coreNo (.arr 0 0) ∧
       m₁.poisonAt ((Loc.arr 0 0).add 7) = true ∧ ScalarTraps m₁ .poison) :=
  ⟨⟨_, _, rfl, ⟨⟨rfl, rfl⟩, rfl, rfl⟩⟩, ⟨_, _, rfl, ⟨⟨rfl, rfl⟩, rfl, rfl⟩⟩, ⟨_, _, rfl, ⟨⟨rfl, rfl⟩, rfl, rfl⟩⟩,
   _, _, rfl, ⟨rfl, rfl⟩, pending_arr _ _ _ _, by decide +kernel, ⟨⟨rfl, rfl⟩, rfl, rfl⟩⟩

theorem meets_ScalarAtomicIsOneUpdate :
    let m := memS [(1, own)]
    ∃ acc m₁, m.scalarAccess (m.s 1).toNat 8 .atomic = (.ok acc, m₁) ∧ MemoryAt acc (.arr 0 0) ∧ Exists (.arr 0 0) 8 ∧
      m₁.busyPeers m₁.wave.uid = false ∧ NoPending (m₁.irrev.release m₁.wave.coreNo 4) m₁.wave.coreNo (.arr 0 0) ∧
      NoPending m₁.irrev m₁.wave.coreNo (.arr 0 0) ∧
      (∀ i, i < 8 → (m₁.irrev.release m₁.wave.coreNo 4).poisonAt ((Loc.arr 0 0).add i) = false) ∧
      ∀ i, i < 8 → m₁.irrev.poisonAt ((Loc.arr 0 0).add i) = false :=
  ⟨_, memS [(1, own)], rfl, ⟨rfl, rfl⟩, exists_arr _ _ _, rfl, pending_arr _ _ _ _, pending_arr _ _ _ _, (fun _ _ => rfl), fun _ _ => rfl⟩

theorem meets_XlatWritesTheRegister :
    ((memDev.s 0).toNat < 2 ^ 49 ∧ ∃ pte size, (memDev.coreWalk memDev.wave.coreNo memDev.wave.ctx (memDev.s 0).toNat).1 = .leaf pte size ∧
      rightsOk pte true false (!memDev.wave.super) = true) ∧
    ((dev0.s 0).toNat < 2 ^ 49 ∧ ∀ pte size, (dev0.coreWalk dev0.wave.coreNo dev0.wave.ctx (dev0.s 0).toNat).1 = .leaf pte size →
      rightsOk pte true false (!dev0.wave.super) = false) :=
  ⟨⟨by decide, _, _, rfl, by decide⟩, by decide, fun _ _ h => by cases h⟩

/-- A wave in gang 3 of cluster 0, which holds role queue 1 of depth 2. -/
def gangDev (vals : List DWord) (regs : Cells 64) : Dev :=
  { dev0 with wave := { dev0.wave with gang := some 3, sregs := regs },
              clusters := [(0, { gangs := [(3, { launch := 1, members := [1] })],
                                 queues := [{}, { gang := some 3, depth := 2, vals }, {}, {}] })] }
/-- A cluster whose gangs are 0 (of launch 1, with `n` members) and 1 (of launch 2). -/
def clusterDev (n : Nat) (regs : Cells 64) : Dev :=
  { dev0 with wave := { dev0.wave with sregs := regs },
              clusters := [(0, { gangs := [(0, { launch := 1, members := List.replicate n 9 }), (1, { launch := 2, members := [8] })] })] }

theorem meets_GangsFormAndDissolve :
    (let m := clusterDev 11 [(1, 0x100)]
     m.wave.gang = none ∧ m.wave.child = false ∧ 2 < 256 ∧ (m.s 1).toNat = 0x100 ∧ gangAt m 0 2 = none ∧
       ∀ h, h < 2 → gangAt m 0 h ≠ none) ∧
    (let m := clusterDev 11 []
     ∃ e, (m.s 0).toNat = 0 ∧ gangAt m 0 0 = some e ∧ e.launch = m.wave.launch ∧ e.members.length < 12) ∧
    (let m := gangDev [] []
     m.wave.gang = some 3 ∧ ∃ e, gangAt m 0 3 = some e ∧ m.copyParties = [] ∧ ¬ unstartedSlice m m.wave.uid) ∧
    (let m := gangDev [] []; ScalarTraps m .protection ∧ m.wave.gang ≠ none) ∧
    (let m := clusterDev 12 [(1, 0x101), (2, 5), (3, 1), (4, 17)]
     ScalarTraps m .protection ∧ 0x100 < (m.s 1).toNat ∧ ((m.s 2).toNat < 0x100 ∧ gangAt m 0 (m.s 2).toNat = none) ∧
       (∃ e, (m.s 3).toNat < 0x100 ∧ gangAt m 0 (m.s 3).toNat = some e ∧ e.launch ≠ m.wave.launch) ∧ m.wave.gang = none ∧
       ScalarTraps m .gangFull ∧ m.wave.child = false ∧
       (∃ e, (m.s 0).toNat < 0x100 ∧ gangAt m 0 (m.s 0).toNat = some e ∧ e.launch = m.wave.launch ∧ 12 ≤ e.members.length) ∧
       ScalarTraps m .queueMisuse ∧ (m.s 0).toNat = 0 ∧ 16 < (m.s 4).toNat) ∧
    (let m := gangDev [] [(1, 4)]
     3 < (m.s 1).toNat ∧ ((m.cluster m.wave.clusterNo).queues.getD (m.s 0).toNat {}).gang ≠ m.wave.gang) :=
  ⟨⟨rfl, rfl, by decide, by decide, rfl, by decide⟩, ⟨_, rfl, rfl, rfl, by decide⟩,
   ⟨rfl, _, rfl, rfl, fun ⟨_, h, _⟩ => by cases h⟩, ⟨⟨⟨rfl, rfl⟩, rfl, rfl⟩, by decide⟩,
   ⟨⟨⟨rfl, rfl⟩, rfl, rfl⟩, by decide, ⟨by decide, rfl⟩, ⟨_, by decide, rfl, by decide⟩, rfl, ⟨⟨rfl, rfl⟩, rfl, rfl⟩, rfl,
    ⟨_, by decide, rfl, rfl, by decide⟩, ⟨⟨rfl, rfl⟩, rfl, rfl⟩, rfl, by decide⟩,
   by decide, by decide⟩

/-- All 256 gang ids in use. -/
def fullDev : Dev :=
  { dev0 with wave := { dev0.wave with sregs := [(1, 0x100)] },
              clusters := [(0, { gangs := (List.range 256).map fun g => (g, { launch := 1, members := [9] }) })] }
theorem meets_GangFull :
    ScalarTraps fullDev .gangFull ∧ fullDev.wave.gang = none ∧ fullDev.wave.child = false ∧ (fullDev.s 1).toNat = 0x100 ∧
      ∀ h, h < 256 → gangAt fullDev 0 h ≠ none :=
  ⟨⟨⟨rfl, rfl⟩, rfl, rfl⟩, rfl, rfl, rfl, by decide +kernel⟩

theorem meets_RoleQueuesAreFifo :
    (let m := gangDev [] [(1, 16)]
     m.wave.gang ≠ none ∧ 1 ≤ (m.s 1).toNat ∧ (m.s 1).toNat ≤ 16 ∧ 0 < 4 ∧ ((m.cluster 0).queues.getD 0 {}).gang = none) ∧
    (let m : Dev := { gangDev [] [(1, 1)] with clusters := [(0, { queues := List.replicate 4 { gang := some 3 } })] }
     m.wave.gang ≠ none ∧ 1 ≤ (m.s 1).toNat ∧ (m.s 1).toNat ≤ 16 ∧ ∀ h, h < 4 → ((m.cluster 0).queues.getD h {}).gang ≠ none) ∧
    (let m := gangDev [5] [(1, 1)]
     (m.s 1).toNat = 1 ∧ ∃ x, Holds m 1 x ∧ x.vals.length < x.depth ∧ ∃ v t, x.vals = v :: t) ∧
    (let m := gangDev [5, 6] [(1, 1)]; (m.s 1).toNat = 1 ∧ ∃ x, Holds m 1 x ∧ x.depth ≤ x.vals.length) ∧
    (let m := gangDev [] [(1, 1)]; (m.s 1).toNat = 1 ∧ ∃ x, Holds m 1 x ∧ x.vals = []) :=
  ⟨⟨by decide, by decide, by decide, by decide, rfl⟩, ⟨by decide, by decide, by decide, by decide⟩,
   ⟨rfl, _, ⟨by decide, by decide, rfl, rfl⟩, by decide, _, _, rfl⟩, ⟨rfl, _, ⟨by decide, by decide, rfl, rfl⟩, by decide⟩,
   ⟨rfl, _, ⟨by decide, by decide, rfl, rfl⟩, rfl⟩⟩

/-- Launch 1 holds tag 2 of die 0 and tag 7. -/
def tagDev : Dev :=
  { dev0 with dies := { tags := [{}, {}, { launch := some 1 }, {}, {}, {}, {}] } :: List.replicate 7 {}, tag7 := { launch := some 1 } }

theorem meets_BarriersWaitForEveryParty :
    (let m := gangDev [] []; m.wave.gang = some 3 ∧ gangAt m m.wave.clusterNo 3 ≠ none ∧ m.frag.phase ≠ 15) ∧
    (let m : Dev := { gangDev [] [] with frag := { dev0.frag with phase := 15 } }; m.wave.gang = some 3 ∧ m.frag.phase = 15) ∧
    (dev0.wave.gang = none ∧ ScalarTraps dev0 .protection) ∧
    (tagDev.frag.phase ≠ 11 ∧ tagDev.frag.phase ≠ 13 ∧ (2 : BitVec 3) ≠ 7 ∧ tagDev.diebar tagDev.wave % 16 = 8 + (2 : BitVec 3).toNat ∧
      128 ≤ tagDev.diebar tagDev.wave ∧ (∃ m₁, tagDev.releaseWait 2 = .ok m₁) ∧ ∃ m₁, tagDev.releaseWait 3 = .ok m₁) ∧
    (let m : Dev := { tagDev with frag := { dev0.frag with phase := 11 } }
     128 ≤ m.diebar m.wave ∧ m.frag.phase = 11) ∧
    (dev0.diebar dev0.wave % 16 ≠ 8 + (2 : BitVec 3).toNat ∧ ¬ (128 ≤ dev0.diebar dev0.wave ∧ (2 : BitVec 3) = 7)) ∧
    (let m := Dev.stash { gangDev [] [] with clusters := [(0, { gangs := [(3, { launch := 1, members := [1], arrived := [1] })] })] }
     0 ∉ m.arrivals (.gang 0 3) ∧ m.arrivals (.gang 0 3) ≠ [] ∧ ∀ u ∈ m.parties (.gang 0 3), u ∈ m.arrivals (.gang 0 3)) ∧
    (let m := (gangDev [] []).stash
     0 ∉ m.arrivals (.gang 0 3) ∧ ∃ u ∈ m.parties (.gang 0 3), u ∉ m.arrivals (.gang 0 3)) :=
  ⟨⟨rfl, by decide, by decide⟩, ⟨rfl, rfl⟩, ⟨rfl, traps0 _ (by decide)⟩,
   ⟨by decide, by decide, by decide, by decide, by decide, ⟨_, rfl⟩, ⟨_, rfl⟩⟩, ⟨by decide, rfl⟩, ⟨by decide, by decide⟩,
   ⟨by decide, by decide, by decide⟩, ⟨by decide, 1, by decide, by decide⟩⟩

theorem meets_ClaimAndYieldResize :
    (let m := withS [(1, 11), (2, 4), (3, 12), (4, 5)]
     m.wave.stack = [] ∧ m.wave.base.units + (m.s 1).toNat ≤ 15 ∧ (m.wave.core = 12 → (m.s 1).toNat = 0) ∧
       BlocksReady m ((m.s 1).toNat * m.wave.unitBlocks) ∧ 15 < m.wave.base.units + (m.s 3).toNat ∧ (m.s 2).toNat ≤ m.wave.base.units ∧
       m.wave.base.units < (m.s 4).toNat ∧ m.frag.phase = 0 ∧ grantedTo m.frag = 0) ∧
   (let m := ctlS [(1, 1)]; m.wave.stack = [] ∧ m.wave.core = 12 ∧ (m.s 1).toNat ≠ 0 ∧ m.frag.phase = 0 ∧ grantedTo m.frag = 0) ∧
   (let m := granted 2
    m.frag.phase ≠ 0 ∧ m.wave.stack = [] ∧ m.wave.base.units + m.frag.taken ≤ 15 ∧ m.wave.core ≠ 12 ∧ BlocksReady m (m.frag.taken * m.wave.unitBlocks)) ∧
    (let m := withF fun f => { f with phase := 21 }; m.frag.phase = 21 ∧ m.wave.stack = []) ∧
    (let m := withW fun w => { w with stack := [{}] }; m.wave.stack ≠ [] ∧ grantedTo m.frag = 0 ∧ ScalarTraps m .windowState) :=
  ⟨⟨rfl, by decide, by decide, ⟨by decide, by decide +kernel⟩, by decide, by decide, by decide, rfl, rfl⟩, ⟨rfl, rfl, by decide, rfl, rfl⟩,
   ⟨by decide, rfl, by decide, by decide, by decide, .inl (by decide)⟩, ⟨rfl, rfl⟩, by decide, rfl, ⟨rfl, rfl⟩, rfl, rfl⟩

/-- A launch with one role-1 wave: role 1 has a window of 2 units. -/
def roleDev : Dev :=
  { dev0 with wave := { dev0.wave with role := 1 }, launches := [{ num := 1, st := .running, record := [0x100000, 0, 0, 0, 0, 0, 0, 0] }] }

theorem meets_RoleSwitchGoesToTheEntry :
    (roleDev.launch.rolemap ≠ 0 ∧ roleDev.wave.child = false ∧ roleDev.wave.role ≠ 3 ∧ (2 : BitVec 4) ≠ 3 ∧ roleDev.wave.stack = [] ∧
      roleDev.busyCmds roleDev.wave.uid = false ∧ roleDev.busyPeers roleDev.wave.uid = false ∧ roleDev.busyMatrix roleDev.wave = false ∧
      roleDev.launch.roleWin 2 ≤ roleDev.wave.base.units) ∧
    (dev0.launch.rolemap = 0 ∧ ScalarTraps dev0 .protection) ∧
    (let m : Dev := { roleDev with wave := { roleDev.wave with stack := [{}] } }
     m.launch.rolemap ≠ 0 ∧ m.wave.child = false ∧ m.wave.stack ≠ [] ∧ grantedTo m.frag = 0 ∧ ScalarTraps m .windowState) :=
  ⟨⟨by decide, rfl, by decide, by decide, rfl, rfl, rfl, rfl, by decide⟩, ⟨by decide, traps0 _ (by decide)⟩,
   by decide, rfl, by decide, rfl, ⟨rfl, rfl⟩, rfl, rfl⟩

/-! ## Splits, retirement, children -/

def fullMask : Mask := Mask.first 32

theorem meets_SplitDividesTheLanes :
    (let m := withW fun w => { w with kregs := [0, 5, 0, fullMask, 0, 0, 0, 0] }
     let T (n : BitVec 1) (k : Nat) : Mask := m.frag.mask &&& (if n = 1 then ~~~(m.k k) else m.k k)
     m.wave.core ≠ 12 ∧ InSegment m ((m.frag.spc / 64 : Nat) + (255 : BitVec 11).toInt) ∧
       InSegment m ((m.frag.spc / 64 : Nat) + (0 : BitVec 11).toInt) ∧ m.wave.splitsHeld false < 16 ∧
       (T 0 1 ≠ 0 ∧ m.frag.mask &&& ~~~(T 0 1) ≠ 0) ∧ T 0 2 = 0 ∧ (T 0 3 ≠ 0 ∧ m.frag.mask &&& ~~~(T 0 3) = 0)) ∧
    (ctl0.wave.core = 12 ∧ ctl0.wave.splitsHeld false < 16) :=
  ⟨⟨by decide, ⟨by decide, by decide⟩, ⟨by decide, by decide⟩, by decide, ⟨by decide +kernel, by decide +kernel⟩, by decide +kernel,
    by decide +kernel, by decide +kernel⟩, rfl, by decide⟩

/-- A wave whose fragment stands in the block of its split's rejoin, on the taken side; `o`: the fall-through side. -/
def fuseDev (o : Option Mask) : Dev :=
  { dev0 with wave := { dev0.wave with splits := [{ id := 4, rejoin := 0, fmt := {}, fallIn := o }] },
              frag := { dev0.frag with path := [(4, true)] } }

theorem meets_FuseRejoinsTheSides :
    dev0.frag.path = [] ∧
    (let m := fuseDev none
     m.frag.path = [(4, true)] ∧ ∃ x, m.wave.splits.find? (fun y => y.id = 4) = some x ∧ x.rejoin = m.frag.spc / 64 * 64 ∧
       x.fallIn = none ∧ x.fallAt = none) ∧
    (let m := fuseDev (some 2)
     m.frag.path = [(4, true)] ∧ ∃ x k, m.wave.splits.find? (fun y => y.id = 4) = some x ∧ x.rejoin = m.frag.spc / 64 * 64 ∧
       x.fallIn = some k) ∧
    (let m : Dev := { fuseDev none with frag := { (fuseDev none).frag with spc := 64 } }
     m.frag.path = [(4, true)] ∧ ∃ x, m.wave.splits.find? (fun y => y.id = 4) = some x ∧ x.rejoin ≠ m.frag.spc / 64 * 64) :=
  ⟨rfl, ⟨rfl, _, rfl, rfl, rfl, rfl⟩, ⟨rfl, _, _, rfl, rfl, rfl⟩, rfl, _, rfl, by decide⟩

theorem meets_ExitRemovesLanes :
    (let m := withW fun w => { w with kregs := [0, 5, 0, 0, 0, 0, 0, 0] }
     m.wave.super = false ∧ m.frag.fid ≠ 0 ∧ NoPendingError m.closeWindows ∧ m.frag.mask &&& m.k 1 ≠ 0 ∧
       m.frag.mask &&& ~~~(m.frag.mask &&& m.k 1) ≠ 0 ∧ (m.frag.mask &&& m.k 2 = 0 ∧ m.lanesLeft ≠ 0) ∧
       m.frag.mask ≠ 0 ∧ m.wave.frags = [] ∧ m.wave.splits = [] ∧ Quiet m) ∧
    (let m : Dev := { dev0 with cmds := [{ id := 1, wave := 1, ctx := 0, body := .cfetch 0 0 [] }] }
     m.wave.super = false ∧ m.frag.fid ≠ 0 ∧ NoPendingError m.closeWindows ∧ m.wave.frags = [] ∧ m.wave.splits = [] ∧ ¬ Quiet m) :=
  ⟨⟨rfl, by decide, ⟨rfl, rfl⟩, by decide +kernel, by decide +kernel, ⟨by decide +kernel, by decide +kernel⟩, by decide +kernel, rfl, rfl,
    rfl, rfl, rfl⟩, rfl, by decide, ⟨rfl, rfl⟩, rfl, rfl, fun h => absurd h.1 (by decide)⟩

/-- The wave `w` is resident and not loaded. -/
def parked (w : Wave) : Dev := { dev0 with wave := {}, frag := {}, waves := [w] }
/-- Core 0 with one entry of its retirement tracker. -/
def trackDev (l : List Nat) (futva : Nat := 0) (killed : Bool := false) : Dev :=
  { dev0 with cores := [(0, { core0 with tracker := [{ launch := 1, wave := 9, killed, cmds := l, futva, result := 7 }] })],
              cmds := [{ id := 3, wave := 9, ctx := 0, body := .cfetch 0 0 [] }] }

theorem meets_RetirementRemovesTheWave :
    (dev0.wave.uid ≠ 0 ∧ dev0.wave.super = false ∧ dev0.wave.frags = [] ∧ dev0.wave.splits = [] ∧ dev0.wave.rooms = [] ∧
      (∀ p ∈ dev0.peers, p.wave ≠ dev0.wave.uid) ∧ (∀ c ∈ dev0.cmds, c.wave = dev0.wave.uid → c.isPeer = false) ∧
      NoPendingError dev0.closeWindows ∧ (dev0.core dev0.wave.coreNo).trackerUse < 8 ∧ ∀ x ∈ dev0.waves, x.uid ≠ dev0.wave.uid) ∧
    (∃ w : Wave, (parked w).stash.waveOf w.uid = some w ∧ w.leaving = true) ∧
    (∃ w : Wave, (parked w).stash.waveOf w.uid = some w ∧ w.leaving = false) ∧
    (withW fun w => { w with super := true }).wave.super = true ∧
    (∃ t, ((trackDev []).stash.core 0).tracker[0]? = some t ∧ (trackDev []).stash.trackerDone t = true ∧ t.futva = 0) ∧
    ∃ t, ((trackDev [3]).stash.core 0).tracker[0]? = some t ∧ (trackDev [3]).stash.trackerDone t = false :=
  ⟨⟨by decide, rfl, rfl, rfl, rfl, (fun _ h => nomatch h), (fun _ h => nomatch h), ⟨rfl, rfl⟩, by decide, fun _ h => nomatch h⟩, ⟨{ dev0.wave with leaving := true }, rfl, rfl⟩,
   ⟨dev0.wave, rfl, rfl⟩, rfl, ⟨_, rfl, by decide +kernel, rfl⟩, _, rfl, by decide +kernel⟩

/-- `memDev` with the doublewords of `ds`, in address order, at VA 0 (PA 0x10000). -/
def cellsAt (a : Nat) (ds : List Nat) : Cells 8 :=
  (((ds.map fun d => leBytes 8 d).flatten.zipIdx a).filter fun (x : Byte × Nat) => decide (x.1 ≠ 0)).map fun (x : Byte × Nat) => (x.2, x.1)
def descDev (ds : List Nat) : Dev := { memDev with mem := { bytes := (8, 1) :: cellsAt 0x10000 ds } }
def child0 : Child :=
  { launch := 1, parent := 9, ctx := 0, cluster := 0, depth := 1, waveid := 1, eseg := 1, eblk := 0, scratch := 0, basewin := 0, lanes := 32,
    arg := 7, futva := 0, trec := [0, 0, 0, 0] }
/-- Launch 1 has scalar code in segment 0 (R93 SSEG). -/
def spawnDev (ds : List Nat) : Dev :=
  { descDev ds with launches := [{ num := 1, st := .running, record := [0, 1, 0, 0, 0, 0, 0, 0] }] }


theorem meets_SpawnQueuesTheChild :
    (let m := withW fun w => { w with depth := 4 }; m.frag.phase ≠ 17 ∧ m.frag.phase ≠ 18 ∧ 4 ≤ m.wave.depth ∧ ScalarTraps m .spawnDepth) ∧
    (let m := spawnDev [31]
     m.wave.depth < 4 ∧ ∃ d, m.readDesc (m.s 0).toNat 32 32 [.global] = .ok (d, m) ∧ childOk m.launch m.wave.tang d = false ∧
       ScalarTraps m .spawnNofit) ∧
    (let m := spawnDev [32, 7]
     m.wave.depth < 4 ∧ ∃ d, m.readDesc (m.s 0).toNat 32 32 [.global] = .ok (d, m) ∧ childOk m.launch m.wave.tang d = true ∧
       fld (dwordOf d 2) 48 0 = 0 ∧ m.releaseWait 3 17 = .ok m ∧ (m.die m.wave.die).spawns.length < 256) ∧
    (let m : Dev := { spawnDev [] with frag := { dev0.frag with phase := 18, desc := [1] } }
     m.frag.phase = 18 ∧ m.frag.desc = [1] ∧ (m.die m.wave.die).spawns.length < 256) ∧
    (let m : Dev := { spawnDev [32, 7] with dies := [{ spawns := List.replicate 256 child0 }] }
     256 ≤ (m.die m.wave.die).spawns.length) ∧
    (let m := spawnDev [32, 7, 64]
     m.wave.depth < 4 ∧ ∃ d ss, m.readDesc (m.s 0).toNat 32 32 [.global] = .ok (d, m) ∧ childOk m.launch m.wave.tang d = true ∧
       fld (dwordOf d 2) 48 0 ≠ 0 ∧
       m.checkRange (fld (dwordOf d 2) 48 0) 8 { windows := [.global], wr := true, align := 8 } = .ok (ss, m) ∧
       m.releaseWait 3 17 = .ok m) :=
  ⟨⟨by decide, by decide, by decide, ⟨rfl, rfl⟩, rfl, rfl⟩, ⟨by decide, _, rfl, by decide +kernel, ⟨rfl, rfl⟩, rfl, rfl⟩,
   ⟨by decide, _, rfl, by decide +kernel, by decide +kernel, rfl, by decide⟩, ⟨rfl, rfl, by decide⟩,
   by show 256 ≤ (List.replicate 256 child0).length; exact Nat.le_of_eq List.length_replicate.symm,
   by decide, _, _, rfl, by decide +kernel, by decide +kernel, rfl, rfl⟩

/-! ## Rooms -/

/-- A room descriptor at VA 0 with the state words `a` and `b`, of a region of 128 bytes that allows the modes 0 and 1. -/
def roomDev (a b : Nat) : Dev := descDev [0x8000, 128, 3, 0, 0, a, b, 9]
def room0 (mode : Nat) : Room := { desc := 0, place := 0x10000, mode, base := 0x8000, len := 128 }
def holdDev (a b : Nat) (l : List Room) (f : Frag → Frag) : Dev :=
  { roomDev a b with wave := { memDev.wave with rooms := l }, frag := f dev0.frag }

theorem meets_RoomEntryAsksTheTun :
    (let m := roomDev 0 0
     m.frag.phase = 0 ∧ (∀ f ∈ m.wave.frags, ¬ (f.wait = .event ∧ f.phase = 1)) ∧
       m.roomAsked (m.s 0).toNat (1 : BitVec 3).toNat = .ok (room0 1, m)) ∧
    (let m := withW fun w => { w with frags := [{ dev0.frag with fid := 2, wait := .event, phase := 1 }] }
     m.frag.phase = 0 ∧ ∃ f ∈ m.wave.frags, f.wait = .event ∧ f.phase = 1) ∧
    (withF fun f => { f with phase := 2 }).frag.phase = 2 ∧
    (let m := withF fun f => { f with phase := 3 }; m.frag.phase = 3 ∧ ScalarTraps m .regionPoisoned) ∧
    (let m := withS [(1, 0xFE00000000000000), (2, 32)]
     m.frag.phase = 0 ∧ (∀ f ∈ m.wave.frags, ¬ (f.wait = .event ∧ f.phase = 1)) ∧
       (2 ^ 56 ≤ (m.s 1).toNat ∧ ScalarTraps m .protection) ∧
       ((m.s 2).toNat < 2 ^ 56 ∧ (m.s 2).toNat % 64 ≠ 0 ∧ ScalarTraps m .misaligned) ∧
       (∀ r ∈ m.wave.rooms, r.desc ≠ (m.s 0).toNat) ∧ ScalarTraps m .roomNotHeld) ∧
    (let m := withW fun w => { w with rooms := List.replicate 4 (room0 1) }
     (m.s 0).toNat < 2 ^ 56 ∧ (m.s 0).toNat % 64 = 0 ∧ 4 ≤ m.wave.rooms.length ∧ ScalarTraps m .roomLimit) ∧
    (let m := withW fun w => { w with rooms := [room0 1] }
     (m.s 0).toNat < 2 ^ 56 ∧ (m.s 0).toNat % 64 = 0 ∧ m.wave.rooms.length < 4 ∧ (∃ r ∈ m.wave.rooms, (m.s 0).toNat ≤ r.desc) ∧
       ScalarTraps m .roomOrder) :=
  ⟨⟨rfl, (fun _ h => nomatch h), rfl⟩, ⟨rfl, _, List.mem_singleton_self _, rfl, rfl⟩, rfl, ⟨rfl, ⟨rfl, rfl⟩, rfl, rfl⟩,
   ⟨rfl, (fun _ h => nomatch h), ⟨by decide, ⟨rfl, rfl⟩, rfl, rfl⟩, ⟨by decide, by decide, ⟨rfl, rfl⟩, rfl, rfl⟩, (fun _ h => nomatch h),
    ⟨rfl, rfl⟩, rfl, rfl⟩,
   ⟨by decide, by decide, by decide, ⟨rfl, rfl⟩, rfl, rfl⟩, by decide, by decide, by decide, ⟨room0 1, by decide, by decide⟩,
   ⟨rfl, rfl⟩, rfl, rfl⟩

/-- The loaded fragment waits for the tun in a phase. -/
def asking (phase mode : Nat) (f : Frag) : Frag := { f with wait := .event, phase, asked := some (room0 mode) }
theorem descAt0 : DescAt 0x10000 := by unfold DescAt; decide

/-- OPEN in mode 1 with `n` occupants; DRAINING; POISON. -/
def wOpen (n : Nat) : Nat := 1 * 2 ^ 60 + 1 * 2 ^ 58 + n
def wDraining : Nat := 1 * 2 ^ 60 + 2 * 2 ^ 58 + 2
def wPoison : Nat := 2 ^ 63

theorem meets_TunEnterFollowsTheTable :
    ∀ a ∈ [0, wOpen 2, wDraining, wPoison], ∀ x ∈ [0, 1],
      let m := (holdDev a 0 [] (asking 1 x)).stash
      let t := m.tunWords 0x10000
      DescAt 0x10000 ∧ x < 5 ∧ Asks m 1 1 1 (room0 x) ∧ (room0 x).place = 0x10000 ∧
        (∀ w ∈ (m.tun 0x10000).waiting ++ (m.tun 0x10000).routed, ¬ (w.1 = 1 ∧ w.2.1 = 1)) ∧
        m.sliceWaiting (tunSlice 0x10000) < 4096 ∧
        (a = wPoison → t.poison = true) ∧ (a ≠ wPoison → t.poison = false) ∧ t.demand.length ≤ 4 ∧
        (a = 0 → t.phase = .closed ∧ t.demand = []) ∧ (a = wOpen 2 → t.phase = .open ∧ t.demand = [] ∧ t.mode = 1) ∧
        (a = wDraining → t.phase = .draining) := by
  intro a ha x hx
  have hd : ∀ a ∈ [0, wOpen 2, wDraining, wPoison], ∀ x ∈ [0, 1],
      let m := (holdDev a 0 [] (asking 1 x)).stash
      let t := m.tunWords 0x10000
      (a = wPoison → t.poison = true) ∧ (a ≠ wPoison → t.poison = false) ∧ t.demand.length ≤ 4 ∧
        (a = 0 → t.phase = .closed ∧ t.demand = []) ∧ (a = wOpen 2 → t.phase = .open ∧ t.demand = [] ∧ t.mode = 1) ∧
        (a = wDraining → t.phase = .draining) := by decide +kernel
  exact ⟨descAt0, (by revert x; decide), ⟨_, ⟨by decide, _, rfl, rfl⟩, rfl, rfl, rfl⟩, rfl, (fun _ h => nomatch h), by show 0 < 4096; decide, hd a ha x hx⟩

/-- 4,096 waves wait in the list of the slice (R283). -/
theorem meets_SliceListFull :
    let m : Dev := { dev0 with tuns := [{ place := 0x10000, waiting := List.replicate 4096 (7, 1, 0) }] }
    4096 ≤ m.sliceWaiting (tunSlice 0x10000) := by
  have h : ∀ l : List (Nat × Nat × Nat),
      ({ dev0 with tuns := [{ place := 0x10000, waiting := l }] } : Dev).sliceWaiting (tunSlice 0x10000) = l.length := by
    intro l; simp [Dev.sliceWaiting]
  exact Nat.le_of_eq ((h _).trans List.length_replicate).symm

/-- A peer request of the wave is out. -/
def peerDev : Dev := { dev0 with peers := [{ id := 1, wave := 1, err := 0, addr := 0, size := 4, what := .store }] }

theorem meets_RoomsAreLeft :
    (let m := holdDev (wOpen 2) 0 [room0 1] (fun f => { f with phase := 4 })
     m.wave.rooms.find? (fun x => x.desc = (m.s 0).toNat) = some (room0 1) ∧ (room0 1).mode ≠ 2 ∧ m.frag.phase = 4) ∧
    (let m := holdDev (wOpen 2) 0 [room0 1] id
     let m₁ := m.irrev.releaseStart m.wave.coreNo 3
     m.wave.rooms.find? (fun x => x.desc = (m.s 0).toNat) = some (room0 1) ∧ m.frag.phase = 0 ∧ m.busyPeers m.wave.uid = false ∧
       m₁.draining m₁.wave.die = false) ∧
    (withF fun f => { f with phase := 7 }).frag.phase = 7 ∧
    (let b := Dev.stash { holdDev (wOpen 2) 0 [] (asking 5 1) with tuns := [{ place := 0x10000, leaves := [1] }] }
     DescAt 0x10000 ∧ 1 ∈ (b.tun 0x10000).leaves ∧ (∃ f, b.fragOf 1 (asks 0x10000 5) = some f) ∧ (b.tunWords 0x10000).phase = .open ∧
       (b.tunWords 0x10000).demand = [] ∧ 2 ≤ (b.tunWords 0x10000).occ) ∧
    (let b := Dev.stash { holdDev (wOpen 1) 0 [] id with tuns := [{ place := 0x10000, leaves := [1] }] }
     DescAt 0x10000 ∧ 1 ∈ (b.tun 0x10000).leaves ∧ b.fragOf 1 (asks 0x10000 5) = none ∧ (b.tunWords 0x10000).phase = .open ∧
       (b.tunWords 0x10000).demand = [] ∧ (b.tunWords 0x10000).occ = 1 ∧ (b.tun 0x10000).clears = []) :=
  ⟨⟨rfl, by decide, rfl⟩, ⟨rfl, rfl, rfl, rfl⟩, rfl,
   ⟨descAt0, List.mem_singleton_self _, ⟨_, rfl⟩, by decide +kernel, by decide +kernel, by decide +kernel⟩,
   descAt0, List.mem_singleton_self _, rfl, by decide +kernel, by decide +kernel, by decide +kernel, rfl⟩

/-- A wave that leaves while others wait for the tun and clears wait: `a` and `b` are the state words, `l` the waiting list. -/
def leaveDev (a b : Nat) (l : List (Nat × Nat × Nat)) : Dev :=
  Dev.stash { holdDev a b [] (asking 5 1) with tuns := [{ place := 0x10000, waiting := l, clears := [(3, 1)], leaves := [1], kills := 1 }] }
/-- DRAINING in mode 1 with one occupant; a demand of the modes 2 and 0. -/
def wLast : Nat := 1 * 2 ^ 60 + 2 * 2 ^ 58 + 1
def demand20 : Nat := 2 * 2 ^ 61 + 2
/-- An ACCUM room with one shadow line, which the wave leaves. -/
def accumDev : Dev :=
  { memDev with wave := { memDev.wave with rooms := [room0 2] }, frag := { dev0.frag with phase := 4 },
                cores := [(0, { memDev.core 0 with l1 := [{ num := 768, st := .shadow, wave := 1, room := 0, data := [(0, 3)] }] })] }

theorem meets_RoomsAreLeftForTheNext :
    (let m := { peerDev with wave := { peerDev.wave with rooms := [room0 1] } }
     m.wave.rooms.find? (fun x => x.desc = (m.s 0).toNat) = some (room0 1) ∧ m.frag.phase = 0 ∧ m.busyPeers m.wave.uid = true) ∧
    (let m := { holdDev (wOpen 2) 0 [room0 1] id with dies := { merge := [{ num := 512, mask := 3, data := [] }] } :: List.replicate 7 {} }
     let m₁ := m.irrev.releaseStart m.wave.coreNo 3
     m.wave.rooms.find? (fun x => x.desc = (m.s 0).toNat) = some (room0 1) ∧ m.frag.phase = 0 ∧ m.busyPeers m.wave.uid = false ∧
       m₁.draining m₁.wave.die = true) ∧
    (∃ l, accumDev.wave.rooms.find? (fun x => x.desc = (accumDev.s 0).toNat) = some (room0 2) ∧ accumDev.frag.phase = 4 ∧ (room0 2).mode = 2 ∧
      (accumDev.core accumDev.wave.coreNo).l1.filter (shadowOf accumDev (room0 2).desc) = [l] ∧ 128 * (l.num + 1) ≤ devBytes ∧
      l.num < hostLine ∧ NoPending accumDev accumDev.wave.coreNo (.dev (128 * l.num)) ∧ l.poison = 0 ∧
      ∀ i, i < 128 → accumDev.poisonAt (.dev (128 * l.num + i)) = false) ∧
    (∀ a ∈ [0, wOpen 2, wOpen 1, wLast], ∀ l ∈ [[], [(2, 1, 0)]],
      let d := if a = wLast then demand20 else 0
      let b := leaveDev a d l
      let t := b.tunWords 0x10000
      let u := b.tun 0x10000
      1 ∈ u.leaves ∧ (∀ c ∈ u.clears, c.1 ≠ 0) ∧ (∃ f, b.fragOf 1 (asks 0x10000 5) = some f) ∧ t.demand.length ≤ 5 ∧
        (a = 0 → t.phase = .closed) ∧ (a = wOpen 2 → t.phase ≠ .closed ∧ 2 ≤ t.occ) ∧
        (a = wOpen 1 → t.phase = .open ∧ t.demand = [] ∧ t.occ = 1) ∧
        (a = wLast → t.phase = .draining ∧ t.occ = 1 ∧ (l = [] → ∀ y ∈ u.waiting, y.2.2 ∉ t.demand) ∧
          (l ≠ [] → t.demand = [2] ++ 0 :: [] ∧ (∀ y ∈ u.waiting, y.2.2 ∉ [2]) ∧
            let ins := u.waiting.filter fun y => decide (y.2.2 = 0)
            ins ≠ [] ∧ ins.length < 2 ^ 32 ∧ (ins.map (·.1)).Nodup ∧ ∀ y ∈ ins, y.1 ≠ 0))) := by
  refine ⟨⟨rfl, rfl, by decide⟩, ⟨rfl, rfl, rfl, by decide +kernel⟩,
    ⟨_, rfl, rfl, rfl, rfl, by decide, by decide, fun pa h => ?_, rfl, (by decide +kernel)⟩, fun a ha l hl => ?_⟩
  · cases h
    refine ⟨fun x hx => ?_, rfl⟩
    cases (show none = some x from hx)
  · have h₁ : ∀ a ∈ [0, wOpen 2, wOpen 1, wLast], ∀ l ∈ [[], [(2, 1, 0)]],
        let b := leaveDev a (if a = wLast then demand20 else 0) l
        let t := b.tunWords 0x10000
        (b.fragOf 1 (asks 0x10000 5)).isSome = true ∧ t.demand.length ≤ 5 ∧ (a = 0 → t.phase = .closed) ∧
          (a = wOpen 2 → t.phase ≠ .closed ∧ 2 ≤ t.occ) ∧ (a = wOpen 1 → t.phase = .open ∧ t.demand = [] ∧ t.occ = 1) := by decide +kernel
    have h₂ : ∀ a ∈ [0, wOpen 2, wOpen 1, wLast], ∀ l ∈ [[], [(2, 1, 0)]],
        let b := leaveDev a (if a = wLast then demand20 else 0) l
        let t := b.tunWords 0x10000
        let u := b.tun 0x10000
        a = wLast → t.phase = .draining ∧ t.occ = 1 ∧ (l = [] → ∀ y ∈ u.waiting, y.2.2 ∉ t.demand) ∧
          (l ≠ [] → t.demand = [2] ++ 0 :: [] ∧ (∀ y ∈ u.waiting, y.2.2 ∉ [2]) ∧
            let ins := u.waiting.filter fun y => decide (y.2.2 = 0)
            ins ≠ [] ∧ ins.length < 2 ^ 32 ∧ (ins.map (·.1)).Nodup ∧ ∀ y ∈ ins, y.1 ≠ 0) := by decide +kernel
    obtain ⟨h₃, h₄, h₅, h₆, h₇⟩ := h₁ a ha l hl
    exact ⟨List.mem_singleton_self _, (by decide : ∀ c ∈ [(3, 1)], c.1 ≠ 0), Option.isSome_iff_exists.mp h₃, h₄, h₅, h₆, h₇, h₂ a ha l hl⟩

theorem meets_TunClearKillAndWithdraw :
    (let m := roomDev wPoison 0
     m.frag.phase = 0 ∧ (m.s 0).toNat < 2 ^ 56 ∧ (m.s 0).toNat % 64 = 0 ∧ (∀ x ∈ m.wave.rooms, x.desc ≠ (m.s 0).toNat) ∧
       ∃ bs, m.readRoomDesc (m.s 0).toNat = .ok (bs, 0x10000, m) ∧ descOk (dwordOf bs) = true) ∧
    (∀ a ∈ [0, wPoison, wPoison + wOpen 2],
      let b := (holdDev a 0 [] (asking 6 0)).stash
      let t := b.tunWords 0x10000
      DescAt 0x10000 ∧ Asks b 1 1 6 (room0 0) ∧ (1, 1) ∉ (b.tun 0x10000).clears ∧
        (a = 0 → t.poison = false) ∧ (a = wPoison → t.poison = true ∧ t.phase = .closed ∧ t.demand = [] ∧ t.mode = 0) ∧
        (a = wPoison + wOpen 2 → t.poison = true ∧ t.phase ≠ .closed)) ∧
    (∀ a ∈ [wOpen 1, wOpen 2],
      let b := leaveDev a 0 [(2, 1, 0), (4, 1, 2)]
      DescAt 0x10000 ∧ 0 < (b.tun 0x10000).kills ∧ (b.tunWords 0x10000).phase ≠ .closed ∧ (∀ x ∈ (b.tun 0x10000).waiting, x.1 ≠ 0) ∧
        (∀ c ∈ (b.tun 0x10000).clears, c.1 ≠ 0) ∧ (a = wOpen 1 → (b.tunWords 0x10000).occ = 1) ∧
        (a = wOpen 2 → 2 ≤ (b.tunWords 0x10000).occ)) ∧
    ((roomDev 0 0).stash.tun 0x10000).kills = 0 ∧ (roomDev 0 0).stash.fragOf 1 (fun f => f.fid = 1 && asks 0x10000 6 f) = none ∧
    (∀ x, (roomDev 0 0).stash.waveOf 1 = some x → x.victim = false) ∧
    ∃ w : Wave, w.uid ≠ 0 ∧ (parked w).stash.waveOf w.uid = some w ∧ w.victim = true := by
  refine ⟨⟨rfl, by decide, by decide, (fun _ h => nomatch h), _, rfl, by decide +kernel⟩, fun a ha => ?_,
    fun a ha => ⟨descAt0, (by revert a; decide +kernel)⟩, rfl, rfl, (fun x h => by cases h; rfl), { dev0.wave with victim := true }, by decide, rfl, rfl⟩
  have hd : ∀ a ∈ [0, wPoison, wPoison + wOpen 2],
      let t := (holdDev a 0 [] (asking 6 0)).stash.tunWords 0x10000
      (a = 0 → t.poison = false) ∧ (a = wPoison → t.poison = true ∧ t.phase = .closed ∧ t.demand = [] ∧ t.mode = 0) ∧
        (a = wPoison + wOpen 2 → t.poison = true ∧ t.phase ≠ .closed) := by decide +kernel
  exact ⟨descAt0, ⟨_, ⟨by decide, _, rfl, rfl⟩, rfl, rfl, rfl⟩, (fun h => nomatch h), hd a ha⟩

/-! ## Fences, batches, monitors -/

/-- `ASYNCERR` reports a NACK (R75). -/
def asyncDev : Dev := withW fun w => { w with asyncerr := BitVec.ofNat 64 (2 ^ 63 + 0x14 * 2 ^ 48) }

theorem meets_FencesReleaseAndAcquire :
    (∃ m₁, dev0.busyPeers dev0.wave.uid = false ∧ NoPendingError dev0 ∧ dev0.releaseWait (4 : BitVec 3).toNat = .ok m₁) ∧
    peerDev.busyPeers peerDev.wave.uid = true ∧
    (asyncDev.wave.allMarks = [] ∧ asyncDev.wave.asyncerr.getLsbD 63 = true ∧
      ScalarTraps asyncDev (asyncCause (fld asyncDev.wave.asyncerr.toNat 55 48)) ∧ asyncDev.busyPeers asyncDev.wave.uid = false) :=
  ⟨⟨dev0, rfl, ⟨rfl, rfl⟩, rfl⟩, by decide, rfl, by decide, ⟨⟨by decide, rfl⟩, rfl, rfl⟩, rfl⟩

/-- A pending line in core 0, and one in the merge buffer of die 0. -/
def lineDev : Dev :=
  { dev0 with cores := [(0, { core0 with l1 := [{ num := 5, st := .p, mask := 1, data := [(0, 7)] }] })],
              dies := { merge := [{ num := 512, mask := 3, data := [(0, 7), (1, 8)] }] } :: List.replicate 7 {} }

theorem meets_PendingLinesGoHome :
    ((lineDev.cores.map fun x => x.1).Nodup ∧ ∀ j, ∀ l ∈ (lineDev.core j).l1, l.st = .p → lineDev.line j l.num = some l) ∧
    (∃ x, (lineDev.stash.die 0).merge.find? (fun y => y.num = 512) = some x) ∧ 0 < 8 ∧ 128 * 512 + 128 ≤ devBytes ∧
    (let m := Dev.stash { dev0 with dies := { atomics := [{ num := 512, mask := 3, data := [] }] } :: List.replicate 7 {} }
     (∀ y ∈ (m.die 0).merge, y.num ≠ 512) ∧ ∃ y ∈ (m.die 0).atomics, y.num = 512) := by
  refine ⟨⟨by decide, fun j l hl _ => ?_⟩, ⟨_, rfl⟩, by decide, by decide, by decide, by decide⟩
  by_cases h : j = 0
  · subst h
    have : l = { num := 5, st := .p, mask := 1, data := [(0, 7)] } := by simpa [Dev.core, KMap.get, lineDev] using hl
    subst this; decide
  · simp [Dev.core, KMap.get, lineDev, h] at hl

/-- 64 incomplete batches and a command in the open one. -/
def batchDev : Dev :=
  { dev0 with cmds := [{ id := 3, wave := 1, ctx := 0, body := .cfetch 0 0 [] }],
              wave := { dev0.wave with openBatch := [3], batchNum := 64,
                                       closed := (List.range 64).map fun i => { num := BitVec.ofNat 32 i, cmds := [3] } } }

theorem meets_BatchesAreCountedAndAwaited :
    (¬ (dev0.running dev0.wave.openBatch = true ∧ 64 ≤ dev0.incomplete dev0.wave)) ∧
    (batchDev.running batchDev.wave.openBatch = true ∧ 64 ≤ batchDev.incomplete batchDev.wave) ∧
    (NoPendingError dev0 ∧ dev0.waitsBatch dev0.wave (BitVec.ofNat 32 (dev0.s 0).toNat) = false ∧
      dev0.busyPeers dev0.wave.uid = false ∧ peerDev.busyPeers peerDev.wave.uid = true) ∧
    (NoPendingError batchDev ∧ batchDev.waitsBatch batchDev.wave (BitVec.ofNat 32 (batchDev.s 0).toNat) = true) :=
  ⟨by decide, by decide +kernel, ⟨⟨rfl, rfl⟩, by decide, rfl, by decide⟩, ⟨rfl, rfl⟩, by decide +kernel⟩

/-- An armed monitor on a scratchpad word that holds 5. -/
def monDev (f : Frag → Frag) (l : Cells 64) : Dev :=
  { memDev with wave := { memDev.wave with monitor := some (own, .arr 0 0), sregs := l }, frag := f memDev.frag,
                cores := [(0, { core0 with arr := { bytes := [(0, 5)] } })] }

theorem meets_MonitorsWakeTheWait :
    (let m := memS [(1, own)]
     m.checkRange (m.s 1).toNat 8 { windows := scalarWindows, rd := true, align := 8 } = .ok ([⟨.arr 0 0, 8⟩], m)) ∧
    (dev0.wave.monitor = none ∧ ScalarTraps dev0 .protection) ∧
    (let m := monDev id [(1, 9), (2, 5)]
     m.wave.monitor = some (own, .arr 0 0) ∧ m.frag.phase ≠ 23 ∧ m.frag.phase ≠ 22 ∧ m.s 0 = 0 ∧ (m.s 1).toNat ≠ 0 ∧
       m.checkRange own.toNat 8 { windows := scalarWindows, rd := true, align := 8 } = .ok ([⟨.arr 0 0, 8⟩], m) ∧
       ∃ bs, (m.arm own (.arr 0 0)).acquire.loadAt { addr := own.toNat, loc := some (.arr 0 0), use := .memory } 8 true =
           (bs, m.arm own (.arr 0 0)) ∧
         (∀ x ∈ bs, x.2 = false) ∧ mwaitHolds 0 (BitVec.ofNat 64 (ofBytes (bs.map fun x => x.1))) (m.s 2) ∧
         ¬ mwaitHolds 0 (BitVec.ofNat 64 (ofBytes (bs.map fun x => x.1))) (m.s 0)) ∧
    (monDev (fun f => { f with phase := 23 }) []).frag.phase = 23 ∧
    (let c := (monDev (fun f => { f with phase := 23, wait := .monitor (some 40), deadline := some 40 }) []).stash
     (1 : Nat) ≠ 0 ∧ (∃ w, c.waveOf 1 = some w) ∧ (∃ f, c.fragOf 1 (fun f => decide (f.fid = 1) && inMwait f) = some f ∧ f.deadline = some 40)) ∧
    (State.pwr { dev := dev0, pwr := { state := .p2 } }).state = .p2 ∧ (at0 dev0).pwr.state ≠ .p2 :=
  ⟨rfl, ⟨rfl, traps0 _ (by decide)⟩,
   ⟨rfl, by decide, by decide, by decide, by decide, rfl, _, rfl, by decide +kernel, by show (_ : DWord) = _; decide +kernel,
    by show ¬ ((_ : DWord) = _); decide +kernel⟩,
   rfl, ⟨by decide, ⟨_, rfl⟩, _, rfl, rfl⟩, rfl, by decide⟩

/-! ## System registers and lane instructions -/

def superS (l : Cells 64) : Dev := withW fun w => { w with super := true, sregs := l }
/-- Core 0 holds the one copy of line 512, which is dirty. -/
def ownCopy : Dev := { dev0 with cores := [(0, { core0 with l1 := [{ num := 512, st := .m, mask := 1, data := [(0, 7)] }] })] }
theorem meets_SystemWordsReadWriteAndDrop :
    ((∃ fs, ((0x022 : BitVec 12).toNat, fs) ∈ fieldRegisters dev0) ∧ (∃ fs, ((0x1FF : BitVec 12).toNat, fs) ∈ superFieldRegisters (superS [])) ∧
      (0x051 : BitVec 12).toNat ∈ (superFieldRegisters dev0).map fun x => x.1) ∧
    (OneCopy ownCopy ownCopy.wave.coreNo 512 ∧ ownCopy.busyPeers ownCopy.wave.uid = false) ∧
    (((0x00E : BitVec 12).toNat, 32) ∈ userRegisters dev0 ∧ ((0x000 : BitVec 12).toNat, 0) ∈ (userRegisters dev0).take 8) ∧
    (dev0.sysRead (0xFFF : BitVec 12).toNat = none ∧ ScalarTraps dev0 .reservedField) ∧
    (dev0.wave.super = false ∧ ((0x041 : BitVec 12).toNat, 0) ∈ superRegisters dev0) ∧
    (∃ w, ((0x034 : BitVec 12).toNat, w) ∈ userWrites dev0.wave (dev0.s 0)) ∧
    (let m := superS [(1, 7)]
     m.wave.super = true ∧ ((0x043 : BitVec 12).toNat, 0) ∈ superRegisters m ∧
       (∃ w, ((0x041 : BitVec 12).toNat, w) ∈ superWrites m.wave (m.s 1)) ∧ fld (m.s 0).toNat 63 49 = 0 ∧ fld (m.s 0).toNat 15 2 = 0 ∧
       ∃ m₁, m.releaseWait 3 = .ok m₁ ∧
         m₁.pagesHeld m₁.wave.ctx (tlbRegion (m.s 0).toNat).1 ((tlbRegion (m.s 0).toNat).1 + (tlbRegion (m.s 0).toNat).2 -
           (tlbRegion (m.s 0).toNat).1) = false) ∧
    ScalarTraps dev0 .protection ∧
    ((0x000 : BitVec 12) ≠ 0x050 ∧ dev0.sysWrite (0x000 : BitVec 12).toNat (dev0.s 0) = none) ∧
    dev0.busyPeers dev0.wave.uid = false :=
  ⟨⟨⟨_, List.mem_of_getElem? (i := 1) rfl⟩, ⟨_, List.mem_of_getElem? (i := 137) rfl⟩, by decide +kernel⟩,
   ⟨⟨by decide, by decide, by decide, by decide, by decide⟩, rfl⟩,
   ⟨by decide, by decide⟩, ⟨rfl, traps0 _ (by decide)⟩, ⟨rfl, by decide⟩, ⟨_, by unfold userWrites; exact List.mem_of_getElem? (i := 4) rfl⟩,
   ⟨rfl, by decide, ⟨_, by unfold superWrites; exact List.mem_of_getElem? (i := 1) rfl⟩, by decide, by decide, superS [(1, 7)], rfl, by decide⟩,
   traps0 _ (by decide), ⟨by decide, rfl⟩, rfl⟩

theorem meets_TrapWordsTrapPostAndHalt :
    ScalarTraps dev0 .software ∧ ScalarTraps dev0 .poolExec ∧ ScalarTraps dev0 .protection ∧
    (let m := superS []
     m.wave.super = true ∧ postsEntry 0x80004 ∧ postsEntry 0x800FF ∧
       (0 < 1024 ∧ Mask.has m.frag.mask 0 = true ∧ ∀ k, k < 0 → Mask.has m.frag.mask k = false) ∧
       m.wave.uid ≠ 0 ∧ ∀ w ∈ m.waves, w.uid ≠ m.wave.uid) ∧
    State.halts { sec := { level := .full }, dev := dev0 } dev0.wave.ctx = true ∧
    (State.halts (at0 dev0) dev0.wave.ctx = false ∧ ScalarTraps dev0 .breakpoint) :=
  ⟨traps0 _ (by decide), traps0 _ (by decide), traps0 _ (by decide),
   ⟨rfl, ⟨by decide, by decide, by decide⟩, ⟨by decide, by decide, by decide⟩, ⟨by decide, by decide +kernel, fun k hk => absurd hk (Nat.not_lt_zero k)⟩, Nat.one_ne_zero, fun _ h => nomatch h⟩,
   rfl, rfl, traps0 _ (by decide)⟩

/-- A wave in its handler after a trap: a lane trap or not, with `LREM`, at the `LISSUE` at 8. -/
def handlerDev (lane : Bool) (lrem : DWord) : Dev :=
  withW fun w => { w with super := true, bank := [(48, 5)], trapLane := lane, trapLpc := 0x4000, trapSpc := 8,
                          trap := { sepc := 8, lepc := 0x4000, lrem, kf := 3 } }

theorem meets_ReturnAndRegionSetTheFragment :
    (let m := handlerDev false 0
     m.wave.super = true ∧ (∀ e ∈ m.wave.bank, 48 ≤ e.1) ∧ m.wave.trapLane = false ∧ m.wave.trap.lrem = 0) ∧
    (let m := handlerDev true 2
     m.wave.super = true ∧ (∀ e ∈ m.wave.bank, 48 ≤ e.1) ∧ m.wave.trapLane = true ∧ m.wave.trap.lrem ≠ 0 ∧
       m.wave.trap.lepc.toNat = m.wave.trapLpc) ∧
    (let m := handlerDev true 0
     m.wave.super = true ∧ (∀ e ∈ m.wave.bank, 48 ≤ e.1) ∧ m.wave.trapLane = true ∧ m.wave.trap.lrem = 0 ∧
       m.wave.trap.sepc.toNat = m.wave.trapSpc) ∧
    (dev0.wave.super = false ∧ dev0.wave.splits = []) ∧
    (withW fun w => { w with splits := [{ id := 0, rejoin := 0, fmt := {} }] }).wave.splits ≠ [] :=
  ⟨by decide, by decide, by decide, ⟨rfl, rfl⟩, by decide⟩

/-- Three lanes, in a window whose registers hold small numbers. -/
def laneDev : Dev :=
  { dev0 with frag := { dev0.frag with mask := 7 },
              wave := { dev0.wave with base := { units := 4, cells := (List.range 12).map fun i => ((4 * (32 + i / 3)) * 1024 + i % 3, 7) },
                                       globals := { units := 1, cells := [(0, 1), (1, 2), (2, 3), (4096, 5), (4097, 6), (4098, 0x80000000)] },
                                       scratch := 1, xregs := { base := own, frame := 0, limit := 1024, attr := 0x1F } :: List.replicate 7 {} } }
/-- Two source registers, a destination pair and a last read. -/
def laneF : LaneF := { vd := 4, va := 0, vb := 1, vc := 2, lr := 1 }

/-- Every lane opcode. -/
def laneOpcodes : List Nat :=
  (List.range' 1 24 ++ List.range' 0x40 19 ++ List.range' 0x80 5 ++ List.range' 0xA0 11 ++ List.range' 0xC0 7 ++ List.range' 0x100 6)

theorem lanes_ready : ∀ opc ∈ laneOpcodes, LaneReady laneDev opc laneF := by
  have h : ∀ opc ∈ laneOpcodes,
      (∀ r ∈ laneSources opc laneF ++ destV opc laneF, laneDev.wave.inWindow r = true ∧ laneDev.peerPending r = false) ∧
      ∀ r ∈ laneSources opc laneF, laneDev.wave.isDead r = false ∧ laneDev.wave.marksOf r (BitVec.allOnes 1024) = [] := by decide +kernel
  exact fun opc ho => ⟨by decide, by decide, by decide +kernel, rfl, (h opc ho).1, (h opc ho).2⟩

theorem meets_LaneIntegersWriteTheTable :
    (∀ e ∈ laneIntegers laneF, LaneReady laneDev e.1 laneF) ∧
    ∀ e ∈ laneBitInstrs { laneF with imm := 0x100 }, 1 ≤ ({ laneF with imm := 0x100 } : LaneF).imm.toNat / 32 % 64 ∧
      LaneReady laneDev e.1 laneF := by
  refine ⟨fun e he => lanes_ready _ ?_, fun e he => ⟨by decide, lanes_ready _ ?_⟩⟩
  · exact (by decide : ∀ x ∈ (laneIntegers laneF).map (·.1), x ∈ laneOpcodes) _ (List.mem_map_of_mem he)
  · exact (by decide : ∀ x ∈ (laneBitInstrs { laneF with imm := 0x100 }).map (·.1), x ∈ laneOpcodes) _ (List.mem_map_of_mem he)

theorem meets_LaneFloatsWriteTheTable : (∀ e ∈ laneFloats laneF, LaneReady laneDev e.1 laneF) ∧ LaneReady laneDev 0x052 laneF ∧
    LaneReady laneDev 0x049 laneF :=
  ⟨fun e he => lanes_ready _ ((by decide : ∀ x ∈ (laneFloats laneF).map (·.1), x ∈ laneOpcodes) _ (List.mem_map_of_mem he)),
   lanes_ready _ (by decide), lanes_ready _ (by decide)⟩

/-- `laneDev` with a format register, and a large number in lane 1 of register 0. -/
def fmtDev (x : FmtReg) : Dev :=
  { laneDev with frag := { laneDev.frag with fmt := x },
                 wave := { laneDev.wave with globals := { laneDev.wave.globals with cells := [(0, 0x3F800000), (1, 0x7F000000), (2, 2)] } } }

theorem three_lanes {m : Dev} {f : LaneF} (h : lanesOf m f = 7) (P : Nat → Prop) (hp : ∀ l, l < 3 → P l) :
    ∀ l, Mask.has (lanesOf m f) l = true → P l := by
  intro l hl
  rw [h] at hl
  refine hp l (Nat.lt_of_not_le fun hge => ?_)
  have : (7 : Mask).getLsbD l = false := by
    show (BitVec.ofNat 1024 7).getLsbD l = false
    rw [BitVec.getLsbD_ofNat]
    have : Nat.testBit 7 l = false := Nat.testBit_lt_two_pow (Nat.lt_of_lt_of_le (by decide : 7 < 2 ^ 3) (Nat.pow_le_pow_right (by decide) hge))
    simp [this]
  have e : (7 : Mask).getLsbD l = true := hl
  rw [this] at e
  cases e

theorem ok_of {e : Except Dev Dev} (h : e.isOk = true) : ∃ m, e = .ok m := by
  cases e with
  | error _ => cases h
  | ok m => exact ⟨m, rfl⟩

/-- Lane register cells: register, lane, value. -/
def laneCells (l : List (Nat × Nat × Word)) : Cells 32 := l.map fun (x : Nat × Nat × Word) => (4096 * x.1 + x.2.1, x.2.2)
/-- A wave of the core with scratchpad and page, whose first `n` lanes are active, with a format register. -/
def exDev (n : Nat) (x : FmtReg) (l : List (Nat × Nat × Word)) : Dev :=
  { memDev with frag := { dev0.frag with mask := Mask.first n, fmt := x },
                wave := { memDev.wave with globals := { units := 1, cells := laneCells l } } }
/-- An outlier list at VA 0 with room for `cap` entries (R313). -/
def outDev (cap : Nat) : Dev :=
  let m := exDev 4 { oscale := 0x3F000000, ovfmode := 1 } [(3, 0, 0x40D00000), (3, 1, 0x447A0000), (3, 2, 0x3BC00000), (3, 3, 0xC039999A)]
  { m with wave := { m.wave with olbase := 0, olcap := BitVec.ofNat 64 cap, oltag := 0x600000 } }
def outF : LaneF := { vd := 7, va := 3, ty := 3 }

theorem meets_LaneConversionsWriteTheirElements :
    ((0x081, Instr.pack laneF) ∈ conversions laneF ∧ LaneReady laneDev 0x081 laneF ∧ (convSource 0x081 laneF).1 ≠ 12 ∧
      convNarrow 0x081 laneF = false ∧ laneDev.frag.fmt.ovfmode = 0) ∧
    (let f := { laneF with imm := 12288 }
     (0x080, Instr.cvt f) ∈ conversions f ∧ LaneReady (fmtDev {}) 0x080 f ∧ Mask.has (lanesOf (fmtDev {}) f) 2 = true ∧
       convBad (fmtDev {}) 0x080 f 2) ∧
    (let f := { laneF with ty := 3 }
     let m := fmtDev { oscale := 0x7FC00000 }
     LaneReady m 0x081 f ∧ convNarrow 0x081 f = true ∧ (∀ n k e, f32.decode m.frag.fmt.oscale.toNat ≠ .fin n k e) ∧ Delivers m .formatInvalid) ∧
    (let f := { laneF with ty := 3 }
     let m := fmtDev { ovfmode := 2 }
     let beyond (l : Nat) := convBeyond m.frag.fmt 0x081 f (convExact 0x081 f (m.laneIn 0x081 f l).a)
     LaneReady m 0x081 f ∧ (∃ n k e, f32.decode m.frag.fmt.oscale.toNat = .fin n k e) ∧ m.frag.fmt.ovfmode = 2 ∧ (convSource 0x081 f).1 ≠ 12 ∧
       Mask.has (lanesOf m f) 1 = true ∧ beyond 1 ≠ none ∧ (∀ k, k < 1 → Mask.has (lanesOf m f) k = true → beyond k = none) ∧
       Delivers m .mxOverflow) ∧
    (∀ m ∈ [outDev 8, outDev 0],
     LaneReady m 0x080 outF ∧ (∃ n k e, f32.decode m.frag.fmt.oscale.toNat = .fin n k e) ∧ m.frag.fmt.ovfmode = 1 ∧ (convSource 0x080 outF).1 ≠ 12 ∧
       Mask.has (lanesOf m outF) 1 = true ∧ convBeyond m.frag.fmt 0x080 outF (convExact 0x080 outF (m.laneIn 0x080 outF 1).a) ≠ none ∧
       Delivers m .outlierFull) ∧
    (∃ m₂, (outDev 8).appendLane (lanesOf (outDev 8) outF) (outlierEntries (outDev 8) 0x080 outF) = .ok m₂) ∧
    (outDev 0).wave.olcap.toNat % 2 ^ 32 = 0 ∧
    LaneReady laneDev 0x083 laneF ∧ LaneReady laneDev 0x084 laneF ∧
    (let m := outDev 8
     let cap := m.wave.olcap.toNat % 2 ^ 32
     cap ≠ 0 ∧ ∃ m₁, m.check m.wave.olbase.toNat (16 + 16 * cap) { windows := [.global], wr := true } =
         (.ok [{ loc := .dev 0x10000, len := 16 + 16 * cap }], m₁) ∧
       (∀ l ∈ (m₁.core m₁.wave.coreNo).l1, l.st = .p → m₁.line m₁.wave.coreNo l.num = some l) ∧ 0x10000 + (16 + 16 * cap) ≤ devBytes ∧
       let k := m₁.wave.coreNo
       let m₂ := m₁.irrev.atomicLine k (0x10000 / 128) 3
       let old := ofBytes ((m₂.atomicBytes k (.dev 0x10000) 8).map fun x => x.1)
       (∀ x ∈ m₂.atomicBytes k (.dev 0x10000) 8, x.2 = false) ∧ old + [List.replicate 16 (0 : Byte)].length ≤ cap ∧
         cap < old + (List.replicate 9 (List.replicate 16 (0 : Byte))).length) := by
  refine ⟨⟨by decide, lanes_ready _ (by decide), by decide, by decide, rfl⟩,
    ⟨by decide, (by unfold LaneReady; decide +kernel), by decide +kernel, by unfold convBad; decide +kernel⟩,
    ⟨(by unfold LaneReady; decide +kernel), by decide, fun n k e h => ?_, by decide, rfl⟩,
    ⟨(by unfold LaneReady; decide +kernel), ⟨_, _, _, rfl⟩, rfl, by decide, by decide +kernel, by decide +kernel, by decide +kernel, by decide, rfl⟩,
    fun m hm => ?_, ok_of (by decide +kernel), by decide, lanes_ready _ (by decide), lanes_ready _ (by decide),
    by decide, _, rfl, fun _ h => (by cases h), by decide, by decide +kernel, by decide +kernel, by decide +kernel⟩
  · have : (f32.decode 0x7FC00000).isNan = true := by decide +kernel
    rw [show f32.decode 0x7FC00000 = _ from h] at this
    cases this
  · simp only [List.mem_cons, List.not_mem_nil, or_false] at hm
    rcases hm with rfl | rfl
    · exact ⟨(by unfold LaneReady; decide +kernel), ⟨_, _, _, rfl⟩, rfl, by decide, by decide +kernel, by decide +kernel, by decide, rfl⟩
    · exact ⟨(by unfold LaneReady; decide +kernel), ⟨_, _, _, rfl⟩, rfl, by decide, by decide +kernel, by decide +kernel, by decide, rfl⟩

theorem meets_LaneMovesWriteTheirSources :
    (∀ opc ∈ [0x0A0, 0x0A1, 0x0A2, 0x018, 0x0A3, 0x0A4, 0x0A9, 0x0AA], LaneReady laneDev opc laneF) ∧
    (laneF.imm.toNat < laneDev.wave.wlanes ∧ laneDev.wave.wlanes ≤ ({ laneF with imm := 32 } : LaneF).imm.toNat ∧
      Delivers laneDev .reservedField) ∧
    Delivers laneDev .protection ∧
    (let y : XReg := laneDev.wave.xregs.getD laneF.xs.toNat {}
     (∀ l, Mask.has (lanesOf laneDev laneF) l = true → (0 : Int) ≤ ((laneDev.wave.vget laneF.va.toNat 0 l).toNat : Int) + laneF.imm.toInt ∧
       ((laneDev.wave.vget laneF.va.toNat 0 l).toNat : Int) + laneF.imm.toInt + 1 ≤ y.limit.toNat) ∧
     windowOf y.base.toNat ≠ some .global) ∧
    (let m : Dev := { laneDev with wave := { laneDev.wave with xregs := { limit := 16 } :: List.replicate 7 {} } }
     let y : XReg := m.wave.xregs.getD laneF.xs.toNat {}
     (∀ l, Mask.has (lanesOf m laneF) l = true → (0 : Int) ≤ ((m.wave.vget laneF.va.toNat 0 l).toNat : Int) + laneF.imm.toInt ∧
       ((m.wave.vget laneF.va.toNat 0 l).toNat : Int) + laneF.imm.toInt + 1 ≤ y.limit.toNat) ∧
     windowOf y.base.toNat = some .global) ∧
    (∃ pte size m₁, windowOf (wrapN 64 ((0 : Nat) + (5 : Int))) = some .global ∧ windowOff (wrapN 64 ((0 : Nat) + (5 : Int))) < 2 ^ 49 ∧
      memDev.coreWalk memDev.wave.coreNo memDev.wave.ctx (windowOff (wrapN 64 ((0 : Nat) + (5 : Int)))) = (.leaf pte size, m₁)) :=
  ⟨fun opc ho => lanes_ready opc ((by decide : ∀ x ∈ [0x0A0, 0x0A1, 0x0A2, 0x018, 0x0A3, 0x0A4, 0x0A9, 0x0AA], x ∈ laneOpcodes) opc ho),
   ⟨by decide, by decide, by decide, rfl⟩, ⟨by decide, rfl⟩,
   ⟨three_lanes (by decide +kernel) _ (by decide +kernel), by decide⟩, ⟨three_lanes (by decide +kernel) _ (by decide +kernel), by decide⟩,
   _, _, _, by decide, by decide, rfl⟩

theorem meets_LanePredicatesAreWritten : (∀ opc ∈ [0x017, 0x100, 0x101, 0x102, 0x103, 0x104, 0x0A5, 0x105], LaneReady laneDev opc laneF) ∧
    laneF.la = 0 ∧ laneF.mode.toNat % 128 = 0 ∧ ({ laneF with mode := 1 } : LaneF).mode.toNat % 128 = 1 ∧
    ({ laneF with mode := 2 } : LaneF).mode.toNat % 128 = 2 :=
  ⟨fun opc ho => lanes_ready opc ((by decide : ∀ x ∈ [0x017, 0x100, 0x101, 0x102, 0x103, 0x104, 0x0A5, 0x105], x ∈ laneOpcodes) opc ho),
   rfl, by decide, by decide, by decide⟩

theorem meets_LaneReductionsAccumulateInOrder : (∀ opc ∈ [0x0A6, 0x0A7, 0x0A8], LaneReady laneDev opc laneF) ∧
    redOp laneF ≤ 5 ∧ laneF.mode.getLsbD 2 = false ∧
    (let f := { laneF with mode := 0x5C }
     redOp f = 5 ∧ f.mode.getLsbD 3 = true ∧ f.mode.getLsbD 2 = true ∧ LaneReady laneDev 0x0A8 f) ∧
    (let m : Dev := { laneDev with wave := { laneDev.wave with tang := 1 } }
     let f := { laneF with mode := 0x48 }
     movesTangents m ∧ redOp f = 4 ∧ f.mode.getLsbD 3 = true ∧ f.mode.getLsbD 2 = false ∧ LaneReady m 0x0A7 f ∧ LaneReady m 0x0A8 f) :=
  ⟨fun opc ho => lanes_ready opc ((by decide : ∀ x ∈ [0x0A6, 0x0A7, 0x0A8], x ∈ laneOpcodes) opc ho), by decide, by decide,
   ⟨by decide, by decide, by decide, by unfold LaneReady; decide +kernel⟩,
   by unfold movesTangents; decide, by decide, by decide, by decide, by unfold LaneReady; decide +kernel, by unfold LaneReady; decide +kernel⟩

/-- Offsets 0, 8 and 16 in register 0, three words of the array. -/
def arrDev : Dev :=
  { laneDev with wave := { laneDev.wave with globals := { units := 1, cells := [(1, 8), (2, 16), (4096, 5), (4097, 6), (4098, 7)] } },
                 cores := [(0, { core0 with arr := { bytes := [(0, 1), (8, 2), (16, 3)] } })] }
def memF : LaneF := { laneF with mode := 2 }

/-- The accesses of the three lanes. -/
def arrAccs : List LaneAcc := (List.range 3).map fun l => { lane := l, accs := [{ addr := own.toNat + 8 * l, loc := some (.arr 0 (8 * l)), use := .memory }] }

/-- One access of lane 0, of four bytes at a place. -/
def partAt (l : Loc) (op : PartOp) : Part := { lane := 0, tang := 0, acc := { addr := own.toNat, loc := some l, use := .memory }, size := 4, op }
theorem arr_part (op : PartOp) : PlainPart arrDev (partAt (.arr 0 0) op) (.arr 0 0) :=
  ⟨⟨rfl, rfl⟩, pending_arr _ _ _ _, fun _ _ => rfl, .inr (.inr (.inl rfl)), fun _ h => nomatch h⟩
theorem mem_lines (k : Nat) : (memDev.core k).l1 = [] := by by_cases h : k = 0 <;> simp [Dev.core, KMap.get, memDev, core0, h]
theorem dev_part (op : PartOp) : PlainPart memDev (partAt (.dev 0x10000) op) (.dev 0x10000) :=
  ⟨⟨rfl, rfl⟩, nothing_pending _ mem_lines (fun _ => rfl) _, fun _ _ => rfl, .inr (.inr (.inl rfl)), fun _ h => by cases h; exact (by decide : 65536 % 4 = 0)⟩
theorem arr_here : ¬ atSys arrAccs := by
  have h : ∀ x ∈ arrAccs, ∀ a ∈ x.accs, a.loc.isSome = true ∧ ∀ c ∈ a.loc, (match c with | .arr _ _ => true | _ => false) = true := by decide +kernel
  rintro ⟨x, hx, a, ha, h0 | ⟨p, h1⟩⟩
  · have := (h x hx a ha).1; rw [h0] at this; cases this
  · have := (h x hx a ha).2 _ h1; cases this
/-- An access in the peer window, at the system's level; one that waits. -/
def peerPart (waits : Bool) : Part :=
  { lane := 0, tang := 0, acc := { addr := 0xFA * 2 ^ 56, loc := none, use := .memory }, size := 4, op := .load true, waits }

theorem meets_LaneLoadsReadMemory :
    LaneReady arrDev 0x0C0 memF ∧ ChecksPass arrDev memF .load (movedTangents arrDev) (laneOffset arrDev memF) arrAccs arrDev ∧
    (∃ r m₂, arrDev.runParts {} (arrAccs.flatMap fun a => arrDev.loadParts memF 4 a) = (r, m₂) ∧ Unmarked (wordsOf r memF.vd.toNat)) ∧
    (PlainPart arrDev (partAt (.arr 0 0) (.load true)) (.arr 0 0) ∧ Clean arrDev arrDev.wave.coreNo (.arr 0 0) 4) ∧
    (PlainPart memDev (partAt (.dev 0x10000) (.load false)) (.dev 0x10000) ∧ Clean memDev memDev.wave.coreNo (.dev 0x10000) 4 ∧
      QuietL1 memDev 0 512 ∧ ∀ y, memDev.line 0 512 = some y → y.st ≠ .g) ∧
    ((partAt (.arr 0 0) (.load true)).acc.loc ≠ none ∧ (peerPart false).acc.loc = none ∧ (peerPart false).waits = false ∧
      (peerPart true).waits = true) ∧
    (let d : Done := { part := partAt (.arr 0 0) (.load true), badLo := true, err := 3 }; d.badLo = true ∧ d.part.tang < 4) :=
  ⟨(by unfold LaneReady; decide +kernel), by unfold ChecksPass; decide +kernel,
   ⟨_, _, rfl, by unfold Unmarked; decide +kernel⟩,
   ⟨arr_part _, fun _ _ => rfl, fun _ _ _ h => nomatch h⟩,
   ⟨dev_part _, ⟨fun _ _ => rfl, fun pa x i h hx => by simp [Dev.line, mem_lines] at hx⟩,
    (by rw [QuietL1, mem_lines]; exact fun _ h => nomatch h), fun y h => by simp [Dev.line, mem_lines] at h⟩,
   ⟨by decide, rfl, rfl, rfl⟩, rfl, by decide⟩

/-- Core 0 owns line 512. -/
def ownedDev : Dev := { memDev with cores := [(0, { memDev.core 0 with l1 := [{ num := 512, st := .e }] })] }

theorem meets_LaneStoresWriteMemory :
    LaneReady arrDev 0x0C1 memF ∧ ChecksPass arrDev memF .store (movedTangents arrDev) (laneOffset arrDev memF) arrAccs arrDev ∧
    ¬ atSys arrAccs ∧ atSys [{ lane := 0, accs := [(peerPart false).acc] }] ∧
    (strCode ({ memF with mode := 0x4E } : LaneF) = 3 ∧ scopeCode ({ memF with mode := 0x4E } : LaneF) = 4 ∧ arrDev.busyPeers arrDev.wave.uid = false) ∧
    (∃ r m₃, arrDev.runParts {} (arrAccs.flatMap fun a => arrDev.storeParts memF 4 a) = (r, m₃)) ∧
    (PlainPart arrDev (partAt (.arr 0 0) (.store true 3 (leBytes 4 7))) (.arr 0 0) ∧ Exists (.arr 0 0) 4) ∧
    (PlainPart memDev (partAt (.dev 0x10000) (.store false 0 (leBytes 4 7))) (.dev 0x10000) ∧ Exists (.dev 0x10000) 4 ∧
      memDev.l1Sets 0 ≠ 0 ∧ memDev.line 0 512 = none ∧ QuietL1 memDev 0 512 ∧ Alone memDev 0 512) ∧
    (∃ y, ownedDev.line 0 512 = some y ∧ y.st.tracked = true ∧ ownedDev.l1Sets 0 ≠ 0 ∧ Alone ownedDev 0 512) := by
  refine ⟨(by unfold LaneReady; decide +kernel), by unfold ChecksPass; decide +kernel, arr_here,
   ⟨_, List.mem_singleton_self _, _, List.mem_singleton_self _, .inl rfl⟩,
   ⟨by decide, by decide, rfl⟩, ⟨_, _, rfl⟩, ⟨arr_part _, exists_arr _ _ _⟩,
   ⟨dev_part _, (fun pa h => by cases h; decide), by decide, rfl, (by rw [QuietL1, mem_lines]; exact fun _ h => nomatch h),
    by decide, (fun j _ y h => by rw [mem_lines] at h; cases h), by rw [mem_lines]; decide, fun y h => by rw [mem_lines] at h; cases h⟩,
   _, rfl, by decide, by decide, by decide, fun j hj y h => ?_, by decide, by decide⟩
  simp [Dev.core, KMap.get, ownedDev, hj] at h

theorem meets_LaneAtomicsUpdateMemory :
    LaneReady arrDev 0x0C2 memF ∧ memF.imm.toNat % 16 ≤ 1 ∧
    ChecksPass arrDev memF .atomic (movedTangents arrDev) (fun l => ((arrDev.wave.vget memF.va.toNat 0 l).toNat : Int)) arrAccs arrDev ∧
    ¬ atSys arrAccs ∧ arrDev.busyPeers arrDev.wave.uid = false ∧ ¬ movesTangents arrDev ∧
    (∃ r m₃, let m₂ := arrDev.irrev.release arrDev.wave.coreNo (scopeCode memF)
      m₂.runParts {} (arrAccs.flatMap fun a => m₂.atomParts memF 4 a) = (r, m₃) ∧ Unmarked (wordsOf r memF.vd.toNat)) ∧
    (let m : Dev := { arrDev with wave := { arrDev.wave with tang := 1 } }
     let f := { memF with imm := 5 }
     movesTangents m ∧ 2 ≤ f.imm.toNat % 16 ∧ LaneReady m 0x0C2 f ∧ arrDev.wave.wlanes = 32 ∧ ∃ ls m₁,
       ChecksPass m f .atomic 0 (fun l => ((m.wave.vget f.va.toNat 0 l).toNat : Int)) ls m₁) ∧
    (let op := PartOp.atomic (scopeCode memF) 5 0 0 [.arr 0 0]
     (4 = 2 ∨ 4 = 4 ∨ 4 = 8) ∧ (partAt (.arr 0 0) op).size = 4 ∧ (partAt (.arr 0 0) op).acc.loc = some (.arr 0 0) ∧
      (∀ i, i < 4 → arrDev.ownsArray arrDev.wave.ctx ((Loc.arr 0 0).add i) = true) ∧ Exists (.arr 0 0) 4 ∧
      NoPending arrDev arrDev.wave.coreNo (.arr 0 0) ∧ ∀ i, i < 4 → arrDev.poisonAt ((Loc.arr 0 0).add i) = false) :=
  ⟨(by unfold LaneReady; decide +kernel), by decide, by unfold ChecksPass; decide +kernel, arr_here, rfl,
   by unfold movesTangents; decide, ⟨_, _, rfl, by unfold Unmarked; decide +kernel⟩,
   ⟨by unfold movesTangents; decide, by decide, (by unfold LaneReady; decide +kernel), rfl, arrAccs, { arrDev with wave := { arrDev.wave with tang := 1 } }, by unfold ChecksPass; decide +kernel⟩,
   .inr (.inl rfl), rfl, rfl, fun _ _ => rfl, exists_arr _ _ _,
   pending_arr _ _ _ _, fun _ _ => rfl⟩

/-- A ring of four slots of 4 bytes in the room that the wave holds, and one slot filled. -/
def ringDev (mode : Nat) : Dev :=
  { descDev [0x200, 128, 0x18 + 4 * 2 ^ 32, 0, 1] with
    wave := { laneDev.wave with rooms := [{ desc := 0, place := 0x10000, mode, base := 0x200, len := 128, nslot := 4 }] },
    frag := laneDev.frag }
def ringF : LaneF := { laneF with mode := 2, imm := 1, vb := 0 }

theorem ring_lines {n : Nat} (k : Nat) : ((ringDev n).core k).l1 = [] := mem_lines k
theorem ring_clean (n : Nat) : Clean (ringDev n) (ringDev n).wave.coreNo (.dev 0x10204) 4 :=
  ⟨fun _ _ => rfl, fun pa x i h hx => by simp [Dev.line, ring_lines] at hx⟩

theorem meets_PrefetchPlateAndRingInstructionsEnd :
    (LaneReady arrDev 0x0C3 memF ∧ LaneReady arrDev 0x0C4 memF ∧ memF.imm.toNat % 16 < plateCount arrDev.wave.tang ∧
      (∀ x ∈ (Mask.lanes (lanesOf arrDev memF) arrDev.wave.wlanes).map fun l => (l, (arrDev.wave.vget memF.va.toNat 0 l).toNat),
        x.2 % 4 = 0 ∧ x.2 < 8192) ∧
      ∃ m₁, arrDev.ownPlates arrDev.wave.clusterNo arrDev.wave.ctx arrDev.wave ((List.range 1).map fun j => j * plateCount 0) = .ok m₁) ∧
    (let m : Dev := { laneDev with wave := { laneDev.wave with tang := 1 } }
     plateCount m.wave.tang ≤ ({ memF with imm := 8 } : LaneF).imm.toNat % 16 ∧ Delivers m .reservedField) ∧
    (∀ push : Bool,
      let m := ringDev (if push then 3 else 4)
      (∀ r ∈ laneSources (if push then 0x0C5 else 0x0C6) ringF ++ destV (if push then 0x0C5 else 0x0C6) ringF, m.wave.inWindow r = true) ∧
      m.frag.reissue = none ∧
      ∃ r, m.wave.rooms.find? (fun x => x.desc = (m.s (BitVec.ofNat 6 ringF.vb.toNat)).toNat) = some r ∧
        r.mode = (if push then 3 else 4) ∧ sizeCode ringF - 2 = r.slot ∧ 0 < ringF.imm.toNat % 8 ∧ 0 < r.nslot ∧ DescAt r.place ∧
        (let q := m.takeSlots ringF r push (lanesOf m ringF)
         let z := q.1.foldl (fun (p : (List LaneFail × Results) × Dev) (e : Nat × Nat) =>
           let q := p.2.ringLane ringF r push p.1.2 e.1 e.2
           ((p.1.1 ++ q.1.1.toList, q.1.2), q.2)) (([], resultsFor ringF.vd.toNat), q.2)
         z.1.1 = [] ∧ z.1.2.lo.marks = [] ∧ z.1.2.hi.marks = []) ∧
        [0, 1, 2].Nodup ∧ m.descDword r.place 0x20 + [0, 1, 2].length ≤ 2 ^ 64 ∧
        ∃ m₁, m.check (r.base + 4 * 1) 4 { windows := [.global], rd := !push, wr := push, align := 4 } = (.ok [{ loc := .dev 0x10204, len := 4 }], m₁) ∧
          Exists (.dev 0x10204) 4 ∧ NoPending m₁ m₁.wave.coreNo (.dev 0x10204) ∧ Clean m₁ m₁.wave.coreNo (.dev 0x10204) 4) := by
  refine ⟨⟨(by unfold LaneReady; decide +kernel),
    (by unfold LaneReady; decide +kernel), by decide, by decide +kernel, _, rfl⟩, ⟨by decide, by decide, rfl⟩,
    fun push => ?_⟩
  cases push
  · exact ⟨by decide +kernel, rfl, _, rfl, rfl, rfl, by decide, by decide, descAt0, by decide +kernel, by decide, by decide +kernel, _, rfl,
     (fun _ h => by cases h; decide), nothing_pending _ ring_lines (fun _ => rfl) _, ring_clean _⟩
  · exact ⟨by decide +kernel, rfl, _, rfl, rfl, rfl, by decide, by decide, descAt0, by decide +kernel, by decide, by decide +kernel, _, rfl,
     (fun _ h => by cases h; decide), nothing_pending _ ring_lines (fun _ => rfl) _, ring_clean _⟩

/-! ## Engines and messages -/

/-- `memDev` with 64 KiB of scratchpad, doublewords in the array from offset 0, and commands. -/
def engDev (ds : List Nat) (cs : List Cmd) (l : Cells 64) : Dev :=
  { memDev with wave := { memDev.wave with scratch := 64, sregs := l }, cmds := cs,
                cores := [(0, { memDev.core 0 with arr := { bytes := cellsAt 0 ds } })] }
/-- A slice of 8 bytes from offset 64 to offset 256 with a stamp (R335), and one that has started. -/
def cpyDesc : List Nat := [own.toNat + 64, own.toNat + 256, 128, 8 + 5 * 2 ^ 32]
def copyCmd : Cmd :=
  { id := 3, wave := 1, ctx := 0, body := .copy 0 none 0 [⟨.arr 0 64, 8⟩] [⟨.arr 0 256, 16⟩] 0 [] true 5 8 1 }
/-- A gather of one row of 4 bytes, and the same performed (R344). -/
def gathDesc : List Nat := [0, 1, 256, 4 + 2 ^ 32, 512 + 4 * 2 ^ 32]
def gathCmd (sc : Bool) (rec : List Span) : Cmd :=
  { id := 3, wave := 1, ctx := 0,
    body := .gather sc 0 [⟨.dev 0x10000, 4 * 1⟩] [⟨.dev 0x10100, 1 * 4⟩] 1 1 4 4 512 0 0 rec 0 7 }
/-- A put of 8 bytes to node 1 with a stamp, in a context with PEER (R348). -/
def putDesc : List Nat := [own.toNat + 64, 0xFA * 2 ^ 56 + 2 ^ 42, 8 + 5 * 2 ^ 32, 1]
def putDev : Dev := { engDev putDesc [] [(1, own)] with mem := { bytes := [(7, 0x40), (8, 1)] } }
def putCmd (put failed answered err : Bool) : Cmd :=
  { id := 3, wave := 1, ctx := 0, body := .peer put [⟨.arr 0 64, 8⟩] (0xFA * 2 ^ 56 + 2 ^ 42) 8 true 5 [⟨.arr 0 256, 8⟩] failed answered err }

/-- Segment 2 of the core of the wave is being filled for its launch. -/
def fetchDev : Dev :=
  { memDev with cores := [(0, { memDev.core 0 with segs := setAt {} (memDev.core 0).segs 2 { st := .inflight, owner := .launch 1 } })] }

theorem meets_EngineCommandsStartAndComplete :
    (∃ ss, ((2 : BitVec 4).toNat ≤ 11 ∧ (memDev.s 0).toNat % 2 ^ 14 = 0 ∧ (memDev.seg 2).owner = .free ∧ memDev.frag.phase = 0 ∧
      memDev.checkRange (memDev.s 0).toNat 0x4000 { windows := [.global], rd := true } = .ok (ss, memDev) ∧ (memDev.seg 2).st ≠ .inflight)) ∧
    (∃ ss, (2 : BitVec 4).toNat ≤ 11 ∧ fetchDev.frag.phase = 0 ∧ (fetchDev.seg 2).owner = .launch fetchDev.wave.launch ∧ (fetchDev.seg 2).st = .inflight ∧
      fetchDev.checkRange (fetchDev.s 0).toNat 0x4000 { windows := [.global], rd := true } = .ok (ss, fetchDev)) ∧
    (let m : Dev := { memDev with frag := { memDev.frag with phase := 1, range := [⟨.dev 0x10000, 0x4000⟩] } }
     m.frag.phase = 1 ∧ (m.seg 2).st ≠ .inflight) ∧
    (let c : Cmd := { id := 3, wave := 1, ctx := 0, body := .cfetch 0 2 [⟨.dev 0x10000, 0x4000⟩] }
     let m := Dev.stash { dev0 with cmds := [c], cores := [(0, { core0 with segs := setAt {} core0.segs 2 { st := .inflight, owner := .launch 1 } })] }
     m.cmds.filter (fetches 0 2) = [c] ∧ ((m.core 0).segs.getD 2 {}).st = .inflight) ∧
    (let m := engDev cpyDesc [] [(1, own)]
     ∃ d ss ds, m.readDesc (m.s 1).toNat 32 32 [.own] = .ok (d, m) ∧ sliceOk d = true ∧ m.suppliedSlice (fld (dwordOf d 2) 63 60) = false ∧
       m.checkRange (dwordOf d 0) (fld (dwordOf d 3) 31 0) { windows := engineWindows, rd := true } = .ok (ss, m) ∧
       checked m (decide (fld (dwordOf d 2) 59 56 = 0)) (dwordOf d 1)
         (if (dwordOf d 2).testBit 7 then alignUp (fld (dwordOf d 3) 31 0) 8 + 8 else fld (dwordOf d 3) 31 0)
         { windows := engineWindows, wr := true } ds m ∧
       m.wave.gang = none ∧ m.copyParties = []) ∧
    (let m := (engDev [] [copyCmd] []).stash
     m.cmds.filter (fun x => (m.sliceData 1 x).isSome) = [copyCmd] ∧ m.copyOf copyCmd.id = some 1 ∧ Exists (.arr 0 64) 8 ∧
       Exists (.arr 0 256) 16) ∧
    (let m : Dev := { descDev gathDesc with wave := { memDev.wave with scratch := 64 } }
     ∃ d idx sp tab, m.readDesc (m.s 0).toNat 64 64 engineWindows = .ok (d, m) ∧ gatherOk false d = true ∧ gatherOk true d = true ∧
       fld (dwordOf d 1) 31 0 = 1 ∧ dwordOf d 5 = 0 ∧ fld (dwordOf d 3) 63 32 = 1 ∧
       checked m true (dwordOf d 0) 4 { windows := [.global], rd := true } idx m ∧
       checked m true (0xFE * 2 ^ 56 + fld (dwordOf d 4) 19 0) 4 { windows := [.own], rd := false, wr := true } sp m ∧
       checked m true (0xFE * 2 ^ 56 + fld (dwordOf d 4) 19 0) 4 { windows := [.own], rd := true, wr := false } sp m ∧
       checked m true (dwordOf d 2) 4 { windows := [.global], rd := true, wr := true } tab m) ∧
    (∃ d ss, putDev.ctxPeer putDev.wave.ctx = true ∧ putDev.readDesc (putDev.s 1).toNat 32 32 engineWindows = .ok (d, putDev) ∧
      fld (dwordOf d 3) 63 1 = 0 ∧ fld (dwordOf d 2) 31 0 ≠ 0 ∧ windowOf (dwordOf d 1) = some .peer ∧ fld (dwordOf d 1) 55 42 ≠ putDev.host.nodeid ∧
      dwordOf d 1 % 2 ^ 34 + 16 ≤ 2 ^ 34 ∧
      putDev.checkRange (dwordOf d 0) 8 { windows := engineWindows, rd := true, wr := false } = .ok (ss, putDev)) ∧
    (∃ ss, putDev.checkRange (own.toNat + 64) 16 { windows := engineWindows, rd := false, wr := true } = .ok (ss, putDev)) ∧
    ∀ put failed answered err, let m := (engDev [] [putCmd put failed answered err] []).stash
      m.cmds.find? (fun x => x.id = 3) = some (putCmd put failed answered err) ∧ (∀ q ∈ m.peers, q.what ≠ .cmd 3) ∧ Exists (.arr 0 256) 8 := by
  refine ⟨⟨_, by decide, by decide, rfl, rfl, rfl, by decide⟩, ⟨_, by decide, by decide, by decide, rfl, rfl⟩, ⟨rfl, by decide⟩, ⟨by decide, by decide⟩,
    ⟨_, _, _, rfl, by decide +kernel, by decide +kernel, rfl, rfl, rfl, rfl⟩,
    ⟨by decide +kernel, by decide +kernel, exists_arr _ _ _, exists_arr _ _ _⟩,
    ⟨_, _, _, _, rfl, by decide +kernel, by decide +kernel, by decide +kernel, by decide +kernel, by decide +kernel, rfl, rfl, rfl, rfl⟩,
    ⟨_, _, by decide +kernel, rfl, by decide +kernel, by decide +kernel, by decide +kernel, by decide +kernel, by decide +kernel, rfl⟩,
    ⟨_, rfl⟩, ?_⟩
  intro put failed answered err
  exact ⟨rfl, (fun _ h => nomatch h), exists_arr _ _ _⟩

/-- Waves 1 and 2 form gang 0; a slice of copy 0 that wave 2 has supplied. -/
def pairDev (cs : List Cmd) : Dev :=
  { engDev cpyDesc cs [(1, own)] with
    wave := { (engDev cpyDesc cs [(1, own)]).wave with gang := some 0 }, clusters := [(0, { gangs := [(0, { launch := 1, members := [1, 2] })] })] }
def fellowCmd : Cmd := { id := 3, wave := 2, ctx := 0, body := .copy 0 (some 0) 0 [] [] 0 [] false 0 8 0 }
/-- A started slice for the receivers 0, which has joined, and 1, which no member is. -/
def cast : Cmd := { id := 3, wave := 1, ctx := 0, body := .copy 0 (some 0) 0 [⟨.arr 0 64, 8⟩] [] 1024 [(0, some 0), (1, none)] true 5 8 1 }
def castDev : Dev := ({ engDev [] [cast] [] with waves := [{ dev0.wave with uid := 2, scratch := 64 }] } : Dev).stash

theorem plain_arr (ds : List Nat) (cs : List Cmd) (l : Cells 64) (o n : Nat) : PlainFor (engDev ds cs l).stash 0 0 (.arr 0 o) n :=
  fun _ _ => ⟨rfl, fun _ h => nomatch h⟩
theorem plain_dev (ds : List Nat) (cs : List Cmd) (l : Cells 64) (p n : Nat) : PlainFor (engDev ds cs l).stash 0 0 (.dev p) n :=
  have h : (engDev ds cs l).stash.cores = [(0, { memDev.core 0 with arr := { bytes := cellsAt 0 ds } })] := rfl
  have e : (memDev.core 0).l1 = [] := mem_lines 0
  fun _ _ => ⟨rfl, fun _ _ => ⟨by simp [Dev.pendingIn, h, e], rfl⟩⟩

theorem meets_CopiesOfAGang :
    (∀ cs ∈ [[], [fellowCmd]], let m := pairDev cs
     ∃ d ss ds, m.readDesc (m.s 1).toNat 32 32 [.own] = .ok (d, m) ∧ sliceOk d = true ∧ m.suppliedSlice (fld (dwordOf d 2) 63 60) = false ∧
       m.checkRange (dwordOf d 0) (fld (dwordOf d 3) 31 0) { windows := engineWindows, rd := true } = .ok (ss, m) ∧
       checked m (decide (fld (dwordOf d 2) 59 56 = 0)) (dwordOf d 1)
         (if (dwordOf d 2).testBit 7 then alignUp (fld (dwordOf d 3) 31 0) 8 + 8 else fld (dwordOf d 3) 31 0)
         { windows := engineWindows, wr := true } ds m ∧ fld (dwordOf d 2) 63 60 = 0 ∧
       m.wave.gang = some 0 ∧ m.copyParties = [] ∧ ∃ x, gangAt m 0 0 = some x ∧ x.members = [1, 2]) ∧
    (2 ∈ [1, 2] ∧ 2 ≠ (pairDev []).wave.uid ∧ ∀ x ∈ (pairDev []).cmds, x.wave = 2 → ¬ sliceFor 0 0 0 x) ∧
    (∀ u ∈ [1, 2], u ≠ (pairDev [fellowCmd]).wave.uid → ∃ x ∈ (pairDev [fellowCmd]).cmds, x.wave = u ∧ sliceFor 0 0 0 x) ∧
    (let m := (engDev [] [copyCmd] []).stash
     sliceOne copyCmd 0 none 0 (.arr 0 64) [⟨.arr 0 256, 16⟩] 0 [] true 5 8 1 ∧ m.cmds.filter (fun x => (m.sliceData 1 x).isSome) = [copyCmd] ∧
       m.copyOf copyCmd.id = some 1 ∧ PlainFor m 0 copyCmd.ctx (.arr 0 64) 8 ∧ MayTouch m copyCmd.ctx (.arr 0 256) 16) ∧
    (sliceOne cast 0 (some 0) 0 (.arr 0 64) [] 1024 [(0, some 0), (1, none)] true 5 8 1 ∧
      castDev.cmds.filter (fun x => (castDev.sliceData 1 x).isSome) = [cast] ∧ castDev.copyOf cast.id = some 1 ∧
      PlainFor castDev 0 cast.ctx (.arr 0 64) 8 ∧ castDev.reachable cast.ctx (13 * 0 + 0) (0 + 1024) 8 = true ∧
      castDev.reachable cast.ctx (13 * 0 + 0) (0 + 1024 + alignUp 8 8) 8 = true) := by
  refine ⟨fun cs hc => ?_, ⟨by decide, by decide, fun _ h => nomatch h⟩, fun u hu h1 => ?_,
    ⟨rfl, by decide +kernel, by decide +kernel, plain_arr _ _ _ _ _, fun _ _ => rfl⟩,
    ⟨rfl, by decide +kernel, by decide +kernel, fun _ _ => ⟨rfl, fun _ h => nomatch h⟩, by decide +kernel, by decide +kernel⟩⟩
  · simp only [List.mem_cons, List.not_mem_nil, or_false] at hc
    rcases hc with rfl | rfl
    · exact ⟨_, _, _, rfl, by decide +kernel, by decide +kernel, rfl, rfl, by decide +kernel, rfl, rfl, _, rfl, rfl⟩
    · exact ⟨_, _, _, rfl, by decide +kernel, by decide +kernel, rfl, rfl, by decide +kernel, rfl, rfl, _, rfl, rfl⟩
  · have : u = 2 := by
      simp only [List.mem_cons, List.not_mem_nil, or_false] at hu
      exact hu.resolve_left h1
    exact ⟨fellowCmd, by decide, this.symm, _, _, _, _, _, _, _, rfl⟩

theorem meets_GathersLeaveRecords :
    (∀ rec ∈ [[], [⟨.dev 0x10200, 8⟩]], ∀ sc : Bool,
     let m := (engDev [] [gathCmd sc rec] []).stash
     m.cmds.filter (fun x => match x.body with | .gather _ q _ _ _ _ _ _ _ _ _ _ _ _ => decide (q = 0) | _ => false) = [gathCmd sc rec] ∧
       (∀ i, i < 1 → MayTouch m 0 (.arr 0 (0 + 512 + i * 4)) 4) ∧ PlainFor m 0 0 (.dev 0x10000) (4 * 1) ∧ PlainFor m 0 0 (.dev 0x10100) (1 * 4)) ∧
    (0x10100 % 4 = 0 ∧ 0x10100 + 1 * 4 ≤ devBytes ∧ 0x10200 + 8 ≤ devBytes ∧ 0x10100 + 1 * 4 ≤ 0x10200) ∧
    (∀ i j, i < j → j < 1 → i ≠ 0) ∧
    (let m : Dev := { descDev [0, 0, 256, 4 + 2 ^ 32, 512 + 4 * 2 ^ 32, 0x200, 7] with wave := { memDev.wave with scratch := 64 } }
     ∃ d rec tab, m.readDesc (m.s 0).toNat 64 64 engineWindows = .ok (d, m) ∧ gatherOk false d = true ∧ gatherOk true d = true ∧
       fld (dwordOf d 1) 31 0 = 0 ∧ dwordOf d 5 ≠ 0 ∧ fld (dwordOf d 3) 63 32 = 1 ∧
       checked m true (dwordOf d 5) 8 { windows := [.global], wr := true } rec m ∧ rec = [{ loc := .dev 0x10200, len := 8 }] ∧
       checked m true (dwordOf d 2) 4 { windows := [.global], rd := true, wr := true } tab m) := by
  refine ⟨fun rec hr sc => ?_, by decide, (fun i j h1 h2 => by omega),
    _, _, _, rfl, by decide +kernel, by decide +kernel, by decide +kernel, by decide +kernel, by decide +kernel, rfl, by decide +kernel, rfl⟩
  simp only [List.mem_cons, List.not_mem_nil, or_false] at hr
  rcases hr with rfl | rfl <;> cases sc <;> exact ⟨by decide +kernel, fun _ _ _ _ => rfl, plain_dev _ _ _ _ _, plain_dev _ _ _ _ _⟩

/-- A request that an open command still waits for. -/
theorem meets_PeerTransferWaits :
    let m := Dev.stash { engDev [] [putCmd true false false false] [] with
      peers := [{ id := 1, wave := 1, err := 0, addr := 0, size := 8, what := .cmd 3 }] }
    m.cmds.find? (fun x => x.id = 3) = some (putCmd true false false false) ∧ ∃ q ∈ m.peers, q.what = .cmd 3 := ⟨rfl, { id := 1, wave := 1, err := 0, addr := 0, size := 8, what := .cmd 3 }, by decide, rfl⟩

/-- Messages: a launch whose die set holds die 0; a message of the wave on its way to cluster 0. -/
def msgOf (tag : Nat) : Message := { wave := 1, fid := 1, ctx := 0, die := 0, cluster := 0, tag := BitVec.ofNat 16 tag, bytes := [(9, false)] }
def rcv0 (tag : Nat) : Receive := { wave := 1, ctx := 0, source := none, tag := BitVec.ofNat 16 tag, mask := 0xFFFF, core := 0, off := 0, stamp := 7 }
def msgDev (c : Cluster) (f : Frag → Frag) : Dev :=
  { engDev [] [] [(1, own), (2, 2 ^ 32), (3, 0x80000000), (4, 5 * 2 ^ 48 + 0xFFFF * 2 ^ 32)] with
    clusters := [(0, c)], frag := f dev0.frag, launches := [{ num := 1, st := .running, dieset := 1 }] }
def arriving (f : Cluster → Cluster) : Dev :=
  (msgDev (f { arriving := [msgOf 5] }) fun f => { f with wait := .event, phase := 24 }).stash

theorem meets_MessagesAreDeliveredInOrder :
    (let m := msgDev {} id
     m.frag.phase ≠ 25 ∧ m.frag.phase ≠ 26 ∧ fld (m.s 2).toNat 31 0 = 0 ∧ fld (m.s 2).toNat 40 32 = 1 ∧ windowOf (m.s 1).toNat = some .own ∧
       windowOff (m.s 1).toNat + 1 ≤ 1024 * m.wave.scratch ∧ m.launch.dieset.getLsbD (fld (m.s 2).toNat 47 45) = true ∧
       m.cap.clcap (16 * fld (m.s 2).toNat 47 45 + fld (m.s 2).toNat 44 41) ≠ 0) ∧
    (withF fun f => { f with phase := 25 }).frag.phase = 25 ∧
    (let m := withF fun f => { f with phase := 26 }; m.frag.phase = 26 ∧ ScalarTraps m .msgOverflow) ∧
    (let m := arriving fun c => { c with receives := [rcv0 4, rcv0 5] }
     (m.cluster 0).receives = [rcv0 4] ++ rcv0 5 :: [] ∧ (rcv0 5).suspended = false ∧ Takes (rcv0 5) (msgOf 5) ∧
       m.bufferReachable (rcv0 5).ctx (rcv0 5).core (rcv0 5).off = true ∧ ¬ Takes (rcv0 4) (msgOf 5)) ∧
    (let m := arriving fun c => { c with overflow := List.replicate 64 (msgOf 1) }
     (m.cluster 0).receives = [] ∧ 64 ≤ (m.cluster 0).overflow.length) ∧
    (let m := arriving id; (m.cluster 0).receives = [] ∧ (m.cluster 0).overflow.length < 64) ∧
    (let m := msgDev { overflow := [msgOf 4, msgOf 5] } id
     let r := receiveOf m (m.s 3).toNat (m.s 4).toNat
     fld (m.s 4).toNat 31 0 = 0 ∧ (m.s 3).toNat.testBit 31 = true ∧ fld (m.s 3).toNat 30 24 = 0 ∧ fld (m.s 3).toNat 23 0 = 0 ∧
       m.bufferReachable r.ctx r.core r.off = true ∧ r.off + 264 ≤ 2 ^ 20 ∧ Takes r (msgOf 5) ∧ ¬ Takes r (msgOf 4)) ∧
    (let m := msgDev {} id; (m.cluster m.wave.clusterNo).overflow = [] ∧ (m.cluster m.wave.clusterNo).receives.length < 64) ∧
    (let m := msgDev { receives := List.replicate 64 (rcv0 1) } id
     (m.cluster m.wave.clusterNo).overflow = [] ∧ 64 ≤ (m.cluster m.wave.clusterNo).receives.length) := by
  refine ⟨⟨by decide, by decide, by decide, by decide, by decide, by decide, by decide, by decide⟩, rfl, ⟨rfl, ⟨rfl, rfl⟩, rfl, rfl⟩,
    ⟨rfl, rfl, ⟨rfl, .inl rfl, fun _ _ _ => rfl⟩, by decide +kernel, fun h => absurd (h.2.2 0 (by decide) (by decide)) (by decide)⟩,
    ⟨rfl, by decide⟩, ⟨rfl, by decide⟩,
    ⟨by decide, by decide, by decide, by decide, by decide +kernel, by decide +kernel, ⟨by decide, .inl (by decide), by decide⟩,
     fun h => absurd (h.2.2 0 (by decide) (by decide)) (by decide)⟩, ⟨rfl, by decide⟩, rfl, by decide⟩

/-! ## The matrix engine -/

/-- A control wave of cluster 0, with a wave on core 0 that has 64 KiB; s2, s3 describe a block there (R320). -/
def mxDev (c : Cluster) (l : Cells 64) : Dev :=
  { ctl0 with wave := { ctl0.wave with sregs := [(1, 1), (2, 0xFD00000000000000), (3, 512)] ++ l },
              waves := [{ dev0.wave with uid := 2, scratch := 64 }], clusters := [(0, c)] }
def entryOf (op : MOp) : MEntry := { wave := 1, fid := 1, ctx := 0, tang := 0, tstride := 0, fmt := {}, op }
def mxQueued (op : MOp) : Dev := (mxDev { mqueue := [entryOf op] } []).stash
def spad0 : MOperand := .spad 0xFD00000000000000 0 512 0
def mxSuper : Dev := { mxDev {} [] with wave := { (mxDev {} []).wave with super := true } }

/-- Context 0 with a page table: VA 0 to 2 MiB at PA 0x200000, with RD, WR and USER (R226, R359). -/
def tableCells (e : Nat) : Cells 8 :=
  cellsAt 0 [2 ^ 63 + 2 ^ 62 + 0x1000, 1] ++ cellsAt 0x1000 [0x2001] ++ cellsAt 0x2000 [0x3001] ++ cellsAt 0x3000 [e]
def withTable (m : Dev) : Dev := { m with mem := { bytes := tableCells 0x20001F } }

theorem ok_eq {α : Type} [DecidableEq α] {ε : Type} {e : Except ε α} {a : α}
    (h : (match e with | .ok x => decide (x = a) | .error _ => false) = true) : e = .ok a := by
  cases e with
  | error _ => cases h
  | ok x => exact congrArg _ (of_decide_eq_true h)

/-- An entry of the tracker that writes a future word at VA 64 when it drains. -/
theorem meets_FutureWords : ∀ killed,
    let m := (withTable (trackDev [] 64 killed)).stash
    let freed := m.setCore 0 { m.core 0 with tracker := (m.core 0).tracker.eraseIdx 0 }
    ∃ t, (m.core 0).tracker[0]? = some t ∧ m.trackerDone t = true ∧ t.futva ≠ 0 ∧ t.killed = killed ∧ Exists (.dev 0x200040) 8 ∧
      walkVerdict ((freed.release 0 3).homeWalk t.ctx t.futva) t.futva false true false = .ok (.dev 0x200040) := by
  intro killed
  cases killed <;> exact ⟨_, rfl, by decide +kernel, by decide, rfl, fun pa h => by cases h; decide, ok_eq (by decide +kernel)⟩

theorem ok_and {α ε : Type} {P : α → Prop} [DecidablePred P] {e : Except ε α}
    (h : (match e with | .ok x => decide (P x) | .error _ => false) = true) : ∃ a, e = .ok a ∧ P a := by
  cases e with
  | error _ => cases h
  | ok x => exact ⟨x, rfl, of_decide_eq_true h⟩

theorem meets_MatrixInstructionsQueueAndRun :
    (let m := mxDev {} []
     let x := m.frag.fmt
     ∃ m₃, (m.s 1).toNat = 1 ∧ (∀ i, i < 1 → i < accCount m.wave.tang ∧ m.wave.mxcfg.getLsbD i = true) ∧ m.wave.core = 12 ∧
       (∀ p, p < 2 → p < plateCount m.wave.tang ∧ m.wave.mxcfg.getLsbD (8 + p) = true) ∧ blockPlates x.a = 1 ∧ blockPlates x.b = 1 ∧
       fmtPair x.a x.b = true ∧ m.checkSpad (.plate 0) 0 false (List.range (m.wave.tang + 1)) = .ok m ∧
       m.checkSpad (.plate 1) 0 false (List.range (m.wave.tang + 1)) = .ok m ∧ m.claimAccs (accUnits m.wave.tang 0) = .ok m₃ ∧
       (m₃.cluster m₃.wave.clusterNo).mqueue.length < 8) ∧
    (let m := mxDev {} []
     let x := m.frag.fmt
     ∃ m₂, spadDescOk (m.s 3).toNat (rowBytesB x.b) = true ∧ spadDescOk (m.s 3).toNat (rowBytesA x.a) = true ∧
       operandAt m 1 2 = spad0 ∧ spadOf (m.s 2).toNat (m.s 3).toNat = spad0 ∧
       m.checkSpad spad0 (spanBytes spad0 1 16 (rowBytesB x.b)) false (List.range (m.wave.tang + 1)) = .ok m ∧ blockK x.b = 16 ∧
       m.checkSpad spad0 (spanBytes spad0 1 x.rowCount (rowBytesB x.d)) true (List.range (m.wave.tang + 1)) = .ok m ∧
       m.claimAccs (accUnits m.wave.tang 0) = .ok m₂ ∧ (m₂.cluster m₂.wave.clusterNo).mqueue.length < 8) ∧
    (mxSuper.wave.core = 12 ∧ mxSuper.wave.super = true ∧ (mxSuper.cluster mxSuper.wave.clusterNo).mqueue.length < 8 ∧
      (mxSuper.s 1).toNat < 2 ^ 24 ∧ mxSuper.busyMatrix mxSuper.wave = false) ∧
    (let m := withTable mxSuper
     ∃ ss m₁, m.checkRange (m.accSlot m.wave.ctx m.wave.clusterNo 0) (2 ^ 19) { windows := [.global], rd := true } = .ok (ss, m₁) ∧
       (m₁.cluster m₁.wave.clusterNo).mqueue.length < 8) ∧
    (let m := mxDev { mqueue := [entryOf .mcfg] } []; m.wave.core = 12 ∧ m.busyMatrix m.wave = true) ∧
    (dev0.wave.core ≠ 12 ∧ ScalarTraps dev0 .controlOnly) ∧
    (let m := mxQueued (.mma 0 (.plate 0) (.plate 1) 2)
     let e := entryOf (.mma 0 (.plate 0) (.plate 1) 2)
     (m.cluster 0).mqueue = [e] ∧ e.done + 1 < 2 ∧ ∃ m₁, m.mmaBlock 0 e 0 (.plate 0) (.plate 1) e.done = .ok m₁) ∧
    (let m := (mxDev { accs := { owned := true } :: List.replicate 7 {} } []).stash
     let e := entryOf (.mma 0 spad0 spad0 1)
     e.tang = 0 ∧ 0xFD00000000000000 < 2 ^ 64 ∧ (m.acc 0 0).owned = true ∧ e.fmt.a ≠ 12 ∧ e.fmt.b ≠ 12 ∧
       ∃ m₁, m.mmaBlock 0 e 0 spad0 spad0 0 = .ok m₁) ∧
    (∀ op ∈ [MOp.mzero 0, .mcfg, .msave 0, .mdrain 0 spad0 true, .mrest 0, .mld 0 true spad0],
      ((mxQueued op).cluster 0).mqueue = [entryOf op]) ∧
    (∃ m₁, (mxQueued (.mld 0 true spad0)).mldRun 0 (entryOf (.mld 0 true spad0)) 0 true spad0 = .ok m₁) ∧
    (let m := withTable (mxDev { mqueue := [entryOf (.msave 0)], accs := { owned := true } :: List.replicate 7 {} } []).stash
     (m.acc 0 0).owned = true ∧ m.engineSpans (m.acc 0 0).tag (m.accSlot (m.acc 0 0).tag 0 0) (2 ^ 19) false true =
       .ok ((List.range 8).map fun (i : Nat) => { loc := (Loc.dev 0x200000).add (65536 * i), len := 65536 }) ∧
       Exists (.dev 0x200000) (2 ^ 19) ∧ MayTouch m (m.acc 0 0).tag (.dev 0x200000) (2 ^ 19)) ∧
    (let m := { mxDev { mqueue := [entryOf (.mdrain 0 spad0 true)] } [] with frag := waiting ctl0.frag 30 }.stash
     ∃ m₁, m.takeTurn (entryOf (.mdrain 0 spad0 true)) = some m₁) := by
  refine ⟨⟨_, by decide, by decide, by decide, by decide, by decide, by decide, by decide, rfl, rfl, rfl, by decide +kernel⟩,
    ⟨_, by decide +kernel, by decide +kernel, by decide +kernel, by decide +kernel, rfl, by decide, ok_eq (by decide +kernel), rfl, by decide +kernel⟩,
    ⟨by decide, rfl, by decide, by decide, by decide⟩, ?_,
    ⟨by decide, by decide +kernel⟩, ⟨by decide, traps0 _ (by decide)⟩, ⟨by decide +kernel, by decide, ⟨_, rfl⟩⟩,
    ⟨rfl, by decide +kernel, by decide +kernel, by decide, by decide, _, rfl⟩, by decide +kernel, ok_of (by decide +kernel),
    ⟨by decide +kernel, ok_eq (by decide +kernel), (fun pa h => by cases h; decide +kernel), fun _ _ => rfl⟩, Option.isSome_iff_exists.mp (by decide +kernel)⟩
  obtain ⟨x, h₁, h₂⟩ := ok_and (P := fun (x : List Span × Dev) => (x.2.cluster x.2.wave.clusterNo).mqueue.length < 8)
    (e := (withTable mxSuper).checkRange ((withTable mxSuper).accSlot 0 0 0) (2 ^ 19) { windows := [.global], rd := true }) (by decide +kernel)
  exact ⟨x.1, x.2, h₁, h₂⟩

/-- The wave waits for its turn with an entry (R507, R510), in a context with a page table. -/
def turnDev (e : MEntry) (c : Cluster) (extra : Cells 8) (cap : Nat := 0) : Dev :=
  let m := withTable { mxDev { c with mqueue := [e] } [] with frag := waiting ctl0.frag 30 }
  ({ m with mem := { bytes := m.mem.bytes ++ extra }, wave := { m.wave with olcap := BitVec.ofNat 64 cap } } : Dev).stash
def turned (e : MEntry) (c : Cluster) (extra : Cells 8) (cap : Nat := 0) : Dev := ((turnDev e c extra cap).takeTurn e).getD {}
theorem some_getD {α : Type} {o : Option α} {d : α} (h : o.isSome = true) : o = some (o.getD d) := by
  cases o with
  | none => cases h
  | some x => rfl
theorem getD_mem {α : Type} (l : List α) (d : α) (i : Nat) : l.getD i d ∈ l ∨ l.getD i d = d := by
  rw [List.getD_eq_getElem?_getD]
  cases h : l[i]? with
  | none => exact .inr rfl
  | some x => exact .inl (List.mem_of_getElem? h)
theorem own_accs {m : Dev} (h : ∀ a ∈ (m.cluster 0).accs, a.owned = true → a.tag = 0) (us : List Nat) : OwnAccs m 0 0 us := fun u _ ho => by
  rcases getD_mem (m.cluster 0).accs {} u with hu | hu
  · exact h _ hu ho
  · exact absurd (hu ▸ ho : ({} : Acc).owned = true) (by decide)
theorem own_plates {m : Dev} (h : ∀ a ∈ (m.cluster 0).plates, a.owned = true → a.tag = 0) : OwnPlates m 0 0 := fun u ho => by
  rcases getD_mem (m.cluster 0).plates {} u with hu | hu
  · exact h _ hu ho
  · exact absurd (hu ▸ ho : ({} : Plate).owned = true) (by decide)

/-- A drain of accumulator 0 to the block of `spad0` with a format; a unit of context 5; one whose first S is 24. -/
def drainOf (x : FmtReg) : MEntry := { entryOf (.mdrain 0 spad0 true) with fmt := x }
def foreign : Cluster := { accs := { owned := true, tag := 5 } :: List.replicate 7 {} }
def heavy : Cluster := { accs := { owned := true, elems := [(0, 0x438000)] } :: List.replicate 7 {} }
def narrowX (ovf : BitVec 2) : FmtReg := { dfmt := 6, ovfmode := ovf, oscale := 0x7F000000, rows := 0 }

theorem turn_of (e : MEntry) (c : Cluster) (x : Cells 8) (h : ((turnDev e c x).takeTurn e).isSome = true) :
    (turnDev e c x).takeTurn e = some (turned e c x) := some_getD h

theorem meets_MatrixEngineRuns :
    (let m := mxDev foreign []
     ScalarTraps m .accForeign ∧ (accUnits m.wave.tang 0).find? (fun u =>
        (m.acc m.wave.clusterNo u).owned && decide ((m.acc m.wave.clusterNo u).tag ≠ m.wave.ctx)) = some 0) ∧
    (let e := entryOf (.mma 0 spad0 spad0 2)
     let m := (mxDev { mqueue := [e] } []).stash
     (m.cluster 0).mqueue = [e] ∧ e.done < 2 ∧ (∃ m₁, m.mmaBlock 0 e 0 spad0 spad0 e.done = .ok m₁ ∧ (m₁.cluster 0).mqueue = [e]) ∧
       e.tang ≤ 3 ∧ 0 < accCount e.tang ∧ m.wave.uid = 0 ∧ e.wave ≠ 0 ∧ fmtPair e.fmt.a e.fmt.b = true ∧
       OwnAccs m 0 e.ctx (accUnits e.tang 0) ∧ OwnPlates m 0 e.ctx ∧
       0 + (blockK e.fmt.b * rowBytesB e.fmt.b + 8191) / 8192 ≤ plateCount e.tang ∧
       0 + (e.fmt.rowCount * rowBytesA e.fmt.a + 8191) / 8192 ≤ plateCount e.tang) ∧
    (let m := mxQueued (.mzero 0); (m.cluster 0).mqueue = [entryOf (.mzero 0)] ∧ OwnAccs m 0 0 (accUnits 0 0)) ∧
    (∀ x ∈ [{}, { oscale := 0x7FC00000 }, narrowX 1, narrowX 2], let e := drainOf x
     (turnDev e {} []).takeTurn e = some (turned e {} []) ∧ e.tang ≤ 3 ∧ 0 < accCount e.tang ∧ OwnAccs (turned e {} []) 0 e.ctx (accUnits e.tang 0) ∧
       ScalarTraps (turned e {} []) .formatInvalid ∧ ScalarTraps (turned e {} []) .mxOverflow ∧ ScalarTraps (turned e {} []) .outlierFull ∧
       (turned e {} []).wave.olcap.toNat % 2 ^ 32 = 0) ∧
    ((f32.decode 0x7FC00000).isNan = true ∧ (∃ n k e, f32.decode (narrowX 1).oscale.toNat = .fin n k e)) := by
  refine ⟨⟨⟨⟨rfl, rfl⟩, rfl, rfl⟩, by decide +kernel⟩,
    ⟨rfl, by decide, ?_, by decide, by decide, rfl, by decide, by decide, own_accs (by decide +kernel) _, own_plates (by decide +kernel), by decide, by decide⟩,
    ⟨rfl, own_accs (by decide +kernel) _⟩, fun x hx => ?_, by decide +kernel, _, _, _, rfl⟩
  · exact ok_and (P := fun m₁ : Dev => (m₁.cluster 0).mqueue = [entryOf (.mma 0 spad0 spad0 2)]) (by decide +kernel)
  · simp only [List.mem_cons, List.not_mem_nil, or_false] at hx
    rcases hx with rfl | rfl | rfl | rfl <;>
      exact ⟨turn_of _ _ _ (by decide +kernel), by decide, by decide, own_accs (by decide +kernel) _, ⟨⟨rfl, rfl⟩, rfl, rfl⟩, ⟨⟨rfl, rfl⟩, rfl, rfl⟩,
        ⟨⟨rfl, rfl⟩, rfl, rfl⟩, rfl⟩
theorem cells_absent (c : Cells 8) (k : Nat) (h : ∀ e ∈ c, e.1 ≠ k) : Cells.get c k = 0 := by
  induction c with
  | nil => rfl
  | cons x t ih =>
    rw [Cells.get, if_neg fun e => h x (List.mem_cons_self ..) e.symm]
    exact ih fun e he => h e (List.mem_cons_of_mem _ he)

/-- No line of a core or of a die lies over memory. -/
def NoLines (m : Dev) : Prop := (∀ c ∈ m.cores, c.2.l1 = []) ∧ m.dies = List.replicate 8 {}

theorem table_zero (m : Dev) (hm : m.mem.bytes = tableCells 0x20001F) (hc : NoLines m) (a : Nat) (h : 0x200000 ≤ a)
    (hd : a < devBytes) : m.byteAt (.dev a) = 0 := by
  have hl : m.dirty (a / 128) = [] := by
    simp only [Dev.dirty, Dev.dirtyIn, List.append_eq_nil_iff, List.flatMap_eq_nil_iff]
    refine ⟨fun c h' => by rw [hc.1 c h']; rfl, ?_⟩
    rw [hc.2]
    exact fun x hx => (by decide : ∀ x ∈ (List.replicate 8 ({} : Die)).zipIdx, x.1.atomics = []) x hx ▸ rfl
  have hg : ∀ c ∈ tableCells 0x20001F, c.1 < 0x200000 := by decide +kernel
  simp only [Dev.byteAt, hl, layerByte, hd, if_true, hm]
  exact cells_absent _ _ fun e he hh => by have := hg e he; omega

theorem engine_zero (m : Dev) (hc : NoLines m) (a : Nat) (h : m.byteAt (.dev a) = 0) : (m.engineByte 0 (.dev a)).1 = 0 := by
  have hp : m.pendingIn 0 none (a / 128) false = [] := by
    simp only [Dev.pendingIn, List.flatMap_eq_nil_iff]
    exact fun c h' => by rw [hc.1 c h']; simp
  have hb : m.buffered (0 / 16) (a / 128) = [] := by simp [Dev.buffered, Dev.die, hc.2]
  simp only [Dev.engineByte, hp, hb, Dev.under, List.append_nil, layerByte, Nat.div_add_mod, h]

theorem ofBytes_zero : ∀ l : List Byte, (∀ b ∈ l, b = 0) → ofBytes l = 0
  | [], _ => rfl
  | b :: t, h => by rw [ofBytes, ofBytes_zero t fun x hx => h x (List.mem_cons_of_mem _ hx), h b (List.mem_cons_self ..)]; rfl

def slotSpans : List Span := (List.range 8).map fun (i : Nat) => { loc := (Loc.dev 0x200000).add (65536 * i), len := 65536 }
def restOf : MEntry := entryOf (.mrest 0)
/-- What the check of the save slot finds. -/
def slotCheck (x : Cells 8) : Except Dev (List Span × Dev) :=
  ((turned restOf {} x).popMatrix 0).checkRange (fld ((turned restOf {} x).ctxDword 0 0x28) 48 0 + 0 * 2 ^ 23 + 0 * 2 ^ 19) (2 ^ 19) { windows := [.global], rd := true }

theorem record_zero : RecordOk 0 := by
  refine ⟨by decide, by decide, by decide, ⟨_, _, _, rfl⟩, ?_, ?_⟩ <;> exact fun _ h => nomatch h

theorem meets_MatrixRestores :
    ((turnDev restOf {} []).takeTurn restOf = some (turned restOf {} []) ∧ OwnAccs (turned restOf {} []) 0 0 [0] ∧
      ∃ ss m₂, slotCheck [] = .ok (ss, m₂) ∧ ∀ k, k < 16384 → RecordOk (ofBytes ((((m₂.engineBytes 0 0 ss).map fun b => b.1).drop (32 * k)).take 32))) ∧
    (OwnAccs (turned restOf {} [(0x200003, 0xC0)]) 0 0 [0] ∧
      ∃ ss m₂, slotCheck [(0x200003, 0xC0)] = .ok (ss, m₂) ∧ ScalarTraps m₂ .reservedField ∧
        ¬ RecordOk (ofBytes ((((m₂.engineBytes 0 0 ss).map fun b => b.1).drop (32 * 0)).take 32))) ∧
    (let m := turned restOf foreign []
     (turnDev restOf foreign []).takeTurn restOf = some m ∧ (m.acc 0 0).owned = true ∧ (m.acc 0 0).tag ≠ 0 ∧ ScalarTraps m .accForeign) := by
  refine ⟨⟨turn_of _ _ _ (by decide +kernel), own_accs (by decide +kernel) _, ?_⟩, ⟨own_accs (by decide +kernel) _, ?_⟩,
    turn_of _ _ _ (by decide +kernel), by decide +kernel, by decide +kernel, ⟨rfl, rfl⟩, rfl, rfl⟩
  · obtain ⟨x, h, hs, hm, hc⟩ := ok_and (P := fun x : List Span × Dev => x.1 = slotSpans ∧ x.2.mem.bytes = tableCells 0x20001F ∧
      (∀ c ∈ x.2.cores, c.2.l1 = []) ∧ x.2.dies = List.replicate 8 {}) (e := slotCheck []) (by decide +kernel)
    refine ⟨x.1, x.2, h, fun k _ => ?_⟩
    rw [ofBytes_zero _ fun b hb => ?_]
    · exact record_zero
    · have hb := List.mem_of_mem_drop (List.mem_of_mem_take hb)
      obtain ⟨y, hy, rfl⟩ := List.mem_map.mp hb
      obtain ⟨s, hx, hy⟩ := List.mem_flatMap.mp hy
      obtain ⟨i, hi, rfl⟩ := List.mem_map.mp (hs ▸ hx)
      obtain ⟨j, hj, rfl⟩ := List.mem_map.mp hy
      have hi := List.mem_range.mp hi
      have hj : j < 65536 := List.mem_range.mp hj
      exact engine_zero _ hc _ (table_zero _ hm hc _ (by omega)
        (Nat.lt_trans (by omega : 2097152 + 65536 * i + j < 2 ^ 22) (by decide +kernel)))
  · obtain ⟨x, h, h₁, h₂, h₃⟩ := ok_and (P := fun x : List Span × Dev => (x.2.delivered .reservedField = true ∧ x.2.wave.handler = none) ∧
      (x.2.frag.lrem = 0 ∧ x.2.frag.reissue = none) ∧ ofBytes ((((x.2.engineBytes 0 0 x.1).map fun b => b.1).drop (32 * 0)).take 32) / 2 ^ 30 % 4 ≠ 0)
      (e := slotCheck [(0x200003, 0xC0)]) (by decide +kernel)
    exact ⟨x.1, x.2, h, ⟨h₁, h₂⟩, fun hr => h₃ hr.2.2.1⟩

/-- An accumulator without queued heads, whose one element is the record of `heavy`, is as it was after a drain. -/
theorem heavy_kept (b : Machine.Num) (l : List Nat) : ∀ (a : Acc), (∀ n, Cells.get a.elems n = if n = 0 then 0x438000 else 0) →
    ∀ n, Cells.get (l.foldl (fun (a : Acc) r => (List.range 128).foldl (fun (a : Acc) c => a.setElem r c ((a.elem r c).drain b 8)) a) a).elems n =
      if n = 0 then 0x438000 else 0 := by
  have z : BitVec.ofNat 256 (PairElem.drain b 8 (pairOf (0x438000 : BitVec 256).toNat)).record = 0x438000 := by
    have hs : (pairOf (0x438000 : BitVec 256).toNat).select = none := by decide +kernel
    simp only [PairElem.drain, hs]
    decide +kernel
  have z0 : BitVec.ofNat 256 (PairElem.drain b 8 (pairOf (0 : BitVec 256).toNat)).record = 0 := by
    have hs : (pairOf (0 : BitVec 256).toNat).select = none := by decide +kernel
    simp only [PairElem.drain, hs]
    decide +kernel
  have step : ∀ (r : Nat) (cs : List Nat) (a : Acc), (∀ n, Cells.get a.elems n = if n = 0 then 0x438000 else 0) →
      ∀ n, Cells.get (cs.foldl (fun (a : Acc) c => a.setElem r c ((a.elem r c).drain b 8)) a).elems n = if n = 0 then 0x438000 else 0 := by
    intro r cs
    induction cs with
    | nil => exact fun a h => h
    | cons c t ih =>
      refine fun a h => ih _ fun n => ?_
      simp only [Acc.setElem, Laws.cells_get_put]
      split
      · next he =>
        rw [Acc.elem, ← he, h]
        split
        · exact z
        · exact z0
      · exact h n
  induction l with
  | nil => exact fun a h => h
  | cons r t ih =>
    intro a h
    rw [List.foldl_cons]
    exact ih _ (step r (List.range 128) a h)

def drained (o : BitVec 2) (cap : Nat) : Dev := (((turned (drainOf (narrowX o)) heavy [] cap).popMatrix 0).takeAccs 0 0 [0]).emptyQueues 0 (narrowX o) [0]
theorem drained_elems : ∀ p ∈ [((1 : BitVec 2), 0), (2, 0), (1, 8)], ∀ n,
    ((drained p.1 p.2).acc 0 0).elems.get n = if n = 0 then 0x438000 else 0 := by
  intro p hp
  have key : ∀ p ∈ [((1 : BitVec 2), 0), (2, 0), (1, 8)], ∀ a,
      ((((turned (drainOf (narrowX p.1)) heavy [] p.2).popMatrix 0).takeAccs 0 0 [0]).setAcc 0 0 a).acc 0 0 = a := by
    intro p hp a
    simp only [List.mem_cons, List.not_mem_nil, or_false] at hp
    rcases hp with rfl | rfl | rfl <;> rfl
  have start : ∀ p ∈ [((1 : BitVec 2), 0), (2, 0), (1, 8)],
      ((((turned (drainOf (narrowX p.1)) heavy [] p.2).popMatrix 0).takeAccs 0 0 [0]).acc 0 0).elems = [(0, 0x438000)] := by decide +kernel
  simp only [drained, Dev.emptyQueues, List.foldl_cons, List.foldl_nil, key p hp]
  refine heavy_kept _ _ _ fun n => ?_
  rw [start p hp]
  rfl

theorem meets_DrainsOverflow :
    ∀ p ∈ [((1 : BitVec 2), 0), (2, 0), (1, 8)], let e := drainOf (narrowX p.1)
     let m₁ := turned e heavy [] p.2
     (turnDev e heavy [] p.2).takeTurn e = some m₁ ∧ OwnAccs m₁ 0 e.ctx (accUnits e.tang 0) ∧
       ∃ v, drainedBeyond e.fmt true (elementOf ((((drained p.1 p.2).acc 0 0).elems.get 0).toNat)) = some v := by
  intro p hp
  have h : ∀ p ∈ [((1 : BitVec 2), 0), (2, 0), (1, 8)], ((turnDev (drainOf (narrowX p.1)) heavy [] p.2).takeTurn (drainOf (narrowX p.1))).isSome = true ∧
      (∀ a ∈ ((turned (drainOf (narrowX p.1)) heavy [] p.2).cluster 0).accs, a.owned = true → a.tag = 0) ∧
      (drainedBeyond (narrowX p.1) true (elementOf (0x438000 : BitVec 256).toNat)).isSome = true := by decide +kernel
  refine ⟨some_getD (h p hp).1, own_accs (h p hp).2.1 _, ?_⟩
  rw [drained_elems p hp]
  exact Option.isSome_iff_exists.mp (h p hp).2.2

/-- The one entry of the drain, and a list with room for it. -/
theorem meets_DrainsAppend (entry : Nat → Machine.Num → List Byte) :
    let x := narrowX 1
    let beyond (n : Nat) : Option Machine.Num := drainedBeyond x true
      (elementOf (((drained 1 8).acc 0 (0 + n / (x.rowCount * 128) * accCount 0)).elems.get (n % (x.rowCount * 128))).toNat)
    ∃ m₅, (drained 1 8).appendLane (drained 1 8).frag.mask
      ((List.range ((0 + 1) * (x.rowCount * 128))).filterMap fun n => (beyond n).map (entry n)) = .ok m₅ := by
  intro x beyond
  have hx : x.rowCount * 128 = 4096 := by decide
  have hn : ∀ n, n < 4096 → n ≠ 0 → beyond n = none := by
    intro n h h0
    simp only [beyond, hx, Nat.div_eq_of_lt h, Nat.mod_eq_of_lt h, Nat.zero_mul, Nat.add_zero, drained_elems (1, 8) (by decide), if_neg h0]
    decide +kernel
  have h0 : ∃ v, beyond 0 = some v := by
    simp only [beyond, Nat.zero_div, Nat.zero_mod, Nat.zero_mul, Nat.add_zero, drained_elems (1, 8) (by decide), if_true]
    exact Option.isSome_iff_exists.mp (by decide +kernel)
  obtain ⟨v, hv⟩ := h0
  have hl : ((List.range ((0 + 1) * (x.rowCount * 128))).filterMap fun n => (beyond n).map (entry n)) = [entry 0 v] := by
    rw [hx, Nat.zero_add, Nat.one_mul, show 4096 = 1 + 4095 from rfl, List.range_add, List.filterMap_append]
    have : ((List.range 4095).map (1 + ·)).filterMap (fun n => (beyond n).map (entry n)) = [] := by
      rw [List.filterMap_eq_nil_iff]
      intro a ha
      obtain ⟨i, hi, rfl⟩ := List.mem_map.mp ha
      rw [hn _ (by have := List.mem_range.mp hi; omega) (by omega)]; rfl
    rw [this, List.append_nil, show List.range 1 = [0] from rfl]
    simp [hv]
  rw [hl]
  exact ok_of rfl

/-- The rows of a drain to `spad0` lie apart, in bytes that the context may touch. -/
theorem meets_DrainPlaces :
    let x : FmtReg := { rows := 0 }
    let place (j r b : Nat) : Loc := placeAt 0 (chunkAt (wrapN 64 ((0xFD00000000000000 : Nat) + (j : Int) * (0 : DWord).toInt)) 0 512 0 0 r (b / 16)) (b % 16)
    let inRange (j r b : Nat) : Prop := j ≤ 0 ∧ r < x.rowCount ∧ b < rowBytesB x.d
    (∀ j r i j' r' i', inRange j r i → inRange j' r' i' → place j r i = place j' r' i' → j = j' ∧ r = r' ∧ i = i') ∧
      ∀ j r i, inRange j r i → (turned (drainOf x) {} []).ownsArray 0 (place j r i) = true := by
  have at_ : ∀ r b, r < 32 → b < 512 →
      placeAt 0 (chunkAt (wrapN 64 ((0xFD00000000000000 : Nat) + ((0 : Nat) : Int) * (0 : DWord).toInt)) 0 512 0 0 r (b / 16)) (b % 16) = .arr 0 (512 * r + b) := by
    intro r b hr hb
    have h1 : wrapN 64 ((0xFD00000000000000 : Nat) + ((0 : Nat) : Int) * (0 : DWord).toInt) = 0xFD00000000000000 := by decide
    have h2 : chunkAt 0xFD00000000000000 0 512 0 0 r (b / 16) = 0xFD00000000000000 + (512 * r + 16 * (b / 16)) := by
      simp only [chunkAt, Nat.pow_zero, Nat.mod_one, Nat.xor_zero]; omega
    rw [h1, h2]
    simp only [placeAt, windowOff, Loc.add, Loc.arr.injEq]
    omega
  refine ⟨fun j r i j' r' i' h h' e => ?_, fun j r i h => ?_⟩
  · obtain rfl := Nat.le_zero.mp h.1
    obtain rfl := Nat.le_zero.mp h'.1
    have hr : r < 32 := h.2.1
    have hr' : r' < 32 := h'.2.1
    have hi : i < 512 := h.2.2
    have hi' : i' < 512 := h'.2.2
    have e := (at_ r i hr hi).symm.trans (e.trans (at_ r' i' hr' hi'))
    simp only [Loc.arr.injEq, true_and] at e
    omega
  · obtain rfl := Nat.le_zero.mp h.1
    exact (congrArg _ (at_ r i h.2.1 h.2.2)).trans rfl

/-! ## The package -/

def pkgWith (f : Pkg → Pkg) : State := { pkg := f {} }
def pwrWith (f : Power → Power) : State := { pwr := f {} }

theorem meets_PowerEventsAndResets :
    (pwrWith fun p => { p with state := .off }).pwr.state = .off ∧
    (State.reset.pwr.state ≠ .off ∧ State.reset.pkg.hubFailed = false ∧ (999 : Nat) < 1000 ∧ 1000 ≤ 9999 ∧ 9999 < 10000 ∧ 10000 ≤ 10000) ∧
    (pkgWith fun p => { p with hubFailed := true }).pkg.hubFailed = true ∧
    (let s := pwrWith fun p => { p with state := .d3hot }; s.pwr.state = .d3hot ∧ s.pkg.hubFailed = false) ∧
    (let s := pkgWith fun p => { p with stat := .wiping }; s.pkg.stat = .wiping ∧ s.pkg.wipeErr = false) ∧
    (let s := pkgWith fun p => { p with stat := .wiping, wipeErr := true }; s.pkg.stat = .wiping ∧ ¬ s.pkg.wipeErr = false) ∧
    (let s := pwrWith fun p => { p with thr := 8, floorWin := 99, state := .p1 }
     Powered s ∧ s.pwr.thr = 8 ∧ min 100 (s.pwr.floorWin + 1) = 100 ∧ 3700 > s.pwr.limit ∧ ¬ (100 > s.pwr.limit ∨ s.pwr.hot = true ∨ 95 ≤ 89) ∧
       ¬ (100 > s.pwr.limit ∨ s.pwr.hot = true ∨ 95 ≤ 90)) ∧
    (Powered State.reset ∧ HasSensor 7 15 ∧ HasSensor 23 1 ∧ (42 : Nat) ≤ 42) ∧
    (State.reset.pkg.stat = .running ∧ State.reset.pwr.state = .p0 ∧ State.reset.dev.stash.quiet = true) ∧
    (pwrWith fun p => { p with state := .p2 }).pwr.state = .p2 :=
  ⟨rfl, ⟨by decide, rfl, by decide, by decide, by decide, by decide⟩, rfl, ⟨rfl, rfl⟩, ⟨rfl, rfl⟩, ⟨rfl, by decide⟩,
   ⟨.inr (.inl rfl), rfl, rfl, by decide, by decide, by decide⟩, ⟨.inl rfl, .inl ⟨by decide, by decide⟩, .inr ⟨by decide, by decide, by decide⟩, by decide⟩,
   ⟨rfl, rfl, by decide +kernel⟩, rfl⟩

/-- A package with a bias request standing. -/
def biasState (v : DWord) : State := { dev := { host := { biasreq := v, biasbase := 0x100000 } } }

theorem meets_HostRegistersAndBiasFlips :
    (State.reset.pwr.state ≠ .off ∧ Powered State.reset ∧ LevelIs State.reset .none ∧ State.reset.pkg.hubFailed = false) ∧
    (let s := pwrWith fun p => { p with state := .p2 }; Powered s ∧ s.pwr.state = .p2) ∧
    State.reset.pkg.syn[24]? = some 0 ∧
    (let s := pkgWith fun p => { p with stat := .fatal }; s.pkg.stat = .fatal ∧ s.pkg.hubFailed = false) ∧
    (let s := pkgWith fun p => { p with stat := .fatal, hubFailed := true }; s.pkg.stat = .fatal ∧ s.pkg.hubFailed = true) ∧
    (pkgWith fun p => { p with stat := .salvage }).pkg.stat = .salvage ∧
    (State.reset.pkg.stat ≠ .fatal ∧ State.reset.pkg.stat ≠ .salvage) ∧
    (let s := biasState 0x8000000000000000
     s.pkg.stat = .running ∧ Powered s ∧ s.dev.host.biasreq.getLsbD 63 = true) ∧
    (let s := biasState 0
     s.pkg.stat = .running ∧ Powered s ∧ s.dev.host.biasreq.getLsbD 63 = false ∧ s.dev.host.biasbase + 2 ^ 24 ≤ Config.memoryBytes) ∧
    (let r : DWord := 0x8000000000000080
     r.getLsbD 63 = true ∧ r.getLsbD 62 = false ∧ ¬ (fld r.toNat 47 24 + (fld r.toNat 23 8 + 1) > 2 ^ 24 ∨ (1 ≤ fld r.toNat 7 4 ∧ fld r.toNat 7 4 ≤ 7))) ∧
    (let r : DWord := 0x8000000000000070
     r.getLsbD 63 = true ∧ (fld r.toNat 47 24 + (fld r.toNat 23 8 + 1) > 2 ^ 24 ∨ (1 ≤ fld r.toNat 7 4 ∧ fld r.toNat 7 4 ≤ 7))) ∧
    (∀ v ∈ [(0 : DWord), 0x8000000000000000], let s : State := { biasState v with pkg := { stat := .wiping } }
     s.pkg.stat ≠ .running ∧ Powered s ∧ s.dev.host.biasreq.getLsbD 63 = decide (v ≠ 0)) ∧
    ((0x58 : BitVec 7) = 0x58 + State.reset.pwr.miSel.setWidth 7 ∧ (0x59 : BitVec 7) ≠ 0x58 + State.reset.pwr.miSel.setWidth 7) :=
  ⟨⟨by decide, .inl rfl, by unfold LevelIs; decide, rfl⟩, ⟨.inr (.inr rfl), rfl⟩, rfl, ⟨rfl, rfl⟩, ⟨rfl, rfl⟩, rfl, ⟨by decide, by decide⟩,
   ⟨rfl, .inl rfl, by decide⟩, ⟨rfl, .inl rfl, by decide, by decide⟩, ⟨by decide, by decide, by decide⟩, ⟨by decide, by decide⟩,
   (fun v hv => by
     simp only [List.mem_cons, List.not_mem_nil, or_false] at hv
     rcases hv with rfl | rfl <;> exact ⟨by decide, .inl rfl, by decide⟩), by decide, by decide⟩

def secWith (f : Security → Security) : State := { sec := f {} }
def request (arg ctx : Nat) (signer : Signer) : SignedRequest :=
  { arg, serial := Config.serial, nonce := Config.nonceValue 0, ctx, zerosOk := true, sigZero := false, signer }

theorem meets_SignedRequestsAndSpdm :
    Powered State.reset ∧ Grants State.reset.sec (request 1 5 .owner) .app ∧
    Grants (secWith fun x => { x with life := .returned }).sec (request 2 0 .neroskeno) .full ∧
    Grants State.reset.sec (request 0 0 .owner) .none ∧
    (∀ l, ¬ Grants State.reset.sec (request 1 64 .owner) l) ∧
    Changes State.reset.sec (request 2 0 .owner) .deployed ∧
    AsksReturn (secWith fun x => { x with life := .deployed }).sec (request 3 0 .neroskeno) ∧
    ((∀ l, ¬ Changes State.reset.sec (request 1 0 .owner) l) ∧ ¬ AsksReturn State.reset.sec (request 1 0 .owner)) ∧
    (let s := secWith fun x => { x with burning := some .deployed }
     Powered s ∧ s.sec.burning = some .deployed ∧ s.pkg.hubFailed = false) ∧
    (LevelIs State.reset .none ∧ HoldsKey State.reset.sec ∧ ¬ HoldsKey (secWith fun x => { x with identityKey := false }).sec) := by
  refine ⟨.inl rfl, ⟨rfl, ⟨rfl, rfl, rfl, .inl rfl⟩, rfl, by decide, ⟨rfl, rfl, .inr rfl⟩, .inl rfl⟩,
    ⟨rfl, ⟨rfl, rfl, rfl, .inr rfl⟩, rfl, .inr ⟨rfl, rfl, rfl⟩⟩, ⟨rfl, ⟨rfl, rfl, rfl, .inr rfl⟩, rfl, .inr ⟨rfl, rfl, .inr rfl⟩⟩, ?_,
    ⟨rfl, ⟨rfl, rfl, rfl, .inr rfl⟩, .inr (.inl ⟨rfl, rfl, rfl, rfl, rfl, .inr rfl⟩)⟩, ⟨rfl, ⟨rfl, rfl, rfl, .inr rfl⟩, rfl, rfl, rfl, rfl⟩,
    ⟨?_, fun h => by cases h.2.2.1⟩, ⟨.inl rfl, rfl, rfl⟩, by unfold LevelIs; decide, .inr ⟨by decide, by decide, rfl⟩, ?_⟩
  · intro l h
    cases l with
    | none => exact absurd h.2.2.1 (by decide)
    | app => exact absurd h.2.2.2.1 (by decide)
    | full => exact absurd h.2.2.1 (by decide)
  · intro l h
    rcases h.2.2 with h | h | h | h | h
    · cases h.1
    · exact absurd h.2.1 (by decide)
    · cases h.1
    · cases h.1
    · exact absurd h.2.1 (by decide)
  · rintro (h | h)
    · cases h.1
    · cases h.2.2

/-- A flip of the first 64 KiB page is under way; and a state in a salvage window, where die 8 (stack 0) has failed. -/
def flipState : State := { dev := { host := { biasreq := 0x8000000000000080, biasbase := 0x100000, lqtbase := 0x10000, ctxbase := 0x20000 } } }
def salvageState (up : Bool) : State :=
  { pkg := { stat := .salvage, cxlUp := up, failed := 1#25 <<< 8 } }

theorem meets_HostAccessesAndFatalErrors :
    (let s := pkgWith fun p => { p with stat := .fatal }
     Blocked s ∧ Within 0 8 ∧ s.pkg.cxlUp = true) ∧
    (let s : State := { sec := { life := .decommissioned }, pkg := { stat := .salvage } }
     Blocked s ∧ s.pkg.stat = .salvage) ∧
    (flipState.pkg.stat = .running ∧ Powered flipState ∧ flipState.sec.life ≠ .decommissioned ∧ flipState.pkg.cxlUp = true ∧
      (Within 0xFFFF 1 ∧ HeldByFlip flipState 0xFFFF 1) ∧
      (Within 0x300000 4 ∧ Within 0x30000 4 ∧ ¬ HeldByFlip flipState 0x30000 4 ∧ Apart 0x30000 4 0x100000 (2 ^ 24) ∧ Apart 0x30000 4 0x10000 2048 ∧
        Apart 0x30000 4 0x20000 8192 ∧ Apart 0x100000 (2 ^ 24) 0x10000 2048)) ∧
    (pkgWith fun p => { p with cxlUp := false }).pkg.cxlUp = false ∧
    (∀ up, let s := salvageState up
      s.pkg.stat = .salvage ∧ Powered s ∧ s.sec.life ≠ .decommissioned ∧ s.pkg.cxlUp = up ∧ Within 0 8 ∧ (s.dev.cores.map fun x => x.1).Nodup ∧
        Failed s 8 ∧ ¬ Failed s 9) ∧
    (¬ Powered (pwrWith fun p => { p with state := .off }) ∧ Powered State.reset ∧ State.reset.pkg.stat = .running ∧
      (24 : Nat) < 25 ∧ (pkgWith fun p => { p with stat := .wiping }).pkg.stat = .wiping) ∧
    (let s : State := at0 lineDev
     Powered s ∧ 0 < devBytes ∧ s.dev.dirty 0 = [] ∧ (0 : Nat) < 1664 ∧ 0xFFFFF < 2 ^ 20 ∧ (7 : Nat) < 8 ∧ s.dev.dies.length = 8 ∧
       ∃ l, s.dev.line 0 (640 / 128) = some l ∧ l.st ≠ .m ∧ l.st ≠ .o) ∧
    (let m : Dev := { dev0 with cores := [(0, { core0 with l1 := [{ num := 5, st := .m, mask := 1, data := [(0, 7)] }] })] }
     ∃ l, m.line 0 (640 / 128) = some l ∧ (l.st = .m ∨ l.st = .o) ∧ m.dirty (640 / 128) = [l.layer]) ∧
    (∀ st ∈ [PkgState.resetHold, .fatal, .salvage], (pkgWith fun p => { p with stat := st }).pkg.stat = st) :=
  ⟨⟨⟨.inl rfl, .inr (.inr (.inl rfl))⟩, ⟨by decide, by decide⟩, rfl⟩, ⟨⟨.inl rfl, .inr (.inr (.inr rfl))⟩, rfl⟩,
   ⟨rfl, .inl rfl, by decide, rfl, ⟨⟨by decide, by decide⟩, by decide, 0, by decide, by decide, by decide⟩, ⟨by decide, by decide⟩,
    ⟨by decide, by decide⟩, (fun ⟨_, i, hi, h⟩ => by
      have : fld flipState.dev.host.biasreq.toNat 47 24 = 0 := by decide
      have h2 : fld flipState.dev.host.biasreq.toNat 23 8 = 0 := by decide
      rw [this, h2] at h; exact absurd h.2 (by omega)), .inl (by decide), .inr (by decide), .inr (by decide), .inr (by decide)⟩,
   rfl, (fun up => by cases up <;> exact ⟨rfl, .inl rfl, by decide, rfl, ⟨by decide, by decide⟩, by decide, by unfold Failed; decide, by unfold Failed; decide⟩),
   ⟨(fun h => by rcases h with h | h | h <;> cases h), .inl rfl, rfl, by decide, rfl⟩,
   ⟨.inl rfl, by decide, rfl, by decide, by decide, by decide, rfl, _, rfl, by decide, by decide⟩, ⟨_, rfl, .inl rfl, rfl⟩, fun _ _ => rfl⟩

/-! ## Retirement, ports, peers -/

def oneLaunch (r : DWord) : Dev :=
  { dev0 with launches := [{ num := 1, st := .running, record := [r, 0, 0, 0, 0, 0, 0, 0] }] }

/-- The waves 1 and 2 of launch 1 form gang 0 on lost cores, with a saved third one or none. -/
def gangLost (r : DWord) (saved : List SavedWave) : Dev :=
  { oneLaunch r with wave := {}, frag := {}, savedWaves := saved,
                     waves := [{ uid := 1, launch := 1, gang := some 0 }, { uid := 2, launch := 1, core := 1, gang := some 0 }] }

theorem meets_AGangFails :
    ∀ x ∈ [((0 : DWord), ([] : List SavedWave)), (1#64 <<< 59, [{ wave := { uid := 3, launch := 1, gang := some 0 }, slotNo := 0, record := [] }])],
      let m := gangLost x.1 x.2
      let w : Wave := { uid := 1, launch := 1, gang := some 0 }
      let ws := m.allWaves.filter fun x => decide (x.gang = some 0 ∧ x.clusterNo = w.clusterNo)
      let ss := m.savedWaves.filter fun x => decide (x.wave.gang = some 0 ∧ x.wave.clusterNo = w.clusterNo)
      ∃ l, m.wave.uid = 0 ∧ m.waveOf w.uid = some w ∧ m.launchOf w.launch = some l ∧ (∀ x ∈ ws ++ ss.map fun x => x.wave, x.launch = w.launch) ∧
        l.replayable = decide (x.1 ≠ 0) ∧ (x.1 = 0 → ss = []) ∧ ∀ x ∈ ws ++ ss.map fun x => x.wave, x.child = false ∧ x.everirr = false := by
  intro x hx
  simp only [List.mem_cons, List.not_mem_nil, or_false] at hx
  rcases hx with rfl | rfl
  · exact ⟨_, rfl, by decide +kernel, rfl, by decide +kernel, by decide, fun _ => rfl, by decide +kernel⟩
  · exact ⟨_, rfl, by decide +kernel, rfl, by decide +kernel, by decide, fun h => absurd h (by decide), by decide +kernel⟩

theorem meets_RetirementAndTheDebugger :
    (let m := dev0.stash
     (m.cap.cores.getD 0 0).getLsbD 5 = true ∧ m.cap.cores.length = 128 ∧ Powered (at0 dev0) ∧
       ({ m with cap := capWithout m.cap 0 (1#12 <<< 5) } : Dev).cap.clmask 0 ≠ 0 ∧ (∀ l ∈ m.launches, l.st ≠ .ready) ∧
       m.onLost (capWithout m.cap 0 (1#12 <<< 5)) = []) ∧
    (∀ r ∈ [(1#64 <<< 59), 0], let m := (oneLaunch r).stash
     ∃ w l, m.onLost (capWithout m.cap 0 1) = [w] ∧ m.waveOf w.uid = some w ∧ w.gang = none ∧ m.launchOf w.launch = some l ∧
       l.replayable = decide (r ≠ 0) ∧ w.child = false ∧ w.everirr = false) ∧
    (State.reset.dev.cap.spares.getLsbD 15 = false ∧ ({ spares := 1 } : Capability).spares.getLsbD 0 = true ∧
      State.reset.dev.cap.ports.getLsbD 23 = true ∧ State.reset.dev.cap.half.getLsbD 23 = false ∧
      ({ half := 1 } : Capability).half.getLsbD 0 = true ∧ ∀ r ∈ State.reset.dev.peers, r.port ≠ some 23) ∧
    (let s : State := { sec := { level := .app, appCtx := 0 }, dev := dev0 }
     ∃ w, s.dev.stash.waveOf 1 = some w ∧ Reached s w.ctx ∧ w.core ≠ 12 ∧ w.inWindow 31 = true ∧ w.isDead 31 = false ∧ w.inWindow 127 = false) ∧
    ((∀ w, dev0.stash.waveOf 1 = some w → ¬ Reached (at0 dev0) w.ctx) ∧ ¬ Reached (at0 dev0) 0) ∧
    (let s : State := { sec := { level := .full, life := .returned } }
     Reached s 0 ∧ LevelIs s .full ∧ Within 0 8 ∧ s.dev.host.biasbase + 2 ^ 24 ≤ Config.memoryBytes ∧
       Apart (2 ^ 24) 8 s.dev.host.biasbase (2 ^ 24)) ∧
    (let s : State := { sec := { level := .app, appCtx := 0 }, dev := withTable dev0 }
     Reached s 0 ∧ LevelIs s .app ∧ s.dev.engineSpans 0 64 8 true true = .ok [⟨.dev 0x200040, 8⟩]) ∧
    (let m := dev0.stash
     m.cap.cores.getD 0 0 ≠ 0 ∧ ({ m with cap := capWithout m.cap 0 0xFFF } : Dev).cap.clmask 0 ≠ 0 ∧
       ∃ w l, m.onLost (capWithout m.cap 0 0xFFF) = [w] ∧ m.waveOf w.uid = some w ∧ w.gang = none ∧ m.launchOf w.launch = some l) ∧
    (∀ st ∈ [PkgState.fatal, .salvage], let s : State := { sec := { level := .full, life := .returned }, pkg := { stat := st } }
     Powered s ∧ LevelIs s .full ∧ s.pkg.stat = st ∧ s.pkg.hubFailed = false ∧ ¬ Reached s 0 ∧ 0 + 8 ≤ Config.memoryBytes) ∧
    (∃ w f fs x, dev0.stash.waveOf 1 = some w ∧ w.frags = f :: fs ∧ w.xregs[7]? = some x) := by
  have none0 : ∀ c, ¬ Reached (at0 dev0) c := fun c h => by
    have e : (at0 dev0).sec.level = .none := rfl
    rcases h.2.2 with h | h
    · unfold LevelIs at h; rw [e] at h; simp at h
    · have h := h.1; unfold LevelIs at h; rw [e] at h; simp at h
  refine ⟨⟨by decide, by decide +kernel, .inl rfl, by decide +kernel, by decide, by decide +kernel⟩, fun r hr => ?_,
    ⟨by decide, by decide, by decide, by decide, by decide, fun _ h => nomatch h⟩,
    ⟨_, rfl, ⟨rfl, .inl rfl, .inr ⟨by unfold LevelIs; decide, rfl⟩⟩, by decide, by decide, by decide, by decide⟩,
    ⟨fun w _ => none0 _, none0 0⟩, ⟨⟨rfl, .inl rfl, .inl (by unfold LevelIs; decide)⟩, by unfold LevelIs; decide, ⟨by decide, by decide⟩, by decide, .inr (by decide)⟩,
    ⟨⟨rfl, .inl rfl, .inr ⟨by unfold LevelIs; decide, rfl⟩⟩, by unfold LevelIs; decide, ok_eq (by decide +kernel)⟩,
    ⟨by decide, by decide +kernel, { dev0.wave with frags := [dev0.frag] }, _, by decide +kernel, rfl, rfl, rfl⟩, fun st hs => ?_, _, _, _, _, rfl, rfl, rfl⟩
  rotate_left
  · simp only [List.mem_cons, List.not_mem_nil, or_false] at hs
    rcases hs with rfl | rfl <;>
      exact ⟨.inl rfl, by unfold LevelIs; decide, rfl, rfl, (fun h => by cases h.1), by decide⟩
  have h : r = 1#64 <<< 59 ∨ r = 0 := by simpa using hr
  rcases h with h | h <;> subst h <;> exact ⟨{ dev0.wave with frags := [dev0.frag] }, _, by decide +kernel, rfl, rfl, rfl, by decide, rfl, rfl⟩

/-- Port 0 as given, the other ports down. -/
def portState (p : Port) : State := { dev := { ports := p :: List.replicate 23 {} } }
def keyed0 : Port := { up := true, send := { slot0 := some 0 }, recv := { slot0 := some 0 }, agreed := 1 }
def flit0 (key : Nat) : Flit := { epoch := false, seqNo := 0, ackNo := 0, correctable := true, key }
/-- A flit of epoch 0 or 1 in the replay buffer. -/
def oldFlit (epoch : Bool) : SentFlit := { seqNo := 0, epoch, ackNo := 0, key := 0, counter := 0, load := .keyReady }

theorem serves0 (p : Port) : Serves (portState p) 0 := ⟨rfl, .inl rfl, by decide, show (0xFFFFFF : BitVec 24).getLsbD 0 = true by decide⟩
theorem may_agree (p : Port) : MayAgree (portState p) false := ⟨.inr ⟨(fun h => nomatch h), (fun h => nomatch h), rfl⟩, fun h => nomatch h⟩

theorem meets_PortsCarryFlitsAndRollKeysOver :
    (let s := portState keyed0
     Serves s 0 ∧ (s.port 0).up = true ∧ slotFor (s.port 0).recv (flit0 0).epoch = some (flit0 0).key ∧ (flit0 1).seqNo ∉ (s.port 0).recv.asked ∧
       ¬ slotFor (s.port 0).recv (flit0 1).epoch = some (flit0 1).key ∧ (s.port 0).send.roll = .idle ∧ MayAgree s false ∧ ¬ MayAgree s true ∧
       (s.port 0).training = false ∧ (s.port 0).recv.slot0 ≠ none ∧ (s.port 0).recv.slot1 = none) ∧
    (let s := portState { keyed0 with recv := { keyed0.recv with asked := [0] } }
     Serves s 0 ∧ (s.port 0).up = true ∧ (flit0 1).seqNo ∈ (s.port 0).recv.asked) ∧
    (let s := portState { training := true }
     Serves s 0 ∧ (s.port 0).training = true ∧ ∃ x : PeerOut, x.left = true ∧ x.port = some 0) ∧
    (let s := portState {}
     (s.port 0).send.slot0 = none ∧ (s.port 0).send.slot1 = none ∧ (s.port 0).recv.slot0 = none ∧ (s.port 0).recv.slot1 = none ∧
       (s.port 0).recv.rolling = false ∧ MayAgree s false) ∧
    (let s := portState { keyed0 with send := { keyed0.send with roll := .agreeing } }
     (s.port 0).send.slot0 ≠ none ∧ (s.port 0).send.roll = .agreeing ∧ (s.port 0).send.roll ≠ .idle) ∧
    (let s := portState { keyed0 with recv := { slot1 := some 1, epoch := true } }
     (s.port 0).recv.slot0 = none ∧ (s.port 0).recv.slot1 ≠ none ∧ (s.port 0).training = false) ∧
    (∀ r ∈ [Rollover.awaitReady, .draining, .awaitDone], ∀ b, let s := portState { keyed0 with
        send := { keyed0.send with roll := r, slot1 := some 1, epoch := true, buffer := [oldFlit b] },
        recv := { slot0 := some 0, slot1 := some 1, rolling := true } }
      (s.port 0).send.roll = r ∧ (b = true → OldGone (s.port 0).send) ∧ (b = false → ¬ OldGone (s.port 0).send) ∧
        (s.port 0).recv.slot0 = some 0 ∧ (s.port 0).recv.slot1 = some 1 ∧ (s.port 0).recv.rolling = true ∧ (s.port 0).send.failures + 1 < 3) ∧
    (∀ r ∈ [Rollover.awaitReady, .awaitDone], let s := portState { keyed0 with send := { keyed0.send with roll := r, failures := 2 } }
     3 ≤ (s.port 0).send.failures + 1 ∧ (s.port 0).send.roll = r) := by
  refine ⟨⟨serves0 _, rfl, rfl, by decide, by decide, rfl, may_agree _, fun h => absurd (h.2 rfl) (by decide),
      rfl, by decide, rfl⟩, ⟨serves0 _, rfl, by decide⟩, ⟨serves0 _, rfl, { id := 1, wave := 1, err := 0, addr := 0, size := 8, what := .store, port := some 0, left := true }, rfl, rfl⟩,
    ⟨rfl, rfl, rfl, rfl, rfl, may_agree _⟩, ⟨by decide, rfl, by decide⟩, ⟨rfl, by decide, rfl⟩, fun r hr b => ?_, fun r _ => ⟨(by decide : 3 ≤ 2 + 1), rfl⟩⟩
  refine ⟨rfl, fun h => ?_, fun h hg => ?_, rfl, rfl, rfl, (by decide : 0 + 1 < 3)⟩
  · subst h; intro x hx; obtain rfl : x = oldFlit true := List.mem_singleton.mp hx; rfl
  · subst h; exact absurd (hg (oldFlit false) (List.mem_singleton_self _)) (show ¬ (false = true) by decide)

/-! ## Launches, placement, saving -/

/-- Context 0 with its table, save slots 1 and 2 of 64 KiB from VA 0x10000 (R366), and an error queue of 2 entries (R97). -/
def ctxCells (slots errq : Nat) : Cells 8 :=
  cellsAt 0 [2 ^ 63 + 2 ^ 62 + 0x1000, 1, 0, 16 * 2 ^ 56 + 0x10000, slots, 0, errq * 2 ^ 60 + 0x300, 0x200, 0x208] ++
    cellsAt 0x1000 [0x2001] ++ cellsAt 0x2000 [0x3001] ++ cellsAt 0x3000 [0x20001F]
/-- The same and queue 0 (R87): ring at VA 0x1000, head count 0 at VA 0x100, tail count `t` at VA 0x108, record `r`. -/
def queueDev (t : Nat) (r : List Nat) : Dev :=
  { host := { lqtbase := 0x10000 },
    mem := { bytes := ctxCells 0 0 ++ cellsAt 0x10000 [0x1000, 0x100, 0x108, 2 ^ 63 + 4 * 2 ^ 53 + 2 ^ 52] ++ cellsAt 0x200100 [0, t] ++
                      cellsAt 0x200800 [5] ++ cellsAt 0x201000 r } }
/-- A record of one wave of 32 lanes that waits for nothing, or for the counter at VA 0x800 (R93, R125). -/
def record0 (wait : Nat) : List Nat := [0, 2 ^ 60 + 2, 0, 1, 32, 0x2000, 0xFFFFFFFF00000000 + wait]

def lq0 : LQ := { serves := true, ctx := 0, log2n := 4, tail := 0x108, head := 0x100, ring := 0x1000 }
def queueWords (t : Nat) (r : List Nat) : Bool :=
  let m := (queueDev t r).stash
  decide (m.lq 0 = lq0) && m.ctxValid 0 && (match m.engineLoc 0 0x108 8 true false with | .ok l => decide (l = .dev 0x200108) | _ => false) &&
    (match m.engineLoc 0 0x100 8 true true with | .ok l => decide (l = .dev 0x200100) | _ => false) &&
    decide (ofBytes (m.bytesAt (.dev 0x200108) 8) = t) && decide (ofBytes (m.bytesAt (.dev 0x200100) 8) = 0)

/-- Why a record is taken: what the checks of it answer. -/
def checkedAs (r : List Nat) (p : Except BadDword Launch → Bool) : Bool :=
  let m := (queueDev 1 r).stash
  match m.engineSpans 0 0x1000 64 true false with
  | .ok ss => decide (true ∉ m.poisonSpans ss) && p (m.checkRecord (recordAt m 0 lq0 0 ss))
  | .error _ => false

def idle0 (sig : Option Loc) (no : Bool) : Dev :=
  { launches := [{ num := 1, st := .running, signal := sig, noSignal := no }], mem := { bytes := [], poison := [(0x1000, 1)] } }

/-- A waiting launch of KIND 1 whose counter is 0 and whose galley at VA 0x3000 has the header `h` and one record of 4 rows. -/
def galleyDev (h : List Nat) : Dev :=
  { mem := { bytes := ctxCells 0 0 ++ cellsAt 0x203000 (h ++ [7, 4]) },
    launches := [{ num := 1, dieset := 1, record := [BitVec.ofNat 64 (2 ^ 60), 0, 0, 0x3000, 0, 0, 0, 0] }] }

theorem meets_GalleysAreRead :
    (∀ n ∈ [0, 1], let m := (galleyDev [n, 0]).stash
      ∃ l g, m.launchOf 1 = some l ∧ l.st = .waiting ∧ l.kind = 1 ∧ l.waitLocs = [] ∧ GalleyIs m l g ∧
        m.refuses { l with st := .ready, galley := g, waves := g.length } = false ∧ (n = 0 → g = []) ∧ (n = 1 → g ≠ [])) ∧
    (let m := (galleyDev [1, 1]).stash
     ∃ l, m.launchOf 1 = some l ∧ l.st = .waiting ∧ l.kind = 1 ∧ l.waitLocs = [] ∧ ∀ g, ¬ GalleyIs m l g) := by
  refine ⟨fun n hn => ?_, _, rfl, rfl, by decide, rfl, fun g ⟨h, ⟨ss, h₁, _, h₂⟩, _, h₃, _⟩ => ?_⟩
  · have h : n = 0 ∨ n = 1 := by simpa using hn
    rcases h with rfl | rfl
    · exact ⟨_, [], rfl, rfl, by decide, rfl, ⟨_, ⟨_, ok_eq (a := [⟨.dev 0x203000, 16⟩]) (by decide +kernel), by decide +kernel, rfl⟩, by decide +kernel,
        by decide +kernel, .inl ⟨by decide +kernel, rfl⟩⟩, by decide +kernel, fun _ => rfl, fun h => absurd h (by decide)⟩
    · exact ⟨_, [[7, 0, 4, 0]], rfl, rfl, by decide, rfl, ⟨_, ⟨_, ok_eq (a := [⟨.dev 0x203000, 16⟩]) (by decide +kernel), by decide +kernel, rfl⟩,
        by decide +kernel, by decide +kernel, .inr ⟨by decide +kernel, _,
          ⟨_, ok_eq (a := [⟨.dev 0x203010, 16⟩]) (by decide +kernel), by decide +kernel, rfl⟩, by decide +kernel, by decide +kernel⟩⟩,
        by decide +kernel, fun h => absurd h (by decide), fun _ => by decide⟩
  · have e : (galleyDev [1, 1]).stash.engineSpans 0 0x3000 16 true false = .ok [⟨.dev 0x203000, 16⟩] := ok_eq (by decide +kernel)
    injection h₁.symm.trans e with e
    subst e h₂
    exact absurd h₃ (by decide +kernel)

theorem meets_LaunchesAreTakenAndEnd :
    (let m : Dev := { mem := { bytes := ctxCells 0 0 } }; fld (m.ctxDword 0 0x30) 63 60 = 0) ∧
    (let m : Dev := { mem := { bytes := ctxCells 0 1 } }
     fld (m.ctxDword 0 0x30) 63 60 ≠ 0 ∧ m.engineLoc 0 (fld (m.ctxDword 0 0x38) 48 0) 8 true false = .ok (.dev 0x200200) ∧
       m.engineLoc 0 (fld (m.ctxDword 0 0x40) 48 0) 8 true true = .ok (.dev 0x200208) ∧
       ofBytes (m.bytesAt (.dev 0x200200) 8) = 0 ∧ ofBytes (m.bytesAt (.dev 0x200208) 8) = 0 ∧ KMap.get 0 m.dropped 0 < 2 ^ 32 ∧
       m.engineLoc 0 (fld (m.ctxDword 0 0x30) 48 0 + 32 * (0 % 2 ^ 1)) 32 false true = .ok (.dev 0x200300)) ∧
    (Launching State.reset ∧ (State.reset.dev.stash.lq 0).serves = false) ∧
    (queueWords 0 [] = true ∧ queueWords 100 [] = true ∧ ∀ r ∈ [record0 0x200, record0 0xFFFFFFFF, []], queueWords 1 r = true) ∧
    checkedAs (record0 0x200) (fun x => match x with
      | .ok l => let m := (queueDev 1 (record0 0x200)).stash
                 decide (l.waitLocs = [.dev 0x200800]) && !m.anyPoison (.dev 0x200800) 4 && decide ((m.bytesAt (.dev 0x200800) 4) = leBytes 4 5)
      | .error _ => false) = true ∧
    checkedAs (record0 0xFFFFFFFF) (fun x => match x with
      | .ok l => decide (l.waitLocs = []) && decide (l.kind = 0) && decide (l.waves ≠ 0) &&
                 !(queueDev 1 (record0 0xFFFFFFFF)).stash.refuses { l with st := .ready }
      | .error _ => false) = true ∧
    checkedAs [] (fun x => match x with | .ok _ => false | .error _ => true) = true ∧
    (∀ v ∈ [0, 5], let m : Dev := { (queueDev 0 []) with launches := [{ num := 1, wait0 := some (.dev (0x200800 + 8 - 8 * (v / 5))), waves := 1, dieset := 1 }] }
      ∃ l, m.stash.launchOf 1 = some l ∧ l.st = .waiting ∧ l.kind = 0 ∧ l.waves ≠ 0 ∧ m.stash.refuses { l with st := .ready, galley := [] } = false) ∧
    (∀ n ∈ [none, some (Loc.dev 0x3000), some (.dev 0x4000)], ∀ no, let m := (idle0 n no).stash
      m.launchIdle 1 = true ∧ ∃ l, m.launchOf 1 = some l ∧ l.signal = n ∧ l.noSignal = no) ∧
    ((idle0 none true).gridFlush.anyPoison (.dev 0x4000) 4 = true ∧ (idle0 none true).gridFlush.anyPoison (.dev 0x3000) 4 = false ∧
      Exists (.dev 0x3000) 4) ∧
    (let m := State.reset.dev.stash
     (∀ w ∈ m.allWaves, w.ctx ≠ 0) ∧ (∀ x ∈ m.savedWaves, x.wave.ctx ≠ 0) ∧ fld (m.ctxDword 0 0x30) 63 60 = 0 ∧
       m.host.ctxbase + 8192 ≤ Config.memoryBytes) ∧
    Apart 0 8192 0x10000 2048 := by
  refine ⟨by decide +kernel, ⟨by decide +kernel, ok_eq (by decide +kernel), ok_eq (by decide +kernel), by decide +kernel, by decide +kernel,
    by decide +kernel, ok_eq (by decide +kernel)⟩, ⟨⟨rfl, .inl rfl, by decide, rfl⟩, by decide +kernel⟩,
    ⟨by decide +kernel, by decide +kernel, by decide +kernel⟩, by decide +kernel, by decide +kernel, by decide +kernel, fun v hv => ?_,
    fun n hn no => ?_, ⟨by decide +kernel, by decide +kernel, fun pa h => by cases h; decide⟩,
    ⟨by decide +kernel, (fun _ h => nomatch h), by decide +kernel, by decide⟩, .inl (by decide)⟩
  · have h : v = 0 ∨ v = 5 := by simpa using hv
    rcases h with h | h <;> subst h <;> exact ⟨_, rfl, rfl, by decide, by decide, by decide +kernel⟩
  · have h : n = none ∨ n = some (Loc.dev 0x3000) ∨ n = some (.dev 0x4000) := by simpa using hn
    rcases h with h | h | h <;> subst h <;> cases no <;> exact ⟨by decide +kernel, _, rfl, rfl, rfl⟩

/-- A launch of one wave of 32 lanes, READY; its image at VA 0. -/
def launch0 : Launch := { num := 1, st := .ready, record := (record0 0xFFFFFFFF).map (BitVec.ofNat 64) ++ [0], waves := 1, dieset := 1 }
def placeDev : Dev := { queueDev 0 [] with launches := [launch0] }
def childDev (basewin : Nat) : Dev :=
  { placeDev with launches := [{ launch0 with st := .running }],
                  dies := { spawns := [{ child0 with basewin }] } :: List.replicate 7 {} }

def saved0 : SavedWave := { wave := { dev0.wave with frags := [dev0.frag] }, slotNo := 1, record := List.replicate 8 0 }
def savedDev (b : Byte) : Dev :=
  { placeDev with launches := [{ launch0 with st := .running }], savedWaves := [{ saved0 with record := List.replicate 8 b }] }

theorem no_spawns {m : Dev} (h : ∀ d ∈ m.dies, d.spawns = []) (d : Nat) : (m.die d).spawns = [] := by
  rcases getD_mem m.dies {} d with hd | hd
  · exact h _ hd
  · show (m.dies.getD d {}).spawns = []
    rw [hd]

/-- A launch of priority 2 that no die can take; one with `COSCHED`. -/
def stuck0 : Launch := { launch0 with num := 2, dieset := 0, record := launch0.record.set 0 (2#64 <<< 52) }
def cosched0 : Launch := { launch0 with record := launch0.record.set 0 (1#64 <<< 58) }
def coschedDev (cores : BitVec 12) : Dev := { placeDev with launches := [cosched0], cap := { cores := List.replicate 128 cores } }
/-- Launch 2, of higher priority, has reserved die 1. -/
def reservedDev : Dev := { placeDev with launches := [launch0, stuck0], dies := [{}, { reserved := [2] }] ++ List.replicate 6 {} }

theorem cannot {m : Dev} {l : Launch} (h : m.placeNext l = none) : ¬ Places m l := fun ⟨_, h'⟩ => h' h

theorem meets_PlacementTakesTurns :
    (let m := Dev.stash { placeDev with launches := [launch0, stuck0] }
     Launching (at0 m) ∧ m.turnLeft = none ∧ (∀ d, (m.die d).spawns = []) ∧ (m.launches.map fun x => x.num).Nodup ∧
       (∀ x ∈ m.launches, x.count < 2 ^ 64) ∧ launch0 ∈ m.launches ∧ Unplaced m launch0 ∧ Places m launch0 ∧
       (∀ x ∈ m.launches, x ≠ launch0 → NoLater m x launch0 → Unplaced m x → ¬ Places m x ∧ Patient x) ∧
       NoLater m stuck0 launch0 ∧ Unplaced m stuck0) ∧
    (let m := Dev.stash { placeDev with launches := [stuck0] }
     ∀ x ∈ m.launches, Unplaced m x → ¬ Places m x ∧ Patient x) ∧
    (let m := (coschedDev 0).stash
     cosched0 ∈ m.launches ∧ cosched0.cosched = true ∧ cosched0.prio ≠ 3 ∧ cosched0.st = .ready ∧ ¬ Places m cosched0 ∧ m.dies.length = 8 ∧
       (∀ x ∈ m.launches, x ≠ cosched0 → ¬ Unplaced m x) ∧ m.placeCosched cosched0 = none) ∧
    (∃ m₁, (coschedDev 0xFFF).stash.placeCosched cosched0 = some m₁) ∧
    (∀ m ∈ [placeDev, coschedDev 0, coschedDev 0xFFF], ∃ l, l ∈ m.stash.launches ∧ l.st = .ready ∧ l.replays = [] ∧ l.placed = 0 ∧ l.placed < l.waves ∧
      (∀ x ∈ m.stash.savedWaves, x.wave.launch ≠ l.num) ∧ (∀ w ∈ m.stash.allWaves, w.uid < m.stash.nextUid) ∧ 0 < m.stash.nextUid ∧
      (l.cosched = false ∨ l.cosched = true)) ∧
    (stuck0.num ∈ (reservedDev.die 1).reserved ∧ reservedDev.launchOf stuck0.num = some stuck0 ∧ stuck0.num ≠ launch0.num ∧ launch0.prio < stuck0.prio ∧
      ∃ m₁, reservedDev.placeUnit launch0 false [reservedDev.template launch0 0 0] = some m₁) := by
  refine ⟨⟨⟨rfl, .inl rfl, by decide, rfl⟩, rfl, no_spawns (by decide +kernel), by decide, by decide, List.mem_cons_self .., .inl rfl,
      ⟨(fun _ h => nomatch h), by decide +kernel⟩, fun x hx hn _ _ => ?_, .inl (by decide), .inl rfl⟩,
    fun x hx _ => ?_, ⟨List.mem_singleton_self _, by decide, by decide, rfl, cannot (by decide +kernel), by decide,
      fun x hx hn => absurd (List.mem_singleton.mp hx) hn, by decide +kernel⟩,
    Option.isSome_iff_exists.mp (by decide +kernel), fun m hm => ?_,
    by decide, rfl, by decide, by decide, Option.isSome_iff_exists.mp (by decide +kernel)⟩
  · have hx : x ∈ [launch0, stuck0] := hx
    simp only [List.mem_cons, List.not_mem_nil, or_false] at hx
    obtain rfl := hx.resolve_left hn
    exact ⟨cannot (by decide +kernel), by decide, by decide⟩
  · obtain rfl := List.mem_singleton.mp hx
    exact ⟨cannot (by decide +kernel), by decide, by decide⟩
  · have h : m = placeDev ∨ m = coschedDev 0 ∨ m = coschedDev 0xFFF := by simpa using hm
    rcases h with rfl | rfl | rfl
    · exact ⟨launch0, List.mem_singleton_self _, rfl, rfl, rfl, by decide, (fun _ h => nomatch h), by decide +kernel, by decide, .inl (by decide)⟩
    · exact ⟨cosched0, List.mem_singleton_self _, rfl, rfl, rfl, by decide, (fun _ h => nomatch h), by decide +kernel, by decide, .inr (by decide)⟩
    · exact ⟨cosched0, List.mem_singleton_self _, rfl, rfl, rfl, by decide, (fun _ h => nomatch h), by decide +kernel, by decide, .inr (by decide)⟩

theorem meets_PlacementGivesWavesTheirPlace :
    (Launching (at0 placeDev) ∧
      let m := placeDev.stash
      let l := launch0
      m.launches = [l] ∧ l.prio < 4 ∧ l.st = .ready ∧ l.replays = [] ∧ l.cosched = false ∧ l.gangSize = 0 ∧ l.waves = 1 ∧ l.placed = 0 ∧
        m.turnLeft = none ∧ m.savedWaves = [] ∧ m.holds = [] ∧ (∀ d, (m.die d).spawns = []) ∧
        ∃ m₁, m.placeUnit l false [m.template l 0 0] = some m₁ ∧ m₁.launches = m.launches ∧ m₁.savedWaves = []) ∧
    (Launching State.reset ∧ State.reset.dev.turnLeft = none ∧ State.reset.dev.stash.launches = [] ∧ ∀ d, (State.reset.dev.stash.die d).spawns = []) ∧
    (let m := (savedDev 0).stash
     Launching (at0 (savedDev 0)) ∧ m.turnLeft = none ∧ (∃ l, m.launches = [l] ∧ l.prio < 4 ∧
       m.savedWaves.find? (fun y => decide (y.wave.launch = l.num) && m.unitWhole y) = some { saved0 with record := List.replicate 8 0 } ∧
       m.placeSaved l (m.savedUnit { saved0 with record := List.replicate 8 0 }) ≠ none) ∧ m.holds = [] ∧ ∀ d, (m.die d).spawns = []) ∧
    (let s := at0 { placeDev with turnLeft := some (1, 0) }; Launching s ∧ s.dev.turnLeft = some (1, 0)) ∧
    (let m := (childDev 0).stash
     Launching (at0 (childDev 0)) ∧ (m.die 0).spawns.find? (fun x => decide (m.childLevel x = some 0)) = some child0 ∧ m.turnLeft = none ∧
       (∀ x ∈ (m.die 0).spawns, m.childLevel x = some 0) ∧ (∃ l, m.launchOf 1 = some l ∧ l.prio = 0) ∧
       m.levelTurns [3, 2, 1] = (m, false) ∧ ∃ m₂, m.placeChild 0 child0 = some m₂ ∧ m₂.dies.length = 8) ∧
    (let m := (childDev 900).stash; m.placeChild 0 { child0 with basewin := 900 } = none) ∧
    ((dev0.residents (13 * 0 + 0)).length < 16 ∧ dev0.scratchFor 0 1 4 ≠ none) ∧
    (let l : Launch := { num := 1, record := [0x1111 * 2 ^ 16, 0, 0, 0, 0, 0, 0, 0] }
     l.rolemap ≠ 0 ∧ 3 < l.roleCount 0 + l.roleCount 1 + l.roleCount 2 + l.roleCount 3) := by
  have some_and : ∀ {P : Dev → Bool} {e : Option Dev}, e.any P = true → ∃ m, e = some m ∧ P m = true := by
    intro P e h
    cases e with
    | none => cases h
    | some m => exact ⟨m, rfl, h⟩
  obtain ⟨m₁, h₁, h₂⟩ := some_and (e := placeDev.stash.placeUnit launch0 false [placeDev.stash.template launch0 0 0])
    (P := fun m => decide (m.launches = placeDev.stash.launches ∧ m.savedWaves = [])) (by decide +kernel)
  obtain ⟨m₂, h₃, h₄⟩ := some_and (e := (childDev 0).stash.placeChild 0 child0) (P := fun m => decide (m.dies.length = 8)) (by decide +kernel)
  exact ⟨⟨⟨rfl, .inl rfl, by decide, rfl⟩, rfl, by decide, rfl, rfl, by decide, by decide, rfl, rfl, rfl, rfl, rfl, no_spawns (by decide +kernel), m₁, h₁,
      (of_decide_eq_true h₂).1, (of_decide_eq_true h₂).2⟩,
    ⟨⟨rfl, .inl rfl, by decide, rfl⟩, rfl, rfl, no_spawns (by decide +kernel)⟩,
    ⟨⟨rfl, .inl rfl, by decide, rfl⟩, rfl, ⟨_, rfl, by decide, rfl, by decide +kernel⟩, rfl, no_spawns (by decide +kernel)⟩,
    ⟨⟨rfl, .inl rfl, by decide, rfl⟩, rfl⟩,
    ⟨⟨rfl, .inl rfl, by decide, rfl⟩, by decide +kernel, rfl, by decide +kernel, ⟨_, rfl, by decide⟩, by decide +kernel, m₂, h₃, of_decide_eq_true h₄⟩, by decide +kernel,
    ⟨by decide, by decide +kernel⟩, by decide, by decide⟩

/-! ## Blocks, errors, saving -/

/-- A wave of core 0 whose fragment waits for blocks, at the head of the queue. -/
def waitDev (n : Nat) (point : Bool) : Dev :=
  { dev0 with frag := { dev0.frag with wait := .blocks n point, phase := 19 }, cores := [(0, { core0 with queue := [(1, 1)] })] }
/-- The base window of a wave is spilt, and a fragment waits for its blocks (R185, R200). -/
def fillDev (n : Nat) : Dev :=
  { waitDev n false with frag := { dev0.frag with wait := .fill n, phase := 19 }, wave := { dev0.wave with base := { units := 4, spilt := some 0 } } }

theorem meets_BlocksAreGrantedAndErrorsRollBack :
    (let m := (waitDev 3 false).stash
     (m.core 0).queue = [(1, 1)] ∧ (∃ f, HasFrag m 1 1 f ∧ WantsBlocks f 3 false) ∧ 3 ≤ m.freeBlocks 0) ∧
    (let m := (fillDev 3).stash
     (m.core 0).queue = [(1, 1)] ∧ (∃ f, HasFrag m 1 1 f ∧ WantsFill f 3) ∧ 3 ≤ m.freeBlocks 0) ∧
    (∀ m ∈ [(waitDev 600 false).stash, (waitDev 600 true).stash, (fillDev 600).stash], Deadlock m 0 ∧
      ∃ w f, (m.allWaves.filter fun x => decide (x.coreNo = 0)) = [w] ∧ m.waveOf w.uid = some w ∧ w.frags = [f] ∧
        (f.wait = .blocks 600 false ∨ f.wait = .blocks 600 true ∨ f.wait = .fill 600) ∧ f.phase = 19) ∧
    ¬ Deadlock dev0.stash 0 ∧
    (let m := dev0.load 1 1
     m.frag.fid = 1 ∧ m.wave.uid = 1 ∧ m.wave.super = false ∧ m.wave.handler = none ∧ m.wave.wavectl.getLsbD 1 = false ∧
       m.wave.region.rollbacks < 2 ∧ ((m.wave.stack.drop (m.wave.stack.length - m.wave.region.depth)).headD m.wave.base).spilt = none ∧
       ∀ g ∈ m.frags, ¬ (g.wait = .event ∧ g.phase = 1)) ∧
    (let m := Dev.load { dev0 with frag := asking 1 1 dev0.frag } 1 1
     m.frag.fid = 1 ∧ m.wave.uid = 1 ∧ ∃ g ∈ m.frags, g.wait = .event ∧ g.phase = 1 ∧ g.asked = some (room0 1)) ∧
    (let m := Dev.load (withTable { dev0 with wave := { dev0.wave with base := { units := 4, spilt := some 0 } } }) 1 1
     let now := (m.wave.stack.drop (m.wave.stack.length - m.wave.region.depth)).headD m.wave.base
     now.spilt = some 0 ∧ ∃ ss, m.engineSpans m.wave.ctx (m.wave.spillArea + 0) (m.wave.spillBytes now.units) true false = .ok ss) ∧
    (let m := Dev.load { dev0 with wave := { dev0.wave with region := { rollbacks := 2 } } } 1 1
     m.frag.fid = 1 ∧ m.wave.uid = 1 ∧ 2 ≤ m.wave.region.rollbacks) := by
  refine ⟨⟨rfl, ⟨_, ⟨by decide, _, rfl, rfl⟩, rfl, rfl⟩, by decide +kernel⟩, ⟨rfl, ⟨_, ⟨by decide, _, rfl, rfl⟩, rfl, rfl⟩, by decide +kernel⟩,
    fun m hm => ?_, by unfold Deadlock; decide +kernel, ⟨rfl, rfl, rfl, rfl, by decide, by decide, rfl, by decide +kernel⟩,
    ⟨rfl, rfl, asking 1 1 dev0.frag, by decide +kernel, rfl, rfl, rfl⟩, ⟨rfl, ?_⟩, rfl, rfl, by decide⟩
  · simp only [List.mem_cons, List.not_mem_nil, or_false] at hm
    rcases hm with rfl | rfl | rfl
    · exact ⟨by unfold Deadlock; decide +kernel, _, _, rfl, rfl, rfl, .inl rfl, rfl⟩
    · exact ⟨by unfold Deadlock; decide +kernel, _, _, rfl, rfl, rfl, .inr (.inl rfl), rfl⟩
    · exact ⟨by unfold Deadlock; decide +kernel, _, _, rfl, rfl, rfl, .inr (.inr rfl), rfl⟩
  · obtain ⟨ss, h, _⟩ := ok_and (P := fun _ : List Span => True)
      (e := (Dev.load (withTable { dev0 with wave := { dev0.wave with base := { units := 4, spilt := some 0 } } }) 1 1).engineSpans 0 0 4096 true false)
      (by decide +kernel)
    exact ⟨ss, h⟩

/-- A victim at a pre-emption point, in a context whose save slots are numbered below `slots`. -/
def victimDev (slots : Nat) : Dev :=
  { dev0 with wave := { dev0.wave with victim := true, scratch := 1 }, mem := { bytes := ctxCells slots 0 } }
def victim0 : Wave := { (victimDev 3).wave with frags := [(victimDev 3).frag] }
def leavesPlace (m : Dev) (w : Wave) : Dev := ((m.modWave w.uid fun _ => w.closeHeld).withdrawWaits w.closeHeld).release w.coreNo 3

/-- Of a gang, one wave is saved and one is a victim that has not gone. -/
theorem meets_AGangResumesWhole :
    let m := Dev.stash { placeDev with waves := [{ uid := 2, launch := 1, gang := some 0, victim := true }],
                                       savedWaves := [{ saved0 with wave := { saved0.wave with gang := some 0 } }] }
    (∃ x, m.savedWaves.find? (fun y => y.wave.uid = 1) = some x ∧ ∃ g, x.wave.gang = some g ∧
      ∃ v ∈ m.allWaves, v.victim = true ∧ v.gang = some g ∧ v.clusterNo = x.wave.clusterNo) ∧
    (∃ g ∈ [asking 1 1 dev0.frag], g.wait = .event ∧ g.phase = 1 ∧ g.asked = some (room0 1)) :=
  ⟨⟨_, rfl, 0, rfl, { uid := 2, launch := 1, gang := some 0, victim := true }, List.mem_singleton_self _, rfl, rfl, rfl⟩,
   _, List.mem_singleton_self _, rfl, rfl, rfl⟩

theorem meets_WavesAreSavedAndResumed :
    (∀ slots ∈ [0, 3], let m := (victimDev slots).stash; m.waveOf 1 = some victim0 ∧ m.saveReady victim0 = true) ∧
    (let m₁ := leavesPlace (victimDev 0).stash victim0
     m₁.freeSlot victim0.ctx (m₁.saveSlots victim0.ctx) 1 = .ok none) ∧
    (let m₁ := leavesPlace (victimDev 3).stash victim0
     let record := saveRecord (victim0.closeHeld.asSaved []) [] (m₁.bytesAt (.arr victim0.coreNo victim0.scrbase) (1024 * victim0.scratch))
     victim0.scratch ≠ 0 ∧ (m₁.cluster victim0.clusterNo).mqueue = [] ∧ m₁.freeSlot victim0.ctx (m₁.saveSlots victim0.ctx) 1 = .ok (some 1) ∧
       record.length = 11264 ∧ 11264 ≤ 2 ^ m₁.saveShift victim0.ctx ∧
       m₁.engineSpans victim0.ctx (m₁.saveVa victim0.ctx + 1 * 2 ^ m₁.saveShift victim0.ctx) 11264 false true = .ok [⟨.dev 0x220000, 11264⟩] ∧
       (m₁.core victim0.coreNo).l1 = [] ∧ Exists (.dev 0x220000) 11264 ∧ m₁.bitmapLoc victim0.ctx (1 / 8) = .ok (.dev 0x210000) ∧
       Exists (.dev 0x210000) 1 ∧ ∀ j, j < 11264 → Loc.dev 0x210000 ≠ (Loc.dev 0x220000).add j) ∧
    (victim0.xregs.length = 8 ∧ victim0.control = false ∧ victim0.wlanes % 32 = 0 ∧ victim0.base.spilt = none ∧ ∃ f, victim0.frags = [f]) ∧
    (∀ b ∈ [0, 1], let m := (savedDev b).stash
      let x : SavedWave := { saved0 with record := List.replicate 8 b }
      Launching (at0 (savedDev b)) ∧ m.savedWaves.find? (fun y => y.wave.uid = x.wave.uid) = some x ∧ m.unitWhole x = true ∧ m.savedUnit x = [x] ∧
        (∃ l, m.launchOf x.wave.launch = some l ∧ ∃ m₁, m.placeSaved l [x] = some m₁ ∧
          let m₂ := { m₁ with savedWaves := m₁.savedWaves.filter fun y => decide (y.wave.uid ≠ x.wave.uid) }
          ∃ w, m₂.waveOf x.wave.uid = some w ∧
            m₂.engineSpans w.ctx (m₂.saveVa w.ctx + x.slotNo * 2 ^ m₂.saveShift w.ctx) x.record.length true false = .ok [⟨.dev 0x220000, 8⟩] ∧
            (m₂.readSpans [⟨.dev 0x220000, 8⟩] = x.record ↔ b = 0)) ∧
        m.waveOf x.wave.uid = none ∧ x.wave.monitor = none ∧ ∀ f ∈ x.wave.frags, f.fid ≠ 0) := by
  refine ⟨fun n hn => ?_, ok_eq (by decide +kernel),
    ⟨by decide, by decide +kernel, ok_eq (by decide +kernel), by decide +kernel, by decide +kernel, ok_eq (by decide +kernel), by decide +kernel,
     (fun _ h => by cases h; decide), ok_eq (by decide +kernel), (fun _ h => by cases h; decide), fun j _ h => by
      have : 0x210000 = 0x220000 + j := by injection h
      omega⟩,
    ⟨rfl, by decide, by decide, rfl, _, rfl⟩, fun b hb => ?_⟩
  · have h : n = 0 ∨ n = 3 := by simpa using hn
    rcases h with h | h <;> subst h <;> exact ⟨rfl, by decide⟩
  · have back : ∀ (b : Byte) (l : Launch) (x : SavedWave), (match (savedDev b).stash.placeSaved l [x] with
        | none => false
        | some m₁ =>
          let m₂ := { m₁ with savedWaves := m₁.savedWaves.filter fun y => decide (y.wave.uid ≠ x.wave.uid) }
          match m₂.waveOf x.wave.uid with
          | none => false
          | some w => (match m₂.engineSpans w.ctx (m₂.saveVa w.ctx + x.slotNo * 2 ^ m₂.saveShift w.ctx) x.record.length true false with
              | .ok ss => decide (ss = [⟨.dev 0x220000, 8⟩]) | .error _ => false) &&
            decide (m₂.readSpans [⟨.dev 0x220000, 8⟩] = x.record ↔ b = 0)) = true →
        ∃ m₁, (savedDev b).stash.placeSaved l [x] = some m₁ ∧
          let m₂ := { m₁ with savedWaves := m₁.savedWaves.filter fun y => decide (y.wave.uid ≠ x.wave.uid) }
          ∃ w, m₂.waveOf x.wave.uid = some w ∧
            m₂.engineSpans w.ctx (m₂.saveVa w.ctx + x.slotNo * 2 ^ m₂.saveShift w.ctx) x.record.length true false = .ok [⟨.dev 0x220000, 8⟩] ∧
            (m₂.readSpans [⟨.dev 0x220000, 8⟩] = x.record ↔ b = 0) := by
      intro b l x h
      cases e : (savedDev b).stash.placeSaved l [x] with
      | none => rw [e] at h; cases h
      | some m₁ =>
        refine ⟨m₁, rfl, ?_⟩
        rw [e] at h
        simp only at h
        split at h
        · cases h
        · next w hw =>
          simp only [Bool.and_eq_true, decide_eq_true_eq] at h
          have h1 := h.1
          split at h1
          · next ss hs => exact ⟨w, hw, hs.trans (congrArg _ (of_decide_eq_true h1)), h.2⟩
          · cases h1
    have h : b = 0 ∨ b = 1 := by simpa using hb
    rcases h with h | h <;> subst h <;>
      exact ⟨⟨rfl, .inl rfl, by decide, rfl⟩, rfl, by decide +kernel, rfl, ⟨_, rfl, back _ _ _ (by decide +kernel)⟩, rfl, rfl, by decide⟩

/-- Import entry 0 (R69): sources 3 to 5, PERM `perm`, 64 KiB of context 0 from VA 0; the page table as before. -/
def importDev (perm : Nat) : Dev :=
  { host := { impbase := 0x30000 }, ports := { up := true } :: List.replicate 23 {},
    mem := { bytes := ctxCells 0 0 ++ cellsAt 0x30000 [0, 0, 65536, 2 ^ 63 + perm * 2 ^ 60 + 5 * 2 ^ 40 + 3 * 2 ^ 26] } }
def peerReq0 (source offset : Nat) (kind : PeerKind) : PeerReq := { port := 0, source, kind, impidx := 0, offset, size := 4 }
def lastCheck (m : Dev) (r : PeerReq) : Bool :=
  match peerSpans m r with | .ok ss => decide (ss = [⟨.dev (0x200000 + r.offset), 4⟩]) && decide (true ∉ m.poisonSpans ss) | .error _ => false
theorem peers_first (k : PeerKind) (h : (fld ((importDev 7).impDword 0 3) 62 60).testBit (kindBit k) = true) (j : Nat) (hj : j < 5) :
    peerCheck (importDev 7) (peerReq0 4 65532 k) j :=
  match j, hj with
  | 0, _ => (show peerCheck (importDev 7) (peerReq0 4 65532 .load) 0 from show _ ∧ _ by decide +kernel)
  | 1, _ => (show peerCheck (importDev 7) (peerReq0 4 65532 .load) 1 from show _ ∧ _ by decide +kernel)
  | 2, _ => (show peerCheck (importDev 7) (peerReq0 4 65532 .load) 2 from show _ ≤ _ by decide +kernel)
  | 3, _ => h
  | 4, _ => (show peerCheck (importDev 7) (peerReq0 4 65532 .load) 4 from show _ = true by decide +kernel)

/-- The outstanding request of lane 3, which has left port 0; the fragment holds results in lookahead windows. -/
def respDev (what : PeerFor) (held : List Held) : Dev :=
  Dev.stash { engDev [] [putCmd false false false false] [] with
     frag := { dev0.frag with held }, ports := { up := true } :: List.replicate 23 {},
     peers := [{ id := 1, wave := 1, err := 0, addr := 0xFA * 2 ^ 56 + 2 ^ 42, size := 8, what, port := some 0, left := true }] }

theorem none_held {w : Wave} {f : Frag} (h : w.frags = [{ f with held := [] }]) {n hold : Nat} (hn : n < 128) : InPlace w n hold :=
  ⟨hn, fun x hx y hy => by rw [h] at hx; cases List.mem_singleton.mp hx; cases hy⟩

theorem meets_PeerRequestsAndAnswers :
    (State.reset.port 0).up = false ∧
    (let s : State := { dev := importDev 7 }; Serves s 0 ∧ (s.port 0).up = true ∧ s.pkg.peererr.getLsbD 63 = false) ∧
    (let s : State := { dev := { ports := { up := true } :: List.replicate 23 {} } }
     Serves s 0 ∧ (s.port 0).up = true ∧ ¬ peerCheck s.dev.stash (peerReq0 3 0 .load) 0) ∧
    ((∀ j, j < 1 → peerCheck (importDev 7) (peerReq0 2 0 .load) j) ∧ ¬ peerCheck (importDev 7) (peerReq0 2 0 .load) 1) ∧
    ((∀ j, j < 2 → peerCheck (importDev 7) (peerReq0 5 65533 .load) j) ∧ ¬ peerCheck (importDev 7) (peerReq0 5 65533 .load) 2) ∧
    ((∀ j, j < 3 → peerCheck (importDev 1) (peerReq0 3 0 (.store [(0, true), (0, false), (0, false), (0, false)])) j) ∧
      ¬ peerCheck (importDev 1) (peerReq0 3 0 (.store [(0, true), (0, false), (0, false), (0, false)])) 3) ∧
    (∀ k ∈ [PeerKind.load, .store [(1, true), (2, true), (3, false), (4, false)], .atomic 0 1 0],
      (∀ j, j ≤ 6 → peerCheck (importDev 7) (peerReq0 4 65532 k) j) ∧ peerSpans (importDev 7) (peerReq0 4 65532 k) = .ok [⟨.dev 0x20FFFC, 4⟩]) ∧
    (Exists (.dev 0x20FFFC) 4 ∧ (importDev 7).stash = importDev 7) ∧
    (∀ hi ∈ [none, some { name := 1, hold := 1 }], let m := respDev (.load (some { name := 0, hold := 1 }) hi 0 3 true) []
     ∃ w p, m.peers.find? (fun x => x.id = 1) = some p ∧ Answerable { dev := m } p ∧ m.waveOf p.wave = some w ∧ w.peerReg 0 = 0 ∧ w.peerReg 1 = 1 ∧
       p.wave ≠ 0 ∧ InPlace w 0 1 ∧ InPlace w 1 1) ∧
    (let m := respDev (.load (some { name := 0, hold := 1 }) none 0 3 true) [{ left := 2, reg := 0, lanes := 15, hold := 1 }]
     ∃ w p, m.peers.find? (fun x => x.id = 1) = some p ∧ Answerable { dev := m } p ∧ m.waveOf p.wave = some w ∧ p.wave ≠ 0 ∧
       w.peerReg 0 = 0 ∧ HeldIn w 0 1) ∧
    (∀ what ∈ [PeerFor.store, .cmd 3], ∃ w p, (respDev what []).peers.find? (fun x => x.id = 1) = some p ∧
      Answerable { dev := respDev what [] } p ∧ (respDev what []).waveOf p.wave = some w ∧ p.what = what) ∧
    ((respDev (.cmd 3) []).cmds.find? (fun x => x.id = 3) = some (putCmd false false false false) ∧ Exists (.arr 0 64) 8 ∧
      MayTouch (respDev (.cmd 3) []) 0 (.arr 0 64) 8) ∧
    (∀ x ∈ State.reset.dev.peers, x.id = 1 → ¬ Answerable State.reset x) := by
  refine ⟨rfl, ⟨⟨rfl, .inl rfl, by decide, by decide⟩, rfl, by decide⟩,
    ⟨⟨rfl, .inl rfl, by decide, by decide⟩, rfl, fun h => absurd h.1 (by decide +kernel)⟩,
    ⟨fun j hj => ?_, fun h => absurd h.1 (by decide +kernel)⟩, ⟨fun j hj => ?_, fun h => absurd h (show ¬ (_ ≤ _) by decide +kernel)⟩,
    ⟨fun j hj => ?_, fun h => absurd h (show ¬ (_ = true) by decide +kernel)⟩, fun k hk => ?_, ⟨fun pa h => by cases h; decide, rfl⟩,
    fun hi hh => ?_, ⟨_, _, rfl, ⟨rfl, _, rfl, rfl⟩, rfl, by decide, by decide, ⟨by decide, _, List.mem_singleton_self _, _, List.mem_singleton_self _, rfl, rfl, rfl⟩⟩, fun what hw => ?_,
    ⟨rfl, exists_arr _ _ _, fun _ _ => rfl⟩, fun _ h => nomatch h⟩
  · match j, hj with
    | 0, _ => show _ ∧ _; decide +kernel
  · match j, hj with
    | 0, _ => show _ ∧ _; decide +kernel
    | 1, _ => show _ ∧ _; decide +kernel
  · match j, hj with
    | 0, _ => show _ ∧ _; decide +kernel
    | 1, _ => show _ ∧ _; decide +kernel
    | 2, _ => show _ ≤ _; decide +kernel
  · have h : k = .load ∨ k = .store [(1, true), (2, true), (3, false), (4, false)] ∨ k = .atomic 0 1 0 := by simpa using hk
    have sp : peerSpans (importDev 7) (peerReq0 4 65532 k) = .ok [⟨.dev 0x20FFFC, 4⟩] := by
      rcases h with h | h | h <;> subst h <;> exact ok_eq (by decide +kernel)
    refine ⟨fun j hj => ?_, sp⟩
    rcases Nat.lt_or_ge j 5 with h5 | h5
    · exact peers_first k (by rcases h with h | h | h <;> subst h <;> decide +kernel) j h5
    · rcases Nat.lt_or_ge j 6 with h6 | h6
      · have : j = 5 := by omega
        subst this; exact ⟨_, sp⟩
      · have : j = 6 := by omega
        subst this
        intro _ ss hs
        rw [sp] at hs
        injection hs with hs
        subst hs
        decide +kernel
  · have h : hi = none ∨ hi = some { name := 1, hold := 1 } := by simpa using hh
    rcases h with h | h <;> subst h <;>
      exact ⟨_, _, rfl, ⟨rfl, _, rfl, rfl⟩, rfl, by decide, by decide, by decide, none_held rfl (by decide), none_held rfl (by decide)⟩
  · have h : what = .store ∨ what = .cmd 3 := by simpa using hw
    rcases h with h | h <;> subst h <;> exact ⟨_, _, rfl, ⟨rfl, _, rfl, rfl⟩, rfl, rfl⟩

/-! ## Steps, encodings, invariants -/

/-- A wave whose segment 0 holds `ADDI s1, s2, -1`, a word of OP 0 at offset 4 and a word of no instruction at offset 8. -/
def codeDev (spc : Nat) : Dev :=
  { dev0 with cores := [(0, { core0 with segs := { st := .landed, owner := .launch 1, code := cells32 } :: core0.segs.tail })],
              frag := { dev0.frag with spc } }
where cells32 : Cells 8 := ((List.range 12).zip [0xFF, 0xBF, 0x10, 0x08, 5, 0, 0, 0, 0, 0, 0, 0xE8]).map fun (x : Nat × Nat) => (x.1, BitVec.ofNat 8 x.2)

/-- A block of lane code with one `FADD` at the lane PC, which one lane instruction more is to issue. -/
def laneCode : Dev :=
  { dev0 with cores := [(0, { core0 with segs := setAt {} core0.segs 1 { st := .landed, lane := true, owner := .launch 1, code } })],
              frag := { dev0.frag with lpc := 2 ^ 14 + 4 * 0, lrem := 1 }, turns := [.core 0] }
where
  word : LaneWord := 0x040#10 ++ 1#7 ++ 2#7 ++ 3#7 ++ 0#65
  code : Cells 8 := Cells.putBytes [] 0 (leBytes 4 0x12000000 ++ leBytes 12 word.toNat)

def nextIs (n : Next) (P : Dev → Bool) : Bool := match n with | .wave m => P m | _ => false
theorem wave_turn {n : Next} {P : Dev → Prop} [DecidablePred P] (h : nextIs n (fun m => decide (P m)) = true) : ∃ m, n = .wave m ∧ P m := by
  cases n with
  | wave m => exact ⟨m, rfl, of_decide_eq_true h⟩
  | event _ _ => cases h
  | idle _ => cases h

/-- The fragment starts an instruction, its window in registers. -/
def starts (m : Dev) : Bool :=
  decide (m.frag.todo = []) && decide (m.frag.instr = none) && decide (m.wave.cur.spilt = none) && (match m.frag.wait with | .fill _ => false | _ => true)

theorem meets_StepRunsTheDecodedInstruction :
    (∀ spc ∈ [0, 4, 8], let s := at0 { codeDev spc with turns := [.core 0] }
     ∃ m, s.dev.turn s.live s.asleep = .wave m ∧ (starts m = true ∧ m.frag.lrem = 0 ∧ m.frag.spc % 4 = 0 ∧
       m.checkFetch m.frag.spc m.frag.fell false = none ∧ BitVec.ofNat 32 (m.codeBytes m.frag.spc 4) = BitVec.ofNat 32 ((codeDev spc).codeBytes spc 4))) ∧
    (decodeScalar (BitVec.ofNat 32 ((codeDev 0).codeBytes 0 4)) = .ok (.addi 1 2 0x3FFF) ∧ (Instr.addi 1 2 0x3FFF).wellFormed = true) ∧
    (BitVec.ofNat 32 ((codeDev 4).codeBytes 4 4)).extractLsb' 26 6 = 0 ∧
    decodeScalar (BitVec.ofNat 32 ((codeDev 8).codeBytes 8 4)) = .error .illegalOpcode ∧
    (let s := at0 { codeDev 0 with frag := { (codeDev 0).frag with instr := some .nop, phase := 1 }, turns := [.core 0] }
     ∃ m, s.dev.turn s.live s.asleep = .wave m ∧ (m.frag.todo = [] ∧ m.frag.instr = some .nop ∧ m.frag.phase ≠ 0 ∧ m.frag.wait = .none)) ∧
    (let d := codeDev 0
     let s := at0 { d with wave := { d.wave with base := { units := 4, spilt := some 0 } }, turns := [.core 0] }
     ∃ m, s.dev.turn s.live s.asleep = .wave m ∧ (m.frag.todo = [] ∧ m.wave.cur.spilt = some 0 ∧ m.wave.super = false ∧ m.frag.phase = 0)) ∧
    (let s := at0 laneCode
     ∃ m, s.dev.turn s.live s.asleep = .wave m ∧ (starts m = true ∧ 0 < m.frag.lrem ∧ m.frag.resumed = false ∧ m.frag.lepcBad = false ∧
       (match m.laneBlock with | .ok n => decide (n = 1) | .error _ => false) = true ∧ m.frag.lpc / 4 % 16 < 1 ∧
       decodeLane (BitVec.ofNat 96 (m.codeBytes (m.frag.lpc / 64 * 64 + 4 + 12 * (m.frag.lpc / 4 % 16)) 12)) = .ok (.fadd { vd := 1, va := 2, vb := 3 }))) ∧
    ((at0 { codeDev 0 with turns := [.core 0] }).dev.turns = [.core 0] ∧ (at0 (codeDev 0)).live = true ∧
      (codeDev 0).host.biasreq.getLsbD 63 = false) ∧
    (∃ c, (Dev.stash { codeDev 0 with turns := [] }).pick 0 = some c ∧ (codeDev 0).stash.nextSave = none ∧ (codeDev 0).stash.nextCore = some 0 ∧
      (codeDev 0).stash.deadlockedCore = none ∧ (codeDev 0).turns = [] ∧ (codeDev 0).agenda = []) ∧
    (let m := waitDev 600 true
     m.turns = [] ∧ m.agenda = [] ∧ (at0 m).live = true ∧ m.stash.nextSave = none ∧ m.stash.deadlockedCore = some 0) ∧
    ((at0 { dev0 with host := { biasreq := 0x8000000000000080 } }).live = true ∧ (0x8000000000000080 : DWord).getLsbD 63 = true ∧ dev0.turns = []) ∧
    (∀ i ∈ [Instr.lqService 0, .peerRequest (peerReq0 4 0 .load), .retireUnit (.core 0 0 0)],
      let s : State := { dev := { dev0 with host := { biasreq := 0x8000000000000080 }, turns := [.event i] }, pwr := { state := .p2 } }
      s.asleep = true ∧ s.dev.host.biasreq.getLsbD 63 = true ∧ s.dev.turns = [.event i]) ∧
    (isEvent .placementTurn = true ∧ let s := at0 { codeDev 0 with turns := [.event .placementTurn] }
      ∃ m, s.dev.turn s.live s.asleep = .event .placementTurn m) := by
  refine ⟨fun spc hs => wave_turn (by revert spc; decide +kernel), ⟨by decide +kernel, by decide⟩, by decide +kernel, by decide +kernel,
    wave_turn (by decide +kernel), wave_turn (by decide +kernel), wave_turn (by decide +kernel), ⟨rfl, by decide +kernel, by decide⟩, ?_, by decide +kernel,
    by decide +kernel, (fun i _ => ⟨rfl, (by decide : (0x8000000000000080 : DWord).getLsbD 63 = true), rfl⟩), rfl, _, rfl⟩
  obtain ⟨c, hc⟩ := Option.isSome_iff_exists.mp (show ((Dev.stash { codeDev 0 with turns := [] }).pick 0).isSome = true by decide +kernel)
  exact ⟨c, hc, by decide +kernel⟩

theorem meets_EncodingsAndInstructionsAgree :
    ((Instr.addi 1 2 0x3FFF).wellFormed = true ∧ encodeScalar (.addi 1 2 0x3FFF) ≠ none ∧ (Instr.trapz 5).wellFormed = true ∧
      encodeScalar (.trapz 5) ≠ none ∧ (Instr.fadd { vd := 1, va := 2, vb := 3 }).wellFormed = true ∧ encodeLane (.fadd { vd := 1, va := 2, vb := 3 }) ≠ none) ∧
    (∃ i, decodeScalar 0x0810BFFF = .ok i) ∧ ∃ i, decodeLane (0x040#10 ++ 1#7 ++ 2#7 ++ 3#7 ++ 0#65) = .ok i :=
  ⟨by decide, ⟨.addi 1 2 0x3FFF, rfl⟩, .fadd { vd := 1, va := 2, vb := 3 }, rfl⟩

theorem meets_EveryStepKeepsThePackageInvariant :
    State.reset.Ok ∧ (∃ s', step State.reset = .next s') ∧ isEvent (.addi 1 2 3) = false ∧ ∃ s', exec (.addi 1 2 3) (at0 dev0) = .next s' :=
  ⟨⟨⟨by decide, by decide, by decide, by decide, by decide, by decide, fun _ => ⟨rfl, rfl⟩⟩,
    ⟨(fun h => nomatch h), (fun h => nomatch h), fun h => by rcases h with h | h <;> cases h⟩, ⟨fun _ => ⟨rfl, rfl⟩, (fun h => nomatch h), rfl⟩⟩,
   ⟨_, rfl⟩, rfl, _, rfl⟩


/-! ## Results of the spec's worked examples -/

/-- The device after one instruction. -/
def after1 (i : Instr) (m : Dev) : Dev := match exec i (at0 m) with | .next s => s.dev | _ => {}
/-- Register `r` in the first `n` lanes. -/
def lanesOfReg (m : Dev) (r n : Nat) : List Word := (List.range n).map fun l => m.wave.vget r 0 l

/-- R413. -/
theorem test_divs_w :
    (after1 (.salu 3 1 2 1 12) (withS [(1, 0x80000000), (2, 0xFFFFFFFFFFFFFFFF)])).s 3 = 0xFFFFFFFF80000000 := by decide +kernel

/-- 01: core 5 of cluster 9 on CD2 has been retired. -/
theorem test_retired_core : (after1 (.retireUnit (.core 2 9 5)) {}).cap.clcap (16 * 2 + 9) = 0xFDF := by decide +kernel

/-- 22: a conversion that overflows under FAULT traps, and under SAT writes the elements of the example. -/
def cvt0 : LaneF := { vd := 7, va := 3, ty := 3, imm := 32 * 8 }
def cvtDev (ovf : BitVec 2) : Dev :=
  exDev 4 { ovfmode := ovf } ([(3, 0, 0x3F800000), (3, 1, 0x40000000), (3, 2, 0x44160000), (3, 3, 0xC0400000)] ++
    (List.range 4).map fun l => (7, l, 0xAAAAAAAA))
theorem test_cvt_saturates : lanesOfReg (after1 (.cvt cvt0) (cvtDev 0)) 7 4 = [0x3800, 0x4000, 0x7E00, 0xC400] := by decide +kernel
theorem test_cvt_faults :
    let m := after1 (.cvt cvt0) (cvtDev 2)
    lanesOfReg m 7 4 = List.replicate 4 0xAAAAAAAA ∧ m.wave.trap.scause = 0x30 ∧ m.wave.trap.kf = 15 ∧ m.wave.trap.stval = 2 := by
  decide +kernel

/-- 14: one conversion with an outlier. The list stands at VA 0. -/
theorem test_outlier :
    let m := after1 (.cvt outF) (outDev 8)
    lanesOfReg m 7 4 = [0x45, 0, 2, 0xBC] ∧ m.strongDword 0 0x10000 = 1 ∧ m.strongDword 0 0x10010 = 0x43FA000000000403 ∧
      m.strongDword 0 0x10018 = 0x600004 := by decide +kernel

/-- 22: a logarithmic dot product. -/
def logDev (a : BitVec 8) : Dev := exDev 1 { ascale := a } [(4, 0, 0x40780401), (5, 0, 0x00900401)]
theorem test_lmul : lanesOfReg (after1 (.lmul { vd := 8, va := 4, vb := 5, ty := 10 }) (logDev 0)) 8 1 = [0x40880802] := by decide +kernel
theorem test_lsum : lanesOfReg (after1 (.lsum { vd := 9, va := 4, vb := 5, ty := 10 }) (logDev 0)) 9 1 = [0x3F983800] ∧
    lanesOfReg (after1 (.lsum { vd := 9, va := 4, vb := 5, ty := 10 }) (logDev 1)) 9 1 = [0x40183800] := by decide +kernel

/-- 23: four lanes on one counter, a prefix and a sum. -/
def countDev : Dev :=
  let m := exDev 4 {} ([(5, 0, 1), (5, 1, 2), (5, 2, 3), (5, 3, 4)] ++ (List.range 5).map fun l => (6, l, 0xFFFFFFFF))
  { m with wave := { m.wave with xregs := [{}, { base := own, frame := 0, limit := 1024, attr := 0x1F }, {}, {}, {}, {}, {}, {}] },
           cores := [(0, { m.core 0 with arr := { bytes := [(0, 10)] } })] }
theorem test_atom_add :
    let m := after1 (.atom { vd := 6, va := 4, vb := 5, ty := 4, mode := 0x32, xs := 1 }) countDev
    lanesOfReg m 6 5 = [10, 11, 13, 16, 0xFFFFFFFF] ∧ m.byteAt (.arr 0 0) = 20 ∧ m.wave.wavectl = 2 := by decide +kernel
theorem test_scan_exclusive : lanesOfReg (after1 (.scan { vd := 7, va := 5, mode := 0x0D }) countDev) 7 4 = [0, 1, 3, 6] := by decide +kernel
theorem test_reduce : (after1 (.reduce { vd := 6, va := 5, mode := 0x09 }) countDev).s 6 = 10 := by decide +kernel

/-- 17: one derivative. -/
def dualDev (l : List (Nat × Nat × Word)) (s2 : DWord) : Dev :=
  let m := exDev 1 {} l
  { m with wave := { m.wave with tang := 1, sregs := [(2, s2)] } }
theorem test_fmul_tangent :
    let m := after1 (.fmul { vd := 5, va := 4, vb := 2, ty := 0, mode := 0x80 }) (dualDev [(4, 0, 0x40000000), (4, 1024, 0x3F800000)] 0x3F000000)
    (m.wave.vget 5 0 0, m.wave.vget 5 1 0) = (0x3F800000, 0x3F000000) := by decide +kernel
theorem test_fexp2_tangent :
    let m := after1 (.fexp2 { vd := 6, va := 5 }) (dualDev [(5, 0, 0x3F800000), (5, 1024, 0x3F000000)] 0)
    (m.wave.vget 6 0 0, m.wave.vget 6 1 0) = (0x40000000, 0x3F317218) := by decide +kernel

/-- 15: one element through twelve terms: S, residue and queues after them, and the value that is drained. -/
def a24Int (x : Int) : Nat := a24.round 0 (.fin (decide (x < 0)) x.natAbs 0)
def twelve : PairElem :=
  [300, 300, -100, 200, 200, 200, 200, 200, 200, -400, 50, -50].foldl (fun (e : PairElem) (x : Int) => e.slot (.fin false 1 9) (a24Int x)) {}
theorem test_pairing : twelve.s = a24Int 300 ∧ twelve.p = [a24Int 200, a24Int 50] ∧ twelve.n = [a24Int (-50)] ∧
    twelve.r = f32.round 0 (.fin false 800 0) ∧
    f32.round 0 ((twelve.drain (.fin false 1 9) 8).value) = f32.round 0 (.fin false 1300 0) := by decide +kernel

/-- 18: three lanes, three causes (pages 0 and 2 are mapped, page 2 without USER; page 1 is not). -/
def causesDev : Dev :=
  let m := exDev 4 {} [(1, 0, 2), (1, 1, 0x10000), (1, 2, 0x20000), (1, 3, 4), (9, 3, 7)]
  { m with wave := { m.wave with xregs := List.replicate 8 {} },
           cores := [(0, { m.core 0 with tlb := [{ ctx := 0, page := 0, size := 65536, leaf := 0x1001F },
                                                 { ctx := 0, page := 2, size := 65536, leaf := 0x2000F }] })] }
theorem test_three_causes :
    let m := after1 (.ld { vd := 9, va := 1, mode := 2 }) causesDev
    m.wave.trap.scause = 0x13 ∧ m.wave.trap.kf = 7 ∧ (List.range 4).map m.wave.trap.lfaddr.get = [2, 0x10000, 0x20000, 0] ∧
      m.wave.vget 9 0 3 = 0 := by decide +kernel

end Sys2Proof.Tests
end

section
/-!
Frames: operations on memory, the agenda, places and barriers leave the waves and the launch table alone; a kill takes out its own
wave only.
-/
namespace Sys2Proof.Proofs.SecurityPower
open Sys2Proof.Machine Sys2Proof.Laws Sys2Proof.Claims

/-! ## What memory and the places of a core leave of the waves -/

/-- The loaded wave and fragment, the other waves and the launch table are as they were. -/
structure WavesKept (m m' : Dev) : Prop where
  wave     : m'.wave = m.wave
  frag     : m'.frag = m.frag
  waves    : m'.waves = m.waves
  launches : m'.launches = m.launches

theorem WavesKept.refl (m : Dev) : WavesKept m m := ⟨rfl, rfl, rfl, rfl⟩

theorem WavesKept.trans {a b c : Dev} (h : WavesKept a b) (k : WavesKept b c) : WavesKept a c :=
  ⟨k.wave.trans h.wave, k.frag.trans h.frag, k.waves.trans h.waves, k.launches.trans h.launches⟩

theorem WavesKept.after {a b c : Dev} (k : WavesKept b c) (h : WavesKept a b) : WavesKept a c := h.trans k

theorem wavesKept_foldl {α} (l : List α) (f : Dev → α → Dev) (hf : ∀ m x, WavesKept m (f m x)) (m : Dev) :
    WavesKept m (l.foldl f m) := by
  induction l generalizing m with
  | nil => exact .refl m
  | cons x t ih => exact (hf m x).trans (ih _)

/-! ### The agenda -/

theorem wavesKept_push (m : Dev) (i : Instr) : WavesKept m (m.push i) := by
  rw [push_same]; exact ⟨rfl, rfl, rfl, rfl⟩

theorem wavesKept_pushPlace (m : Dev) : WavesKept m m.pushPlace := by
  rw [(pushPlace_agenda m).1]; exact ⟨rfl, rfl, rfl, rfl⟩

theorem wavesKept_trigger (m : Dev) (l : Loc) (n : Nat) : WavesKept m (m.trigger l n) := by
  refine wavesKept_foldl _ _ (fun m x => ?_) m
  split
  · exact wavesKept_push m _
  · exact .refl m

/-! ### Writes at the homes -/

theorem wavesKept_homePut (m : Dev) (pa : Nat) (bs : List Byte) (p : Nat → Bool) : WavesKept m (m.homePut pa bs p) := by
  refine .trans ?_ (wavesKept_trigger _ _ _)
  split <;> exact ⟨rfl, rfl, rfl, rfl⟩

theorem wavesKept_homeLayer (m : Dev) (n : Nat) (y : Layer) : WavesKept m (m.homeLayer n y) := by
  have bytes : WavesKept m ((maskedBytes y.mask y.data).foldl
      (fun m (x : Nat × Byte) => m.homePut (128 * n + x.1) [x.2] fun _ => false) m) :=
    wavesKept_foldl _ _ (fun m _ => wavesKept_homePut m _ _ _) m
  simp only [Dev.homeLayer]
  split
  · exact bytes
  · exact bytes.trans ⟨rfl, rfl, rfl, rfl⟩

theorem wavesKept_dropTracked (m : Dev) (n : Nat) (p : Nat → Bool) : WavesKept m (m.dropTracked n p) := ⟨rfl, rfl, rfl, rfl⟩

theorem wavesKept_recall (m : Dev) (n : Nat) : WavesKept m (m.recall n) := by
  refine .trans (b := if m.dirty n = [] then m else m.homeLayer n (stacked (m.dirty n))) ?_ ⟨rfl, rfl, rfl, rfl⟩
  split
  · exact .refl m
  · exact wavesKept_homeLayer m _ _

theorem wavesKept_write (m : Dev) (l : Loc) (bs : List Byte) (p : Nat → Bool) : WavesKept m (m.write l bs p) := by
  cases l with
  | dev pa => exact (wavesKept_foldl _ _ (fun m _ => wavesKept_recall m _) m).trans (wavesKept_homePut _ _ _ _)
  | host pa => exact (wavesKept_trigger _ _ _).after ⟨rfl, rfl, rfl, rfl⟩
  | arr k o => exact (wavesKept_trigger _ _ _).after ⟨rfl, rfl, rfl, rfl⟩

theorem wavesKept_mergeHome (m : Dev) (n : Nat) (y : Layer) : WavesKept m (m.mergeHome n y) :=
  (wavesKept_recall m n).trans (wavesKept_homeLayer _ _ _)

/-! ### The die merge buffer and the atomic units -/

theorem wavesKept_homeLine (m : Dev) (d n : Nat) : WavesKept m (m.homeLine d n) := by
  simp only [Dev.homeLine]
  split
  · exact .refl m
  · exact (wavesKept_mergeHome _ _ _).after ⟨rfl, rfl, rfl, rfl⟩

theorem wavesKept_bufferRoom (m : Dev) (d n : Nat) : WavesKept m (m.bufferRoom d n) := by
  simp only [Dev.bufferRoom]
  split
  · exact .refl m
  · split
    · exact .refl m
    · exact wavesKept_homeLine m _ _

theorem wavesKept_bufferPut (m : Dev) (d n : Nat) (y : Layer) : WavesKept m (m.bufferPut d n y) := by
  simp only [Dev.bufferPut]
  split <;> exact ⟨rfl, rfl, rfl, rfl⟩

theorem wavesKept_mergeDie (m : Dev) (d n : Nat) (y : Layer) : WavesKept m (m.mergeDie d n y) := by
  have put (z : Layer) : WavesKept m (((m.bufferRoom d n).dropTracked n fun k => k / 208 = d).bufferPut d n z) :=
    (wavesKept_bufferPut _ d n z).after ((wavesKept_bufferRoom m d n).trans (wavesKept_dropTracked _ _ _))
  simp only [Dev.mergeDie]
  split
  · exact .refl m
  · split
    · exact put _
    · exact (put _).trans (wavesKept_homeLine _ _ _)

theorem wavesKept_flushLine (m : Dev) (k n : Nat) : WavesKept m (m.flushLine k n) := by
  simp only [Dev.flushLine]
  split
  · split
    · exact (wavesKept_mergeDie _ _ _ _).after ⟨rfl, rfl, rfl, rfl⟩
    · split <;> exact ⟨rfl, rfl, rfl, rfl⟩
  · exact .refl m

theorem wavesKept_unitLine (m : Dev) (d n : Nat) : WavesKept m (m.unitLine d n) := ⟨rfl, rfl, rfl, rfl⟩

theorem wavesKept_atomicLine (m : Dev) (k n sc : Nat) : WavesKept m (m.atomicLine k n sc) := by
  simp only [Dev.atomicLine]
  split
  · exact (wavesKept_flushLine m k n).trans (wavesKept_unitLine _ _ _)
  · exact ((wavesKept_flushLine m k n).trans (wavesKept_homeLine _ _ _)).trans (wavesKept_recall _ _)

theorem wavesKept_shedPending (m : Dev) (n : Nat) (mask : BitVec 128) (covered : Bool) (p : Nat → Bool) :
    WavesKept m (m.shedPending n mask covered p).2 := ⟨rfl, rfl, rfl, rfl⟩

theorem wavesKept_atomicPut (m : Dev) (k sc : Nat) (l : Loc) (bs : List (Byte × Bool)) : WavesKept m (m.atomicPut k sc l bs) := by
  cases l with
  | dev pa =>
    simp only [Dev.atomicPut]
    split
    · exact ⟨rfl, rfl, rfl, rfl⟩
    · exact (wavesKept_mergeHome _ _ _).after (wavesKept_shedPending m _ _ (k % 13 ≠ 12) fun j => j / 13 = k / 13)
  | host pa => exact wavesKept_write m (.host pa) _ fun i => (bs.getD i (0, false)).2
  | arr j o => exact wavesKept_write m (.arr j o) _ fun i => (bs.getD i (0, false)).2

/-! ### The L1 -/

theorem wavesKept_mergeShadow (m : Dev) (k : Nat) (l : Line) : WavesKept m (m.mergeShadow k l) := by
  refine .trans (b := if l.num ≥ hostLine then m else m.atomicLine k l.num 3) ?_ (wavesKept_foldl _ _ (fun m i => ?_) _)
  · split
    · exact .refl m
    · exact wavesKept_atomicLine m _ _ _
  · dsimp only
    split
    · exact .refl m
    · exact wavesKept_atomicPut m _ _ _ _

theorem wavesKept_evict (m : Dev) (k : Nat) (l : Line) : WavesKept m (m.evict k l) := by
  simp only [Dev.evict]
  split
  · exact wavesKept_mergeDie m _ _ _
  · exact (wavesKept_mergeDie m _ _ _).trans (wavesKept_homeLine _ _ _)
  · exact (wavesKept_mergeDie m _ _ _).trans (wavesKept_homeLine _ _ _)
  · exact wavesKept_mergeShadow m k l
  · exact .refl m

theorem wavesKept_resizeL1 (m : Dev) (k : Nat) : WavesKept m (m.resizeL1 k) := by
  refine wavesKept_foldl _ _ (fun m l => ?_) m
  split
  · exact (wavesKept_evict _ k _).after ⟨rfl, rfl, rfl, rfl⟩
  · exact .refl m

theorem wavesKept_endShadows_discarded (m : Dev) (k uid : Nat) (p : Nat → Bool) : WavesKept m (m.endShadows k uid false p) :=
  ⟨rfl, rfl, rfl, rfl⟩

theorem wavesKept_release (m : Dev) (k sc : Nat) : WavesKept m (m.release k sc) := by
  have pending : WavesKept m (m.releaseDie k) := by
    refine wavesKept_foldl _ _ (fun m x => ?_) m
    split
    · exact wavesKept_foldl _ _ (fun m _ => wavesKept_flushLine m _ _) m
    · exact .refl m
  simp only [Dev.release]
  split
  · exact .refl m
  · split
    · exact ⟨rfl, rfl, rfl, rfl⟩
    · split
      · exact pending
      · exact pending.trans (wavesKept_foldl _ _ (fun m _ => wavesKept_homeLine m _ _) _)

/-! ## What a kill leaves of the waves (R287, R522) -/

theorem wavesKept_putFuture (m : Dev) (ctx futva v : Nat) : WavesKept m (m.putFuture ctx futva v) := by
  simp only [Dev.putFuture]
  split
  · exact .refl m
  · split
    · exact .refl m
    · exact wavesKept_write m _ _ _

theorem wavesKept_writeFuture (m : Dev) (w : Wave) (killed : Bool) : WavesKept m (m.writeFuture w killed) := by
  simp only [Dev.writeFuture]
  split
  · exact .refl m
  · exact (wavesKept_release m _ _).trans (wavesKept_putFuture _ _ _ _)

theorem wavesKept_leaveRooms_killed (m : Dev) (w : Wave) : WavesKept m (m.leaveRooms w true) := by
  have lists (m : Dev) (g : Tun → Tun) : WavesKept m (m.tuns.foldl (fun m t => m.setTun (g t)) m) :=
    wavesKept_foldl _ (fun m t => m.setTun (g t)) (fun _ _ => ⟨rfl, rfl, rfl, rfl⟩) m
  simp only [Dev.leaveRooms]
  split
  · exact lists m _
  · refine ((lists m _).trans (wavesKept_endShadows_discarded _ _ _ _)).trans (wavesKept_foldl _ _ (fun m r => ?_) _)
    exact (wavesKept_push _ _).after ⟨rfl, rfl, rfl, rfl⟩

theorem wavesKept_setArrivals (m : Dev) (b : BarrierRef) (l : List Nat) : WavesKept m (m.setArrivals b l) := by
  cases b with
  | gang c g => simp only [Dev.setArrivals]; split <;> exact ⟨rfl, rfl, rfl, rfl⟩
  | die d t => exact ⟨rfl, rfl, rfl, rfl⟩
  | package => exact ⟨rfl, rfl, rfl, rfl⟩

theorem wavesKept_checkBarrier (m : Dev) (b : BarrierRef) : WavesKept m (m.checkBarrier b) := by
  simp only [Dev.checkBarrier]
  split
  · exact wavesKept_push m _
  · exact .refl m

theorem wavesKept_checkGrid (m : Dev) (n : Nat) : WavesKept m (m.checkGrid n) := by
  simp only [Dev.checkGrid]
  split
  · exact wavesKept_push m _
  · exact .refl m

theorem wavesKept_leaveGang (m : Dev) (w : Wave) : WavesKept m (m.leaveGang w) := by
  simp only [Dev.leaveGang]
  split
  · exact .refl m
  · split
    · exact .refl m
    · split
      · exact ((wavesKept_pushPlace _).after (wavesKept_checkBarrier _ _)).after ⟨rfl, rfl, rfl, rfl⟩
      · exact (wavesKept_checkBarrier _ _).after ⟨rfl, rfl, rfl, rfl⟩

theorem wavesKept_leaveCopies (m : Dev) (uid : Nat) : WavesKept m (m.leaveCopies uid) := by
  refine WavesKept.after (wavesKept_foldl _ _ (fun m p => ?_) _) ⟨rfl, rfl, rfl, rfl⟩
  dsimp only
  split
  · exact (wavesKept_push _ _).after ⟨rfl, rfl, rfl, rfl⟩
  · exact .refl m

theorem wavesKept_askBlocks (m : Dev) (k : Nat) : WavesKept m (m.askBlocks k) := by
  simp only [Dev.askBlocks]
  split
  · exact .refl m
  · exact wavesKept_push m _

theorem wavesKept_setCore (m : Dev) (k : Nat) (c : Core) : WavesKept m (m.setCore k c) := ⟨rfl, rfl, rfl, rfl⟩

theorem wavesKept_holds (m : Dev) (hs : List Hold) : WavesKept m { m with holds := hs } := ⟨rfl, rfl, rfl, rfl⟩

theorem wavesKept_freeSegments (m : Dev) (k : Nat) : WavesKept m (m.freeSegments k) := ⟨rfl, rfl, rfl, rfl⟩

/-- A wave gives up its place: it leaves the machine, and the other waves and the launches stay. -/
theorem freePlace_dropWave (m : Dev) (w : Wave) : WavesKept (m.dropWave w.uid) (m.freePlace w) := by
  have sized : WavesKept (m.dropWave w.uid) (if (m.dropWave w.uid).l1Sets w.coreNo = m.l1Sets w.coreNo then m.dropWave w.uid
      else (m.dropWave w.uid).resizeL1 w.coreNo) := by
    split
    · exact .refl _
    · exact wavesKept_resizeL1 _ _
  simp only [Dev.freePlace]
  refine (sized.trans (wavesKept_freeSegments _ w.coreNo)).trans ?_
  generalize Dev.freeSegments _ _ = x
  exact (wavesKept_pushPlace _).after (.trans (wavesKept_setCore x _ _) ((wavesKept_askBlocks _ _).trans (wavesKept_holds _ _)))

theorem wavesKept_monitors (m : Dev) (es : List (Loc × Nat × Instr)) : WavesKept m { m with watch := es } := ⟨rfl, rfl, rfl, rfl⟩

theorem wavesKept_setCluster (m : Dev) (c : Nat) (x : Cluster) : WavesKept m (m.setCluster c x) := ⟨rfl, rfl, rfl, rfl⟩

theorem dropWave_wavesKept {a b : Dev} (h : WavesKept a b) (uid : Nat) : WavesKept (a.dropWave uid) (b.dropWave uid) := by
  by_cases hu : a.wave.uid = uid
  · rw [Dev.dropWave, Dev.dropWave, if_pos hu, if_pos (h.wave ▸ hu)]
    exact ⟨rfl, rfl, h.waves, h.launches⟩
  · rw [Dev.dropWave, Dev.dropWave, if_neg hu, if_neg (h.wave ▸ hu)]
    exact ⟨h.wave, h.frag, congrArg (List.filter _) h.waves, h.launches⟩

/-- A kill takes the wave out of the machine and leaves the others and the launches. -/
theorem leave_killed_dropWave (m : Dev) (w : Wave) : WavesKept (m.dropWave w.uid) (m.leave w true) := by
  simp only [Dev.leave]
  refine (wavesKept_checkGrid _ _).after (.after (wavesKept_foldl _ _ wavesKept_checkBarrier _) ?_)
  refine (wavesKept_leaveCopies _ _).after ((freePlace_dropWave _ w).after (dropWave_wavesKept ?_ _))
  refine (wavesKept_leaveGang _ _).after (.after (wavesKept_foldl _ _ (fun m b => wavesKept_setArrivals m b _) _) ?_)
  refine (wavesKept_writeFuture _ _ _).after ((wavesKept_leaveRooms_killed _ _).after ?_)
  exact (wavesKept_setCluster m _ _).trans (wavesKept_monitors _ _)

theorem waveOf_loaded (m : Dev) (h : m.wave.uid ≠ 0) : m.waveOf m.wave.uid = some m.wave := by
  simp [Dev.waveOf, Dev.allWaves, h]

theorem dropWave_loaded_gone (m : Dev) (h : ∀ w ∈ m.waves, w.uid ≠ m.wave.uid) : Gone (m.dropWave m.wave.uid) m.wave.uid := by
  intro w hw
  simp only [Dev.dropWave, if_pos, Dev.allWaves, List.mem_filter, List.mem_cons] at hw
  obtain ⟨rfl | hw, hu⟩ := hw
  · simp at hu
  · exact h w hw

theorem gone_wavesKept {a b : Dev} {uid : Nat} (h : WavesKept a b) (g : Gone a uid) : Gone b uid := by
  unfold Gone Dev.allWaves at *
  rwa [h.wave, h.waves]

/-- What a killed wave has outstanding does not change its number, the other waves or the launches (R175). -/
theorem leaveTracked_spec (m : Dev) (killed : Bool) :
    (m.leaveTracked killed).wave.uid = m.wave.uid ∧ (m.leaveTracked killed).waves = m.waves ∧
      (m.leaveTracked killed).launches = m.launches := by
  simp only [Dev.leaveTracked]
  split <;> exact ⟨rfl, rfl, rfl⟩

theorem killWave_loaded (m : Dev) (h : m.wave.uid ≠ 0) :
    WavesKept (m.dropWave m.wave.uid) (m.killWave m.wave.uid) := by
  simp only [Dev.killWave, waveOf_loaded m h]
  exact leave_killed_dropWave m m.wave

theorem dropWave_launches (m : Dev) (uid : Nat) : (m.dropWave uid).launches = m.launches := by
  simp only [Dev.dropWave]
  split <;> rfl

theorem modLaunch_noSignal (m : Dev) (n : Nat) (l : Launch)
    (h : l ∈ (m.modLaunch n fun l => { l with noSignal := true }).launches) (hn : l.num = n) : l.noSignal = true := by
  obtain ⟨k, -, rfl⟩ := List.mem_map.1 h
  split at hn <;> rename_i hk
  · rw [if_pos hk]
  · exact absurd hn hk

theorem haltWave_eq (m : Dev) : m.haltWave =
    ((m.modLaunch m.wave.launch fun l => { l with noSignal := true }).leaveTracked true).killWave m.wave.uid := rfl

/-- `HALT` in SUPER mode (R522): the wave is gone, and its launch leaves without its signal. -/
theorem haltWave_spec (m : Dev) (hu : m.wave.uid ≠ 0) (hw : ∀ w ∈ m.waves, w.uid ≠ m.wave.uid) :
    Gone m.haltWave m.wave.uid ∧ ∀ l ∈ m.haltWave.launches, l.num = m.wave.launch → l.noSignal = true := by
  obtain ⟨huid, hwaves, hlaunches⟩ := leaveTracked_spec (m.modLaunch m.wave.launch fun l => { l with noSignal := true }) true
  rw [haltWave_eq]
  generalize Dev.leaveTracked _ true = x at huid hwaves hlaunches ⊢
  replace huid : x.wave.uid = m.wave.uid := huid
  have killed := killWave_loaded x (huid ▸ hu)
  rw [huid] at killed
  constructor
  · exact gone_wavesKept killed (huid ▸ dropWave_loaded_gone x (by rw [hwaves, huid]; exact hw))
  · intro l hl hn
    rw [killed.launches, dropWave_launches, hlaunches] at hl
    exact modLaunch_noSignal m _ l hl hn

/-! ## Error entries (R96, R97) -/

theorem wavesKept_msi (m : Dev) (v : Nat) : WavesKept m (m.msi v) := ⟨rfl, rfl, rfl, rfl⟩

theorem wavesKept_post (m : Dev) (ctx code lq seq deta detb : Nat) : WavesKept m (m.post ctx code lq seq deta detb) := by
  have lost : WavesKept m ((m.dropEntry ctx).mgmtEvent 5) := ⟨rfl, rfl, rfl, rfl⟩
  simp only [Dev.post]
  split
  · exact lost
  · split
    · split
      · exact lost
      · split
        · exact lost
        · refine (wavesKept_msi _ _).after ((wavesKept_write _ _ _ _).after ?_)
          exact (wavesKept_write m _ _ _).trans ⟨rfl, rfl, rfl, rfl⟩
    · exact lost

theorem wavesKept_postWave (m : Dev) (w : Wave) (code deta detb : Nat) : WavesKept m (m.postWave w code deta detb) := by
  simp only [Dev.postWave]
  split <;> exact wavesKept_post m _ _ _ _ _ _

end Sys2Proof.Proofs.SecurityPower
end

section
/-!
The trap words of chapter 25 (R512, R513, R522).
-/
namespace Sys2Proof.Proofs.SecurityPower
open Sys2Proof.Machine Sys2Proof.Laws Sys2Proof.Claims

theorem trapPosts_of_postsEntry {imm : BitVec 20} (h : postsEntry imm) : trapPosts imm.toNat = true := by
  obtain ⟨h19, hzero, hcode⟩ := h
  have hbit : imm.toNat.testBit 19 = true := h19
  simp only [trapPosts, Bool.and_eq_true, Bool.or_eq_true, decide_eq_true_eq, or_assoc]
  exact ⟨⟨hbit, hzero⟩, hcode⟩

/-- The lowest active lane heads the lanes of a mask (R7). -/
theorem lanes_head {k : Mask} {n l : Nat} (hl : l < n) (hk : Mask.has k l = true) (hmin : ∀ j, j < l → Mask.has k j = false) :
    (Mask.lanes k n).head? = some l := by
  rw [Mask.lanes, List.head?_filter, List.find?_range_eq_some]
  exact ⟨hk, List.mem_range.2 hl, fun j hj => by simpa [Mask.has] using hmin j hj⟩

theorem lowestAddr_eq {m : Dev} {l : Nat} (hl : l < 1024) (hm : Mask.has m.frag.mask l = true)
    (hmin : ∀ j, j < l → Mask.has m.frag.mask j = false) : m.lowestAddr = (m.wave.trap.lfaddr.get l).toNat := by
  unfold Dev.lowestAddr
  rw [lanes_head hl hm hmin]

/-- A trap that is delivered finds the wave in USER mode (R363). -/
theorem user_of_delivers {m : Dev} {c : Cause} (h : Delivers m c) : m.wave.super = false := by
  have := h.1
  simp only [Dev.delivered, Bool.and_eq_true, Bool.not_eq_true'] at this
  exact this.1.2

theorem execTrap_user {s : State} (imm : BitVec 20) (h : s.dev.wave.super = false) :
    exec (.trap imm) s = .next (s.withDev (s.dev.trap { cause := .software, stval := imm.toNat })) := by
  show execTrap imm s = _
  simp [execTrap, State.run, Dev.trapInstr, h]

theorem execTrap_posts {s : State} {imm : BitVec 20} (h : s.dev.wave.super = true) (hp : postsEntry imm) :
    exec (.trap imm) s = .next (s.withDev
      (s.dev.postWave s.dev.wave (imm.toNat % 256) s.dev.lowestAddr (s.dev.identity s.dev.wave)).advance) := by
  show execTrap imm s = _
  simp [execTrap, State.run, Dev.trapInstr, h, trapPosts_of_postsEntry hp]

theorem execBrk_halts {s : State} (h : s.halts s.dev.wave.ctx = true) :
    exec .brk s = .next (s.withDev (s.dev.advance.onWave fun w => { w with halted := true })) := by
  show execBrk s = _
  rw [execBrk, if_pos h]; rfl

theorem execBrk_traps {s : State} (h : s.halts s.dev.wave.ctx = false) :
    exec .brk s = .next (s.withDev (s.dev.trapC .breakpoint)) := by
  show execBrk s = _
  rw [execBrk, h]; rfl

theorem execHalt_super {s : State} (h : s.dev.wave.super = true) : exec .halt s = .next (s.withDev s.dev.haltWave) := by
  show execHalt s = _
  simp [execHalt, State.run, h]

theorem execHalt_user {s : State} (h : s.dev.wave.super = false) :
    exec .halt s = .next (s.withDev (s.dev.trapC .protection)) := by
  show execHalt s = _
  simp [execHalt, State.run, h]

theorem execRte_user {s : State} (h : s.dev.wave.super = false) :
    exec .rte s = .next (s.withDev (s.dev.trapC .protection)) := by
  show execRte s = _
  simp [execRte, State.run, h]

/-- `TRAP` in SUPER mode posts the entry and goes on (R513). -/
theorem trap_posts (s : State) (imm : BitVec 20) (hs : s.dev.wave.super = true) (hp : postsEntry imm) :
    Runs (.trap imm) s fun m' => NextWord s.dev m' ∧ m'.wave = s.dev.wave ∧
      ∃ a, m' = { s.dev.postWave s.dev.wave (imm.toNat % 256) a (s.dev.identity s.dev.wave) with frag := m'.frag } ∧
        ∀ l, l < 1024 → Mask.has s.dev.frag.mask l = true → (∀ k, k < l → Mask.has s.dev.frag.mask k = false) →
          a = (s.dev.wave.trap.lfaddr.get l).toNat := by
  have kept := wavesKept_postWave s.dev s.dev.wave (imm.toNat % 256) s.dev.lowestAddr (s.dev.identity s.dev.wave)
  exact runs_of _ (execTrap_posts hs hp) ⟨congrArg nextWord kept.frag, kept.wave, _, rfl, fun l => lowestAddr_eq⟩

/-- Settles O29, word by word: by the mode and the debug level, and for `HALT` by what a kill leaves of the waves and launches. -/
theorem trapWordsTrapPostAndHalt : Obligations.TrapWordsTrapPostAndHalt := by
  intro s imm x
  refine ⟨fun h => ?_, fun h => runs_of _ rfl (trap_scalar s.dev _ h rfl rfl), trap_posts s imm,
    fun h => ?_, fun hn h => runs_of _ (execBrk_traps hn) (trapC_scalar h), fun hs hu hw => ?_, fun h => ?_⟩
  · exact runs_of _ (execTrap_user imm (user_of_delivers h.1)) (trap_scalar s.dev _ h rfl rfl)
  · exact runs_of _ (execBrk_halts h) ⟨kept_loaded s.dev _ _, rfl, rfl⟩
  · exact runs_of _ (execHalt_super hs) (haltWave_spec s.dev hu hw)
  · have user := user_of_delivers h.1
    exact ⟨runs_of _ (execHalt_user user) (trapC_scalar h), runs_of _ (execRte_user user) (trapC_scalar h)⟩

end Sys2Proof.Proofs.SecurityPower
end

section
/-!
The package's invariant (R98, R115).
-/
namespace Sys2Proof.Proofs.SecurityPower
open Sys2Proof.Machine Sys2Proof.Laws Sys2Proof.Claims

/-- A wipe under way whose end, with its verification passed, is the next turn, on a package whose security processor's image does
not verify. -/
def wipingUnverified : State :=
  { pkg := { stat := .wiping }, sec := { secImage := { verifies := false } },
    dev := { turns := [.event (.wipeComplete 0 true)] } }

/-- The invariant asks for images that pass (R98) of a running package alone, so a wiping one with a bad image meets it. -/
theorem wipingUnverified_ok : wipingUnverified.Ok :=
  ⟨⟨by decide, by decide, by decide, by decide, by decide, by decide, fun _ => ⟨rfl, rfl⟩⟩,
    ⟨nofun, nofun, fun _ => rfl⟩, ⟨nofun, nofun, rfl⟩⟩

/-- `WIPE_COMPLETE` looks at the verification and not at the images (R115): the package runs. -/
theorem wipingUnverified_step :
    ∃ s', step wipingUnverified = .next s' ∧ s'.pkg.stat = .running ∧ s'.sec.imagesOk = false :=
  ⟨_, rfl, rfl, rfl⟩

/-- Refutes O59: the end of a wipe lets a package run whose images fail the boot ROM. The invariant speaks of the images of a package
that runs and not of one that wipes, so it does not carry over this step. `State.packageReset` leaves a package with such images in
RESET-HOLD: the counterexample meets the invariant, but no run from reset comes to it. -/
theorem not_everyStepKeepsThePackageInvariant : ¬ Obligations.EveryStepKeepsThePackageInvariant := by
  rintro ⟨keeps, -⟩
  obtain ⟨s', hstep, hrun, himages⟩ := wipingUnverified_step
  obtain ⟨-, -, ⟨hpassed, -, -⟩⟩ := keeps _ s' wipingUnverified_ok hstep
  have := (hpassed hrun).2
  rw [himages] at this
  cases this

end Sys2Proof.Proofs.SecurityPower
end
